-- ==== Sys2Proof/Word.lean ====
section
/-! DEFINITION. The word types of the machine: a 64-bit word, a 32-bit lane mask and a byte (R6, R7, R12). -/

namespace Sys2Proof

/-- A 64-bit register or doubleword (R12). -/
abbrev Word := BitVec 64

/-- A 32-bit word; also a lane mask, bit l standing for lane l (R12). -/
abbrev Mask := BitVec 32

/-- One byte of memory (R7). -/
abbrev Byte := BitVec 8

/-- A finite map from naturals to values, as plain data in one canonical form: keys strictly rising, no entry equal to
the value that an unlisted key reads as. -/
abbrev Sparse (α : Type) := List (Nat × α)

/-- Bytes by address; an unlisted address reads 0 (log entry 1). -/
abbrev Mem := Sparse Byte

end Sys2Proof
end

