-- ==== Sys2Proof/Syntax.lean ====
section
/-! DEFINITION. The instruction set as data: operands (R62-R66), modifiers (R67, R68) and one constructor of `Instr` per row
of the table of operations and events: the instruction words, the matrix engine's command words (R229) and the events of the
hardware and of the outside. -/

namespace Sys2Proof

/-- Integer width W of R68. -/
inductive Width | d | w | h | b
deriving DecidableEq, Repr

/-- Floating-point type T of R68. -/
inductive FpT | f64 | f32 | f16 | bf16
deriving DecidableEq, Repr

/-- Guard of R62: `pred` with `neg = false` and `pred = 7` is the unguarded form. -/
structure Guard where
  neg : Bool
  pred : BitVec 3
deriving DecidableEq, Repr

/-- Destination of R63. An instruction that writes no destination carries `.x 0` (DCLASS = 0, DIDX = 0). -/
inductive Dst
  | x (n : BitVec 6)
  | p (n : BitVec 3)
  | s (n : BitVec 5)
  | j (n : BitVec 3)
  | q (n : BitVec 4)
deriving DecidableEq, Repr

/-- Source operand of R64. An unused source field is 0x000, which is `.x 0`. The literal 0x80 is the extension reference and
is no `lit`. -/
inductive Src
  | x (n : BitVec 6)
  | q (n : BitVec 4)
  | p (n : BitVec 3)
  | s (n : BitVec 5)
  | c (n : BitVec 8)
  | lit (v : BitVec 8)
  | ext (w : Word)
deriving DecidableEq, Repr

/-- The operand fields every base word has (R59). -/
structure Operands where
  g : Guard
  d : Dst
  a : Src
  b : Src
  c : Src
deriving DecidableEq, Repr

/-- Visibility scopes, narrowest first (R5, R67). -/
inductive Scope | core | clu | die | pkg | sys
deriving DecidableEq, Repr

/-- Order codes of R67. -/
inductive Order | none | acq | rel | ar
deriving DecidableEq, Repr

/-- Memory spaces of R13. -/
inductive Space | glb | pvt | loc | clu | chip | acc | con
deriving DecidableEq, Repr

/-- Access sizes of R14. -/
inductive MSize | b | h | w | d | x
deriving DecidableEq, Repr

/-- Spaces an atomic may name, SP of R69. -/
inductive AtomSpace | glb | loc | clu | chip
deriving DecidableEq, Repr

/-- Integer modifier of R68. -/
structure IntMod where
  w : Width
  sgn : Bool
  sat : Bool
  cond : BitVec 4
deriving DecidableEq, Repr

/-- Floating-point modifier of R68; `rm` holds COND for `fcmp`. -/
structure FpMod where
  t : FpT
  ftz : Bool
  rm : BitVec 3
  sig : Bool
deriving DecidableEq, Repr

/-- Modifier of `fcvt` (R68). -/
structure CvtMod where
  td : FpT
  ts : FpT
  ftz : Bool
  rm : BitVec 3
deriving DecidableEq, Repr

/-- Modifier of `fcvti` and `icvtf` (R68). -/
structure CviMod where
  t : FpT
  iw : Width
  ftz : Bool
  rm : BitVec 3
deriving DecidableEq, Repr

/-- Modifier of the packed instructions (R68): `bf` chooses BF16, otherwise FP16. -/
structure PackMod where
  bf : Bool
  ftz : Bool
  rm : BitVec 3
deriving DecidableEq, Repr

/-- Modifier of the dot and block-scaled instructions (R68); `nf` is an operand format code of R50. -/
structure NarrowMod where
  nf : BitVec 4
  ftz : Bool
  rm : BitVec 3
deriving DecidableEq, Repr

/-- Memory modifier of R68. -/
structure MemMod where
  space : Space
  size : MSize
  sx : Bool
  ev : Bool
deriving DecidableEq, Repr

/-- Atomic modifier of R68 with the space of the function field (R69). -/
structure AtomMod where
  sp : AtomSpace
  scope : Scope
  ord : Order
  size : MSize
deriving DecidableEq, Repr

/-- Modifier of `vamo.row` (R200): the size is always `.x`. -/
structure RowMod where
  scope : Scope
  ord : Order
deriving DecidableEq, Repr

/-- Asynchronous modifier of R68. -/
structure AsyncMod where
  scope : Scope
  acq : Bool
  rel : Bool
  aux : BitVec 3
deriving DecidableEq, Repr

/-- One constructor per row of the table. Words first (R69), then the matrix engine's commands (R229), then the events. -/
inductive Instr
  -- integer (R91)
  | add (o : Operands) (m : IntMod) | sub (o : Operands) (m : IntMod) | min (o : Operands) (m : IntMod)
  | max (o : Operands) (m : IntMod) | abs (o : Operands) (m : IntMod) | and (o : Operands) (m : IntMod)
  | or (o : Operands) (m : IntMod) | xor (o : Operands) (m : IntMod) | andn (o : Operands) (m : IntMod)
  | shl (o : Operands) (m : IntMod) | shr (o : Operands) (m : IntMod) | sra (o : Operands) (m : IntMod)
  | rot (o : Operands) (m : IntMod) | mul (o : Operands) (m : IntMod) | mulh (o : Operands) (m : IntMod)
  | mad (o : Operands) (m : IntMod) | div (o : Operands) (m : IntMod) | rem (o : Operands) (m : IntMod)
  | clz (o : Operands) (m : IntMod) | ctz (o : Operands) (m : IntMod) | popc (o : Operands) (m : IntMod)
  | brev (o : Operands) (m : IntMod) | bfx (o : Operands) (m : IntMod) | bfi (o : Operands) (m : IntMod)
  | cmp (o : Operands) (m : IntMod) | sel (o : Operands) (m : IntMod) | mov (o : Operands) (m : IntMod)
  | ext (o : Operands) (m : IntMod) | lea (o : Operands) (m : IntMod)
  -- floating point (R97-R103)
  | fadd (o : Operands) (m : FpMod) | fsub (o : Operands) (m : FpMod) | fmul (o : Operands) (m : FpMod)
  | fmin (o : Operands) (m : FpMod) | fmax (o : Operands) (m : FpMod) | ffma (o : Operands) (m : FpMod)
  | fdiv (o : Operands) (m : FpMod) | fsqrt (o : Operands) (m : FpMod) | fneg (o : Operands) (m : FpMod)
  | fclass (o : Operands) (m : FpMod) | fcmp (o : Operands) (m : FpMod) | frcp (o : Operands) (m : FpMod)
  | frsq (o : Operands) (m : FpMod) | fex2 (o : Operands) (m : FpMod) | flg2 (o : Operands) (m : FpMod)
  | fround (o : Operands) (m : FpMod)
  -- conversions, packed, dot, block scaled (R104-R108)
  | fcvt (o : Operands) (m : CvtMod) | fcvti (o : Operands) (m : CviMod) | fcvtiU (o : Operands) (m : CviMod)
  | icvtf (o : Operands) (m : CviMod) | icvtfU (o : Operands) (m : CviMod)
  | hadd2 (o : Operands) (m : PackMod) | hmul2 (o : Operands) (m : PackMod) | hfma2 (o : Operands) (m : PackMod)
  | dot2 (o : Operands) (m : NarrowMod) | dot4 (o : Operands) (m : NarrowMod)
  | qcvt (o : Operands) (m : NarrowMod) | qcvtBf16 (o : Operands) (m : NarrowMod)
  | dqcvt (o : Operands) (m : NarrowMod) | dqcvtBf16 (o : Operands) (m : NarrowMod)
  | bscale (o : Operands) (m : NarrowMod) | bscaleBf16 (o : Operands) (m : NarrowMod)
  -- predicates, votes, join masks, cross-lane (R109-R114)
  | plog (o : Operands) (lut : BitVec 8)
  | voteAny (o : Operands) | voteAll (o : Operands) | voteUni (o : Operands) | voteBallot (o : Operands)
  | jmaskMov (o : Operands) | jmaskAnd (o : Operands) | jmaskOr (o : Operands) | jmaskAndn (o : Operands)
  | shflIdx (o : Operands) (seg : BitVec 3) | shflUp (o : Operands) (seg : BitVec 3)
  | shflDown (o : Operands) (seg : BitVec 3) | shflXor (o : Operands) (seg : BitVec 3)
  | bcast (o : Operands)
  | reduxAdd (o : Operands) (m : IntMod) | reduxMin (o : Operands) (m : IntMod) | reduxMax (o : Operands) (m : IntMod)
  | reduxAnd (o : Operands) (m : IntMod) | reduxOr (o : Operands) (m : IntMod) | reduxXor (o : Operands) (m : IntMod)
  | reduxFadd (o : Operands) (m : FpMod) | reduxFmin (o : Operands) (m : FpMod) | reduxFmax (o : Operands) (m : FpMod)
  -- control (R118-R145)
  | br (o : Operands) | jal (o : Operands) | jalr (o : Operands)
  | meet (o : Operands) | join (o : Operands) (k : BitVec 3) | waitj (o : Operands) (k : BitVec 3)
  | exit (o : Operands) | yield (o : Operands) | nop (o : Operands) | safept (o : Operands)
  | trap (o : Operands) (code : BitVec 8) | syscall (o : Operands) | eret (o : Operands)
  | migrateS (o : Operands) | migrateL (o : Operands)
  | crr (o : Operands) (crn : BitVec 8) | crw (o : Operands) (crn : BitVec 8)
  | crs (o : Operands) (crn : BitVec 8) | crc (o : Operands) (crn : BitVec 8)
  -- memory (R186-R207)
  | ld (o : Operands) (m : MemMod) | st (o : Operands) (m : MemMod)
  | ldf (o : Operands) (m : MemMod) | ldfe (o : Operands) (m : MemMod) | stef (o : Operands) (m : MemMod)
  | stf (o : Operands) (m : MemMod) | setfe (o : Operands) (m : MemMod)
  | st128 (o : Operands)
  | prefetch (o : Operands) (m : MemMod) | cflush (o : Operands) (m : MemMod)
  | phase (o : Operands) (sc : Scope)
  -- atomics (R195-R202)
  | amoAdd (o : Operands) (m : AtomMod) | amoOr (o : Operands) (m : AtomMod) | amoAnd (o : Operands) (m : AtomMod)
  | amoXor (o : Operands) (m : AtomMod) | amoSmin (o : Operands) (m : AtomMod) | amoSmax (o : Operands) (m : AtomMod)
  | amoUmin (o : Operands) (m : AtomMod) | amoUmax (o : Operands) (m : AtomMod) | amoXchg (o : Operands) (m : AtomMod)
  | amoFadd (o : Operands) (m : AtomMod)
  | amoFAdd (o : Operands) (m : AtomMod) | amoFOr (o : Operands) (m : AtomMod) | amoFAnd (o : Operands) (m : AtomMod)
  | amoFXor (o : Operands) (m : AtomMod) | amoFSmin (o : Operands) (m : AtomMod) | amoFSmax (o : Operands) (m : AtomMod)
  | amoFUmin (o : Operands) (m : AtomMod) | amoFUmax (o : Operands) (m : AtomMod) | amoFXchg (o : Operands) (m : AtomMod)
  | amoFFadd (o : Operands) (m : AtomMod)
  | cas (o : Operands) (m : AtomMod)
  | vamoRow (o : Operands) (m : RowMod)
  -- asynchronous copies, async barriers, rings, queues, barriers (R183-R222)
  | cpy (o : Operands) (m : AsyncMod) | tld (o : Operands) (m : AsyncMod) | tst (o : Operands) (m : AsyncMod)
  | abarInit (o : Operands) (m : AsyncMod) | abarArrive (o : Operands) (m : AsyncMod) | abarWait (o : Operands) (m : AsyncMod)
  | ringRsv (o : Operands) (m : AsyncMod) | ringPub (o : Operands) (m : AsyncMod)
  | ringGet (o : Operands) (m : AsyncMod) | ringPut (o : Operands) (m : AsyncMod)
  | qbind (o : Operands) | qstat (o : Operands)
  | barSync (o : Operands) (bn : BitVec 4) | barArrive (o : Operands) (bn : BitVec 4)
  | barSyncClu (o : Operands) (bn : BitVec 4) | barArriveClu (o : Operands) (bn : BitVec 4)
  -- matrix engine, stage router, views, launch, system (R224-R373)
  | mxgo (o : Operands) | mxstat (o : Operands) | mxstop (o : Operands)
  | stgDecl (o : Operands) | stgAdmit (o : Operands) | stgAdmitKeep (o : Operands) | stgAdmitClose (o : Operands)
  | stgNext (o : Operands) | stgDone (o : Operands) | stgTail (o : Operands) | stgStat (o : Operands)
  | viewReg (o : Operands) | viewDrop (o : Operands) | viewSync (o : Operands) (sc : Scope)
  | viewTag (o : Operands) | viewPol (o : Operands)
  | launch (o : Operands) | spawn (o : Operands) | jwait (o : Operands)
  | setseg (o : Operands) | tgen (o : Operands) | ifence (o : Operands) | wfi (o : Operands) | inspect (o : Operands)
  -- words that are no instruction (R70-R74)
  | udf (w : Word) | emulationMajor (w : Word) (len : Nat) | illegalInstruction (w : Word) (reason : Nat)
  -- matrix-engine commands (R229)
  | mxZero (t : BitVec 2) | mxFmt (fw : BitVec 32)
  | mxMma (t mc nc : BitVec 2) (ku : BitVec 8) (ra rb rs : BitVec 3)
  | mxWaitGet (ring : BitVec 3) (sc : Scope) (acq : Bool) | mxWaitFree (ring : BitVec 3)
  | mxRel (ring : BitVec 3) (sc : Scope) (rel : Bool) | mxSigRing (ring : BitVec 3) (sc : Scope) (rel : Bool)
  | mxSigAbar (obj : BitVec 20) (wt : BitVec 16) (sc : Scope) (rel : Bool)
  | mxIf (disp : BitVec 16) (woff : BitVec 20) | mxWhile (dec : Bool) (disp : BitVec 16) (woff : BitVec 20)
  | mxEnd (disp : BitVec 16) | mxJump (disp : BitVec 16) | mxHalt (sc : Scope) (rel : Bool)
  -- scheduler and core events
  | continuationFire (die idx : Nat) | swapOut (core slot : Nat) | teamPlacement (die : Nat)
  | teamPreempt (core team : Nat) | preemptTrigger (die : Nat) | recordAging (die : Nat)
  | pendingLaunchMove (core team : Nat) | deadlockExamination (die : Nat) | lendRecompute (die : Nat)
  | safePointOverdue (core slot : Nat) | channelExtend (core chan : Nat) | heldSlotSplit (core slot : Nat)
  | freewheelRestart (core : Nat) | interrupt (core strand : Nat) | wfiWake (core strand : Nat) | sample (core : Nat)
  | asyncCopyComplete (core idx : Nat) | viewRefresh (die : Nat)
  | faultCompletion (die : Nat) (tag disp : Word) | faultBufferDrain (die : Nat)
  | syscallReplyPost (die slot : Nat) (result error : Word) | syscallReissue (die slot : Nat)
  | callRingRoom (die : Nat) (ridx : Word) | arrivalRingRoom (die : Nat) (ridx : Word)
  | packerArrival (die : Nat) | packingWindowClose (die win : Nat)
  | recall (sid : Word) | preempt (die : Nat) (team : Word)
  -- configuration and translation events
  | asidret (die : Nat) (asid : BitVec 16) | asidFlushDone (die : Nat) | trctlModeWrite (die : Nat) (mode : Bool)
  | cfgCspadWrite (die : Nat) (v : Word) | pkgidWrite (die : Nat) (v : Word) | configWordWrite (die off : Nat) (v : Word)
  | messageSend (src dst : Nat) (bytes : BitVec 1024) | submission (die : Nat) (asid off : Nat) (bytes : BitVec 1024)
  -- memory-system events
  | lineFill (core line : Nat) | writeAtHome (die home : Nat) | ownershipRequest (core line : Nat) (excl : Bool)
  | invalidationNotice (core line : Nat) | refusalRetranslate (core : Nat) (asid va : Word)
  | deferralRetry (core slot : Nat) | scrubLine (die stack : Nat) | clusterDrain (core : Nat) | dieLoss (die : Nat)
  | cxlMemRead (die pa n : Nat) | cxlMemWrite (die pa n : Nat) (v : BitVec 1024)
  -- fabric events
  | lockLoss (die : Nat)
  | leaseFill (die pkg line : Nat) (data : BitVec 1024) (expiry bound : Nat) | returnRequest (die pkg line : Nat)
  | leaseExpiry (die line : Nat)
  | leaseValidityEnd (die idx : Nat) | inboundWrite (die pkg pa n : Nat) (v : BitVec 1024)
  | ptpSync (die : Nat) (time bound : Nat) | flitReplay (die port : Nat) | portDown (die port : Nat)
  -- package events
  | reset | powerStateChange (die ps mhz : Nat) | managementRequest (die cmd : Nat)
  | getVersion (die : Nat) | getCapabilities (die : Nat) | negotiateAlgorithms (die : Nat) (asym hash : Nat)
  | getDigests (die : Nat) | getCertificate (die slot : Nat) | challenge (die : Nat) (nonce : BitVec 256)
  | getMeasurements (die block : Nat)
  | hardwarePrefetcher (core slot : Nat) (va : Word) | portTrained (die port peer : Nat) | validLeaseDrop (die idx : Nat)
  | leaseReturned (die pkg line : Nat)
deriving DecidableEq, Repr

end Sys2Proof
end

