-- ==== Sys2Proof/WellFormed.lean ====
section
/-! DEFINITION. Which terms of `Instr` stand for instruction words: the guard, destination and source rules of every
instruction (R62-R66, R82, R423 and the instruction's own rule) and its legal modifiers (R67, R68). -/

namespace Sys2Proof

/-- How a value operand widens (R65): an integer of width W, a floating-point scalar, a packed pair, packed elements. -/
inductive OpTy
  | int (width : Width)
  | fp (t : FpT)
  | pack (bf : Bool)
  | elem8
  | elem4
deriving DecidableEq, Repr

/-- R65: a 64-bit operand, which may name only an even constant-bank word. -/
def OpTy.wide : OpTy → Bool
  | .int .d => true
  | .fp .f64 => true
  | _ => false

/-- The roles of R66. `regs n even` is a register list of n registers, `meeting` the A operand of `meet` (R119), `reg` that of
`mxgo` (R224). -/
inductive Role
  | unused
  | val (t : OpTy)
  | pred
  | base
  | regs (n : Nat) (even : Bool)
  | disp
  | mask
  | meeting
  | reg
deriving DecidableEq, Repr

/-- The destination rules: `value` is R82's x, s or q; `regs n` a register list of n registers. -/
inductive DstRule
  | none
  | value
  | pred
  | jmask
  | xs
  | x
  | q
  | regs (n : Nat)
  | xEven
deriving DecidableEq, Repr

/-- What R70 checks of the operand fields of one instruction. -/
structure Form where
  unguarded : Bool
  d : DstRule
  a : Role
  b : Role
  c : Role
deriving DecidableEq, Repr

/-- R62. -/
def Guard.ok (g : Guard) (unguarded : Bool) : Bool :=
  if unguarded then g == ⟨false, 7⟩ else !(g.neg && g.pred == 7)

/-- R63 and the classes a form allows. -/
def DstRule.ok : DstRule → Dst → Bool
  | .none, d => d == .x 0
  | .value, .x _ => true
  | .value, .s _ => true
  | .value, .q _ => true
  | .pred, .p _ => true
  | .jmask, .j _ => true
  | .xs, .x _ => true
  | .xs, .s _ => true
  | .x, .x _ => true
  | .q, .q _ => true
  | .regs n, .x i => i.toNat + n ≤ 64
  | .xEven, .x i => i.toNat % 2 == 0
  | _, _ => false

/-- R64: 0x80 of kind 3 is the extension reference and no literal. -/
def Src.litOk : Src → Bool
  | .lit v => v != 0x80
  | _ => true

/-- R64, R66. -/
def Role.ok : Role → Src → Bool
  | .unused, s => s == .x 0
  | .val t, .c n => !(t.wide && n.toNat % 2 == 1)
  | .val _, s => s.litOk
  | .pred, .p _ => true
  | .base, .x _ => true
  | .base, .s _ => true
  | .regs n even, .x i => decide (i.toNat + n ≤ 64) && !(even && i.toNat % 2 == 1)
  | .disp, .lit v => v != 0x80
  | .disp, .ext _ => true
  | .mask, .ext _ => true
  | .meeting, .x _ => true
  | .meeting, .s _ => true
  | .meeting, .lit v => v != 0x80
  | .meeting, .ext _ => true
  | .reg, .x _ => true
  | _, _ => false

/-- The queue register a source names. -/
def Src.queue : Src → Option (BitVec 4)
  | .q n => some n
  | _ => none

/-- Whether a source is an extension reference. -/
def Src.isExt : Src → Bool
  | .ext _ => true
  | _ => false

/-- R64: two sources name one queue register. -/
def Src.sameQueue (a b : Src) : Bool := a.queue.isSome && a.queue == b.queue

/-- Check 7 of R70. -/
def Form.srcOk (f : Form) (o : Operands) : Bool :=
  f.a.ok o.a && f.b.ok o.b && f.c.ok o.c &&
  !(o.a.sameQueue o.b || o.a.sameQueue o.c || o.b.sameQueue o.c)

/-- The number of extension references. -/
def Operands.exts (o : Operands) : Nat := o.a.isExt.toNat + o.b.isExt.toNat + o.c.isExt.toNat

/-- All operand checks of a form. -/
def Form.ok (f : Form) (o : Operands) : Bool :=
  o.g.ok f.unguarded && f.d.ok o.d && f.srcOk o && decide (o.exts ≤ 1)

/-- A 64-bit value operand (R423). -/
def Role.v64 : Role := .val (.int .d)
/-- A 32-bit value operand (R423). -/
def Role.v32 : Role := .val (.int .w)

/-- Integer operands of width W (R89). -/
def Form.int (d : DstRule) (m : IntMod) (n : Nat) : Form :=
  let v := Role.val (.int m.w)
  ⟨false, d, v, if 2 ≤ n then v else .unused, if 3 ≤ n then v else .unused⟩

/-- Floating-point operands of type T (R96). -/
def Form.fp (d : DstRule) (t : FpT) (n : Nat) : Form :=
  let v := Role.val (.fp t)
  ⟨false, d, v, if 2 ≤ n then v else .unused, if 3 ≤ n then v else .unused⟩

/-- Packed operands (R105). -/
def Form.pack (m : PackMod) (n : Nat) : Form :=
  let v := Role.val (.pack m.bf)
  ⟨false, .value, v, v, if 3 ≤ n then v else .unused⟩

/-- Destination and sources with any guard. -/
def Form.mk' (d : DstRule) (a b c : Role) : Form := ⟨false, d, a, b, c⟩

/-- A form without operands. -/
def Form.bare (unguarded : Bool) : Form := ⟨unguarded, .none, .unused, .unused, .unused⟩

/-- The width of a narrow element list in one register (R107). -/
def NarrowMod.elemTy (m : NarrowMod) : OpTy := if m.nf == 6 || m.nf == 9 then .elem4 else .elem8

/-- The operand form of an instruction (R82, R91, R97, R104-R114, R118-R147, R186-R222, R224-R242, R267, R327, R363);
`none` for a term that is no word of R69. -/
def Instr.form : Instr → Option Form
  | .add _ m | .sub _ m | .min _ m | .max _ m | .and _ m | .or _ m | .xor _ m | .andn _ m | .shl _ m | .shr _ m | .sra _ m
  | .rot _ m | .mul _ m | .mulh _ m | .div _ m | .rem _ m => some (.int .value m 2)
  | .abs _ m | .clz _ m | .ctz _ m | .popc _ m | .brev _ m | .mov _ m => some (.int .value m 1)
  | .mad _ m | .lea _ m => some (.int .value m 3)
  | .ext _ m => some (.int .value m 2)
  | .bfx _ m => some (.mk' .value (.val (.int m.w)) .v64 .unused)
  | .bfi _ m => some (.mk' .value (.val (.int m.w)) (.val (.int m.w)) .v64)
  | .cmp _ m => some (.int .pred m 2)
  | .sel _ m => some (.mk' .value (.val (.int m.w)) (.val (.int m.w)) .pred)
  | .fadd _ m | .fsub _ m | .fmul _ m | .fmin _ m | .fmax _ m | .fdiv _ m => some (.fp .value m.t 2)
  | .ffma _ m => some (.fp .value m.t 3)
  | .fsqrt _ m | .fneg _ m | .fclass _ m | .frcp _ m | .frsq _ m | .fex2 _ m | .flg2 _ m | .fround _ m =>
    some (.fp .value m.t 1)
  | .fcmp _ m => some (.fp .pred m.t 2)
  | .fcvt _ m => some (.fp .value m.ts 1)
  | .fcvti _ m | .fcvtiU _ m => some (.fp .value m.t 1)
  | .icvtf _ m | .icvtfU _ m => some (.mk' .value (.val (.int m.iw)) .unused .unused)
  | .hadd2 _ m | .hmul2 _ m => some (.pack m 2)
  | .hfma2 _ m => some (.pack m 3)
  | .dot2 _ m => some (.mk' .value (.val (.pack (m.nf == 3))) (.val (.pack (m.nf == 3))) (.val (.fp .f32)))
  | .dot4 _ m => some (.mk' .value (.val .elem8) (.val .elem8) (.val (if m.nf == 8 then .int .w else .fp .f32)))
  | .qcvt _ _ => some (.mk' .value (.regs 4 false) .v64 .unused)
  | .qcvtBf16 _ _ => some (.mk' .value (.regs 2 false) .v64 .unused)
  | .dqcvt _ m => some (.mk' (.regs 4) (.val m.elemTy) .v64 .unused)
  | .dqcvtBf16 _ m => some (.mk' (.regs 2) (.val m.elemTy) .v64 .unused)
  | .bscale _ _ => some (.mk' .value (.regs 16 false) .unused .unused)
  | .bscaleBf16 _ _ => some (.mk' .value (.regs 8 false) .unused .unused)
  | .plog _ _ => some (.mk' .pred .pred .pred .pred)
  | .voteAny _ | .voteAll _ => some (.mk' .pred .pred .unused .unused)
  | .voteUni _ => some (.mk' .pred .v64 .unused .unused)
  | .voteBallot _ => some (.mk' .value .pred .unused .unused)
  | .jmaskMov _ | .jmaskAnd _ | .jmaskOr _ | .jmaskAndn _ => some (.mk' .jmask .v32 .unused .unused)
  | .shflIdx _ _ | .shflUp _ _ | .shflDown _ _ | .shflXor _ _ => some (.mk' .value .v64 .v64 .unused)
  | .bcast _ => some (.mk' .value .v64 .unused .unused)
  | .reduxAdd _ m | .reduxMin _ m | .reduxMax _ m | .reduxAnd _ m | .reduxOr _ m | .reduxXor _ m => some (.int .value m 1)
  | .reduxFadd _ m | .reduxFmin _ m | .reduxFmax _ m => some (.fp .value m.t 1)
  | .br _ => some (.mk' .none .disp .unused .unused)
  | .jal _ => some (.mk' .x .disp .unused .unused)
  | .jalr _ => some (.mk' .x .base .v64 .unused)
  | .meet _ => some (.mk' .x .meeting .unused .unused)
  | .join _ _ | .waitj _ _ | .eret _ => some (.bare true)
  | .exit _ | .yield _ | .nop _ | .trap _ _ | .syscall _ | .ifence _ | .wfi _ | .phase _ _ | .mxstop _ => some (.bare false)
  | .safept _ => some ⟨true, .none, .mask, .unused, .unused⟩
  | .migrateS _ | .migrateL _ => some (.mk' .none .v64 .unused .unused)
  | .crr _ _ => some (.mk' .xs .unused .unused .unused)
  | .crw _ _ | .crs _ _ | .crc _ _ => some (.mk' .xs .v64 .unused .unused)
  | .ld _ m => some (.mk' (if m.size = .x then .xEven else .value) .base .v64 .unused)
  | .st _ m => some (.mk' .none .base .v64 (if m.size = .x then .regs 2 true else .v64))
  | .ldf _ _ | .ldfe _ _ => some (.mk' .xs .base .v64 .unused)
  | .stef _ _ | .stf _ _ | .setfe _ _ => some (.mk' .none .base .v64 .v64)
  | .st128 _ => some (.mk' .pred .base .v64 (.regs 16 false))
  | .prefetch _ _ | .cflush _ _ => some (.mk' .none .base .v64 .unused)
  | .amoAdd _ _ | .amoOr _ _ | .amoAnd _ _ | .amoXor _ _ | .amoSmin _ _ | .amoSmax _ _ | .amoUmin _ _ | .amoUmax _ _
  | .amoXchg _ _ | .amoFadd _ _ => some (.mk' .none .base .v64 .v64)
  | .amoFAdd _ _ | .amoFOr _ _ | .amoFAnd _ _ | .amoFXor _ _ | .amoFSmin _ _ | .amoFSmax _ _ | .amoFUmin _ _
  | .amoFUmax _ _ | .amoFXchg _ _ | .amoFFadd _ _ | .cas _ _ => some (.mk' .xs .base .v64 .v64)
  | .vamoRow _ _ => some (.mk' .none .base .v64 (.regs 2 true))
  | .cpy _ _ => some (.mk' .none .v64 .v64 .v64)
  | .tld _ m | .tst _ m => some (.mk' .none .base (.regs m.aux.toNat false) .v64)
  | .abarInit _ _ | .abarArrive _ _ | .abarWait _ _ | .ringPub _ _ | .ringPut _ _ => some (.mk' .none .base .v64 .unused)
  | .ringRsv _ _ | .ringGet _ _ => some (.mk' .xs .base .unused .unused)
  | .qbind _ => some (.mk' .q .v64 .unused .unused)
  | .qstat _ => some (.mk' .xs .v32 .unused .unused)
  | .barSync _ _ | .barArrive _ _ | .barSyncClu _ _ | .barArriveClu _ _ => some (.mk' .none .v32 .v32 .unused)
  | .mxgo _ => some (.mk' .none .reg .v64 .disp)
  | .mxstat _ => some (.mk' .xs .v32 .unused .unused)
  | .stgDecl _ => some (.mk' .xs .base .unused .unused)
  | .stgAdmit _ | .stgAdmitKeep _ | .stgNext _ => some (.mk' .xs .v64 .v64 .unused)
  | .stgAdmitClose _ | .stgTail _ => some (.mk' .none .v64 .unused .unused)
  | .stgDone _ => some (.mk' .none .v64 .v32 .unused)
  | .stgStat _ => some (.mk' .xs .v64 .v32 .unused)
  | .viewReg _ => some (.mk' .xs .base .v64 .unused)
  | .viewDrop _ => some (.mk' .none .v64 .unused .unused)
  | .viewSync _ _ => some (.mk' .xs .v64 .unused .unused)
  | .viewTag _ => some (.mk' .xs .v64 .v64 .unused)
  | .viewPol _ => some (.mk' .none .v64 .v32 .unused)
  | .launch _ => some (.mk' .xs .base .v64 .unused)
  | .spawn _ => some (.mk' .xs .base .unused .unused)
  | .jwait _ => some (.mk' .none .base .v64 .unused)
  | .setseg _ => some (.mk' .none .v64 .v64 .v64)
  | .tgen _ => some (.mk' .x .v64 .unused .unused)
  | .inspect _ => some (.mk' .xs .v64 .v64 .unused)
  | _ => none

/-- R39: codes 5 and 6 are reserved. -/
def rmOk (rm : BitVec 3) : Bool := rm != 5 && rm != 6

/-- R68, R89: the modifier of an integer instruction; `sat` where R91 marks SAT, `sgn` 0 forbidden, 1 required, 2 any. -/
def IntMod.ok (m : IntMod) (sat : Bool) (sgn : Nat) : Bool :=
  (sat || !m.sat) && m.cond == 0 && (sgn == 2 || m.sgn == (sgn == 1))

/-- R67: an order field 0 needs scope 0. -/
def AtomMod.ok (m : AtomMod) : Bool := m.ord != .none || m.scope == .core

/-- R196. -/
def AtomMod.okInt (m : AtomMod) : Bool := m.ok && (m.size == .w || m.size == .d)

/-- R196. -/
def AtomMod.okFadd (m : AtomMod) : Bool := m.ok && (m.size == .h || m.size == .w || m.size == .d)

/-- R68: which of ACQ and REL the form has, and whether AUX counts coordinates. -/
def AsyncMod.ok (m : AsyncMod) (acq rel coords : Bool) : Bool :=
  (m.acq || m.rel || m.scope == .core) && (acq || !m.acq) && (rel || !m.rel) && (coords == (m.aux != 0))

/-- R191. -/
def MemMod.okFe (m : MemMod) (sx : Bool) : Bool :=
  (m.space == .loc && m.size == .w || m.space == .clu && m.size == .w || m.space == .glb && m.size == .d) &&
  !m.ev && (!m.sx || (sx && m.size == .w))

/-- R107. -/
def NarrowMod.okElem (m : NarrowMod) : Bool := decide (4 ≤ m.nf.toNat) && decide (m.nf.toNat ≤ 9)

/-- R129: the assigned control registers. -/
def crnOk (n : BitVec 8) : Bool :=
  let k := n.toNat
  decide (k ≤ 8) || (decide (0x10 ≤ k) && decide (k ≤ 0x19)) || (decide (0x20 ≤ k) && decide (k ≤ 0x27)) ||
  k == 0x30 || k == 0x31 || (decide (0x40 ≤ k) && decide (k ≤ 0x44))

/-- R229: a mx.mma block size code. -/
def mxSizeOk (c : BitVec 2) : Bool := c != 3

/-- R228: SCOPE is 000 unless the order bit is 1. -/
def mxScopeOk (sc : Scope) (flag : Bool) : Bool := flag || sc == .core

/-- R68 and the owning rules: the modifier holds no reserved value and no unused field. -/
def Instr.modOk : Instr → Bool
  | .add _ m | .sub _ m | .mul _ m | .mad _ m | .div _ m => m.ok true 2
  | .abs _ m => m.ok true 1
  | .min _ m | .max _ m | .and _ m | .or _ m | .xor _ m | .andn _ m | .mulh _ m | .rem _ m | .brev _ m | .bfx _ m | .bfi _ m
  | .sel _ m | .mov _ m | .reduxAdd _ m | .reduxMin _ m | .reduxMax _ m | .reduxAnd _ m | .reduxOr _ m | .reduxXor _ m =>
    m.ok false 2
  | .shl _ m | .shr _ m | .sra _ m | .rot _ m | .clz _ m | .ctz _ m | .popc _ m => m.ok false 0
  | .ext _ m | .lea _ m => m.ok false 2 && m.w == .d
  | .cmp _ m => !m.sat && decide (m.cond.toNat ≤ 5)
  | .fadd _ m | .fsub _ m | .fmul _ m | .ffma _ m | .fdiv _ m | .fsqrt _ m | .fround _ m | .reduxFadd _ m =>
    rmOk m.rm && !m.sig
  | .fmin _ m | .fmax _ m | .fneg _ m | .fclass _ m | .frcp _ m | .frsq _ m | .fex2 _ m | .flg2 _ m | .reduxFmin _ m
  | .reduxFmax _ m => m.rm == 0 && !m.sig
  | .fcmp _ _ => true
  | .fcvt _ m => rmOk m.rm && m.td != m.ts
  | .fcvti _ m | .fcvtiU _ m => rmOk m.rm
  | .icvtf _ m | .icvtfU _ m => rmOk m.rm && !m.ftz
  | .hadd2 _ m | .hmul2 _ m | .hfma2 _ m => rmOk m.rm
  | .dot2 _ m => rmOk m.rm && (m.nf == 2 || m.nf == 3)
  | .dot4 _ m => rmOk m.rm && (m.nf == 4 || m.nf == 5 || m.nf == 7 || (m.nf == 8 && !m.ftz && m.rm == 0))
  | .qcvt _ m | .qcvtBf16 _ m => rmOk m.rm && m.okElem && (m.nf != 7 || m.rm == 0)
  | .dqcvt _ m | .dqcvtBf16 _ m => rmOk m.rm && m.okElem
  | .bscale _ m | .bscaleBf16 _ m => m.rm == 0 && m.okElem
  | .shflIdx _ s | .shflUp _ s | .shflDown _ s | .shflXor _ s => decide (1 ≤ s.toNat) && decide (s.toNat ≤ 5)
  | .crr _ n | .crw _ n | .crs _ n | .crc _ n => crnOk n
  | .ld _ m => !(m.sx && (m.size == .d || m.size == .x)) && !(m.space == .con && (m.size == .b || m.size == .h))
  | .st _ m => m.space != .acc && m.space != .con && !m.sx
  | .ldf _ m | .ldfe _ m => m.okFe true
  | .stef _ m | .stf _ m | .setfe _ m => m.okFe false
  | .prefetch _ m => (m.space == .glb || m.space == .chip) && m.size == .b && !m.sx
  | .cflush _ m => m == ⟨.glb, .b, false, false⟩
  | .amoAdd _ m | .amoOr _ m | .amoAnd _ m | .amoXor _ m | .amoSmin _ m | .amoSmax _ m | .amoUmin _ m | .amoUmax _ m
  | .amoXchg _ m | .amoFAdd _ m | .amoFOr _ m | .amoFAnd _ m | .amoFXor _ m | .amoFSmin _ m | .amoFSmax _ m
  | .amoFUmin _ m | .amoFUmax _ m | .amoFXchg _ m | .cas _ m => m.okInt
  | .amoFadd _ m | .amoFFadd _ m => m.okFadd
  | .vamoRow _ m => m.ord != .none || m.scope == .core
  | .cpy _ m => m.ok true true false
  | .tld _ m | .tst _ m => m.ok true true true
  | .abarInit _ m => m.ok false false false
  | .abarArrive _ m | .ringPub _ m | .ringPut _ m => m.ok false true false
  | .abarWait _ m | .ringRsv _ m | .ringGet _ m => m.ok true false false
  | .mxMma _ mc nc ku _ _ _ => mxSizeOk mc && mxSizeOk nc && ku != 0
  | .mxWaitGet _ sc f | .mxRel _ sc f | .mxSigRing _ sc f | .mxSigAbar _ _ sc f | .mxHalt sc f => mxScopeOk sc f
  | .udf w => w.extractLsb' 56 8 == 0xFF
  | .emulationMajor w _ => decide (0xF0 ≤ (w.extractLsb' 56 8).toNat) && decide ((w.extractLsb' 56 8).toNat ≤ 0xFE)
  | _ => true

/-- The operand fields of an instruction word. -/
def Instr.operands : Instr → Operands
  | .add o _ | .sub o _ | .min o _ | .max o _ | .abs o _ | .and o _ | .or o _ | .xor o _ | .andn o _ | .shl o _ | .shr o _
  | .sra o _ | .rot o _ | .mul o _ | .mulh o _ | .mad o _ | .div o _ | .rem o _ | .clz o _ | .ctz o _ | .popc o _
  | .brev o _ | .bfx o _ | .bfi o _ | .cmp o _ | .sel o _ | .mov o _ | .ext o _ | .lea o _ => o
  | .fadd o _ | .fsub o _ | .fmul o _ | .fmin o _ | .fmax o _ | .ffma o _ | .fdiv o _ | .fsqrt o _ | .fneg o _ | .fclass o _
  | .fcmp o _ | .frcp o _ | .frsq o _ | .fex2 o _ | .flg2 o _ | .fround o _ => o
  | .fcvt o _ | .fcvti o _ | .fcvtiU o _ | .icvtf o _ | .icvtfU o _ | .hadd2 o _ | .hmul2 o _ | .hfma2 o _ | .dot2 o _
  | .dot4 o _ | .qcvt o _ | .qcvtBf16 o _ | .dqcvt o _ | .dqcvtBf16 o _ | .bscale o _ | .bscaleBf16 o _ => o
  | .plog o _ | .voteAny o | .voteAll o | .voteUni o | .voteBallot o | .jmaskMov o | .jmaskAnd o | .jmaskOr o | .jmaskAndn o
  | .shflIdx o _ | .shflUp o _ | .shflDown o _ | .shflXor o _ | .bcast o => o
  | .reduxAdd o _ | .reduxMin o _ | .reduxMax o _ | .reduxAnd o _ | .reduxOr o _ | .reduxXor o _ | .reduxFadd o _
  | .reduxFmin o _ | .reduxFmax o _ => o
  | .br o | .jal o | .jalr o | .meet o | .join o _ | .waitj o _ | .exit o | .yield o | .nop o | .safept o | .trap o _
  | .syscall o | .eret o | .migrateS o | .migrateL o | .crr o _ | .crw o _ | .crs o _ | .crc o _ => o
  | .ld o _ | .st o _ | .ldf o _ | .ldfe o _ | .stef o _ | .stf o _ | .setfe o _ | .st128 o | .prefetch o _ | .cflush o _
  | .phase o _ => o
  | .amoAdd o _ | .amoOr o _ | .amoAnd o _ | .amoXor o _ | .amoSmin o _ | .amoSmax o _ | .amoUmin o _ | .amoUmax o _
  | .amoXchg o _ | .amoFadd o _ | .amoFAdd o _ | .amoFOr o _ | .amoFAnd o _ | .amoFXor o _ | .amoFSmin o _ | .amoFSmax o _
  | .amoFUmin o _ | .amoFUmax o _ | .amoFXchg o _ | .amoFFadd o _ | .cas o _ | .vamoRow o _ => o
  | .cpy o _ | .tld o _ | .tst o _ | .abarInit o _ | .abarArrive o _ | .abarWait o _ | .ringRsv o _ | .ringPub o _
  | .ringGet o _ | .ringPut o _ | .qbind o | .qstat o | .barSync o _ | .barArrive o _ | .barSyncClu o _ | .barArriveClu o _ => o
  | .mxgo o | .mxstat o | .mxstop o | .stgDecl o | .stgAdmit o | .stgAdmitKeep o | .stgAdmitClose o | .stgNext o | .stgDone o
  | .stgTail o | .stgStat o | .viewReg o | .viewDrop o | .viewSync o _ | .viewTag o | .viewPol o | .launch o | .spawn o
  | .jwait o | .setseg o | .tgen o | .ifence o | .wfi o | .inspect o => o
  | _ => ⟨⟨false, 7⟩, .x 0, .x 0, .x 0, .x 0⟩

/-- The length of a word's instruction (R60): 16 bytes with an extension reference. -/
def Instr.len (i : Instr) : Nat := 8 + 8 * i.operands.exts

/-- Well formed: the operand checks of the instruction's form and its modifier. A term without a form (an engine command, an
event) needs only its own fields legal. -/
def Instr.wf (i : Instr) : Bool :=
  i.modOk && (match i.form with
    | some f => f.ok i.operands
    | none => true)

end Sys2Proof
end

