-- ==== Sys2Proof/Decode.lean ====
section
/-! DEFINITION. The decoder of instruction words (R59-R74) and of the matrix engine's command words (R228, R229), total on any
word, and after it the encoder written from the same layouts. -/

namespace Sys2Proof

/-- W and IW codes of R68. -/
def Width.ofCode (c : BitVec 2) : Width := if c = 0 then .d else if c = 1 then .w else if c = 2 then .h else .b
/-- W and IW codes of R68. -/
def Width.code : Width → BitVec 2 | .d => 0 | .w => 1 | .h => 2 | .b => 3

/-- T codes of R68. -/
def FpT.ofCode (c : BitVec 2) : FpT := if c = 0 then .f64 else if c = 1 then .f32 else if c = 2 then .f16 else .bf16
/-- T codes of R68. -/
def FpT.code : FpT → BitVec 2 | .f64 => 0 | .f32 => 1 | .f16 => 2 | .bf16 => 3

/-- Scope codes of R67; the encoder tells a reserved code from the default. -/
def Scope.ofCode (c : BitVec 3) : Scope :=
  if c = 1 then .clu else if c = 2 then .die else if c = 3 then .pkg else if c = 4 then .sys else .core
/-- Scope codes of R67. -/
def Scope.code : Scope → BitVec 3 | .core => 0 | .clu => 1 | .die => 2 | .pkg => 3 | .sys => 4

/-- Order codes of R67. -/
def Order.ofCode (c : BitVec 2) : Order := if c = 0 then .none else if c = 1 then .acq else if c = 2 then .rel else .ar
/-- Order codes of R67. -/
def Order.code : Order → BitVec 2 | .none => 0 | .acq => 1 | .rel => 2 | .ar => 3

/-- SPACE codes of R68. -/
def Space.ofCode (c : BitVec 3) : Space :=
  if c = 1 then .pvt else if c = 2 then .loc else if c = 3 then .clu else if c = 4 then .chip else if c = 5 then .acc
  else if c = 6 then .con else .glb
/-- SPACE codes of R68. -/
def Space.code : Space → BitVec 3 | .glb => 0 | .pvt => 1 | .loc => 2 | .clu => 3 | .chip => 4 | .acc => 5 | .con => 6

/-- SIZE codes of R68. -/
def MSize.ofCode (c : BitVec 3) : MSize :=
  if c = 1 then .h else if c = 2 then .w else if c = 3 then .d else if c = 4 then .x else .b
/-- SIZE codes of R68. -/
def MSize.code : MSize → BitVec 3 | .b => 0 | .h => 1 | .w => 2 | .d => 3 | .x => 4

/-- SP codes of R69. -/
def AtomSpace.ofCode (c : BitVec 2) : AtomSpace := if c = 0 then .glb else if c = 1 then .loc else if c = 2 then .clu else .chip
/-- SP codes of R69. -/
def AtomSpace.code : AtomSpace → BitVec 2 | .glb => 0 | .loc => 1 | .clu => 2 | .chip => 3

/-- One bit as a field. -/
def bitOf (b : Bool) : BitVec 1 := if b then 1 else 0

/-- R68, integer. -/
def IntMod.ofByte (m : BitVec 8) : IntMod := ⟨.ofCode (m.extractLsb' 6 2), m.getLsbD 5, m.getLsbD 4, m.extractLsb' 0 4⟩
/-- R68, integer. -/
def IntMod.byte (m : IntMod) : BitVec 8 := m.w.code ++ bitOf m.sgn ++ bitOf m.sat ++ m.cond
/-- R68, floating point. -/
def FpMod.ofByte (m : BitVec 8) : FpMod := ⟨.ofCode (m.extractLsb' 6 2), m.getLsbD 5, m.extractLsb' 2 3, m.getLsbD 0⟩
/-- R68, floating point. -/
def FpMod.byte (m : FpMod) : BitVec 8 := m.t.code ++ bitOf m.ftz ++ m.rm ++ 0#1 ++ bitOf m.sig
/-- R68, `fcvt`. -/
def CvtMod.ofByte (m : BitVec 8) : CvtMod :=
  ⟨.ofCode (m.extractLsb' 6 2), .ofCode (m.extractLsb' 4 2), m.getLsbD 3, m.extractLsb' 0 3⟩
/-- R68, `fcvt`. -/
def CvtMod.byte (m : CvtMod) : BitVec 8 := m.td.code ++ m.ts.code ++ bitOf m.ftz ++ m.rm
/-- R68, `fcvti` and `icvtf`. -/
def CviMod.ofByte (m : BitVec 8) : CviMod :=
  ⟨.ofCode (m.extractLsb' 6 2), .ofCode (m.extractLsb' 4 2), m.getLsbD 3, m.extractLsb' 0 3⟩
/-- R68, `fcvti` and `icvtf`. -/
def CviMod.byte (m : CviMod) : BitVec 8 := m.t.code ++ m.iw.code ++ bitOf m.ftz ++ m.rm
/-- R68, packed; T codes 00 and 01 are reserved. -/
def PackMod.ofByte (m : BitVec 8) : PackMod := ⟨m.getLsbD 6, m.getLsbD 5, m.extractLsb' 2 3⟩
/-- R68, packed. -/
def PackMod.byte (m : PackMod) : BitVec 8 := 1#1 ++ bitOf m.bf ++ bitOf m.ftz ++ m.rm ++ 0#2
/-- R68, dot and block-scaled. -/
def NarrowMod.ofByte (m : BitVec 8) : NarrowMod := ⟨m.extractLsb' 4 4, m.getLsbD 3, m.extractLsb' 0 3⟩
/-- R68, dot and block-scaled. -/
def NarrowMod.byte (m : NarrowMod) : BitVec 8 := m.nf ++ bitOf m.ftz ++ m.rm
/-- R68, memory. -/
def MemMod.ofByte (m : BitVec 8) : MemMod :=
  ⟨.ofCode (m.extractLsb' 5 3), .ofCode (m.extractLsb' 2 3), m.getLsbD 1, m.getLsbD 0⟩
/-- R68, memory. -/
def MemMod.byte (m : MemMod) : BitVec 8 := m.space.code ++ m.size.code ++ bitOf m.sx ++ bitOf m.ev
/-- R68, atomics. -/
def AtomMod.ofByte (sp : AtomSpace) (m : BitVec 8) : AtomMod :=
  ⟨sp, .ofCode (m.extractLsb' 5 3), .ofCode (m.extractLsb' 3 2), .ofCode (m.extractLsb' 0 3)⟩
/-- R68, atomics. -/
def AtomMod.byte (m : AtomMod) : BitVec 8 := m.scope.code ++ m.ord.code ++ m.size.code
/-- R200. -/
def RowMod.ofByte (m : BitVec 8) : RowMod := ⟨.ofCode (m.extractLsb' 5 3), .ofCode (m.extractLsb' 3 2)⟩
/-- R200: SIZE is `.x`. -/
def RowMod.byte (m : RowMod) : BitVec 8 := m.scope.code ++ m.ord.code ++ 4#3
/-- R68, asynchronous. -/
def AsyncMod.ofByte (m : BitVec 8) : AsyncMod :=
  ⟨.ofCode (m.extractLsb' 5 3), m.getLsbD 4, m.getLsbD 3, m.extractLsb' 0 3⟩
/-- R68, asynchronous. -/
def AsyncMod.byte (m : AsyncMod) : BitVec 8 := m.scope.code ++ bitOf m.acq ++ bitOf m.rel ++ m.aux

/-- R63; `none` where the index is reserved. -/
def Dst.ofRaw (cls : BitVec 2) (idx : BitVec 6) : Option Dst :=
  if cls = 0 then some (.x idx)
  else if cls = 1 then (if idx.toNat < 8 then some (.p (idx.extractLsb' 0 3)) else none)
  else if cls = 2 then (if idx.toNat < 32 then some (.s (idx.extractLsb' 0 5)) else none)
  else if idx.toNat < 8 then some (.j (idx.extractLsb' 0 3))
  else if 16 ≤ idx.toNat ∧ idx.toNat < 32 then some (.q (idx.extractLsb' 0 4))
  else none

/-- R63: DCLASS and DIDX. -/
def Dst.raw : Dst → BitVec 8
  | .x n => 0#2 ++ n
  | .p n => 1#2 ++ 0#3 ++ n
  | .s n => 2#2 ++ 0#1 ++ n
  | .j n => 3#2 ++ 0#3 ++ n
  | .q n => 3#2 ++ 1#2 ++ n

/-- R60: the 10-bit pattern of the extension reference. -/
def extPattern : BitVec 10 := 0x380

/-- R64; `none` where kind and value are reserved. `e` is the extension word. -/
def Src.ofRaw (f : BitVec 10) (e : Word) : Option Src :=
  let k := f.extractLsb' 8 2
  let v := f.extractLsb' 0 8
  if f = extPattern then some (.ext e)
  else if k = 0 then
    if v.toNat < 64 then some (.x (v.extractLsb' 0 6))
    else if v.toNat < 80 then some (.q (v.extractLsb' 0 4))
    else if v.toNat < 88 then some (.p (v.extractLsb' 0 3))
    else none
  else if k = 1 then (if v.toNat < 32 then some (.s (v.extractLsb' 0 5)) else none)
  else if k = 2 then some (.c v)
  else some (.lit v)

/-- R64. -/
def Src.raw : Src → BitVec 10
  | .x n => 0#4 ++ n
  | .q n => 4#6 ++ n
  | .p n => 10#7 ++ n
  | .s n => 8#5 ++ n
  | .c n => 2#2 ++ n
  | .lit v => 3#2 ++ v
  | .ext _ => extPattern

/-- One row of R69: major, function, and the instruction that operands and modifier byte make. -/
structure OpRow where
  major : BitVec 8
  func : BitVec 6
  make : Operands → BitVec 8 → Instr

/-- The four functions of one atomic operation (R69). -/
def amoRows (major : BitVec 8) (op : BitVec 4) (f : Operands → AtomMod → Instr) : List OpRow :=
  [ ⟨major, op ++ 0#2, fun o m => f o (.ofByte .glb m)⟩, ⟨major, op ++ 1#2, fun o m => f o (.ofByte .loc m)⟩,
    ⟨major, op ++ 2#2, fun o m => f o (.ofByte .clu m)⟩, ⟨major, op ++ 3#2, fun o m => f o (.ofByte .chip m)⟩ ]

/-- R69: integer, 0x01-0x0A. -/
def intRows : List OpRow :=
  [ ⟨0x01, 0, fun o m => .add o (IntMod.ofByte m)⟩,
    ⟨0x01, 1, fun o m => .sub o (IntMod.ofByte m)⟩,
    ⟨0x01, 2, fun o m => .min o (IntMod.ofByte m)⟩,
    ⟨0x01, 3, fun o m => .max o (IntMod.ofByte m)⟩,
    ⟨0x01, 4, fun o m => .abs o (IntMod.ofByte m)⟩,
    ⟨0x02, 0, fun o m => .and o (IntMod.ofByte m)⟩,
    ⟨0x02, 1, fun o m => .or o (IntMod.ofByte m)⟩,
    ⟨0x02, 2, fun o m => .xor o (IntMod.ofByte m)⟩,
    ⟨0x02, 3, fun o m => .andn o (IntMod.ofByte m)⟩,
    ⟨0x03, 0, fun o m => .shl o (IntMod.ofByte m)⟩,
    ⟨0x03, 1, fun o m => .shr o (IntMod.ofByte m)⟩,
    ⟨0x03, 2, fun o m => .sra o (IntMod.ofByte m)⟩,
    ⟨0x03, 3, fun o m => .rot o (IntMod.ofByte m)⟩,
    ⟨0x04, 0, fun o m => .mul o (IntMod.ofByte m)⟩,
    ⟨0x04, 1, fun o m => .mulh o (IntMod.ofByte m)⟩,
    ⟨0x04, 2, fun o m => .mad o (IntMod.ofByte m)⟩,
    ⟨0x05, 0, fun o m => .div o (IntMod.ofByte m)⟩,
    ⟨0x05, 1, fun o m => .rem o (IntMod.ofByte m)⟩,
    ⟨0x06, 0, fun o m => .clz o (IntMod.ofByte m)⟩,
    ⟨0x06, 1, fun o m => .ctz o (IntMod.ofByte m)⟩,
    ⟨0x06, 2, fun o m => .popc o (IntMod.ofByte m)⟩,
    ⟨0x06, 3, fun o m => .brev o (IntMod.ofByte m)⟩,
    ⟨0x07, 0, fun o m => .bfx o (IntMod.ofByte m)⟩,
    ⟨0x07, 1, fun o m => .bfi o (IntMod.ofByte m)⟩,
    ⟨0x08, 0, fun o m => .cmp o (IntMod.ofByte m)⟩,
    ⟨0x09, 0, fun o m => .sel o (IntMod.ofByte m)⟩,
    ⟨0x0A, 0, fun o m => .mov o (IntMod.ofByte m)⟩,
    ⟨0x0A, 1, fun o m => .ext o (IntMod.ofByte m)⟩,
    ⟨0x0A, 2, fun o m => .lea o (IntMod.ofByte m)⟩ ]

/-- R69: floating point, 0x20-0x26. -/
def fpRows : List OpRow :=
  [ ⟨0x20, 0, fun o m => .fadd o (FpMod.ofByte m)⟩,
    ⟨0x20, 1, fun o m => .fsub o (FpMod.ofByte m)⟩,
    ⟨0x20, 2, fun o m => .fmul o (FpMod.ofByte m)⟩,
    ⟨0x20, 3, fun o m => .fmin o (FpMod.ofByte m)⟩,
    ⟨0x20, 4, fun o m => .fmax o (FpMod.ofByte m)⟩,
    ⟨0x21, 0, fun o m => .ffma o (FpMod.ofByte m)⟩,
    ⟨0x22, 0, fun o m => .fdiv o (FpMod.ofByte m)⟩,
    ⟨0x22, 1, fun o m => .fsqrt o (FpMod.ofByte m)⟩,
    ⟨0x23, 0, fun o m => .fneg o (FpMod.ofByte m)⟩,
    ⟨0x23, 1, fun o m => .fclass o (FpMod.ofByte m)⟩,
    ⟨0x24, 0, fun o m => .fcmp o (FpMod.ofByte m)⟩,
    ⟨0x25, 0, fun o m => .frcp o (FpMod.ofByte m)⟩,
    ⟨0x25, 1, fun o m => .frsq o (FpMod.ofByte m)⟩,
    ⟨0x25, 2, fun o m => .fex2 o (FpMod.ofByte m)⟩,
    ⟨0x25, 3, fun o m => .flg2 o (FpMod.ofByte m)⟩,
    ⟨0x26, 0, fun o m => .fround o (FpMod.ofByte m)⟩ ]

/-- R69: conversions, packed, dot and block-scaled, 0x40-0x46. -/
def narrowRows : List OpRow :=
  [ ⟨0x40, 0, fun o m => .fcvt o (CvtMod.ofByte m)⟩,
    ⟨0x41, 0, fun o m => .fcvti o (CviMod.ofByte m)⟩,
    ⟨0x41, 1, fun o m => .fcvtiU o (CviMod.ofByte m)⟩,
    ⟨0x41, 2, fun o m => .icvtf o (CviMod.ofByte m)⟩,
    ⟨0x41, 3, fun o m => .icvtfU o (CviMod.ofByte m)⟩,
    ⟨0x42, 0, fun o m => .hadd2 o (PackMod.ofByte m)⟩,
    ⟨0x42, 1, fun o m => .hmul2 o (PackMod.ofByte m)⟩,
    ⟨0x42, 2, fun o m => .hfma2 o (PackMod.ofByte m)⟩,
    ⟨0x43, 0, fun o m => .dot2 o (NarrowMod.ofByte m)⟩,
    ⟨0x43, 1, fun o m => .dot4 o (NarrowMod.ofByte m)⟩,
    ⟨0x44, 0, fun o m => .qcvt o (NarrowMod.ofByte m)⟩,
    ⟨0x44, 1, fun o m => .qcvtBf16 o (NarrowMod.ofByte m)⟩,
    ⟨0x45, 0, fun o m => .dqcvt o (NarrowMod.ofByte m)⟩,
    ⟨0x45, 1, fun o m => .dqcvtBf16 o (NarrowMod.ofByte m)⟩,
    ⟨0x46, 0, fun o m => .bscale o (NarrowMod.ofByte m)⟩,
    ⟨0x46, 1, fun o m => .bscaleBf16 o (NarrowMod.ofByte m)⟩ ]

/-- R69: predicates, votes, join masks and cross-lane, 0x50-0x55. -/
def laneRows : List OpRow :=
  [ ⟨0x50, 0, fun o m => .plog o m⟩,
    ⟨0x51, 0, fun o _ => .voteAny o⟩,
    ⟨0x51, 1, fun o _ => .voteAll o⟩,
    ⟨0x51, 2, fun o _ => .voteUni o⟩,
    ⟨0x51, 3, fun o _ => .voteBallot o⟩,
    ⟨0x52, 0, fun o _ => .jmaskMov o⟩,
    ⟨0x52, 1, fun o _ => .jmaskAnd o⟩,
    ⟨0x52, 2, fun o _ => .jmaskOr o⟩,
    ⟨0x52, 3, fun o _ => .jmaskAndn o⟩,
    ⟨0x53, 0, fun o m => .shflIdx o (m.extractLsb' 0 3)⟩,
    ⟨0x53, 1, fun o m => .shflUp o (m.extractLsb' 0 3)⟩,
    ⟨0x53, 2, fun o m => .shflDown o (m.extractLsb' 0 3)⟩,
    ⟨0x53, 3, fun o m => .shflXor o (m.extractLsb' 0 3)⟩,
    ⟨0x54, 0, fun o _ => .bcast o⟩,
    ⟨0x55, 0, fun o m => .reduxAdd o (IntMod.ofByte m)⟩,
    ⟨0x55, 1, fun o m => .reduxMin o (IntMod.ofByte m)⟩,
    ⟨0x55, 2, fun o m => .reduxMax o (IntMod.ofByte m)⟩,
    ⟨0x55, 3, fun o m => .reduxAnd o (IntMod.ofByte m)⟩,
    ⟨0x55, 4, fun o m => .reduxOr o (IntMod.ofByte m)⟩,
    ⟨0x55, 5, fun o m => .reduxXor o (IntMod.ofByte m)⟩,
    ⟨0x55, 8, fun o m => .reduxFadd o (FpMod.ofByte m)⟩,
    ⟨0x55, 9, fun o m => .reduxFmin o (FpMod.ofByte m)⟩,
    ⟨0x55, 10, fun o m => .reduxFmax o (FpMod.ofByte m)⟩ ]

/-- R69: control, 0x60-0x67. -/
def controlRows : List OpRow :=
  [ ⟨0x60, 0, fun o _ => .br o⟩,
    ⟨0x61, 0, fun o _ => .jal o⟩,
    ⟨0x61, 1, fun o _ => .jalr o⟩,
    ⟨0x62, 0, fun o _ => .meet o⟩,
    ⟨0x62, 1, fun o m => .join o (m.extractLsb' 0 3)⟩,
    ⟨0x62, 2, fun o m => .waitj o (m.extractLsb' 0 3)⟩,
    ⟨0x63, 0, fun o _ => .exit o⟩,
    ⟨0x63, 1, fun o _ => .yield o⟩,
    ⟨0x63, 2, fun o _ => .nop o⟩,
    ⟨0x64, 0, fun o _ => .safept o⟩,
    ⟨0x65, 0, fun o m => .trap o m⟩,
    ⟨0x65, 1, fun o _ => .syscall o⟩,
    ⟨0x65, 2, fun o _ => .eret o⟩,
    ⟨0x66, 0, fun o _ => .migrateS o⟩,
    ⟨0x66, 1, fun o _ => .migrateL o⟩,
    ⟨0x67, 0, fun o m => .crr o m⟩,
    ⟨0x67, 1, fun o m => .crw o m⟩,
    ⟨0x67, 2, fun o m => .crs o m⟩,
    ⟨0x67, 3, fun o m => .crc o m⟩ ]

/-- R69: memory, 0x80-0x85. -/
def memRows : List OpRow :=
  [ ⟨0x80, 0, fun o m => .ld o (MemMod.ofByte m)⟩,
    ⟨0x81, 0, fun o m => .st o (MemMod.ofByte m)⟩,
    ⟨0x82, 0, fun o m => .ldf o (MemMod.ofByte m)⟩,
    ⟨0x82, 1, fun o m => .ldfe o (MemMod.ofByte m)⟩,
    ⟨0x82, 2, fun o m => .stef o (MemMod.ofByte m)⟩,
    ⟨0x82, 3, fun o m => .stf o (MemMod.ofByte m)⟩,
    ⟨0x82, 4, fun o m => .setfe o (MemMod.ofByte m)⟩,
    ⟨0x83, 0, fun o _ => .st128 o⟩,
    ⟨0x84, 0, fun o m => .prefetch o (MemMod.ofByte m)⟩,
    ⟨0x84, 1, fun o m => .cflush o (MemMod.ofByte m)⟩,
    ⟨0x85, 0, fun o m => .phase o (Scope.ofCode (m.extractLsb' 5 3))⟩ ]

/-- R69: atomics, 0xA0-0xA3. -/
def atomRows : List OpRow :=
  [ ⟨0xA3, 0, fun o m => .vamoRow o (RowMod.ofByte m)⟩ ] ++
  amoRows 0xA0 0 .amoAdd ++
  amoRows 0xA0 1 .amoOr ++
  amoRows 0xA0 2 .amoAnd ++
  amoRows 0xA0 3 .amoXor ++
  amoRows 0xA0 4 .amoSmin ++
  amoRows 0xA0 5 .amoSmax ++
  amoRows 0xA0 6 .amoUmin ++
  amoRows 0xA0 7 .amoUmax ++
  amoRows 0xA0 8 .amoXchg ++
  amoRows 0xA0 9 .amoFadd ++
  amoRows 0xA1 0 .amoFAdd ++
  amoRows 0xA1 1 .amoFOr ++
  amoRows 0xA1 2 .amoFAnd ++
  amoRows 0xA1 3 .amoFXor ++
  amoRows 0xA1 4 .amoFSmin ++
  amoRows 0xA1 5 .amoFSmax ++
  amoRows 0xA1 6 .amoFUmin ++
  amoRows 0xA1 7 .amoFUmax ++
  amoRows 0xA1 8 .amoFXchg ++
  amoRows 0xA1 9 .amoFFadd ++
  amoRows 0xA2 0 .cas

/-- R69: asynchronous copies, barriers, rings and queues, 0xB0-0xB5. -/
def asyncRows : List OpRow :=
  [ ⟨0xB0, 0, fun o m => .cpy o (AsyncMod.ofByte m)⟩,
    ⟨0xB1, 0, fun o m => .tld o (AsyncMod.ofByte m)⟩,
    ⟨0xB1, 1, fun o m => .tst o (AsyncMod.ofByte m)⟩,
    ⟨0xB2, 0, fun o m => .abarInit o (AsyncMod.ofByte m)⟩,
    ⟨0xB2, 1, fun o m => .abarArrive o (AsyncMod.ofByte m)⟩,
    ⟨0xB2, 2, fun o m => .abarWait o (AsyncMod.ofByte m)⟩,
    ⟨0xB3, 0, fun o m => .ringRsv o (AsyncMod.ofByte m)⟩,
    ⟨0xB3, 1, fun o m => .ringPub o (AsyncMod.ofByte m)⟩,
    ⟨0xB3, 2, fun o m => .ringGet o (AsyncMod.ofByte m)⟩,
    ⟨0xB3, 3, fun o m => .ringPut o (AsyncMod.ofByte m)⟩,
    ⟨0xB4, 0, fun o _ => .qbind o⟩,
    ⟨0xB4, 1, fun o _ => .qstat o⟩,
    ⟨0xB5, 0, fun o m => if m.extractLsb' 5 3 = 1 then .barSyncClu o (m.extractLsb' 0 4) else .barSync o (m.extractLsb' 0 4)⟩,
    ⟨0xB5, 1, fun o m => if m.extractLsb' 5 3 = 1 then .barArriveClu o (m.extractLsb' 0 4) else .barArrive o (m.extractLsb' 0 4)⟩ ]

/-- R69: engine, stage router, views, launch and system, 0xC0-0xE0. -/
def systemRows : List OpRow :=
  [ ⟨0xC0, 0, fun o _ => .mxgo o⟩,
    ⟨0xC1, 0, fun o _ => .mxstat o⟩,
    ⟨0xC2, 0, fun o _ => .mxstop o⟩,
    ⟨0xC8, 0, fun o _ => .stgDecl o⟩,
    ⟨0xC8, 1, fun o m => if m.getLsbD 0 && !m.getLsbD 1 then .stgAdmitClose o
      else if m.getLsbD 1 && !m.getLsbD 0 then .stgAdmitKeep o else .stgAdmit o⟩,
    ⟨0xC8, 2, fun o _ => .stgNext o⟩,
    ⟨0xC8, 3, fun o _ => .stgDone o⟩,
    ⟨0xC8, 4, fun o _ => .stgTail o⟩,
    ⟨0xC8, 5, fun o _ => .stgStat o⟩,
    ⟨0xD0, 0, fun o _ => .viewReg o⟩,
    ⟨0xD0, 1, fun o _ => .viewDrop o⟩,
    ⟨0xD0, 2, fun o m => .viewSync o (Scope.ofCode (m.extractLsb' 5 3))⟩,
    ⟨0xD0, 3, fun o _ => .viewTag o⟩,
    ⟨0xD0, 4, fun o _ => .viewPol o⟩,
    ⟨0xD8, 0, fun o _ => .launch o⟩,
    ⟨0xD8, 1, fun o _ => .spawn o⟩,
    ⟨0xD8, 2, fun o _ => .jwait o⟩,
    ⟨0xE0, 0, fun o _ => .setseg o⟩,
    ⟨0xE0, 1, fun o _ => .tgen o⟩,
    ⟨0xE0, 2, fun o _ => .ifence o⟩,
    ⟨0xE0, 3, fun o _ => .wfi o⟩,
    ⟨0xE0, 4, fun o _ => .inspect o⟩ ]

/-- The opcode map of R69. -/
def opRows : List OpRow :=
  intRows ++ fpRows ++ narrowRows ++ laneRows ++ controlRows ++ memRows ++ atomRows ++ asyncRows ++ systemRows

/-- The row of a major and a function, if the function is assigned. -/
def findRow : List OpRow → BitVec 8 → BitVec 6 → Option OpRow
  | [], _, _ => none
  | r :: rs, major, func => if r.major = major ∧ r.func = func then some r else findRow rs major func

/-- Whether a major is assigned (R69). -/
def majorAssigned (major : BitVec 8) : Bool := opRows.any fun r => r.major == major

/-- The fields of a base word (R59). -/
def wMajor (w : Word) : BitVec 8 := w.extractLsb' 56 8
/-- R59. -/
def wFunc (w : Word) : BitVec 6 := w.extractLsb' 50 6
/-- R59. -/
def wGuard (w : Word) : Guard := ⟨w.getLsbD 49, w.extractLsb' 46 3⟩
/-- R59. -/
def wDst (w : Word) : Option Dst := Dst.ofRaw (w.extractLsb' 44 2) (w.extractLsb' 38 6)
/-- R59. -/
def wSrcA (w : Word) : BitVec 10 := w.extractLsb' 28 10
/-- R59. -/
def wSrcB (w : Word) : BitVec 10 := w.extractLsb' 18 10
/-- R59. -/
def wSrcC (w : Word) : BitVec 10 := w.extractLsb' 8 10
/-- R59. -/
def wMod (w : Word) : BitVec 8 := w.extractLsb' 0 8

/-- R60, R73, R74: the bytes that the word's instruction takes. -/
def wordLen (w : Word) : Nat :=
  if wMajor w = 0xFF then 8
  else if wSrcA w = extPattern ∨ wSrcB w = extPattern ∨ wSrcC w = extPattern then 16 else 8

/-- Major, function and modifier byte of an instruction; `none` for what is no word of R69. -/
def Instr.opcode : Instr → Option (BitVec 8 × BitVec 6 × BitVec 8)
  | .add _ m => some (0x01, 0, m.byte)
  | .sub _ m => some (0x01, 1, m.byte)
  | .min _ m => some (0x01, 2, m.byte)
  | .max _ m => some (0x01, 3, m.byte)
  | .abs _ m => some (0x01, 4, m.byte)
  | .and _ m => some (0x02, 0, m.byte)
  | .or _ m => some (0x02, 1, m.byte)
  | .xor _ m => some (0x02, 2, m.byte)
  | .andn _ m => some (0x02, 3, m.byte)
  | .shl _ m => some (0x03, 0, m.byte)
  | .shr _ m => some (0x03, 1, m.byte)
  | .sra _ m => some (0x03, 2, m.byte)
  | .rot _ m => some (0x03, 3, m.byte)
  | .mul _ m => some (0x04, 0, m.byte)
  | .mulh _ m => some (0x04, 1, m.byte)
  | .mad _ m => some (0x04, 2, m.byte)
  | .div _ m => some (0x05, 0, m.byte)
  | .rem _ m => some (0x05, 1, m.byte)
  | .clz _ m => some (0x06, 0, m.byte)
  | .ctz _ m => some (0x06, 1, m.byte)
  | .popc _ m => some (0x06, 2, m.byte)
  | .brev _ m => some (0x06, 3, m.byte)
  | .bfx _ m => some (0x07, 0, m.byte)
  | .bfi _ m => some (0x07, 1, m.byte)
  | .cmp _ m => some (0x08, 0, m.byte)
  | .sel _ m => some (0x09, 0, m.byte)
  | .mov _ m => some (0x0A, 0, m.byte)
  | .ext _ m => some (0x0A, 1, m.byte)
  | .lea _ m => some (0x0A, 2, m.byte)
  | .fadd _ m => some (0x20, 0, m.byte)
  | .fsub _ m => some (0x20, 1, m.byte)
  | .fmul _ m => some (0x20, 2, m.byte)
  | .fmin _ m => some (0x20, 3, m.byte)
  | .fmax _ m => some (0x20, 4, m.byte)
  | .ffma _ m => some (0x21, 0, m.byte)
  | .fdiv _ m => some (0x22, 0, m.byte)
  | .fsqrt _ m => some (0x22, 1, m.byte)
  | .fneg _ m => some (0x23, 0, m.byte)
  | .fclass _ m => some (0x23, 1, m.byte)
  | .fcmp _ m => some (0x24, 0, m.byte)
  | .frcp _ m => some (0x25, 0, m.byte)
  | .frsq _ m => some (0x25, 1, m.byte)
  | .fex2 _ m => some (0x25, 2, m.byte)
  | .flg2 _ m => some (0x25, 3, m.byte)
  | .fround _ m => some (0x26, 0, m.byte)
  | .fcvt _ m => some (0x40, 0, m.byte)
  | .fcvti _ m => some (0x41, 0, m.byte)
  | .fcvtiU _ m => some (0x41, 1, m.byte)
  | .icvtf _ m => some (0x41, 2, m.byte)
  | .icvtfU _ m => some (0x41, 3, m.byte)
  | .hadd2 _ m => some (0x42, 0, m.byte)
  | .hmul2 _ m => some (0x42, 1, m.byte)
  | .hfma2 _ m => some (0x42, 2, m.byte)
  | .dot2 _ m => some (0x43, 0, m.byte)
  | .dot4 _ m => some (0x43, 1, m.byte)
  | .qcvt _ m => some (0x44, 0, m.byte)
  | .qcvtBf16 _ m => some (0x44, 1, m.byte)
  | .dqcvt _ m => some (0x45, 0, m.byte)
  | .dqcvtBf16 _ m => some (0x45, 1, m.byte)
  | .bscale _ m => some (0x46, 0, m.byte)
  | .bscaleBf16 _ m => some (0x46, 1, m.byte)
  | .plog _ m => some (0x50, 0, m)
  | .voteAny _ => some (0x51, 0, 0)
  | .voteAll _ => some (0x51, 1, 0)
  | .voteUni _ => some (0x51, 2, 0)
  | .voteBallot _ => some (0x51, 3, 0)
  | .jmaskMov _ => some (0x52, 0, 0)
  | .jmaskAnd _ => some (0x52, 1, 0)
  | .jmaskOr _ => some (0x52, 2, 0)
  | .jmaskAndn _ => some (0x52, 3, 0)
  | .shflIdx _ m => some (0x53, 0, (0#5 ++ m))
  | .shflUp _ m => some (0x53, 1, (0#5 ++ m))
  | .shflDown _ m => some (0x53, 2, (0#5 ++ m))
  | .shflXor _ m => some (0x53, 3, (0#5 ++ m))
  | .bcast _ => some (0x54, 0, 0)
  | .reduxAdd _ m => some (0x55, 0, m.byte)
  | .reduxMin _ m => some (0x55, 1, m.byte)
  | .reduxMax _ m => some (0x55, 2, m.byte)
  | .reduxAnd _ m => some (0x55, 3, m.byte)
  | .reduxOr _ m => some (0x55, 4, m.byte)
  | .reduxXor _ m => some (0x55, 5, m.byte)
  | .reduxFadd _ m => some (0x55, 8, m.byte)
  | .reduxFmin _ m => some (0x55, 9, m.byte)
  | .reduxFmax _ m => some (0x55, 10, m.byte)
  | .br _ => some (0x60, 0, 0)
  | .jal _ => some (0x61, 0, 0)
  | .jalr _ => some (0x61, 1, 0)
  | .meet _ => some (0x62, 0, 0)
  | .join _ m => some (0x62, 1, (0#5 ++ m))
  | .waitj _ m => some (0x62, 2, (0#5 ++ m))
  | .exit _ => some (0x63, 0, 0)
  | .yield _ => some (0x63, 1, 0)
  | .nop _ => some (0x63, 2, 0)
  | .safept _ => some (0x64, 0, 0)
  | .trap _ m => some (0x65, 0, m)
  | .syscall _ => some (0x65, 1, 0)
  | .eret _ => some (0x65, 2, 0)
  | .migrateS _ => some (0x66, 0, 0)
  | .migrateL _ => some (0x66, 1, 0)
  | .crr _ m => some (0x67, 0, m)
  | .crw _ m => some (0x67, 1, m)
  | .crs _ m => some (0x67, 2, m)
  | .crc _ m => some (0x67, 3, m)
  | .ld _ m => some (0x80, 0, m.byte)
  | .st _ m => some (0x81, 0, m.byte)
  | .ldf _ m => some (0x82, 0, m.byte)
  | .ldfe _ m => some (0x82, 1, m.byte)
  | .stef _ m => some (0x82, 2, m.byte)
  | .stf _ m => some (0x82, 3, m.byte)
  | .setfe _ m => some (0x82, 4, m.byte)
  | .st128 _ => some (0x83, 0, 0)
  | .prefetch _ m => some (0x84, 0, m.byte)
  | .cflush _ m => some (0x84, 1, m.byte)
  | .phase _ m => some (0x85, 0, (m.code ++ 0#5))
  | .amoAdd _ m => some (0xA0, 0#4 ++ m.sp.code, m.byte)
  | .amoOr _ m => some (0xA0, 1#4 ++ m.sp.code, m.byte)
  | .amoAnd _ m => some (0xA0, 2#4 ++ m.sp.code, m.byte)
  | .amoXor _ m => some (0xA0, 3#4 ++ m.sp.code, m.byte)
  | .amoSmin _ m => some (0xA0, 4#4 ++ m.sp.code, m.byte)
  | .amoSmax _ m => some (0xA0, 5#4 ++ m.sp.code, m.byte)
  | .amoUmin _ m => some (0xA0, 6#4 ++ m.sp.code, m.byte)
  | .amoUmax _ m => some (0xA0, 7#4 ++ m.sp.code, m.byte)
  | .amoXchg _ m => some (0xA0, 8#4 ++ m.sp.code, m.byte)
  | .amoFadd _ m => some (0xA0, 9#4 ++ m.sp.code, m.byte)
  | .amoFAdd _ m => some (0xA1, 0#4 ++ m.sp.code, m.byte)
  | .amoFOr _ m => some (0xA1, 1#4 ++ m.sp.code, m.byte)
  | .amoFAnd _ m => some (0xA1, 2#4 ++ m.sp.code, m.byte)
  | .amoFXor _ m => some (0xA1, 3#4 ++ m.sp.code, m.byte)
  | .amoFSmin _ m => some (0xA1, 4#4 ++ m.sp.code, m.byte)
  | .amoFSmax _ m => some (0xA1, 5#4 ++ m.sp.code, m.byte)
  | .amoFUmin _ m => some (0xA1, 6#4 ++ m.sp.code, m.byte)
  | .amoFUmax _ m => some (0xA1, 7#4 ++ m.sp.code, m.byte)
  | .amoFXchg _ m => some (0xA1, 8#4 ++ m.sp.code, m.byte)
  | .amoFFadd _ m => some (0xA1, 9#4 ++ m.sp.code, m.byte)
  | .cas _ m => some (0xA2, 0#4 ++ m.sp.code, m.byte)
  | .vamoRow _ m => some (0xA3, 0, m.byte)
  | .cpy _ m => some (0xB0, 0, m.byte)
  | .tld _ m => some (0xB1, 0, m.byte)
  | .tst _ m => some (0xB1, 1, m.byte)
  | .abarInit _ m => some (0xB2, 0, m.byte)
  | .abarArrive _ m => some (0xB2, 1, m.byte)
  | .abarWait _ m => some (0xB2, 2, m.byte)
  | .ringRsv _ m => some (0xB3, 0, m.byte)
  | .ringPub _ m => some (0xB3, 1, m.byte)
  | .ringGet _ m => some (0xB3, 2, m.byte)
  | .ringPut _ m => some (0xB3, 3, m.byte)
  | .qbind _ => some (0xB4, 0, 0)
  | .qstat _ => some (0xB4, 1, 0)
  | .barSync _ m => some (0xB5, 0, 0#4 ++ m)
  | .barSyncClu _ m => some (0xB5, 0, 2#4 ++ m)
  | .barArrive _ m => some (0xB5, 1, 0#4 ++ m)
  | .barArriveClu _ m => some (0xB5, 1, 2#4 ++ m)
  | .mxgo _ => some (0xC0, 0, 0)
  | .mxstat _ => some (0xC1, 0, 0)
  | .mxstop _ => some (0xC2, 0, 0)
  | .stgDecl _ => some (0xC8, 0, 0)
  | .stgAdmit _ => some (0xC8, 1, 0)
  | .stgAdmitKeep _ => some (0xC8, 1, 2)
  | .stgAdmitClose _ => some (0xC8, 1, 1)
  | .stgNext _ => some (0xC8, 2, 0)
  | .stgDone _ => some (0xC8, 3, 0)
  | .stgTail _ => some (0xC8, 4, 0)
  | .stgStat _ => some (0xC8, 5, 0)
  | .viewReg _ => some (0xD0, 0, 0)
  | .viewDrop _ => some (0xD0, 1, 0)
  | .viewSync _ m => some (0xD0, 2, (m.code ++ 0#5))
  | .viewTag _ => some (0xD0, 3, 0)
  | .viewPol _ => some (0xD0, 4, 0)
  | .launch _ => some (0xD8, 0, 0)
  | .spawn _ => some (0xD8, 1, 0)
  | .jwait _ => some (0xD8, 2, 0)
  | .setseg _ => some (0xE0, 0, 0)
  | .tgen _ => some (0xE0, 1, 0)
  | .ifence _ => some (0xE0, 2, 0)
  | .wfi _ => some (0xE0, 3, 0)
  | .inspect _ => some (0xE0, 4, 0)
  | _ => none

/-- R70: the instruction of base word `w` with extension word `e`, or why the word is none. The reason of a failed check is
the first in the order of R70. -/
def decode (w e : Word) : Instr :=
  if 0xF0 ≤ (wMajor w).toNat ∧ (wMajor w).toNat ≤ 0xFE then .emulationMajor w (wordLen w)
  else if wMajor w = 0xFF then .udf w
  else if majorAssigned (wMajor w) = false then .illegalInstruction w 1
  else match findRow opRows (wMajor w) (wFunc w) with
  | none => .illegalInstruction w 2
  | some row =>
    let d := wDst w
    let a := Src.ofRaw (wSrcA w) e
    let b := Src.ofRaw (wSrcB w) e
    let c := Src.ofRaw (wSrcC w) e
    let o : Operands := ⟨wGuard w, d.getD (.x 0), a.getD (.x 0), b.getD (.x 0), c.getD (.x 0)⟩
    let i := row.make o (wMod w)
    let f := i.form.getD (.bare false)
    if o.g.ok f.unguarded = false then .illegalInstruction w 3
    else if d = none ∨ f.d.ok o.d = false then .illegalInstruction w 4
    else if a = none ∨ b = none ∨ c = none ∨ f.srcOk o = false then .illegalInstruction w 5
    else if 1 < o.exts then .illegalInstruction w 6
    else if i.opcode ≠ some (wMajor w, wFunc w, wMod w) ∨ i.modOk = false then .illegalInstruction w 7
    else i

/-- The command word of an engine command (R228, R229). -/
def encodeMx : Instr → Option Word
  | .mxZero t => some (1#4 ++ t ++ 0#58)
  | .mxFmt fw => some (2#4 ++ 0#12 ++ fw ++ 0#16)
  | .mxMma t mc nc ku ra rb rs => some (3#4 ++ t ++ mc ++ nc ++ ku ++ ra ++ rb ++ rs ++ 0#37)
  | .mxWaitGet r sc f => some (4#4 ++ 0#1 ++ r ++ 0#48 ++ sc.code ++ bitOf f ++ 0#4)
  | .mxWaitFree r => some (4#4 ++ 1#1 ++ r ++ 0#56)
  | .mxRel r sc f => some (5#4 ++ 0#1 ++ r ++ 0#48 ++ sc.code ++ 0#1 ++ bitOf f ++ 0#3)
  | .mxSigRing r sc f => some (6#4 ++ 0#1 ++ r ++ 0#48 ++ sc.code ++ 0#1 ++ bitOf f ++ 0#3)
  | .mxSigAbar obj wt sc f => some (6#4 ++ 1#1 ++ 0#3 ++ obj ++ wt ++ 0#12 ++ sc.code ++ 0#1 ++ bitOf f ++ 0#3)
  | .mxIf disp woff => some (7#4 ++ 0#4 ++ disp ++ woff ++ 0#20)
  | .mxWhile dec disp woff => some (8#4 ++ bitOf dec ++ 0#3 ++ disp ++ woff ++ 0#20)
  | .mxEnd disp => some (9#4 ++ 0#4 ++ disp ++ 0#40)
  | .mxJump disp => some (10#4 ++ 0#4 ++ disp ++ 0#40)
  | .mxHalt sc f => some (11#4 ++ 0#52 ++ sc.code ++ 0#1 ++ bitOf f ++ 0#3)
  | _ => none

/-- The command that the fields of R229 name, before its reserved bits and codes are checked. -/
def mxFields (w : Word) : Option Instr :=
  let ring := w.extractLsb' 56 3
  let sc := Scope.ofCode (w.extractLsb' 5 3)
  let mode := w.getLsbD 59
  let disp := w.extractLsb' 40 16
  let woff := w.extractLsb' 20 20
  match (w.extractLsb' 60 4).toNat with
  | 1 => some (.mxZero (w.extractLsb' 58 2))
  | 2 => some (.mxFmt (w.extractLsb' 16 32))
  | 3 => some (.mxMma (w.extractLsb' 58 2) (w.extractLsb' 56 2) (w.extractLsb' 54 2) (w.extractLsb' 46 8) (w.extractLsb' 43 3)
      (w.extractLsb' 40 3) (w.extractLsb' 37 3))
  | 4 => some (if mode then .mxWaitFree ring else .mxWaitGet ring sc (w.getLsbD 4))
  | 5 => some (.mxRel ring sc (w.getLsbD 3))
  | 6 => some (if mode then .mxSigAbar (w.extractLsb' 36 20) (w.extractLsb' 20 16) sc (w.getLsbD 3)
      else .mxSigRing ring sc (w.getLsbD 3))
  | 7 => some (.mxIf disp woff)
  | 8 => some (.mxWhile mode disp woff)
  | 9 => some (.mxEnd disp)
  | 10 => some (.mxJump disp)
  | 11 => some (.mxHalt sc (w.getLsbD 3))
  | _ => none

/-- R230: the command of word `w`; `none` is ERR 1, a reserved OPC, reserved bit or reserved code. -/
def decodeMx (w : Word) : Option Instr :=
  match mxFields w with
  | some i => if encodeMx i = some w ∧ i.modOk = true then some i else none
  | none => none

/-- The base word of R59 from its fields. -/
def baseWord (major : BitVec 8) (func : BitVec 6) (o : Operands) (mod : BitVec 8) : Word :=
  major ++ func ++ bitOf o.g.neg ++ o.g.pred ++ o.d.raw ++ o.a.raw ++ o.b.raw ++ o.c.raw ++ mod

/-- The extension word of an operand list (R60). -/
def Operands.extWord (o : Operands) : Option Word :=
  match o.a, o.b, o.c with
  | .ext w, _, _ => some w
  | _, .ext w, _ => some w
  | _, _, .ext w => some w
  | _, _, _ => none

/-- The words of an instruction: base word and extension word, or one command word; empty for an event. -/
def encode (i : Instr) : List Word :=
  match i.opcode with
  | some (major, func, mod) =>
    baseWord major func i.operands mod :: (match i.operands.extWord with | some e => [e] | none => [])
  | none =>
    match i with
    | .udf w => [w]
    | .emulationMajor w _ => [w]
    | .illegalInstruction w _ => [w]
    | i => (match encodeMx i with | some w => [w] | none => [])

/-- The instruction that the decoder reads from an instruction whose bits are `w`, bit 0 the least significant bit of the base
word; the extension word is bits 127:64. An operand word without bits in the table is 0. -/
def decodeTableWord (_nbits w : Nat) : Option Instr := some (decode (BitVec.ofNat 64 w) (BitVec.ofNat 64 (w / 2 ^ 64)))

end Sys2Proof
end

