-- ==== Sys2Proof/Config.lean ====
section
/-! DEFINITION. The values that the spec leaves to an implementation or leaves unpredictable. Each is opaque: no proof can
see what it is, so a statement holds for every value of it. Every one has a row in notes/assumptions. -/

namespace Sys2Proof.Config

/-- UNVERIFIED free value, safe: the n-th unpredictable 64-bit value that a run meets (R210, R212, R214, R392). Applied to
`State.free` (log entry 8). -/
opaque freeWord : Nat → Word

/-- UNVERIFIED free value, safe: what an estimate unit of FP32 or FP64 answers before the bound of R103 is applied: the
function (0 frcp, 1 frsq, 2 fex2, 3 flg2), the operand width in bits and the operand's bits (log entry 9). -/
opaque estimate : Nat → Nat → Nat → Nat

/-- UNVERIFIED free value, safe: the core-clock count of a latency core at a reference-clock time; its own clock runs at
up to 3.6 GHz (R391) (log entry 10). -/
opaque latencyCycles : Nat → Nat → Word

/-- UNVERIFIED free value, safe: a word of an answer whose contents the spec leaves to the fused configuration or the
firmware: the responder's SPDM answers and the telemetry words (R411, R412) (log entry 11). -/
opaque response : Nat → Nat → Word

/-- UNVERIFIED free value, safe: whether `ffma` and `hfma2` signal NV for an infinity times a zero beside a quiet NaN addend,
which IEEE 754-2019 leaves to the implementation (log entry 12). -/
opaque fmaNanInvalid : Bool

/-- UNVERIFIED free value, safe: the OP field that a deferral entry of a held view read shows; R310 lists codes for full/empty
operations alone (log entry 137). -/
opaque viewReadOp : BitVec 2

end Sys2Proof.Config
end

