-- ==== Sys2Proof/Machine/Fp.lean ====
section
/-! DEFINITION. The number formats and their arithmetic (R31-R58): exact values as dyadic rationals, one rounding, the five
exceptions, conversions and saturation, TS8, block scales, and the estimates of R103. Bit patterns are naturals. -/

namespace Sys2Proof.Fp

/-- The five exceptions in the layout of `cr.fcsr[4:0]` (R38). -/
abbrev Exc := BitVec 5

/-- Invalid operation. -/
def nv : Exc := 16
/-- Division by zero. -/
def dz : Exc := 8
/-- Overflow or saturation. -/
def ovf : Exc := 4
/-- Underflow. -/
def unf : Exc := 2
/-- Inexact. -/
def nx : Exc := 1

/-- Exceptions when a condition holds. -/
def excIf (b : Bool) (e : Exc) : Exc := if b then e else 0

/-- The value of an operand: a NaN (signalling or quiet), an infinity, or the exact number (-1)^neg * m * 2^e. -/
inductive Val
  | nan (sig : Bool)
  | inf (neg : Bool)
  | fin (neg : Bool) (m : Nat) (e : Int)
deriving DecidableEq, Repr

/-- What the all-ones exponents of a format hold (R33, R34). -/
inductive Specials | ieee | e4m3 | none
deriving DecidableEq, Repr

/-- A floating-point format: exponent bits, fraction bits, bias, specials, largest finite pattern, canonical NaN. -/
structure Fmt where
  eb : Nat
  fb : Nat
  bias : Nat
  special : Specials
  maxFin : Nat
  canon : Nat
deriving DecidableEq, Repr

/-- R33. -/
def f64 : Fmt := ⟨11, 52, 1023, .ieee, 0x7FEFFFFFFFFFFFFF, 0x7FF8000000000000⟩
/-- R33. -/
def f32 : Fmt := ⟨8, 23, 127, .ieee, 0x7F7FFFFF, 0x7FC00000⟩
/-- R33. -/
def f16 : Fmt := ⟨5, 10, 15, .ieee, 0x7BFF, 0x7E00⟩
/-- R33. -/
def bf16 : Fmt := ⟨8, 7, 127, .ieee, 0x7F7F, 0x7FC0⟩
/-- R34. -/
def e4m3 : Fmt := ⟨4, 3, 7, .e4m3, 0x7E, 0x7F⟩
/-- R34. -/
def e5m2 : Fmt := ⟨5, 2, 15, .ieee, 0x7B, 0x7E⟩
/-- R34. -/
def e2m1 : Fmt := ⟨2, 1, 1, .none, 7, 0⟩

/-- The format of T (R68). -/
def fmtOf : FpT → Fmt | .f64 => f64 | .f32 => f32 | .f16 => f16 | .bf16 => bf16

/-- Bits of a pattern below the sign. -/
def Fmt.body (f : Fmt) : Nat := f.eb + f.fb

/-- Width in bits. -/
def Fmt.width (f : Fmt) : Nat := f.eb + f.fb + 1

/-- The sign bit set or clear. -/
def Fmt.signed (f : Fmt) (neg : Bool) (bits : Nat) : Nat := if neg then bits + 2 ^ f.body else bits

/-- The exponent of the lowest subnormal bit. -/
def Fmt.kmin (f : Fmt) : Int := 1 - (f.bias : Int) - (f.fb : Int)

/-- The value of a pattern (R33, R34). -/
def Fmt.value (f : Fmt) (bits : Nat) : Val :=
  let neg := bits.testBit f.body
  let mag := bits % 2 ^ f.body
  let e := mag / 2 ^ f.fb
  let frac := mag % 2 ^ f.fb
  if f.special = .ieee ∧ e = 2 ^ f.eb - 1 then
    if frac = 0 then .inf neg else .nan (!frac.testBit (f.fb - 1))
  else if f.special = .e4m3 ∧ mag = 2 ^ f.body - 1 then .nan false
  else if e = 0 then .fin neg frac f.kmin
  else .fin neg (2 ^ f.fb + frac) (f.kmin + (e : Int) - 1)

/-- Whether a finite value lies below the smallest normal number of the format. -/
def Fmt.tiny (f : Fmt) (m : Nat) (e : Int) : Bool := decide (e + (m.log2 : Int) < f.kmin + (f.fb : Int))

/-- Operand under `.ftz` (R42): a subnormal is read as the zero of its sign. -/
def Fmt.operand (f : Fmt) (ftz : Bool) (bits : Nat) : Val :=
  match f.value bits with
  | .fin neg m e => if ftz && m != 0 && f.tiny m e then .fin neg 0 0 else .fin neg m e
  | v => v

/-- Rounding directions (R39): 0 rne, 1 rtz, 2 rdn, 3 rup, 4 rmm. -/
def roundUp (rm : Nat) (neg odd : Bool) (rem half : Nat) : Bool :=
  match rm with
  | 0 => decide (half < rem) || (rem == half && odd)
  | 1 => false
  | 2 => neg && rem != 0
  | 3 => !neg && rem != 0
  | _ => decide (half ≤ rem)

/-- Round (-1)^neg * m * 2^e to a multiple of 2^k: the multiple and whether it differs. -/
def roundAt (rm : Nat) (neg : Bool) (m : Nat) (e k : Int) : Nat × Bool :=
  if k ≤ e then (m <<< (e - k).toNat, false)
  else
    let sh := (k - e).toNat
    let q := m >>> sh
    let rem := m % 2 ^ sh
    let up := roundUp rm neg (q % 2 == 1) rem (2 ^ (sh - 1))
    (if up then q + 1 else q, rem != 0)

/-- The exponent of the unit in the last place that p significant bits of m * 2^e have. -/
def ulpExp (p : Nat) (m : Nat) (e : Int) : Int := e + (m.log2 : Int) + 1 - (p : Int)

/-- What an overflow gives (R45): an infinity, or the largest finite magnitude. -/
def Fmt.overflow (f : Fmt) (rm : Nat) (neg saturate : Bool) : Nat :=
  let toFin := saturate || rm == 1 || (rm == 2 && !neg) || (rm == 3 && neg)
  if toFin then f.signed neg f.maxFin else f.signed neg (f.maxFin + 1)

/-- Rounds a non-zero exact value into the format: R40, R42, R45. `saturate` for E4M3, E5M2 and E2M1 targets. -/
def Fmt.roundFin (f : Fmt) (rm : Nat) (ftz saturate neg : Bool) (m : Nat) (e : Int) : Nat × Exc :=
  let ku := ulpExp (f.fb + 1) m e
  let k := max ku f.kmin
  let (q, inexact) := roundAt rm neg m e k
  let bits := (k - f.kmin).toNat * 2 ^ f.fb + q
  let (qu, _) := roundAt rm neg m e ku
  let tiny := f.tiny qu ku
  if f.maxFin < bits then (f.overflow rm neg saturate, ovf ||| nx)
  else if ftz && bits != 0 && decide (bits < 2 ^ f.fb) then (f.signed neg 0, unf ||| nx)
  else (f.signed neg bits, excIf inexact nx ||| excIf (tiny && inexact) unf)

/-- Rounds a value (R43, R45). -/
def Fmt.round (f : Fmt) (rm : Nat) (ftz : Bool) : Val → Nat × Exc
  | .nan _ => (f.canon, 0)
  | .inf neg => (f.signed neg (f.maxFin + 1), 0)
  | .fin neg m e => if m = 0 then (f.signed neg 0, 0) else f.roundFin rm ftz false neg m e

/-- R43: NV for a signalling NaN among the operands. -/
def Val.sig : Val → Bool
  | .nan s => s
  | _ => false

/-- A NaN of either kind. -/
def Val.isNan : Val → Bool
  | .nan _ => true
  | _ => false

/-- The sign of a value; a NaN has none. -/
def Val.neg : Val → Bool
  | .nan _ => false
  | .inf n => n
  | .fin n _ _ => n

/-- Sign inverted. -/
def Val.flip : Val → Val
  | .nan s => .nan s
  | .inf n => .inf !n
  | .fin n m e => .fin (!n) m e

/-- The canonical NaN of a result whose operands include one. -/
def Fmt.nanOf (f : Fmt) (vs : List Val) : Nat × Exc := (f.canon, excIf (vs.any Val.sig) nv)

/-- The signed mantissa of a finite value at exponent e0 ≤ e. -/
def signedAt (neg : Bool) (m : Nat) (e e0 : Int) : Int :=
  let v : Int := ((m <<< (e - e0).toNat : Nat) : Int)
  if neg then -v else v

/-- Exact sum of two finite values (R44). -/
def addFin (rm : Nat) (n1 : Bool) (m1 : Nat) (e1 : Int) (n2 : Bool) (m2 : Nat) (e2 : Int) : Val :=
  if m1 = 0 ∧ m2 = 0 then .fin (if n1 = n2 then n1 else rm == 2) 0 0
  else if m1 = 0 then .fin n2 m2 e2
  else if m2 = 0 then .fin n1 m1 e1
  else
    let e := min e1 e2
    let v := signedAt n1 m1 e1 e + signedAt n2 m2 e2 e
    if v = 0 then .fin (rm == 2) 0 0 else .fin (decide (v < 0)) v.natAbs e

/-- a + b (R97, R43, R44) of operand values. -/
def Fmt.add (f : Fmt) (rm : Nat) (ftz : Bool) (a b : Val) : Nat × Exc :=
  match a, b with
  | .nan _, _ => f.nanOf [a, b]
  | _, .nan _ => f.nanOf [a, b]
  | .inf n1, .inf n2 => if n1 = n2 then f.round rm ftz (.inf n1) else (f.canon, nv)
  | .inf n, _ => f.round rm ftz (.inf n)
  | _, .inf n => f.round rm ftz (.inf n)
  | .fin n1 m1 e1, .fin n2 m2 e2 => f.round rm ftz (addFin rm n1 m1 e1 n2 m2 e2)

/-- a - b (R97). -/
def Fmt.sub (f : Fmt) (rm : Nat) (ftz : Bool) (a b : Val) : Nat × Exc :=
  if a.isNan || b.isNan then f.nanOf [a, b] else f.add rm ftz a b.flip

/-- The exact product; `none` for an infinity times a zero. Neither operand is a NaN. -/
def mulVal : Val → Val → Option Val
  | .fin n1 m1 e1, .fin n2 m2 e2 => some (.fin (n1 != n2) (m1 * m2) (e1 + e2))
  | .fin n1 m _, .inf n2 => if m = 0 then none else some (.inf (n1 != n2))
  | .inf n1, .fin n2 m _ => if m = 0 then none else some (.inf (n1 != n2))
  | .inf n1, .inf n2 => some (.inf (n1 != n2))
  | _, _ => none

/-- a * b (R97). -/
def Fmt.mul (f : Fmt) (rm : Nat) (ftz : Bool) (a b : Val) : Nat × Exc :=
  if a.isNan || b.isNan then f.nanOf [a, b]
  else match mulVal a b with
  | none => (f.canon, nv)
  | some v => f.round rm ftz v

/-- a * b + c with one rounding (R97). Whether an infinity times a zero signals NV beside a quiet NaN addend is left to the
implementation by IEEE 754-2019 (log entry 12). -/
def Fmt.fma (f : Fmt) (rm : Nat) (ftz : Bool) (a b c : Val) : Nat × Exc :=
  if a.isNan || b.isNan then f.nanOf [a, b, c]
  else match mulVal a b with
  | none => (f.canon, if c.isNan && !c.sig then excIf Config.fmaNanInvalid nv else nv)
  | some p => if c.isNan then f.nanOf [c] else f.add rm ftz p c

/-- The exact quotient of two non-zero finite values, with enough bits below any rounding point and a last sticky bit. -/
def divFin (m1 : Nat) (e1 : Int) (m2 : Nat) (e2 : Int) : Nat × Int :=
  let n := 64 + m2.log2
  let x := m1 <<< n
  (2 * (x / m2) + (if x % m2 = 0 then 0 else 1), e1 - e2 - (n : Int) - 1)

/-- a / b (R97). -/
def Fmt.div (f : Fmt) (rm : Nat) (ftz : Bool) (a b : Val) : Nat × Exc :=
  match a, b with
  | .nan _, _ => f.nanOf [a, b]
  | _, .nan _ => f.nanOf [a, b]
  | .inf _, .inf _ => (f.canon, nv)
  | .inf n1, .fin n2 _ _ => f.round rm ftz (.inf (n1 != n2))
  | .fin n1 _ _, .inf n2 => f.round rm ftz (.fin (n1 != n2) 0 0)
  | .fin n1 m1 e1, .fin n2 m2 e2 =>
    let n := n1 != n2
    if m2 = 0 then (if m1 = 0 then (f.canon, nv) else (f.signed n (f.maxFin + 1), dz))
    else if m1 = 0 then f.round rm ftz (.fin n 0 0)
    else
      let (q, e) := divFin m1 e1 m2 e2
      f.round rm ftz (.fin n q e)

/-- The integer square root, one bit of the root per unit of fuel. -/
def isqrtAux (x : Nat) : Nat → Nat → Nat
  | 0, r => r
  | k + 1, r =>
    let r' := r + 2 ^ k
    isqrtAux x k (if r' * r' ≤ x then r' else r)

/-- The integer square root. -/
def isqrt (x : Nat) : Nat := isqrtAux x (x.log2 / 2 + 1) 0

/-- The square root of a positive finite value with a last sticky bit. -/
def sqrtFin (m : Nat) (e : Int) : Nat × Int :=
  let (m', e') := if e % 2 = 0 then (m, e) else (2 * m, e - 1)
  let x := m' <<< 128
  let r := isqrt x
  (2 * r + (if r * r = x then 0 else 1), e' / 2 - 64 - 1)

/-- The square root (R97). -/
def Fmt.sqrt (f : Fmt) (rm : Nat) (ftz : Bool) (a : Val) : Nat × Exc :=
  match a with
  | .nan _ => f.nanOf [a]
  | .inf n => if n then (f.canon, nv) else f.round rm ftz a
  | .fin n m e =>
    if m = 0 then f.round rm ftz a
    else if n then (f.canon, nv)
    else
      let (r, e') := sqrtFin m e
      f.round rm ftz (.fin false r e')

/-- Exact comparison of two values that are no NaN: whether a < b, with -0 = +0. -/
def ltVal : Val → Val → Bool
  | .inf n1, .inf n2 => n1 && !n2
  | .inf n, _ => n
  | _, .inf n => !n
  | .fin n1 m1 e1, .fin n2 m2 e2 =>
    let e := min e1 e2
    decide (signedAt n1 m1 e1 e < signedAt n2 m2 e2 e)
  | _, _ => false

/-- R98: minimumNumber and maximumNumber with -0 below +0. -/
def Fmt.minmax (f : Fmt) (isMax ftz : Bool) (a b : Val) : Nat × Exc :=
  let fl := excIf (a.sig || b.sig) nv
  if a.isNan && b.isNan then (f.canon, fl)
  else if a.isNan then ((f.round 0 ftz b).1, fl)
  else if b.isNan then ((f.round 0 ftz a).1, fl)
  else
    let less := ltVal a b || (!ltVal b a && a.neg && !b.neg)
    ((f.round 0 ftz (if less != isMax then a else b)).1, fl)

/-- R99: the sign inverted, every other bit kept. -/
def Fmt.negate (f : Fmt) (ftz : Bool) (bits : Nat) : Nat :=
  match f.value bits with
  | .fin neg m e => if ftz && m != 0 && f.tiny m e then f.signed (!neg) 0 else Nat.xor bits (2 ^ f.body)
  | _ => Nat.xor bits (2 ^ f.body)

/-- R100. -/
def Fmt.classMask (f : Fmt) (ftz : Bool) (bits : Nat) : Nat :=
  match f.operand ftz bits with
  | .nan s => if s then 0x100 else 0x200
  | .inf n => if n then 0x1 else 0x80
  | .fin n m e =>
    if m = 0 then (if n then 0x8 else 0x10)
    else if f.tiny m e then (if n then 0x4 else 0x20)
    else (if n then 0x2 else 0x40)

/-- R101: COND 0 eq, 1 ne, 2 lt, 3 le, 4 gt, 5 ge, 6 un, 7 ord. -/
def compare (cond : Nat) (sig : Bool) (a b : Val) : Bool × Exc :=
  let unord := a.isNan || b.isNan
  let lt := !unord && ltVal a b
  let gt := !unord && ltVal b a
  let r := match cond with
    | 0 => !unord && !lt && !gt
    | 1 => unord || lt || gt
    | 2 => lt
    | 3 => !unord && !gt
    | 4 => gt
    | 5 => !unord && !lt
    | 6 => unord
    | _ => !unord
  (r, excIf (a.sig || b.sig || (sig && unord)) nv)

/-- R102. -/
def Fmt.roundInt (f : Fmt) (rm : Nat) (ftz : Bool) (a : Val) : Nat × Exc :=
  match a with
  | .nan _ => f.nanOf [a]
  | .inf _ => f.round rm ftz a
  | .fin n m e =>
    if 0 ≤ e ∨ m = 0 then f.round rm ftz a
    else
      let (q, inexact) := roundAt rm n m e 0
      ((f.round rm ftz (.fin n q 0)).1, excIf inexact nx)

/-- Conversion to a floating-point format of R33 (R45). -/
def Fmt.convert (f : Fmt) (rm : Nat) (ftz : Bool) (a : Val) : Nat × Exc :=
  match a with
  | .nan _ => f.nanOf [a]
  | v => f.round rm ftz v

/-- Conversion to a narrow floating-point format (R45): always saturating. E2M1 has neither NaN nor infinity, E4M3 no
infinity. -/
def Fmt.convertSat (f : Fmt) (rm : Nat) (a : Val) : Nat × Exc :=
  match a with
  | .nan s => if f.special = .none then (0, nv) else (f.canon, excIf s nv)
  | .inf n => if f.special = .ieee then (f.signed n (f.maxFin + 1), 0) else (f.signed n f.maxFin, ovf ||| nx)
  | .fin n m e => if m = 0 then (f.signed n 0, 0) else f.roundFin rm false true n m e

/-- Conversion to an integer in lo..hi (R45, R104): NaN gives 0, a value beyond the range the nearer end; NV for both. -/
def toInt (rm : Nat) (lo hi : Int) (a : Val) : Int × Exc :=
  match a with
  | .nan _ => (0, nv)
  | .inf n => (if n then lo else hi, nv)
  | .fin n m e =>
    let (q, inexact) := roundAt rm n m e 0
    let v : Int := if n then -(q : Int) else (q : Int)
    if v < lo then (lo, nv) else if hi < v then (hi, nv) else (v, excIf inexact nx)

/-- An integer as a value. -/
def ofInt (v : Int) : Val := .fin (decide (v < 0)) v.natAbs 0

/-- One TS8 term in units of 2^-6 (R35). -/
def ts8Term (sign : Bool) (sh : Nat) : Int :=
  if sh = 7 then 0 else if sign then -((64 >>> sh : Nat) : Int) else ((64 >>> sh : Nat) : Int)

/-- The value of a TS8 byte in units of 2^-6 (R35). -/
def ts8Units (b : Nat) : Int :=
  ts8Term (b.testBit 7) (b / 16 % 8) + ts8Term (b.testBit 3) (b % 8)

/-- The value of a TS8 byte. -/
def ts8Value (b : Nat) : Val := .fin (decide (ts8Units b < 0)) (ts8Units b).natAbs (-6)

/-- R36: the codes of a positive value in the order that the canonical rule prefers them: 2, one term, then two terms of
different shift with the largest EA first. -/
def ts8Codes : List Nat :=
  [0x00] ++ (List.range 7).map (fun i => i * 16 + 7) ++
  ([6, 5, 4, 3, 2, 1, 0].flatMap fun i => ([6, 5, 4, 3, 2, 1, 0].filter (fun j => i < j)).flatMap
    fun j => [i * 16 + j, i * 16 + 8 + j])

/-- The canonical code of a magnitude in units of 2^-6, if TS8 holds it. -/
def ts8Canon (u : Nat) : Option Nat :=
  if u = 0 then some 0x77 else ts8Codes.find? fun c => ts8Units c == (u : Int)

/-- The canonical code of a signed value (R36). -/
def ts8Signed (neg : Bool) (u : Nat) : Nat :=
  match ts8Canon u with
  | none => 0x77
  | some c => if u = 0 ∨ neg = false then c
    else if c % 16 = 7 then c + 0x80 else Nat.xor c 0x88

/-- Conversion into TS8 (R45, R46): nearest, ties to the smaller magnitude. -/
def toTs8 (a : Val) : Nat × Exc :=
  match a with
  | .nan _ => (0x77, nv)
  | .inf n => (ts8Signed n 128, ovf ||| nx)
  | .fin n m e =>
    -- the magnitude in units of 2^-6 is x / d
    let x := m <<< (e + 6).toNat
    let d := 2 ^ (-(e + 6)).toNat
    if 128 * d < x then (ts8Signed n 128, ovf ||| nx)
    else
      let us := (List.range 129).filter fun u => (ts8Canon u).isSome
      let lo := ((us.filter fun u => u * d ≤ x).getLast?).getD 0
      let hi := ((us.filter fun u => x ≤ u * d).head?).getD 128
      let u := if 2 * x ≤ (lo + hi) * d then lo else hi
      (ts8Signed n u, excIf (u * d != x) nx)

/-- An element format code of R50 that block scaling converts into (R107). -/
inductive Elem | e4m3 | e5m2 | e2m1 | ts8 | i8 | i4
deriving DecidableEq, Repr

/-- R107; codes outside 4-9 are not reached. -/
def Elem.ofCode (nf : Nat) : Elem :=
  match nf with
  | 4 => .e4m3 | 5 => .e5m2 | 6 => .e2m1 | 7 => .ts8 | 8 => .i8 | _ => .i4

/-- Width in bits (R107). -/
def Elem.bits : Elem → Nat
  | .e2m1 => 4 | .i4 => 4 | _ => 8

/-- EMAX of R47. -/
def Elem.emax : Elem → Int
  | .e4m3 => 8 | .e5m2 => 15 | .e2m1 => 2 | .ts8 => 1 | .i8 => 6 | .i4 => 2

/-- A two's-complement reading of the low w bits. -/
def sintOf (w b : Nat) : Int := if (b % 2 ^ w).testBit (w - 1) then ((b % 2 ^ w : Nat) : Int) - 2 ^ w else ((b % 2 ^ w : Nat) : Int)

/-- The value of an element. -/
def Elem.value (t : Elem) (b : Nat) : Val :=
  match t with
  | .e4m3 => Fp.e4m3.value b
  | .e5m2 => Fp.e5m2.value b
  | .e2m1 => Fp.e2m1.value b
  | .ts8 => ts8Value b
  | .i8 => ofInt (sintOf 8 b)
  | .i4 => ofInt (sintOf 4 b)

/-- The pattern of a signed integer in w bits. -/
def intPattern (w : Nat) (v : Int) : Nat := (v % (2 ^ w : Int)).toNat

/-- Conversion into an element format (R45, R46). -/
def Elem.convert (t : Elem) (rm : Nat) (a : Val) : Nat × Exc :=
  match t with
  | .e4m3 => Fp.e4m3.convertSat rm a
  | .e5m2 => Fp.e5m2.convertSat rm a
  | .e2m1 => Fp.e2m1.convertSat rm a
  | .ts8 => toTs8 a
  | .i8 => let (v, x) := toInt rm (-128) 127 a; (intPattern 8 v, x)
  | .i4 => let (v, x) := toInt rm (-8) 7 a; (intPattern 4 v, x)

/-- A finite value times a power of two. -/
def Val.scale (k : Int) : Val → Val
  | .fin n m e => .fin n m (e + k)
  | v => v

/-- R48: one element under scale code `code`; code 0xFF writes every element as +0 (log entry 13). -/
def quantize (t : Elem) (rm : Nat) (code : Nat) (v : Val) : Nat × Exc :=
  if code = 0xFF then (if t = .ts8 then 0x77 else 0, 0)
  else t.convert rm (v.scale (127 - (code : Int)))

/-- R49: one element of the wide format from a narrow element and a scale code. -/
def dequantize (t : Elem) (wide : Fmt) (rm : Nat) (ftz : Bool) (code b : Nat) : Nat × Exc :=
  match t.value b with
  | .nan s => (wide.canon, excIf s nv)
  | v => if code = 0xFF then (wide.canon, 0) else wide.round rm ftz (v.scale ((code : Int) - 127))

/-- The exponent of the leading bit of a non-zero finite value. -/
def leadExp : Val → Option Int
  | .fin _ m e => if m = 0 then none else some (e + (m.log2 : Int))
  | _ => none

/-- The largest of the leading exponents. -/
def maxLead : List Val → Option Int
  | [] => none
  | v :: vs =>
    match leadExp v, maxLead vs with
    | some a, some b => some (max a b)
    | some a, none => some a
    | none, r => r

/-- Whether a value is an infinity. -/
def Val.isInf : Val → Bool
  | .inf _ => true
  | _ => false

/-- R47. -/
def scaleOf (t : Elem) (vs : List Val) : Nat × Exc :=
  if vs.any Val.isNan then (0xFF, nv)
  else if vs.any Val.isInf ∧ t ≠ .e5m2 then (0xFF, nv)
  else match maxLead vs with
  | none => (0x7F, 0)
  | some l =>
    let k := l - t.emax
    if 127 < k then (254, ovf) else ((max k (-127) + 127).toNat, 0)

/-- R52: what the special operands of a list of products give: NaN (with whether it is invalid), an infinity, or nothing. -/
structure Chunk where
  nan : Bool
  invalid : Bool
  pinf : Bool
  ninf : Bool
deriving DecidableEq, Repr

/-- One product's part in `Special` of R52. -/
def Chunk.step (s : Chunk) (p : Val × Val) : Chunk :=
  let s := { s with nan := s.nan || p.1.isNan || p.2.isNan, invalid := s.invalid || p.1.sig || p.2.sig }
  if p.1.isNan || p.2.isNan then s
  else match mulVal p.1 p.2 with
  | none => { s with nan := true, invalid := true }
  | some (.inf true) => { s with ninf := true }
  | some (.inf false) => { s with pinf := true }
  | some _ => s

/-- `Special` of R52 over a list of products. -/
def chunkOf (ps : List (Val × Val)) : Chunk :=
  let s := ps.foldl Chunk.step ⟨false, false, false, false⟩
  if s.pinf && s.ninf then { s with nan := true, invalid := true } else s

/-- A signed dyadic m * 2^e. -/
structure Dyadic where
  m : Int
  e : Int
deriving DecidableEq, Repr

/-- Exact sum. -/
def Dyadic.add (a b : Dyadic) : Dyadic :=
  if a.m = 0 then b else if b.m = 0 then a
  else
    let e := min a.e b.e
    ⟨a.m * 2 ^ (a.e - e).toNat + b.m * 2 ^ (b.e - e).toNat, e⟩

/-- A finite value as a signed dyadic; anything else is 0. -/
def Val.dyadic : Val → Dyadic
  | .fin n m e => ⟨if n then -(m : Int) else (m : Int), e⟩
  | _ => ⟨0, 0⟩

/-- The exact product of two finite values. -/
def mulDyadic (p : Val × Val) : Dyadic :=
  let a := p.1.dyadic
  let b := p.2.dyadic
  ⟨a.m * b.m, a.e + b.e⟩

/-- The exact sum of finite products (R52). -/
def exactSum (ps : List (Val × Val)) : Dyadic := ps.foldl (fun s p => s.add (mulDyadic p)) ⟨0, 0⟩

/-- R56: sum of products plus addend with one rounding. -/
def Fmt.dot (f : Fmt) (rm : Nat) (ftz : Bool) (ps : List (Val × Val)) (c : Val) : Nat × Exc :=
  let s := chunkOf ps
  if s.nan || c.isNan then (f.canon, excIf (s.invalid || c.sig) nv)
  else if s.pinf || s.ninf then
    match c with
    | .inf n => if n = s.ninf then f.round rm ftz (.inf n) else (f.canon, nv)
    | _ => f.round rm ftz (.inf s.ninf)
  else match c with
  | .inf n => f.round rm ftz (.inf n)
  | c =>
    let t := (exactSum ps).add c.dyadic
    if t.m = 0 then
      let negs := c.neg :: ps.map fun p => p.1.neg != p.2.neg
      let zeros := (c.dyadic.m == 0) && ps.all fun p => (mulDyadic p).m == 0
      f.round rm ftz (.fin (if zeros && negs.all id then true else if zeros && negs.all (! ·) then false else rm == 2) 0 0)
    else f.round rm ftz (.fin (decide (t.m < 0)) t.m.natAbs t.e)

/-- Bits of the fixed-point fractions of the estimates below. -/
def fixBits : Nat := 160

/-- ln 2 in units of 2^-160, by the series sum over n of 1 / (n 2^n). -/
def ln2Aux : Nat → Nat
  | 0 => 0
  | n + 1 => 2 ^ (fixBits + 40) / ((n + 1) * 2 ^ (n + 1)) + ln2Aux n

/-- ln 2 in units of 2^-160. -/
def ln2Fix : Nat := ln2Aux 200 / 2 ^ 40

/-- The exponential series: term * (1 + x/k (1 + x/(k+1) ...)) with x in units of 2^-160. -/
def expSeries (x : Nat) : Nat → Nat → Nat → Nat
  | 0, _, _ => 0
  | n + 1, k, term => term + expSeries x n (k + 1) (term * x / (2 ^ fixBits * k))

/-- 2^(f / 2^160) in units of 2^-160, for f < 2^160. -/
def exp2Fix (f : Nat) : Nat := expSeries (f * ln2Fix / 2 ^ fixBits) 48 1 (2 ^ fixBits)

/-- log2 of x / 2^320 in [1, 2), n bits: x is squared, each doubling past 2 gives a 1. -/
def log2Aux : Nat → Nat → Nat → Nat
  | 0, _, acc => acc
  | n + 1, x, acc =>
    let y := x * x / 2 ^ 320
    if 2 ^ 321 ≤ y then log2Aux n (y / 2) (2 * acc + 1) else log2Aux n y (2 * acc)

/-- The estimate functions (R103). -/
inductive Est | rcp | rsq | ex2 | lg2
deriving DecidableEq, Repr

/-- The number of the function in Config.estimate. -/
def Est.code : Est → Nat | .rcp => 0 | .rsq => 1 | .ex2 => 2 | .lg2 => 3

/-- The exact result of an estimate of a non-zero finite operand, or its value with a last sticky bit, and whether it is
exact. A negative operand of rsq or lg2 is not reached. -/
def Est.exact (fn : Est) (n : Bool) (m : Nat) (e : Int) : Bool × Nat × Int × Bool :=
  let pow2 := m == 2 ^ m.log2
  match fn with
  | .rcp => let (q, x) := divFin 1 0 m e; (n, q, x, pow2)
  | .rsq =>
    let m2 := if e % 2 = 0 then m else 2 * m
    let e2 := if e % 2 = 0 then e else e - 1
    let (q, x) := divFin 1 0 m2 e2
    -- the quotient's exponent is made even before the root is taken
    let (r, y) := sqrtFin (q <<< 200) (x - 200)
    let pow4 := pow2 && ((m.log2 : Int) + e) % 2 == 0
    if pow4 then (false, 1, -(((m.log2 : Int) + e) / 2), true) else (false, Nat.lor r 1, y, false)
  | .ex2 =>
    let big : Int := 5000
    if 16 ≤ (m.log2 : Int) + e then (false, 1, if n then -big else big, false)
    else
      let num := m <<< (e + (fixBits : Int)).toNat
      let fix := if 0 ≤ e + (fixBits : Int) then num else m >>> (-(e + (fixBits : Int))).toNat
      let isInt := decide (0 ≤ e) || m % 2 ^ (-e).toNat == 0
      let i := fix / 2 ^ fixBits
      let f := fix % 2 ^ fixBits
      if isInt then (false, 1, if n then -(i : Int) else (i : Int), true)
      else if n then (false, 2 * exp2Fix (2 ^ fixBits - 1 - f) + 1, -(i : Int) - 1 - (fixBits : Int) - 1, false)
      else (false, 2 * exp2Fix f + 1, (i : Int) - (fixBits : Int) - 1, false)
  | .lg2 =>
    let l := m.log2
    let i := e + (l : Int)
    if pow2 then (decide (i < 0), i.natAbs, 0, true)
    else
      let bits := log2Aux fixBits (m <<< 320 >>> l) 0
      let v : Int := i * 2 ^ fixBits + (bits : Int)
      if v < 0 then (true, 2 * v.natAbs - 1, -(fixBits : Int) - 1, false)
      else (false, 2 * v.natAbs + 1, -(fixBits : Int) - 1, false)

/-- |a - b| ≤ c for dyadics. -/
def Dyadic.near (a b c : Dyadic) : Bool :=
  let d := a.add ⟨-b.m, b.e⟩
  decide ((Dyadic.add ⟨(d.m.natAbs : Int), d.e⟩ ⟨-c.m, c.e⟩).m ≤ 0)

/-- R103: whether an estimate lies within the bound of the exact value (given to 150 bits, so the bound is widened by less
than 2^-80): relative 2^-22, absolute 2^-22 for log2 of [0.5, 2). -/
def Est.within (fn : Est) (lead : Int) (est exactV : Val) : Bool :=
  match est with
  | .fin n m e =>
    let x := exactV.dyadic
    let tol : Dyadic := if fn = .lg2 ∧ (lead = -1 ∨ lead = 0) then ⟨1, -22⟩ else ⟨(x.m.natAbs : Int), x.e - 22⟩
    m != 0 && n == exactV.neg && Dyadic.near (Val.fin n m e).dyadic x (tol.add ⟨tol.m, tol.e - 60⟩)
  | _ => false

/-- R103. For FP16 and BF16 the correctly rounded value; for FP32 and FP64 the implementation's own value wherever it keeps the
bound and the result is neither exact, zero nor infinite (log entry 9). A tiny result that .ftz writes as zero signals UF and NX, and an exact
subnormal signals nothing (log entry 154). -/
def Fmt.estimate (f : Fmt) (fn : Est) (ftz : Bool) (bits : Nat) : Nat × Exc :=
  let a := f.operand ftz bits
  match a with
  | .nan _ => f.nanOf [a]
  | .inf n =>
    match fn with
    | .rcp => (f.signed n 0, 0)
    | .rsq => if n then (f.canon, nv) else (0, 0)
    | .ex2 => if n then (0, 0) else (f.maxFin + 1, 0)
    | .lg2 => if n then (f.canon, nv) else (f.maxFin + 1, 0)
  | .fin n m e =>
    if m = 0 then
      match fn with
      | .rcp => (f.signed n (f.maxFin + 1), dz)
      | .rsq => (f.signed n (f.maxFin + 1), dz)
      | .ex2 => f.round 0 ftz (.fin false 1 0)
      | .lg2 => (f.signed true (f.maxFin + 1), dz)
    else if n && (fn == .rsq || fn == .lg2) then (f.canon, nv)
    else
      let (rn, rm, re, isExact) := fn.exact n m e
      let (cr, fl) := f.round 0 ftz (.fin rn rm re)
      if isExact || decide (f.fb < 23) then (cr, fl)
      else
        let mine := Config.estimate fn.code f.width bits % 2 ^ f.width
        let v := f.value mine
        let crMag := cr % 2 ^ f.body
        if crMag == 0 || decide (f.maxFin < crMag) then (cr, fl)
        else if fn.within (e + (m.log2 : Int)) v (.fin rn rm re) then
          let sub := decide (mine % 2 ^ f.body < 2 ^ f.fb)
          if sub && ftz then (f.signed rn 0, unf ||| nx) else (mine, excIf sub unf ||| nx)
        else (cr, fl)

end Sys2Proof.Fp
end

