-- ==== Sys2Proof/Machine/State.lean ====
section
/-! DEFINITION. The state of one package as plain data: strands (R16), groups, teams and cores (R21, R149-R180), the matrix
engine (R223), dies with their schedulers, routers, view engines and configuration words (R255-R416), the physical memory
(R388) and who moves next. Sparse maps hold only what differs from the value of an unlisted key. -/

namespace Sys2Proof.Machine

/-- A strand's lane state (R16). `preds` bit n is pn for n ≤ 6; p7 is wired to 1 in the accessor. -/
structure Lane where
  xs : Sparse Word
  preds : BitVec 8
  meet : Word
  fcsr : Word
  utvec : Word
  uframe : Word
  cbank : Word
  ssa : Word
  serial : Word
  sid : Word
  nest : Nat
deriving DecidableEq, Repr

/-- A lane slot that no strand has written (log entry 2). -/
def Lane.zero : Lane := ⟨[], 0, 0, 0, 0, 0, 0, 0, 0, 0, 0⟩

/-- Why a path does not issue (R166, R127). Lanes already served are in the path's `done` mask (R192). -/
inductive Wait
  /-- not waiting -/
  | ready
  /-- queue register n cannot yet serve the instruction (R85) -/
  | queue (n : Nat)
  /-- a full/empty or future word (R192) -/
  | word
  /-- arrived by a `bar.sync` of `len` bytes, awaiting the end of generation `gen` (R164) -/
  | barrier (clu : Bool) (bn gen len : Nat)
  /-- the group has arrived in the open generation and waits to arrive in the next (R164) -/
  | barBusy (clu : Bool) (bn gen : Nat)
  /-- an async barrier object (R216) -/
  | abar
  /-- a ring slot or a free cassette entry (R218, R270) -/
  | ring
  /-- arrived at the meeting address (R120) -/
  | meeting
  /-- arrived at `join jk` (R121) -/
  | join (k : Nat)
  /-- at `waitj jk` (R122) -/
  | waitj (k : Nat)
  /-- join counters (R369) -/
  | jwait
  /-- system-call replies (R142) -/
  | reply
  /-- `view.sync` with its captured targets (R331) -/
  | viewSync (targets : List Nat)
  /-- a held WAIT view read (R322) -/
  | viewRead
  /-- a publication, or a write at the arbiter, that is not acknowledged yet: the lines it waits for (R206, R345, R418) -/
  | publish (lines : List Nat)
  /-- an instruction kept whole: n fault records are outstanding (R424, R425) -/
  | fault (n : Nat)
  /-- a lane, or a whole path, that awaits a held slot (R149): cause, value, detail and the record already written -/
  | split (cause : Nat) (tval : Word) (detail : Mask) (tag : Option Nat)
  /-- the other lanes of such a path, which completed the instruction (R149) -/
  | splitOthers
deriving DecidableEq, Repr

/-- A view read that is held (R322, R387): its lane, 0 for a command; the block that holds it (`viewKey`); the bytes that it reads there; and,
once the slice has served it, a fault kind, 0 for none, and the bytes as they stood. -/
structure ViewRead where
  lane : Nat
  key : Nat
  pas : List Nat
  reply : Option (Nat × List Byte)
deriving DecidableEq, Repr

/-- A path of a group (R115): one next pc and an active mask. `done` holds the lanes of the instruction at `pc` that have
already performed, `got` those whose system-call reply has been delivered (R192, R142). `atSafept` is the live mask of the
`safept` the path is stopped at (R127); `frozen` marks a path stopped by a user handler (R135). `lastFault` holds the lane, address and kind of the last
records written for the instruction at `pc` (R355). `tries` counts the refusals of its request (R304), which is not made again before clk
`again`. `latch` is an operand that the instruction read when it started and that its served lanes may have overwritten (R267). `trap` is a deadlock
trap that the path takes if its wait still stands when it issues again: `cr.tval` and DETAIL (R378, R381). `popped` are the channels and
entries that an arrival which still waits has popped, in order. `reads` are the view reads of the instruction at `pc` that have been held
(R322). -/
structure Path where
  pc : Word
  mask : Mask
  wait : Wait
  since : Nat
  done : Mask
  got : Mask
  frozen : Bool
  atSafept : Option Word
  lastFault : List (Nat × Word × Nat)
  tries : Nat
  again : Nat
  latch : Option Word
  trap : Option (Word × Mask)
  popped : List (Nat × Word)
  reads : List ViewRead
deriving DecidableEq, Repr

/-- No path. -/
def Path.zero : Path := ⟨0, 0, .ready, 0, 0, 0, false, none, [], 0, 0, none, none, [], []⟩

/-- A path that is about to execute at `pc`. -/
def Path.start (pc : Word) (mask : Mask) : Path := ⟨pc, mask, .ready, 0, 0, 0, false, none, [], 0, 0, none, none, [], []⟩

/-- A segment register (R153). -/
structure Seg where
  limit : Mask
  base : Mask
deriving DecidableEq, Repr

/-- What a held group remembers (R139, R352): its original slot, the cause, the outstanding record's TAG, and whether it runs
again since its fault was completed with RETRY. `stags` are the lanes whose save area could not be written, with the TAG of that record
(R428). -/
structure Held where
  orig : Nat
  cause : Nat
  tag : Option Nat
  running : Bool
  stags : List (Nat × Nat)
deriving DecidableEq, Repr

/-- A group slot, a held slot, or a hardware strand of a latency core. -/
structure Group where
  occ : Bool
  team : Nat
  gidx : Nat
  sregs : Sparse Word
  jmask : Sparse Mask
  qbind : Sparse Word
  segs : Sparse Seg
  asid : Word
  cause : Word
  epc : Word
  tval : Word
  priv : Bool
  ut : Bool
  kt : Bool
  ktvec : Word
  ipend : Word
  ienable : Word
  wfi : Bool
  halted : Bool
  restart : Word
  count : Nat
  regs : Nat
  live : Mask
  lanes : Sparse Lane
  paths : List Path
  lastIssue : Nat
  held : Option Held
  draft : Option Nat
  isDraft : Bool
  regPoison : List Nat
deriving DecidableEq, Repr

/-- An empty slot. -/
def Group.empty : Group :=
  { occ := false, team := 0, gidx := 0, sregs := [], jmask := [], qbind := [], segs := [], asid := 0, cause := 0, epc := 0,
    tval := 0, priv := false, ut := false, kt := false, ktvec := 0, ipend := 0, ienable := 0, wfi := false, halted := false,
    restart := 0, count := 0, regs := 64, live := 0, lanes := [], paths := [], lastIssue := 0, held := none, draft := none,
    isDraft := false, regPoison := [] }

/-- A named or cluster barrier (R163, R254) with the groups that have arrived in the open generation. -/
structure Barrier where
  members : Mask
  gen : Nat
  arrived : Nat
  count : Nat
  who : List Nat
deriving DecidableEq, Repr

/-- A barrier with no generation open (R163). -/
def Barrier.zero : Barrier := ⟨0, 0, 0, 0, []⟩

/-- A channel (R158, R159): hardware entries, then the entries in overflow pages; `used` entries of the first page have
left it. `bad` are the places of poisoned entries, counted from the head (R356). -/
structure Channel where
  bound : Bool
  team : Nat
  noext : Bool
  exts : Nat
  hw : List Word
  ov : List Word
  pages : List Word
  used : Nat
  bad : List Nat
deriving DecidableEq, Repr

/-- A free channel slot. -/
def Channel.zero : Channel := ⟨false, 0, false, 0, [], [], [], 0, []⟩

/-- A pushed launch record (R360, R364): its 64-byte header, where its store slot is, what the push fixed and when it reached the
scheduler. -/
structure PendRec where
  hdr : BitVec 512
  slot : Nat
  tdie : Nat
  asid : Word
  nest : Nat
  prio : Nat
  grid : Word
  spawned : Bool
  note : Option Word
  since : Nat
  s0s31 : Sparse Word
deriving DecidableEq, Repr

/-- The rollback shadow of a team (R175). -/
structure Shadow where
  groups : Sparse Group
  loc : Mem
  fe : Sparse Nat
  bars : Sparse Barrier
  chans : Sparse Channel
deriving DecidableEq, Repr

/-- A store held in rollback mode (R175, R299), with the generation of its translation (R345) and the clk of its issue. -/
structure HeldStore where
  epoch : Nat
  pa : Nat
  n : Nat
  data : BitVec 128
  va : Word
  gen : Nat
  chk : Bool
  issued : Nat
deriving DecidableEq, Repr

/-- A team table entry (R21, R178). `ckey` is the team id of rank 0 at placement, which names the cluster. `locBase` and `locSize` give its local
memory and, at their end, its slice of `cluSize` bytes of cluster memory. `preempting`: its groups
are being stopped (R376); `asked`: system software asked for it (R375); before clk `again` the attempt is not repeated. -/
structure Team where
  occ : Bool
  id : Word
  grid : Word
  index : Nat
  rank : Nat
  ckey : Word
  cw : Nat
  ch : Nat
  members : List (Nat × Nat)
  mxe : Bool
  rb : Bool
  dr : Bool
  groups : Nat
  migrated : Bool
  base : Nat
  eff : Nat
  placedAt : Nat
  bars : Sparse Barrier
  cbars : Sparse Barrier
  pend : List PendRec
  lastMove : Nat
  moved : Bool
  shadow : Option Shadow
  heldStores : List HeldStore
  epoch : Nat
  unrec : Bool
  consumed : List Nat
  preempting : Bool
  asked : Bool
  again : Nat
  contsOut : Nat
  record : Option PendRec
  locBase : Nat
  locSize : Nat
  cluSize : Nat
deriving DecidableEq, Repr

/-- An empty team table entry. -/
def Team.empty : Team :=
  { occ := false, id := 0, grid := 0, index := 0, rank := 0, ckey := 0, cw := 0, ch := 0, members := [], mxe := false, rb := false,
    dr := false, groups := 0, migrated := false, base := 0, eff := 0, placedAt := 0, bars := [], cbars := [], pend := [],
    lastMove := 0, moved := false, shadow := none, heldStores := [], epoch := 0, unrec := false, consumed := [],
    preempting := false, asked := false, again := 0, contsOut := 0, record := none, locBase := 0, locSize := 0, cluSize := 0 }

/-- L1 states of a line (R286). -/
inductive Moesi | i | s | e | o | m
deriving DecidableEq, Repr

/-- Unpublished bytes of a line that were stored under another identity than the line's latest one (R345). -/
structure UmPart where
  mask : BitVec 128
  va : Word
  asid : Word
  gen : Nat
  chk : Bool
deriving DecidableEq, Repr

/-- A line of a core's L1 (R287): bytes, which of them are valid, which are unpublished (UM), the stale bit, whether UM was
non-zero in the closing phase (R291), the bytes pinned by rollback (R175), the identity its latest translation carried and those of
older unpublished bytes (R345), and whether it is uncorrectable (R356). -/
structure L1Line where
  data : BitVec 1024
  vm : BitVec 128
  um : BitVec 128
  pin : BitVec 128
  stale : Bool
  touched : Bool
  st : Moesi
  pf : Bool
  va : Word
  asid : Word
  gen : Nat
  chk : Bool
  older : List UmPart
  bad : Bool
deriving DecidableEq, Repr

/-- No line. -/
def L1Line.zero : L1Line := ⟨0, 0, 0, 0, false, false, .i, false, 0, 0, 0, false, [], false⟩

/-- A translation-cache entry (R343, R358); `limit` is the object's size at the walk; `host` and `cfg`: the object maps a host window
(R389) or a configuration block (R390). -/
structure TlbEntry where
  asid : Nat
  inc : Nat
  obj : Nat
  limit : Nat
  k : Nat
  inv : Bool
  voff : Nat
  fill : Nat
  gen : Nat
  frame : Nat
  home : Nat
  remote : Bool
  vsh : Bool
  viewed : Bool
  rowl : Nat
  fut : Bool
  d : Bool
  xwr : BitVec 3
  host : Bool
  cfg : Bool
deriving DecidableEq, Repr

/-- A descriptor that a region's cache holds (R343), its eight words low first (R339). -/
structure CachedDesc where
  asid : Nat
  inc : Nat
  obj : Nat
  words : BitVec 512
deriving DecidableEq, Repr

/-- An AST entry that a region's cache holds (R336, R343). -/
structure CachedAst where
  asid : Nat
  w0 : Word
  w1 : Word
deriving DecidableEq, Repr

/-- An asynchronous command in flight (R208-R214). `tag` tells it from the others of its core; `tries`, `again` and `reads` are as in `Path`, for its
view reads (R322). -/
structure AsyncCmd where
  kind : Nat
  team : Nat
  asid : Word
  segs : Sparse Seg
  src : Word
  dst : Word
  comp : Word
  shape : BitVec 1024
  coords : List Word
  scope : Scope
  acq : Bool
  rel : Bool
  lane : Nat
  slot : Nat
  stalled : Option Nat
  waiting : Bool
  tag : Nat
  tries : Nat
  again : Nat
  reads : List ViewRead
deriving DecidableEq, Repr

/-- The matrix engine (R223). `upset` counts the residue mismatches that its next computations meet (R240). -/
structure Mxe where
  st : Nat
  cpc : Nat
  fmt : Mask
  rings : BitVec 128
  entry : Nat
  held : Sparse Nat
  err : Nat
  exc : BitVec 5
  pois : BitVec 4
  rst : Bool
  owner : Option Nat
  seg : Seg
  retry : Nat
  poisoned : Nat
  upset : Nat
deriving DecidableEq, Repr

/-- The engine after reset: idle, every field 0 (R241). -/
def Mxe.zero : Mxe := ⟨0, 0, 0, 0, 0, [], 0, 0, 0, false, none, ⟨0, 0⟩, 0, 0, 0⟩

/-- A cluster store held at the writer (R188). -/
structure CluStore where
  core : Nat
  off : Nat
  byte : Byte
deriving DecidableEq, Repr

/-- The split of a core's pool in units of 16 KiB; a = 0 while none is fixed (R150, R177). -/
structure Split where
  a : Nat
  b : Nat
  c : Nat
deriving DecidableEq, Repr

/-- A core: SIMT 0-1,023 or latency 1,024-1,183. `sasid` is the address space in which `cr.sbuf` was written, `sampledAt` when the
sampler last acted; it issues again at clk `fwUntil` (R167) and `drainUntil` (R283). `illegal` is an illegal state
that has been detected: the team, and what is illegal (R283): 1 its engine's sequencer, 2 an ECC copy, 0 other state. -/
structure Core where
  slots : Sparse Group
  teams : Sparse Team
  split : Split
  loc : Mem
  fe : Sparse Nat
  acc : Mem
  mxe : Mxe
  l1 : Sparse L1Line
  cluHeld : List CluStore
  async : List AsyncCmd
  chans : Sparse Channel
  sample : Word
  sbuf : Word
  widx : Word
  dropped : Word
  sasid : Word
  sampledAt : Nat
  lastSlot : Nat
  pfi : Word
  pfu : Word
  pfl : Word
  pfn : Word
  pfs : Word
  tlb : List TlbEntry
  fw : Bool
  fwUntil : Nat
  drainUntil : Nat
  illegal : Option (Nat × Nat)
  poison : List Nat
deriving DecidableEq, Repr

/-- A core after reset: no group, no split, counters 0. -/
def Core.empty : Core :=
  { slots := [], teams := [], split := ⟨0, 0, 0⟩, loc := [], fe := [], acc := [], mxe := Mxe.zero, l1 := [], cluHeld := [],
    async := [], chans := [], sample := 0, sbuf := 0, widx := 0, dropped := 0, sasid := 0, sampledAt := 0, lastSlot := 39, pfi := 0, pfu := 0, pfl := 0,
    pfn := 0, pfs := 0, tlb := [], fw := false, fwUntil := 0, drainUntil := 0, illegal := none, poison := [] }

/-- What the completion of a fault record acts on (R355, R425, R429). -/
inductive FTarget
  | none
  | held (core slot : Nat)
  | path (core slot lane : Nat)
  | engine (core tag : Nat)
  | view (entry block : Nat)
  | input (grid : Word)
  | done (grid : Word)
  | save (core slot : Nat)
deriving DecidableEq, Repr

/-- A fault record (R354). -/
structure FRec where
  src : Nat
  cause : Nat
  kind : Nat
  rpt : Bool
  acc : Nat
  needc : Bool
  seq : Nat
  addr : Word
  strand : Word
  team : Nat
  core : Nat
  slot : Nat
  lane : Nat
  pc : Word
  ctx : Word
  detail : Word
  target : FTarget
deriving DecidableEq, Repr

/-- A request that is held at a slice (R303, R322): one for each lane. `op`: 0 ldf, 1 ldfe, 2 stef, 5 a view read. `key` names the word
(`FeRef.key`) or the view block (`viewKey`), `slice` the home slice of a future word or of the block's bytes. A view read of an
asynchronous command stands under slot 64 and the command's tag; `data` is its physical address. -/
structure Defer where
  slice : Nat
  key : Nat
  op : Nat
  core : Nat
  slot : Nat
  lane : Nat
  dst : Dst
  data : Word
  sgn : Bool
deriving DecidableEq, Repr

/-- The state of a future word (R192, R193, R302): full or empty, its taker's die and team id, and the object that it belongs to;
a word of another object reads empty. -/
structure FutWord where
  full : Bool
  taker : Option (Nat × Word)
  asid : Mask
  obj : Nat
deriving DecidableEq, Repr

/-- A future word on which nothing has operated. -/
def FutWord.zero : FutWord := ⟨false, none, 0, 0⟩

/-- A record of a cassette's table (R258, R259). -/
structure RecEntry where
  value : Word
  seq : Nat
  st : Nat
  stg : Nat
  done : BitVec 8
  core : Nat
  slot : Nat
  start : Nat
  routed : Nat
  log : Mask
deriving DecidableEq, Repr

/-- A free table entry. -/
def RecEntry.zero : RecEntry := ⟨0, 0, 0, 0, 0, 0, 0, 0, 0, 0xFFFFFFFF⟩

/-- A cassette of a stage router (R255-R266). `tcore` and `toff` are where TABLE lies: a core and an offset in its local
share. -/
structure Cassette where
  decl : Bool
  owner : Word
  tcore : Nat
  toff : Nat
  asid : Word
  ctrl : Word
  table : Word
  logBase : Word
  logLen : Nat
  lfsr : Mask
  draws : Nat
  nextSeq : Nat
  lastSeq : Nat
  retired : Nat
  rejected : Nat
  windows : Nat
  winRet : Nat
  wts : Sparse Nat
  ent : Sparse Nat
  pass : Sparse Nat
  cost : Sparse Nat
  entries : Sparse RecEntry
  ports : Sparse (List Nat)
  closed : Bool
  logErr : Bool
deriving DecidableEq, Repr

/-- An undeclared cassette. -/
def Cassette.zero : Cassette :=
  { decl := false, owner := 0, tcore := 0, toff := 0, asid := 0, ctrl := 0, table := 0, logBase := 0, logLen := 0, lfsr := 0,
    draws := 0, nextSeq := 0, lastSeq := 0, retired := 0, rejected := 0, windows := 0, winRet := 0, wts := [], ent := [],
    pass := [], cost := [], entries := [], ports := [], closed := false, logErr := false }

/-- A stage router (R255, R281). -/
structure Router where
  cas : Sparse Cassette
  drains : Nat
deriving DecidableEq, Repr

/-- A router with no cassette. -/
def Router.zero : Router := ⟨[], 0⟩

/-- A continuation (R370): its core, team entry, saved group and swap pages. -/
structure Cont where
  core : Nat
  team : Nat
  group : Group
  pages : List Word
deriving DecidableEq, Repr

/-- A team as pre-emption saves it (R376): its old core × 32 + team entry, its groups by slot, its part of the core's memories by
old offset, and the pages taken. -/
structure SavedTeam where
  key : Nat
  team : Team
  groups : Sparse Group
  loc : Mem
  fe : Sparse Nat
  chans : Sparse Channel
  mxe : Option Mxe
  cas : Sparse Cassette
  split : Split
  pages : List Word
  poison : List Nat
  conts : List Cont
deriving DecidableEq, Repr

/-- What a scheduler record places (R372, R376, R396). -/
inductive Work
  | launch (p : PendRec) (next : Nat)
  | resume (t : List SavedTeam)
  | packed (g : Group)
deriving DecidableEq, Repr

/-- A fired record in a level's queue (R372): when it joined the level and when it last placed a team. -/
structure SRec where
  work : Work
  since : Nat
  lastPlace : Nat
deriving DecidableEq, Repr

/-- A grid that has not ended (R362, R368). -/
structure Grid where
  id : Word
  p : PendRec
  left : Nat
deriving DecidableEq, Repr

/-- A pending system call (R383): its reply slot, its strand, and what its record holds. -/
structure Call where
  slot : Nat
  strand : Word
  serial : Word
  num : Word
  args : List Word
deriving DecidableEq, Repr

/-- A strand in the packer's hands (R392, R394); `lane` is what the packer has read of its save area (R397). -/
structure Packee where
  ssa : Word
  sid : Word
  src : Nat
  asid : Word
  lane : Lane
deriving DecidableEq, Repr

/-- An open packing window (R395). -/
structure Win where
  asid : Word
  pc : Word
  meet : Word
  digest : Word
  fclass : Nat
  sregs : Sparse Word
  strands : List Packee
  opened : Nat
deriving DecidableEq, Repr

/-- A refresh that waits for the completion of a fault of its writes (R318, R326): its block, T, and what it writes: addresses, sizes and
values. -/
structure Refresh where
  block : Nat
  want : Nat
  writes : List (Word × Nat × Nat)
  exc : BitVec 5
deriving DecidableEq, Repr

/-- A registered view (R311-R313, R323), with its refreshes that are stalled between their lock and their tag write. -/
structure View where
  asid : Word
  obj : Nat
  idx : Nat
  ser : Nat
  desc : BitVec 1024
  pol : Nat
  sstale : Nat
  waits : Nat
  faults : Nat
  refresh : Nat
  poison : Nat
  exc : BitVec 5
  rowa : Bool
  stalled : List Refresh
deriving DecidableEq, Repr

/-- A write accepted into a die's egress toward another die or into a host-boundary stream (R292, R298). -/
structure Egress where
  home : Nat
  src : Nat
  pa : Nat
  mask : BitVec 128
  data : BitVec 1024
  va : Word
  asid : Word
  gen : Nat
  chk : Bool
deriving DecidableEq, Repr

/-- A scrubber (R308-R310): lines covered in the current pass, its start, and passes completed. -/
structure Scrub where
  pos : Nat
  start : Word
  passes : Nat
deriving DecidableEq, Repr

/-- A spoke-link port (R416, R422): `row` is how often in a row its current flit has failed, `recent` the clk values of its latest
replays. -/
structure Port where
  up : Bool
  peer : Nat
  downs : Nat
  rplay : Nat
  fail : Nat
  row : Nat
  recent : List Nat
deriving DecidableEq, Repr

/-- A port that has never come up (R422). -/
def Port.zero : Port := ⟨false, 0, 0, 0, 0, 0, []⟩

/-- A lease held by a spoke agent (R417). -/
structure Lease where
  pkg : Nat
  line : Nat
  data : BitVec 1024
  expiry : Nat
  bound : Nat
deriving DecidableEq, Repr

/-- A lease granted to another package (R417, R420): E in package time, the clk of the grant, its length in ns, and the home's BOUND that it
carries. -/
structure Grant where
  pkg : Nat
  line : Nat
  expiry : Nat
  granted : Nat
  len : Nat
  bound : Nat
deriving DecidableEq, Repr

/-- The operations of atomics (R196). -/
inductive AtomOp
  | add | or | and | xor | smin | smax | umin | umax | xchg | fadd
deriving DecidableEq, Repr

/-- What a request of another package does at its home (R419). -/
inductive Inbound
  | write
  | atomic (op : AtomOp)
  /-- `cas` with its expected value -/
  | cas (expected : Word)
  /-- a full/empty operation: 0 ldf, 1 ldfe, 2 stef, 3 stf, 4 setfe -/
  | fe (op : Nat)
deriving DecidableEq, Repr

/-- A request of package `src` that waits at the home for leases (R418). -/
structure Delayed where
  line : Nat
  pa : Nat
  n : Nat
  data : BitVec 1024
  src : Nat
  how : Inbound
deriving DecidableEq, Repr

/-- A die. `hdm` holds its HDM decoders: host base, size and package base; `cxlAns` is what its CXL port answered to the last read, with its
poison (R404); `subAns` is the status of the last submission that it received, true for accept (R399). `trust` is what its root of
trust, or the primary, has found of its image: 0 nothing yet, 1 verified, 2 refused (R410). `blocked` are the strands that wait for
their call records with LOC 6, `ringFull` those of them that the full ring blocks (R384). -/
structure Die where
  cspad : Nat
  cfgErr : Bool
  trErr : Bool
  trBusy : Bool
  trMode : Bool
  astBase : Word
  invs : Sparse Word
  ptBase : Word
  fring : Word
  cring : Word
  reply : Word
  migWindow : Nat
  aring : Word
  mring : Word
  recctl : Word
  scrubD : Sparse Nat
  sigtgt : Word
  bumps : Sparse Nat
  flushPend : Option Nat
  rtlb : Sparse (List TlbEntry)
  dcache : Sparse (List CachedDesc)
  acache : Sparse (List CachedAst)
  slept : Option (Sparse Nat)
  fseq : Nat
  faults : List FRec
  fbuf : List FRec
  cnt : Sparse Nat
  defer : List Defer
  deferMax : Sparse Nat
  lvl : Sparse (List SRec)
  unfired : List PendRec
  grids : List Grid
  pendDone : List Grid
  slots : List (Nat × Nat)
  conts : List Cont
  gridSeq : Nat
  strandSeq : Nat
  teamSeq : Nat
  lastExam : Nat
  trigAt : Nat
  calls : List Call
  blocked : List Word
  ringFull : List Word
  arrWait : List (Word × Word)
  packq : List Packee
  wins : List Win
  views : Sparse View
  sers : Sparse Nat
  vfifo : List (Nat × Nat)
  routers : Sparse Router
  egress : List Egress
  scrub : Sparse Scrub
  recSeq : Nat
  consumedLog : List Nat
  lost : Bool
  ps : Nat
  mhz : Nat
  cycAcc : Nat
  cycRef : Nat
  subq : List PendRec
  subDropped : Nat
  pkgSet : Bool
  pkgId : Nat
  leaseLen : Nat
  lock : Bool
  bound : Nat
  lastSync : Nat
  ports : Sparse Port
  leases : List Lease
  grants : List Grant
  spdm : List Word
  mgmt : List Word
  hdm : List (Nat × Nat × Nat)
  cxlAns : Option (BitVec 1024 × Bool)
  subAns : Option Bool
  trust : Nat
deriving DecidableEq, Repr

/-- Die d after reset: MODE 1, CSPAD 0 (R410), MIGCTL 4,096 (R390), LEN 7 (R416), scrub deadlines 12 and 24 h (R309). Words with
no reset value are 0 (log entry 2). -/
def Die.init (d : Nat) : Die :=
  { cspad := 0, cfgErr := false, trErr := false, trBusy := false, trMode := true, astBase := 0, invs := [], ptBase := 0,
    fring := 0, cring := 0, reply := 0, migWindow := 4096, aring := 0, mring := 0, recctl := 0,
    scrubD := if d < 4 then [(0, 12), (1, 12)] else [(0, 24)], sigtgt := 0, bumps := [], flushPend := none, rtlb := [],
    dcache := [], acache := [], slept := none, fseq := 0, faults := [], fbuf := [], cnt := [], defer := [], deferMax := [],
    lvl := [], unfired := [], grids := [], pendDone := [], slots := [], conts := [],
    gridSeq := 1, strandSeq := 1, teamSeq := 1, lastExam := 0, trigAt := 0, calls := [], blocked := [], ringFull := [], arrWait := [], packq := [],
    wins := [], views := [], sers := [], vfifo := [], routers := [], egress := [], scrub := [], recSeq := 0,
    consumedLog := [], lost := false, ps := 0, mhz := 2100, cycAcc := 0, cycRef := 0, subq := [], subDropped := 0, pkgSet := false, pkgId := 0,
    leaseLen := 7, lock := false, bound := 0, lastSync := 0, ports := [], leases := [], grants := [],
    spdm := [], mgmt := [], hdm := [], cxlAns := none, subAns := none, trust := 0 }

/-- A join counter whose writes are tested (R367, R369): its address, whether a write has made it zero or negative and whether that
one made it negative, and who awaits it: a lane of a path at `jwait`, or with `grid` ≠ 0 an unfired record. -/
structure Watch where
  pa : Nat
  hit : Bool
  neg : Bool
  core : Nat
  slot : Nat
  lane : Nat
  grid : Word
deriving DecidableEq, Repr

/-- What reaches the package from outside the instruction set and is no row of the table of operations and events: acts of system
software for which the spec names no instruction, and the errors of the hardware itself (log entry 128). -/
inductive Outside
  /-- system software writes `cr.ssa` of a held lane (R17, R145) -/
  | writeSsa (core slot lane : Nat) (v : Word)
  /-- system software kills the process of a `cr.asid` value (R25, R397) -/
  | kill (asid : Word)
  /-- an error in a line of memory: correctable, or not (R308, R402) -/
  | memoryError (line : Nat) (hard : Bool)
  /-- a line of a core's L1 becomes uncorrectable (R356) -/
  | l1Error (core line : Nat)
  /-- a 16-byte granule of a core's local share becomes uncorrectable (R356) -/
  | localError (core granule : Nat)
  /-- an entry of a channel becomes uncorrectable (R356) -/
  | channelError (core chan place : Nat)
  /-- a register granule of a lane becomes uncorrectable (R356) -/
  | registerError (core slot lane granule : Nat)
  /-- the matrix engine's next computation meets a residue mismatch (R240) -/
  | residue (core : Nat)
  /-- an illegal state is detected in a team of a core: 1 its engine's sequencer, 2 an uncorrectable ECC copy, 0 other state (R283) -/
  | illegalState (core team kind : Nat)
  /-- the sequencer of a view engine enters an illegal state in the refresh of a block (R326) -/
  | viewIllegal (die entry block : Nat)
  /-- the fetcher of a core fetches `k` bytes beyond the pc of a lane's path (R348) -/
  | fetchAhead (core slot lane k : Nat)
  /-- an asynchronous engine looks ahead at an address for a command (R348) -/
  | lookAhead (core tag : Nat) (va : Word)
  /-- a root of trust, or the primary, verifies the image of a die (R410) -/
  | verify (die : Nat) (ok : Bool)
  /-- an atomic or a full/empty operation of another package reaches its home (R419) -/
  | inbound (pkg pa n : Nat) (how : Inbound) (v : Word)
  /-- the requests that wait for a future word are served (R303) -/
  | serveWord (pa : Nat)
  /-- a flit of a spoke link has passed its CRC (R422) -/
  | flitPassed (die port : Nat)
  /-- an external host programs an HDM decoder of a host die: host base, size and package base (R404) -/
  | hdm (die host size pa : Nat)
deriving DecidableEq, Repr

/-- One entry of the agenda: the agent that moves (log entry 3). -/
inductive Turn
  | issue (core slot : Nat)
  | engine (core : Nat)
  | event (i : Instr)
  | outside (o : Outside)
deriving DecidableEq, Repr

/-- The package. `mem` is the value of every physical byte at its arbiter (R288). `ecc` holds the errors in lines of memory that nothing
has found yet: 1 correctable, 2 uncorrectable (R308, R402). `delayed` are the requests of other packages that wait for leases, in the order of
their arrival (R418). -/
structure State where
  clk : Nat
  ptpBase : Nat
  ptpRef : Nat
  mem : Mem
  poison : List Nat
  ecc : Sparse Nat
  futs : Sparse FutWord
  cores : Sparse Core
  dies : Sparse Die
  recalls : List Word
  watches : List Watch
  delayed : List Delayed
  focus : Nat × Nat
  agenda : List Turn
  rr : Nat
  free : Nat
deriving DecidableEq, Repr

/-- Right after reset: no group, no strand, no memory byte listed; every die as `Die.init`. -/
def State.reset : State :=
  { clk := 0, ptpBase := 0, ptpRef := 0, mem := [], poison := [], ecc := [], futs := [], cores := [], dies := [], recalls := [], watches := [], delayed := [], focus := (0, 0),
    agenda := [], rr := 0, free := 0 }

/-- Why a step stops for good. -/
inductive Fault
  /-- Raised by DIE_LOSS when both host dies are lost: "the package stops" (R405). Safe: the spec ends the run there. -/
  | packageStopped
deriving DecidableEq, Repr

/-- Why an instruction has no meaning. -/
inductive Refusal
  /-- Raised by an arm of `exec` for an instruction with no meaning yet. Safe: nothing is claimed of it. -/
  | notModelled (mnemonic : String)
deriving DecidableEq, Repr

end Sys2Proof.Machine
end

