-- ==== Sys2Proof/Machine/Store.lean ====
section
/-! DEFINITION. Reading and writing the sparse maps of the state, and little-endian access to bytes (R7). -/

namespace Sys2Proof.Machine

/-- The value of key `k`; `d` is what an unlisted key reads as. -/
def get {α : Type} (d : α) : Sparse α → Nat → α
  | [], _ => d
  | (k', v) :: r, k => if k' = k then v else get d r k

/-- Writes key `k` and keeps the form canonical: keys rising, no entry equal to `d`. -/
def set {α : Type} [DecidableEq α] (d : α) : Sparse α → Nat → α → Sparse α
  | [], k, v => if v = d then [] else [(k, v)]
  | (k', v') :: r, k, v =>
    if k = k' then (if v = d then set d r k v else (k, v) :: r)
    else if k < k' ∧ v ≠ d then (k, v) :: (k', v') :: r
    else (k', v') :: set d r k v

/-- Whether every key is above `lo`, keys rise and no entry equals `d`. -/
def canonFrom {α : Type} [DecidableEq α] (d : α) : Option Nat → Sparse α → Bool
  | _, [] => true
  | lo, (k, v) :: r => (match lo with | none => true | some l => decide (l < k)) && decide (v ≠ d) && canonFrom d (some k) r

/-- The canonical form of a sparse map. -/
def canon {α : Type} [DecidableEq α] (d : α) (m : Sparse α) : Bool := canonFrom d none m

/-- Memory is in canonical form. -/
def Memory.wf (m : Mem) : Bool := canon (0 : Byte) m

/-- The byte at an address of one memory; an unlisted byte reads 0 (log entry 1). -/
def byteAt (m : Mem) (a : Nat) : Byte := get 0 m a

/-- n bytes from a byte reader as one little-endian number (R7). -/
def readLE (rd : Nat → Byte) : Nat → Nat → Nat
  | _, 0 => 0
  | a, n + 1 => (rd a).toNat + 256 * readLE rd (a + 1) n

/-- n bytes of a memory, little-endian. -/
def readBytes (m : Mem) (a n : Nat) : Nat := readLE (byteAt m) a n

/-- Writes the low n bytes of `v` little-endian. -/
def writeBytes (m : Mem) : Nat → Nat → Nat → Mem
  | _, 0, _ => m
  | a, n + 1, v => set 0 (writeBytes m (a + 1) n (v / 256)) a (BitVec.ofNat 8 v)

/-- The lanes of a mask, ascending (R12). -/
def lanesOf (m : Mask) : List Nat := (List.range 32).filter fun l => m.getLsbD l

/-- The mask of one lane. -/
def laneBit (l : Nat) : Mask := 1#32 <<< l

/-- The mask of a list of lanes. -/
def maskOf (ls : List Nat) : Mask := ls.foldl (fun m l => m ||| laneBit l) 0

/-- The lowest lane of a mask; 0 for the empty mask. -/
def lowest (m : Mask) : Nat := (lanesOf m).headD 0

/-- A bit field of a word: bits lo + n - 1 .. lo as a number. -/
def fld (w : Word) (lo n : Nat) : Nat := w.toNat / 2 ^ lo % 2 ^ n

/-- A number as a 64-bit word. -/
def word (n : Nat) : Word := BitVec.ofNat 64 n

/-- A condition as a bit of a word. -/
def bit (b : Bool) (i : Nat) : Nat := if b then 2 ^ i else 0

/-- The low n bits sign-extended to 64. -/
def sext (n v : Nat) : Word := if (v % 2 ^ n).testBit (n - 1) then word (v % 2 ^ n + (2 ^ 64 - 2 ^ n)) else word (v % 2 ^ n)

/-- A word as a signed number. -/
def sint (w : Word) : Int := w.toInt

/-- A signed number as a word, modulo 2^64. -/
def ofInt (v : Int) : Word := BitVec.ofInt 64 v

/-- Bits 31:0 as a mask. -/
def low32 (w : Word) : Mask := w.extractLsb' 0 32

/-- Mask as a zero-extended word. -/
def ofMask (m : Mask) : Word := word m.toNat

/-- The element at an index. -/
def at? {α : Type} : List α → Nat → Option α
  | [], _ => none
  | x :: _, 0 => some x
  | _ :: r, n + 1 => at? r n

/-- Replaces the element at an index. -/
def setAt {α : Type} : List α → Nat → α → List α
  | [], _, _ => []
  | _ :: r, 0, y => y :: r
  | x :: r, n + 1, y => x :: setAt r n y

end Sys2Proof.Machine
end

