-- ==== Sys2Proof/Machine/Access.lean ====
section
/-! DEFINITION. The accessors of State: cores, slots, groups, lanes, paths, teams, dies; every register read and write (R12,
R16, R38, R129, R130, R151) and the physical map (R23, R388). -/

namespace Sys2Proof.Machine

/-- SIMT cores are 0-1,023, latency cores 1,024-1,183 (R3, R23). -/
def isLatency (c : Nat) : Bool := decide (1024 ≤ c)

/-- The die of a core (R3, R23). -/
def dieOfCore (c : Nat) : Nat :=
  if c < 1024 then c / 256 else if c < 1088 then 4 else if c < 1152 then 5 else (c - 1152) / 8

/-- The 4 x 4 region of a SIMT core on its die, which is also its stage router (R255). -/
def regionOf (c : Nat) : Nat := c % 256 / 16 / 4 * 4 + c % 16 / 4

/-- One core. -/
def State.core (s : State) (c : Nat) : Core := get Core.empty s.cores c

/-- Replaces one core. -/
def State.setCore (s : State) (c : Nat) (k : Core) : State := { s with cores := set Core.empty s.cores c k }

/-- Changes one core. -/
def State.modCore (s : State) (c : Nat) (f : Core → Core) : State := s.setCore c (f (s.core c))

/-- One slot of a core. -/
def Core.slot (k : Core) (i : Nat) : Group := get Group.empty k.slots i

/-- Replaces one slot. -/
def Core.setSlot (k : Core) (i : Nat) (g : Group) : Core := { k with slots := set Group.empty k.slots i g }

/-- The group of a core's slot. -/
def State.grp (s : State) (c i : Nat) : Group := (s.core c).slot i

/-- Replaces a group. -/
def State.setGrp (s : State) (c i : Nat) (g : Group) : State := s.setCore c ((s.core c).setSlot i g)

/-- Changes a group. -/
def State.modGrp (s : State) (c i : Nat) (f : Group → Group) : State := s.setGrp c i (f (s.grp c i))

/-- The core that issues. -/
def State.cid (s : State) : Nat := s.focus.1

/-- The slot that issues. -/
def State.sid (s : State) : Nat := s.focus.2

/-- The group that issues. -/
def State.cur (s : State) : Group := s.grp s.cid s.sid

/-- Replaces the group that issues. -/
def State.setCur (s : State) (g : Group) : State := s.setGrp s.cid s.sid g

/-- Changes the group that issues. -/
def State.modCur (s : State) (f : Group → Group) : State := s.setCur (f s.cur)

/-- The core of the group that issues. -/
def State.k (s : State) : Core := s.core s.cid

/-- The die of the group that issues. -/
def State.did (s : State) : Nat := dieOfCore s.cid

/-- One die. -/
def State.die (s : State) (d : Nat) : Die := get (Die.init d) s.dies d

/-- Replaces one die. -/
def State.setDie (s : State) (d : Nat) (k : Die) : State := { s with dies := set (Die.init d) s.dies d k }

/-- Changes one die. -/
def State.modDie (s : State) (d : Nat) (f : Die → Die) : State := s.setDie d (f (s.die d))

/-- One entry of a core's team table. -/
def Core.team (k : Core) (t : Nat) : Team := get Team.empty k.teams t

/-- Replaces a team table entry. -/
def Core.setTeam (k : Core) (t : Nat) (v : Team) : Core := { k with teams := set Team.empty k.teams t v }

/-- A team of a core. -/
def State.teamAt (s : State) (c t : Nat) : Team := (s.core c).team t

/-- Changes a team. -/
def State.modTeam (s : State) (c t : Nat) (f : Team → Team) : State := s.modCore c fun k => k.setTeam t (f (k.team t))

/-- The team of the group that issues. -/
def State.team (s : State) : Team := s.teamAt s.cid s.cur.team

/-- One channel of a core. -/
def Core.chan (k : Core) (n : Nat) : Channel := get Channel.zero k.chans n

/-- Replaces a channel. -/
def Core.setChan (k : Core) (n : Nat) (v : Channel) : Core := { k with chans := set Channel.zero k.chans n v }

/-- A counter of a die. -/
def Die.count (k : Die) (n : Nat) : Nat := get 0 k.cnt n

/-- Adds to a counter of a die. -/
def Die.addCount (k : Die) (n v : Nat) : Die := { k with cnt := set 0 k.cnt n (k.count n + v) }

/-- One lane of a group. -/
def Group.lane (g : Group) (l : Nat) : Lane := get Lane.zero g.lanes l

/-- Replaces a lane. -/
def Group.setLane (g : Group) (l : Nat) (v : Lane) : Group := { g with lanes := set Lane.zero g.lanes l v }

/-- Changes a lane. -/
def Group.modLane (g : Group) (l : Nat) (f : Lane → Lane) : Group := g.setLane l (f (g.lane l))

/-- Changes the lanes of a list. -/
def Group.modLanes (g : Group) (ls : List Nat) (f : Nat → Lane → Lane) : Group := ls.foldl (fun g l => g.modLane l (f l)) g

/-- The x registers that the group holds (R151). -/
def Group.alloc (g : Group) : Nat := 4 * ((g.regs + 3) / 4)

/-- Reads an x register: x0 and registers beyond the allocation read 0 (R12, R151). -/
def Group.x (g : Group) (l n : Nat) : Word := if n = 0 ∨ g.alloc ≤ n then 0 else get 0 (g.lane l).xs n

/-- Writes an x register: x0 and registers beyond the allocation discard the write (R12, R151). -/
def Group.setX (g : Group) (l n : Nat) (v : Word) : Group :=
  if n = 0 ∨ g.alloc ≤ n then g else g.modLane l fun r => { r with xs := set 0 r.xs n v }

/-- Reads a predicate; p7 reads 1 (R12). -/
def Group.p (g : Group) (l n : Nat) : Bool := n == 7 || (g.lane l).preds.getLsbD n

/-- Bits 6:0 of a lane's predicates with one of them replaced; p7 ignores writes (R63). -/
def setPredBit (ps : BitVec 8) (n : Nat) (v : Bool) : BitVec 8 :=
  if 7 ≤ n then ps else if v then ps ||| (1#8 <<< n) else ps &&& ~~~(1#8 <<< n)

/-- Writes a predicate. -/
def Group.setP (g : Group) (l n : Nat) (v : Bool) : Group := g.modLane l fun r => { r with preds := setPredBit r.preds n v }

/-- Reads an s register. -/
def Group.s (g : Group) (n : Nat) : Word := get 0 g.sregs n

/-- Writes an s register. -/
def Group.setS (g : Group) (n : Nat) (v : Word) : Group := { g with sregs := set 0 g.sregs n v }

/-- Reads a join mask. -/
def Group.j (g : Group) (n : Nat) : Mask := get 0 g.jmask n

/-- Writes a join mask. -/
def Group.setJ (g : Group) (n : Nat) (v : Mask) : Group := { g with jmask := set 0 g.jmask n v }

/-- The binding word of a queue register (R183). -/
def Group.q (g : Group) (n : Nat) : Word := get 0 g.qbind n

/-- The kernel vector block of a hardware strand: 64 bytes, aligned (R141). -/
def Group.vectors (g : Group) : Word := g.ktvec &&& ~~~63#64

/-- Segment n: 0 `.pvt`, 1 `.loc`, 2 `.clu`, 3 `.chip` (R146, R153). -/
def Group.seg (g : Group) (n : Nat) : Seg := get ⟨0, 0⟩ g.segs n

/-- R38, R10: a write of `cr.fcsr`; an RM of 5, 6 or 7 keeps the previous one, reserved bits stay 0. -/
def fcsrWrite (old new : Word) : Word :=
  let rm := if 5 ≤ fld new 13 3 then fld old 13 3 else fld new 13 3
  word (rm * 2 ^ 13 + fld new 8 5 * 2 ^ 8 + fld new 0 5)

/-- The current path: the head of the list (R116). -/
def Group.path (g : Group) : Path := g.paths.headD Path.zero

/-- The pc of a lane: that of its path. -/
def Group.pcOf (g : Group) (l : Nat) : Word := ((g.paths.find? fun p => p.mask.getLsbD l).map (·.pc)).getD 0

/-- Replaces the current path; without a path there is none to replace. -/
def Group.setPath (g : Group) (p : Path) : Group :=
  match g.paths with
  | [] => g
  | _ :: r => { g with paths := p :: r }

/-- Changes the current path. -/
def Group.modPath (g : Group) (f : Path → Path) : Group := g.setPath (f g.path)

/-- The active mask of the current path. -/
def State.active (s : State) : Mask := s.cur.path.mask

/-- The pc of the current path. -/
def State.pc (s : State) : Word := s.cur.path.pc

/-- R84: the active lanes whose guard is true, ascending. -/
def State.acting (s : State) (g : Guard) : List Nat :=
  let k := s.cur
  (lanesOf k.path.mask).filter fun l => k.p l g.pred.toNat != g.neg

/-- The lowest active lane of the current path (R129). -/
def State.low (s : State) : Nat := lowest s.active

/-- ASID and incarnation of a `cr.asid` value (R129). -/
def asidOf (w : Word) : Nat := fld w 0 16
/-- ASID and incarnation of a `cr.asid` value (R129). -/
def incOf (w : Word) : Nat := fld w 16 16

/-- `cr.status` (R130) of a lane of a group on core c. -/
def State.status (s : State) (c : Nat) (g : Group) (l : Nat) : Word :=
  let t := s.teamAt c g.team
  let rec_ := fld (s.die (dieOfCore c)).recctl 0 2 != 0
  word (bit g.priv 0 + bit g.ut 1 + bit (!isLatency c && t.rb) 2 + bit (!isLatency c && t.dr) 3 + bit (isLatency c) 4 +
    bit rec_ 5 + bit g.kt 6 + (g.lane l).nest % 256 * 256)

/-- The next free value: no run constrains it (log entry 8). -/
def State.freshWord (s : State) : Word × State := (Config.freeWord s.free, { s with free := s.free + 1 })

/-- The stages of the physical map (R388), with the ranges that the model adds above 48 bits: chip scratchpads and the memory of
other packages. -/
inductive Region
  | dram (die : Nat)
  | host (die : Nat)
  | submit (asid : Nat)
  | config (die : Nat)
  | chip (die : Nat)
  | package (pkg : Nat)
  | nowhere
deriving DecidableEq, Repr

/-- R388. -/
def region (pa : Nat) : Region :=
  if 2 ^ 52 ≤ pa then .package (pa / 2 ^ 52 - 1)
  else if 2 ^ 49 ≤ pa then .chip ((pa - 2 ^ 49) / 2 ^ 25)
  else if pa < 2 ^ 39 then .dram (pa / 2 ^ 37)
  else if 2 ^ 40 ≤ pa ∧ pa < 2 ^ 41 then .dram 4
  else if 2 ^ 41 ≤ pa ∧ pa < 2 ^ 41 + 2 ^ 40 then .dram 5
  else if 2 ^ 42 ≤ pa ∧ pa < 2 ^ 43 then .host 4
  else if 2 ^ 43 ≤ pa ∧ pa < 2 ^ 43 + 2 ^ 42 then .host 5
  else if 0xFC0000000000 ≤ pa ∧ pa < 0xFC0000000000 + 2 ^ 31 then .submit ((pa - 0xFC0000000000) / 2 ^ 15)
  else if 0xFE0000000000 ≤ pa ∧ pa < 0xFE0000000000 + 6 * 2 ^ 16 then .config ((pa - 0xFE0000000000) / 2 ^ 16)
  else .nowhere

/-- R388: whether a request to a physical address reaches memory; device windows are none, and outside every range nothing is
performed. -/
def isMemory (pa : Nat) : Bool := match region pa with | .nowhere => false | .config _ => false | .submit _ => false | _ => true

/-- The home of a physical address as a route: 0-5 a die, 8 and 9 the external host of die 4 or 5, 16 + p package p (R284,
R292, R388). -/
def homeOf (s : State) (pa : Nat) : Nat :=
  match region pa with
  | .dram d => d
  | .host d => d + 4
  | .submit _ => if (s.die 4).lost then 5 else 4
  | .config d => d
  | .chip d => d
  | .package p => 16 + p
  | .nowhere => 0

/-- R399: a read, or a write but a `st128`, of a submission page is discarded and counted. -/
def State.discardSubmit (s : State) (pa : Nat) : State :=
  s.modDie (homeOf s pa) fun x => { x with subDropped := x.subDropped + 1 }

/-- R284, without the row argument's mask. -/
def sliceHash (pa : Nat) : Nat :=
  Nat.xor (pa / 2 ^ 7 % 128) (Nat.xor (pa / 2 ^ 14 % 128) (Nat.xor (pa / 2 ^ 21 % 128) (Nat.xor (pa / 2 ^ 28 % 128)
    (Nat.xor (pa / 2 ^ 35 % 128) (pa / 2 ^ 42 % 64)))))

/-- R306: the slice that holds byte `off` of a die's chip scratchpad. -/
def chipSlice (off : Nat) : Nat := off / 2 ^ 7 % 2 ^ 7

/-- R306: where in its slice that byte lies. -/
def chipSliceOff (off : Nat) : Nat := 128 * (off / 2 ^ 14) + off % 2 ^ 7

/-- R284, R306: the home slice of a physical address on its die. -/
def homeSlice (pa : Nat) (row : Bool) : Nat :=
  let p := if row then pa / 2 ^ 9 * 2 ^ 9 + pa % 2 ^ 7 else pa
  let h := sliceHash p
  match region pa with
  | .dram d => if 4 ≤ d then h % 32 else h
  | .chip _ => chipSlice ((pa - 2 ^ 49) % 2 ^ 25)
  | _ => h

/-- The chip-scratchpad byte `off` of die d in `State.mem` (R306; log entry 4). -/
def chipAddr (d off : Nat) : Nat := 2 ^ 49 + d * 2 ^ 25 + off

/-- Package time in ns: 10 ns in 21 reference ticks (R8, R129). -/
def State.time (s : State) : Nat := s.ptpBase + (s.clk - s.ptpRef) * 10 / 21

/-- The cycles that a die's core clock has counted since reset (R8, R412): `cycAcc` of them by clk `cycRef`. -/
def State.dieCycles (s : State) (d : Nat) : Nat := (s.die d).cycAcc + (s.clk - (s.die d).cycRef) * (s.die d).mhz / 2100

/-- The core clock count since the core's last reset (R129, R391, R412). -/
def State.cycle (s : State) (c : Nat) : Word :=
  if isLatency c then Config.latencyCycles c s.clk else word (s.dieCycles (dieOfCore c))

end Sys2Proof.Machine
end

