-- ==== Sys2Proof/Machine/Translate.lean ====
section
/-! DEFINITION. The bytes at the arbiter (R288) and translation: address spaces, objects, extents, the walk, translation caches,
generations and inverted tables (R336-R350). -/

namespace Sys2Proof.Machine

/-- n bytes at their arbiter, little-endian (R288). -/
def State.rd (s : State) (pa n : Nat) : Nat := readBytes s.mem pa n

/-- The eight bytes at their arbiter. -/
def State.rd64 (s : State) (pa : Nat) : Word := word (s.rd pa 8)

/-- The L1 line of a core (R287). -/
def Core.line (k : Core) (line : Nat) : L1Line := get L1Line.zero k.l1 line

/-- Replaces an L1 line. -/
def Core.setLine (k : Core) (line : Nat) (v : L1Line) : Core := { k with l1 := set L1Line.zero k.l1 line v }

/-- Whether the line is a copy in the sense of the directory (R286). -/
def L1Line.copied (l : L1Line) : Bool := l.st != .i

/-- R289, R290: a copy of a line that is written elsewhere becomes stale and is the directory's no more; its bytes stay. -/
def L1Line.noticed (l : L1Line) : L1Line := { l with stale := l.vm != 0 || l.stale, st := .i }

/-- Every copy of a line except that of core `keep` receives a notice (R290, R294). -/
def State.notice (s : State) (line : Nat) (keep : Option Nat) : State :=
  { s with cores := s.cores.map fun (c, k) =>
      if keep = some c ∨ k.line line = L1Line.zero then (c, k) else (c, k.setLine line (k.line line).noticed) }

/-- The lines of n bytes at pa. -/
def linesOf (pa n : Nat) : List Nat :=
  if n = 0 then [] else (List.range ((pa + n - 1) / 128 + 1 - pa / 128)).map fun i => pa / 128 + i

/-- R367, R369: every write that enters line order tests the join counters that are awaited. Those found are listed first, in the order
of the writes. -/
def State.testWatches (s : State) (pa n : Nat) : State :=
  if s.watches.isEmpty then s
  else
    let found (w : Watch) : Bool := !w.hit && decide (w.pa < pa + n) && decide (pa < w.pa + 8) && decide (sint (s.rd64 w.pa) ≤ 0)
    { s with watches := s.watches.filter (·.hit) ++
        (s.watches.filter found).map (fun w => { w with hit := true, neg := decide (sint (s.rd64 w.pa) < 0) }) ++
        s.watches.filter fun w => !w.hit && !found w }

/-- The address of AST entry a (R336, R349). -/
def State.astAddr (s : State) (d asid : Nat) : Nat := (s.die d).astBase.toNat / 2 ^ 20 * 2 ^ 20 % 2 ^ 48 + 16 * asid

/-- The address of descriptor `obj` under an AST entry (R339). -/
def State.descAddr (s : State) (d asid obj : Nat) : Nat :=
  fld (s.rd64 (s.astAddr d asid + 8)) 6 42 * 64 + 64 * obj

/-- R192: an object whose descriptor has lost its V bit exists no more, and the full/empty state of its words goes with it (log entry
129). -/
def State.forgetWords (s : State) (pa n : Nat) : State :=
  if s.futs.isEmpty then s
  else
    let dead (f : FutWord) : Bool := [0, 1, 2, 3, 4, 5].any fun d =>
      let da := s.descAddr d (asidOf (f.asid.setWidth 64)) f.obj
      !(s.die d).trMode && decide (da < pa + n) && decide (pa < da + 8) && !(s.rd64 da).getLsbD 63
    { s with futs := s.futs.filter fun (_, f) => !dead f }

/-- R402: a write encodes its lines anew, so that a correctable error in them is gone. -/
def State.recode (s : State) (pa n : Nat) : State :=
  if s.ecc.isEmpty then s else { s with ecc := s.ecc.filter fun (l, e) => e != 1 || !(linesOf pa n).contains l }

/-- What a write of n bytes that has entered line order brings with it: the tests of join counters (R367), the end of objects
(R192) and correct encodings (R402). -/
def State.afterWrite (s : State) (pa n : Nat) : State := ((s.testWatches pa n).forgetWords pa n).recode pa n

/-- A write enters line order (R288): memory changes and every copy but the writer's is noticed. Outside memory nothing is performed
(R388). -/
def State.poke (s : State) (pa n v : Nat) (keep : Option Nat) : State :=
  if !isMemory pa then s else
  let s := { s with mem := writeBytes s.mem pa n v }
  ((linesOf pa n).foldl (fun (s : State) l => s.notice l keep) s).afterWrite pa n

/-- The kinds of access that the walk distinguishes (R342, R192, R199, R201, R205, R369, R389). -/
inductive Acc
  | read | write | rmw | row | fetch | ldf | ldfe | stef | flush | counter | st128
deriving DecidableEq, Repr

/-- ACC of R351. -/
def Acc.code : Acc → Nat
  | .read => 0 | .flush => 0 | .counter => 0
  | .write => 1 | .st128 => 1
  | .rmw => 2 | .row => 2
  | .fetch => 3
  | .ldf => 4 | .ldfe => 4 | .stef => 4

/-- The rights table of R342 as XWR bits: 1 read, 2 write, 4 execute. -/
def Acc.needs : Acc → Nat
  | .read => 1 | .counter => 1 | .ldf => 1
  | .write => 2 | .st128 => 2 | .stef => 2
  | .rmw => 3 | .row => 3 | .ldfe => 3
  | .fetch => 4
  | .flush => 0

/-- Whether the access sets D (R342). -/
def Acc.dirties : Acc → Bool
  | .write => true | .st128 => true | .rmw => true | .row => true | .ldfe => true | .stef => true
  | _ => false

/-- A program write, atomic, full/empty operation or `st128`, which R311 forbids on a shard. -/
def Acc.programWrite : Acc → Bool
  | .read => false | .fetch => false | .flush => false | .counter => false
  | _ => true

/-- Whether the object attributes allow the access (R192, R199, R201, R369). -/
def Acc.attrOk (a : Acc) (fut : Bool) (rowl : Nat) : Bool :=
  match a with
  | .ldf => fut | .ldfe => fut | .stef => fut
  | .rmw => !fut | .counter => !fut
  | .row => rowl == 1
  | _ => true

/-- A translation: where the access goes, and the identity that the request carries (R345). `chk` is off under inverted
tables. -/
structure Xl where
  pa : Nat
  obj : Nat
  gen : Nat
  home : Nat
  fut : Bool
  rowl : Nat
  viewed : Bool
  vsh : Bool
  remote : Bool
  chk : Bool
deriving DecidableEq, Repr

/-- R345: whether the request's incarnation and generation are the current ones. -/
def State.current (s : State) (d asid inc obj gen : Nat) : Bool :=
  let a := s.rd64 (s.astAddr d asid)
  let w0 := s.rd64 (s.descAddr d asid obj)
  fld a 32 16 == inc && fld w0 32 16 == gen

/-- Word w of descriptor reserved bits and codes (R339). -/
def descMalformed (w0 w1 w2 w3 : Word) : Bool :=
  fld w0 48 11 != 0 || fld w0 16 16 != 0 || fld w0 3 8 != 0 || decide (6 ≤ fld w0 60 3) || decide (2 ≤ fld w0 13 2) ||
  fld w1 60 4 != 0 || (!w0.getLsbD 59 && fld w1 40 20 != 0) || fld w2 32 32 != 0 ||
  (if fld w2 0 32 ≤ 2 then w3 != 0 else w3.toNat % 16 != 0)

/-- The address of extent i of a descriptor (R339). -/
def extAddr (da : Nat) (n : Nat) (ptr : Word) (i : Nat) : Nat := if n ≤ 2 then da + 0x20 + 16 * i else ptr.toNat + 16 * i

/-- One extent of R340: VOFF and FRAME in pages of 32 KiB. -/
structure Ext where
  voff : Nat
  k : Nat
  present : Bool
  a : Bool
  d : Bool
  frame : Nat
  bad : Bool
deriving DecidableEq, Repr

/-- Whether a frame lies in the memory of die `home` (R340, R388, R389), or, of a remote object, in the map of the home package
(R415). -/
def frameOk (s : State) (frame k home : Nat) (remote : Bool) : Bool :=
  let pa := frame * 2 ^ 15
  match region pa, region (pa + 2 ^ (15 + k) - 1) with
  | .dram a, .dram b => a == b && (remote || a == home)
  | .host a, .host b => a == b && (remote || a == home)
  | .submit _, .submit _ => k == 0 && (remote || homeOf s pa == home)
  | .config a, .config b => k == 0 && a == b && (remote || a == home)
  | _, _ => false

/-- An extent from its two words. -/
def extentOf (s : State) (w0 w1 : Word) (home : Nat) (remote : Bool) : Ext :=
  let voff := fld w0 15 25
  let k := fld w0 0 4
  let frame := fld w1 15 33
  { voff := voff, k := k, present := w0.getLsbD 8, a := w0.getLsbD 9, d := w0.getLsbD 10, frame := frame,
    bad := fld w0 40 24 != 0 || fld w0 11 4 != 0 || fld w0 4 4 != 0 || fld w1 48 16 != 0 || fld w1 0 15 != 0 ||
      voff % 2 ^ k != 0 || frame % 2 ^ k != 0 || !frameOk s frame k home remote }

/-- Word k of a descriptor's eight (R339). -/
def descWord (ds : BitVec 512) (k : Nat) : Word := ds.extractLsb' (64 * k) 64

/-- The n extents of a descriptor, ascending: the inline ones from its own words, the others from their arbiter. -/
def State.extents (s : State) (da n : Nat) (ds : BitVec 512) (home : Nat) (remote : Bool) : Nat → List (Nat × Ext)
  | 0 => []
  | m + 1 =>
    let i := n - (m + 1)
    let ea := extAddr da n (descWord ds 3) i
    (ea, if n ≤ 2 then extentOf s (descWord ds (4 + 2 * i)) (descWord ds (5 + 2 * i)) home remote
      else extentOf s (s.rd64 ea) (s.rd64 (ea + 8)) home remote) :: s.extents da n ds home remote m

/-- R340: sorted by VOFF and not overlapping. -/
def sortedExtents : List (Nat × Ext) → Bool
  | [] => true
  | [_] => true
  | (_, a) :: (x, b) :: r => decide (a.voff + 2 ^ a.k ≤ b.voff) && sortedExtents ((x, b) :: r)

/-- This package's id (R414, R416); none until firmware has written it into both host dies, or into the one that is left. -/
def State.ownPkg (s : State) : Option Nat :=
  if [4, 5].all fun d => (s.die d).pkgSet || (s.die d).lost then
    if (s.die 4).pkgSet then some (s.die 4).pkgId else if (s.die 5).pkgSet then some (s.die 5).pkgId else none
  else none

/-- R414, R422: whether an up port of either host die reaches a package. -/
def State.reaches (s : State) (pkg : Nat) : Bool :=
  s.ownPkg.isSome && [4, 5].any fun d => !(s.die d).lost && (s.die d).ports.any fun (_, p) => p.up && p.peer == pkg

/-- n bytes of a view descriptor at a byte offset (R312). -/
def View.field (v : View) (off n : Nat) : Nat := v.desc.toNat / 2 ^ (8 * off) % 2 ^ (8 * n)

/-- CTRL of R312: n bits from lo. -/
def View.ctl (v : View) (lo n : Nat) : Nat := v.field 0 8 / 2 ^ lo % 2 ^ n

/-- S, the shard count. -/
def View.shards (v : View) : Nat := 2 ^ v.ctl 8 2
/-- SHARDi, a `.glb` address. -/
def View.shard (v : View) (i : Nat) : Word := word (v.field (0x20 + 8 * i) 8)
/-- Whether an object is a shard of a view. -/
def View.hasShard (v : View) (asid inc obj : Nat) : Bool :=
  asidOf v.asid == asid && incOf v.asid == inc && (List.range v.shards).any fun i => fld (v.shard i) 40 24 == obj

/-- R326: the object was a shard of a view whose master's home die is lost, and is a shard of no other view. -/
def State.masterLost (s : State) (asid inc obj : Nat) : Bool :=
  ([0, 1, 2, 3].any fun d => (s.die d).lost && (s.die d).views.any fun (_, v) => v.hasShard asid inc obj) &&
  !([0, 1, 2, 3].any fun d => !(s.die d).lost && (s.die d).views.any fun (_, v) => v.hasShard asid inc obj)

/-- R405, R414, R422: whether an access faults with kind HOMELOST for its home. -/
def State.homeLost (s : State) (home : Nat) (remote : Bool) (pkg : Nat) : Bool :=
  (s.die home).lost || (remote && !s.reaches pkg)

/-- R326: the same for a read of a shard whose master is lost. -/
def State.shardLost (s : State) (asid inc obj : Nat) (acc : Acc) : Bool := acc.needs % 2 == 1 && s.masterLost asid inc obj

/-- R415: what the descriptor of a remote object must meet beyond R339. -/
def State.remoteMalformed (s : State) (w0 w1 : Word) : Bool :=
  let pkg := fld w1 40 20
  w0.getLsbD 59 && (decide (fld w0 60 3 < 4) || decide (786432 ≤ pkg) || s.ownPkg == some pkg || fld w0 13 2 != 0 ||
    w0.getLsbD 12 || w0.getLsbD 11)

/-- R415: the operations that a remote object does not allow. -/
def Acc.remoteNo : Acc → Bool
  | .row => true
  | .st128 => true
  | .counter => true
  | _ => false

/-- What the walk of object tables answers: a fault kind (R353), or the extent, whether the object maps a configuration block or a
host window (R389, R390); and the AST entry and descriptor that it read. -/
structure Walked where
  fault : Nat
  ea : Nat
  e : Ext
  cfg : Bool
  host : Bool
  a0 : Word
  a1 : Word
  ds : BitVec 512
deriving DecidableEq, Repr

/-- Word 0 of the descriptor. -/
def Walked.w0 (w : Walked) : Word := descWord w.ds 0
/-- Word 1 of the descriptor. -/
def Walked.w1 (w : Walked) : Word := descWord w.ds 1

/-- The operations that an object of a host window does not allow (R389). -/
def Acc.hostNo (acc : Acc) : Bool :=
  acc == .rmw || acc == .row || acc == .ldf || acc == .ldfe || acc == .stef || acc == .st128

/-- The walk of R342 without its effects, from an AST entry and a descriptor at `da`. -/
def State.walkFrom (s : State) (inc : Nat) (va : Word) (acc : Acc) (priv : Bool) (a0 a1 : Word) (da : Nat) (ds : BitVec 512) : Walked :=
  let obj := fld va 40 24
  let off := fld va 0 40
  let none : Ext := ⟨0, 0, false, false, false, 0, false⟩
  let no (k : Nat) : Walked := ⟨k, 0, none, false, false, a0, a1, ds⟩
  if obj = 0 then no 1
  else if !a0.getLsbD 63 || fld a0 32 16 != inc then no 2
  else if fld a0 0 32 ≤ obj then no 3 else
  let w0 := descWord ds 0
  let w1 := descWord ds 1
  let w2 := descWord ds 2
  if !w0.getLsbD 63 then no 3
  else if fld w1 0 40 ≤ off then no 4 else
  let n := fld w2 0 32
  let home := fld w0 60 3
  let remote := w0.getLsbD 59
  let es := s.extents da n ds home remote n
  if descMalformed w0 w1 w2 (descWord ds 3) || s.remoteMalformed w0 w1 || es.any (fun e => e.2.bad) || !sortedExtents es then no 5
  else
    let fut := w0.getLsbD 15
    let rights := fld w0 0 3
    let vsh := w0.getLsbD 11
    let e? := es.find? fun e => decide (e.2.voff ≤ off / 2 ^ 15) && decide (off / 2 ^ 15 < e.2.voff + 2 ^ e.2.k)
    let cfg := es.any fun e => match region (e.2.frame * 2 ^ 15) with | .config _ => true | _ => false
    let host := es.any fun e => match region (e.2.frame * 2 ^ 15) with | .host _ => true | _ => false
    if Nat.land rights acc.needs != acc.needs || (vsh && acc.programWrite) || (cfg && !priv && acc != .flush) then no 6
    else if !acc.attrOk fut (fld w0 13 2) || (remote && acc.remoteNo) || (host && acc.hostNo) then no 7
    else match e? with
    | Option.none => no 8
    | some (ea, e) => if !e.present then no 8 else ⟨0, ea, e, cfg, host, a0, a1, ds⟩

/-- The 64 bytes of a descriptor at their arbiter (R339). -/
def State.rdDesc (s : State) (da : Nat) : BitVec 512 := BitVec.ofNat 512 (s.rd da 64)

/-- The walk of R342 without its effects and without any walk cache: every table word is read at its arbiter. -/
def State.walkTables (s : State) (d asid inc : Nat) (va : Word) (acc : Acc) (priv : Bool) : Walked :=
  let da := s.descAddr d asid (fld va 40 24)
  s.walkFrom inc va acc priv (s.rd64 (s.astAddr d asid)) (s.rd64 (s.astAddr d asid + 8)) da (s.rdDesc da)

/-- The AST entry that the region of a SIMT core holds for an address space (R337, R343). -/
def State.cachedAst (s : State) (c asid inc : Nat) : Option CachedAst :=
  if isLatency c then none
  else (get [] (s.die (dieOfCore c)).acache (regionOf c)).find? fun a => a.asid == asid && fld a.w0 32 16 == inc

/-- The descriptor that the region of a SIMT core holds for an object (R337, R343). -/
def State.cachedDesc (s : State) (c asid inc obj : Nat) : Option CachedDesc :=
  if isLatency c then none
  else (get [] (s.die (dieOfCore c)).dcache (regionOf c)).find? fun e => e.asid == asid && e.inc == inc && e.obj == obj

/-- The walk of R342 without its effects, through the walk caches of a core's region; one that would fault repeats itself without
them. -/
def State.walkCached (s : State) (c asid inc : Nat) (va : Word) (acc : Acc) (priv : Bool) : Walked :=
  let d := dieOfCore c
  let obj := fld va 40 24
  let a0 := s.rd64 (s.astAddr d asid)
  let a1 := s.rd64 (s.astAddr d asid + 8)
  let (b0, b1) := match s.cachedAst c asid inc with | some a => (a.w0, a.w1) | none => (a0, a1)
  let da := fld b1 6 42 * 64 + 64 * obj
  let ds := match s.cachedDesc c asid inc obj with | some e => e.words | none => s.rdDesc da
  let w := s.walkFrom inc va acc priv b0 b1 da ds
  if w.fault = 0 then w else s.walkTables d asid inc va acc priv

/-- The size of inverted domain n in frames (R350). -/
def invFrames (n : Nat) : Nat := if n < 8 then 2 ^ 21 else 2 ^ 25

/-- FrameBase(n) of R350 (R388). -/
def invBase (n : Nat) : Nat := if n < 8 then 2 ^ 36 * n else if n = 8 then 2 ^ 40 else 2 ^ 41

/-- Following the hash chain of R350: the fault kind, or the frame index and its rights. -/
def State.invChain (s : State) (tab n asid vpn : Nat) : Nat → Nat → Nat × Nat × Nat
  | 0, _ => (5, 0, 0)
  | fuel + 1, i =>
    if i = 0xFFFFFFFF then (8, 0, 0)
    else if invFrames n ≤ i then (5, 0, 0)
    else
      let w0 := s.rd64 (tab + 16 * i)
      let w1 := s.rd64 (tab + 16 * i + 8)
      if w0.getLsbD 63 && fld w0 0 45 == vpn && fld w1 48 16 == asid then (0, i, fld w0 60 3)
      else s.invChain tab n asid vpn fuel (fld w1 0 32)

/-- The rights of R350's XWR field as the bits of Acc.needs: X, W, R in bits 2:0. -/
def State.invWalk (s : State) (d asid : Nat) (va : Word) (acc : Acc) : Nat × Nat × Nat :=
  let n := fld va 60 4
  if 9 < n then (3, 0, 0) else
  let vpn := fld va 15 45
  let tab := ((get 0 (s.die d).invs n).toNat / 2 ^ 20 * 2 ^ 20) % 2 ^ 48
  let f := invFrames n
  let h := Nat.xor vpn (Nat.xor (vpn / 2 ^ 25) (asid * 32)) % f
  let (k, i, r) := s.invChain tab n asid vpn 64 (s.rd (tab + 16 * f + 4 * h) 4)
  if k != 0 then (k, 0, 0)
  else if Nat.land r acc.needs != acc.needs then (6, 0, 0)
  else if acc == .ldf || acc == .ldfe || acc == .stef || acc == .row then (7, 0, 0)
  else (0, i, r)

/-- The translation-cache entry that maps an address (R343), tagged by ASID alone under inverted tables (R350). An entry answers for
no offset that its walk would have refused for the object's size (R344; log entry 23). -/
def TlbEntry.hits (t : TlbEntry) (mode : Bool) (asid inc : Nat) (va : Word) : Bool :=
  t.asid == asid && t.inv == mode &&
  (if mode then t.obj == fld va 60 4 && t.voff == fld va 15 45
   else t.inc == inc && t.obj == fld va 40 24 && decide (fld va 0 40 < t.limit) && decide (t.voff ≤ fld va 15 25) && decide (fld va 15 25 < t.voff + 2 ^ t.k))

/-- R343: whether the entry's rights, attributes and D bit answer the access. -/
def TlbEntry.allows (t : TlbEntry) (acc : Acc) (priv : Bool) : Bool :=
  Nat.land t.xwr.toNat acc.needs == acc.needs && !(t.vsh && acc.programWrite) && acc.attrOk t.fut t.rowl &&
  !(t.remote && acc.remoteNo) && !(t.host && acc.hostNo) && (priv || !t.cfg || acc == .flush) && (!acc.dirties || t.d || t.inv) && !(t.inv && (acc == .ldf || acc == .ldfe || acc == .stef || acc == .row))

/-- R347: the entry has not outlived 2^15 bumps of its home die. -/
def State.tlbLive (s : State) (d : Nat) (t : TlbEntry) : Bool :=
  t.inv || decide ((get 0 (s.die d).bumps t.home + 2 ^ 32 - t.fill) % 2 ^ 32 < 2 ^ 15)

/-- The translation that an entry gives. -/
def TlbEntry.xl (t : TlbEntry) (va : Word) : Xl :=
  let pa0 := if t.inv then t.frame * 2 ^ 15 + fld va 0 15 else t.frame * 2 ^ 15 + fld va 0 40 - t.voff * 2 ^ 15
  { pa := pa0, obj := t.obj, gen := t.gen, home := t.home, fut := t.fut, rowl := t.rowl, viewed := t.viewed, vsh := t.vsh,
    remote := t.remote, chk := !t.inv }

/-- Two entries for one extent. -/
def TlbEntry.same (t e : TlbEntry) : Bool := e.asid == t.asid && e.inv == t.inv && e.obj == t.obj && e.voff == t.voff

/-- The 64 entries of a core's translation cache (R343), the oldest leaving first (log entry 14). -/
def Core.addTlb (k : Core) (t : TlbEntry) : Core :=
  { k with tlb := (t :: k.tlb.filter (!t.same ·)).take 64 }

/-- A walk's result enters the core's cache and, on a compute die, its region's (R343). -/
def State.install (s : State) (c : Nat) (t : TlbEntry) : State :=
  let s := s.modCore c fun k => k.addTlb t
  if isLatency c then s
  else s.modDie (dieOfCore c) fun k =>
    let r := regionOf c
    { k with rtlb := set [] k.rtlb r ((t :: (get [] k.rtlb r).filter (!t.same ·)).take 4096) }

/-- The tables that a walk has read enter the walk caches of a SIMT core's region (R343). -/
def State.installTables (s : State) (c : Nat) (a : CachedAst) (e : CachedDesc) : State :=
  if isLatency c then s
  else s.modDie (dieOfCore c) fun k =>
    let r := regionOf c
    { k with
      dcache := set [] k.dcache r ((e :: (get [] k.dcache r).filter fun x => !(x.asid == e.asid && x.inc == e.inc && x.obj == e.obj)).take 512),
      acache := set [] k.acache r ((a :: (get [] k.acache r).filter fun x => !(x.asid == a.asid)).take 64) }

/-- R345: the requester drops every entry of an object from its core's and its region's caches. -/
def State.dropObject (s : State) (c asid obj : Nat) : State :=
  let keep (e : TlbEntry) : Bool := !(e.asid == asid && e.obj == obj && !e.inv)
  let s := s.modCore c fun k => { k with tlb := k.tlb.filter keep }
  if isLatency c then s
  else s.modDie (dieOfCore c) fun k =>
    let r := regionOf c
    { k with rtlb := set [] k.rtlb r ((get [] k.rtlb r).filter keep),
             dcache := set [] k.dcache r ((get [] k.dcache r).filter fun x => !(x.asid == asid && x.obj == obj)) }

/-- The entry of an object's extent (R343). -/
def Walked.entry (w : Walked) (asid inc fill : Nat) (va : Word) (acc : Acc) : TlbEntry :=
  { asid := asid, inc := inc, obj := fld va 40 24, limit := fld w.w1 0 40, k := w.e.k, inv := false, voff := w.e.voff,
    fill := fill, gen := fld w.w0 32 16,
    frame := w.e.frame + (if w.w0.getLsbD 59 then 2 ^ 37 * (fld w.w1 40 20 + 1) else 0), home := fld w.w0 60 3,
    remote := w.w0.getLsbD 59, vsh := w.w0.getLsbD 11, viewed := w.w0.getLsbD 12, rowl := fld w.w0 13 2, fut := w.w0.getLsbD 15,
    d := w.e.d || acc.dirties, xwr := BitVec.ofNat 3 (fld w.w0 0 3), host := w.host, cfg := w.cfg }

/-- The entry of an inverted translation (R350). -/
def invEntry (asid : Nat) (va : Word) (i rights : Nat) : TlbEntry :=
  let n := fld va 60 4
  { asid := asid, inc := 0, obj := n, limit := 0, k := 0, inv := true, voff := fld va 15 45, fill := 0, gen := 0,
    frame := invBase n / 2 ^ 15 + i, home := if n < 8 then n / 2 else n - 4, remote := false, vsh := false,
    viewed := false, rowl := 0, fut := false, d := true, xwr := BitVec.ofNat 3 rights, host := false, cfg := false }

/-- R342: A is set by every demand translation but that of `cflush`, D by those of the table; one atomic OR at the extent's arbiter. -/
def State.setAD (s : State) (ea : Nat) (acc : Acc) : State :=
  let old := s.rd ea 8
  let new := Nat.lor old (bit (acc != .flush) 9 + bit acc.dirties 10)
  if new = old then s else s.poke ea 8 new none

/-- The walk of R342 with its effects: A and D, the caches, the counts of R358. `fresh` keeps the walk caches out. Fault kind 0 is
success. -/
def State.walk (s : State) (c asid inc : Nat) (va : Word) (acc : Acc) (priv fresh : Bool) : Nat × Xl × State :=
  let d := dieOfCore c
  let s := s.modDie d fun k => k.addCount 5 1
  let no : Xl := ⟨0, 0, 0, 0, false, 0, false, false, false, false⟩
  let failed (k : Nat) (s : State) : Nat × Xl × State := (k, no, s.modDie d fun x => x.addCount 6 1)
  if (s.die d).trMode then
    let (k, i, r) := s.invWalk d asid va acc
    if k != 0 then failed k s
    else
      let t := invEntry asid va i r
      if s.homeLost t.home false 0 then failed 11 s else (0, t.xl va, s.install c t)
  else
    let w := if fresh then s.walkTables d asid inc va acc priv else s.walkCached c asid inc va acc priv
    if w.fault != 0 then failed w.fault s
    else
      let t := w.entry asid inc (get 0 (s.die d).bumps (fld w.w0 60 3)) va acc
      let s := s.setAD w.ea acc
      if s.homeLost t.home t.remote (fld w.w1 40 20) || s.shardLost asid inc t.obj acc then failed 11 s
      else (0, t.xl va, (s.install c t).installTables c ⟨asid, w.a0, w.a1⟩ ⟨asid, inc, t.obj, w.ds⟩)

/-- The same by a unit that keeps no translation cache of a core: the stage router, the view engine, the scheduler and the
sampler (R279, R318, R359, R172). -/
def State.agentWalkNow (s : State) (d : Nat) (asid va : Word) (acc : Acc) : Nat × Xl × State :=
  let s := s.modDie d fun k => k.addCount 5 1
  let no : Xl := ⟨0, 0, 0, 0, false, 0, false, false, false, false⟩
  let failed (k : Nat) (s : State) : Nat × Xl × State := (k, no, s.modDie d fun x => x.addCount 6 1)
  if (s.die d).trMode then
    let (k, i, r) := s.invWalk d (asidOf asid) va acc
    if k != 0 then failed k s
    else if s.homeLost (invEntry (asidOf asid) va i r).home false 0 then failed 11 s
    else (0, (invEntry (asidOf asid) va i r).xl va, s)
  else
    let w := s.walkTables d (asidOf asid) (incOf asid) va acc false
    if w.fault != 0 then failed w.fault s
    else
      let t := w.entry (asidOf asid) (incOf asid) 0 va acc
      if s.homeLost t.home t.remote (fld w.w1 40 20) || s.shardLost (asidOf asid) (incOf asid) t.obj acc then failed 11 s else (0, t.xl va, s.setAD w.ea acc)

/-- A translation by the view engine of die d (R318, R342): the fault kind and the physical address. Its reads need R and its writes W;
VSH forbids only program writes (R311). -/
def State.unitWalk (s : State) (d : Nat) (asid va : Word) (wr : Bool) : Nat × Nat × State :=
  let acc : Acc := if wr then .write else .read
  let s := s.modDie d fun k => k.addCount 5 1
  let failed (k : Nat) : Nat × Nat × State := (k, 0, s.modDie d fun x => x.addCount 6 1)
  let w := s.walkTables d (asidOf asid) (incOf asid) va .flush true
  if (w.fault = 0 ∨ w.fault = 8) ∧ Nat.land (fld w.w0 0 3) acc.needs ≠ acc.needs then failed 6
  else if w.fault ≠ 0 then failed w.fault
  else if s.homeLost (fld w.w0 60 3) (w.w0.getLsbD 59) (fld w.w1 40 20) then failed 11
  else (0, w.e.frame * 2 ^ 15 + fld va 0 40 - w.e.voff * 2 ^ 15, s.setAD w.ea acc)

/-- The entry of a core's own cache, or of its region's (R343), that answers an access. -/
def State.tlbFor (s : State) (c asid inc : Nat) (va : Word) (acc : Acc) (priv : Bool) : Option TlbEntry :=
  let d := dieOfCore c
  let ok (t : TlbEntry) : Bool := t.hits (s.die d).trMode asid inc va && t.allows acc priv && s.tlbLive d t
  match (s.core c).tlb.find? ok with
  | some t => some t
  | none => if isLatency c then none else (get [] (s.die d).rtlb (regionOf c)).find? ok

/-- A translation for a request that reaches its home (R342, R343, R345): where the home refuses the generation, of an entry or of a
walk through the walk caches, the object's entries are dropped and the address is walked again. Kind 0 is success. -/
def State.translateNow (s : State) (c asid inc : Nat) (va : Word) (acc : Acc) (priv : Bool) : Nat × Xl × State :=
  let d := dieOfCore c
  let again (s : State) (obj : Nat) : Nat × Xl × State :=
    ((s.dropObject c asid obj).modDie d fun k => k.addCount 4 1).walk c asid inc va acc priv true
  match s.tlbFor c asid inc va acc priv with
  | none =>
    let (k, x, t) := s.walk c asid inc va acc priv false
    if k = 0 ∧ x.chk ∧ !t.current d asid inc x.obj x.gen then again t x.obj else (k, x, t)
  | some t =>
    if !t.inv && !s.current d asid inc t.obj t.gen then again s t.obj
    else if s.homeLost t.home t.remote (t.frame / 2 ^ 37 - 1) || (!t.inv && s.shardLost asid inc t.obj acc) then (11, t.xl va, s)
    else (0, t.xl va, if (s.core c).tlb.contains t then s else s.modCore c fun k => k.addTlb t)

/-- A cached translation whose snapshot may be read without a request (R290, R346): no check at the home. -/
def State.cached (s : State) (c asid inc : Nat) (va : Word) (acc : Acc) (priv : Bool) : Option Xl :=
  (s.tlbFor c asid inc va acc priv).map (·.xl va)

/-- The objects that the tables of die d hold, as they stand: ASID and object id (R336, R339). -/
def State.liveObjects (s : State) (d : Nat) : List (Nat × Nat) :=
  if (s.die d).trMode then []
  else
    let within (lo n w : Nat) : List Nat :=
      (s.mem.filterMap fun (a, _) => if lo ≤ a ∧ a < lo + n then some ((a - lo) / w) else none).dedup
    (within (s.astAddr d 0) (2 ^ 20) 16).flatMap fun asid =>
      let a := s.rd64 (s.astAddr d asid)
      if !a.getLsbD 63 then []
      else ((within (s.descAddr d asid 0) (64 * fld a 0 32) 64).filter fun o => (s.rd64 (s.descAddr d asid o)).getLsbD 63).map fun o => (asid, o)

/-- The present extents of an object in the tables of die d: first frame and size code (R340). -/
def State.framesOf (s : State) (d asid obj : Nat) : List (Nat × Nat) :=
  let da := s.descAddr d asid obj
  let w0 := s.rd64 da
  let n := fld (s.rd64 (da + 16)) 0 32
  ((s.extents da n (s.rdDesc da) (fld w0 60 3) (w0.getLsbD 59) n).filter fun e => e.2.present).map fun e => (e.2.frame, e.2.k)

/-- Whether a line lies in one of a list of extents. -/
def inFrames (fs : List (Nat × Nat)) (line : Nat) : Bool :=
  fs.any fun (f, k) => decide (f * 2 ^ 8 ≤ line) && decide (line < (f + 2 ^ k) * 2 ^ 8)

/-- The first descriptor words of the objects of this package that hold a line, in the tables of any die. -/
def State.lineObjects (s : State) (line : Nat) : List Word :=
  [0, 1, 2, 3, 4, 5].flatMap fun d => (s.liveObjects d).filterMap fun (a, o) =>
    let w0 := s.rd64 (s.descAddr d a o)
    if !w0.getLsbD 59 && inFrames (s.framesOf d a o) line then some w0 else none

/-- Whether a line belongs to an object of rows, which fixes its home slice (R284, R324). -/
def State.rowLine (s : State) (line : Nat) : Bool := (s.lineObjects line).any fun w => fld w 13 2 == 1

/-- Whether a line belongs to an object of futures (R310). -/
def State.futLine (s : State) (line : Nat) : Bool := (s.lineObjects line).any fun w => w.getLsbD 15

/-- Whether the home slice is always the arbiter of a line: future words (R288) and viewed masters (R317). -/
def State.homeLine (s : State) (line : Nat) : Bool := (s.lineObjects line).any fun w => w.getLsbD 15 || w.getLsbD 12

/-- The physical address of a byte as the tables map it, with no effect and whatever its rights. -/
def State.vaPa (s : State) (d : Nat) (asid va : Word) : Option Nat :=
  if (s.die d).trMode then
    let (k, i, r) := s.invWalk d (asidOf asid) va .flush
    if k = 0 then some ((invEntry (asidOf asid) va i r).xl va).pa else none
  else
    let w := s.walkTables d (asidOf asid) (incOf asid) va .flush true
    if w.fault != 0 then none else some ((w.entry (asidOf asid) (incOf asid) 0 va .flush).xl va).pa

end Sys2Proof.Machine
end

