-- ==== Sys2Proof/Machine/ViewGeom.lean ====
section
/-! DEFINITION. The geometry of derived views (R312-R315, R324), their tags (R316) and the marks that a master write makes
before it enters line order (R317). -/

namespace Sys2Proof.Machine

/-- VFMT. -/
def View.vfmt (v : View) : Nat := v.ctl 0 4
/-- LAYOUT: 0 ROW, 1 TRANS, 2 TILED. -/
def View.layout (v : View) : Nat := v.ctl 4 2
/-- BR. -/
def View.br (v : View) : Nat := 2 ^ v.ctl 10 3
/-- BC. -/
def View.bc (v : View) : Nat := 32 * 2 ^ v.ctl 13 2
/-- MFMT: a BF16 master. -/
def View.bfMaster (v : View) : Bool := v.ctl 15 1 == 1
/-- ROWS. -/
def View.rows (v : View) : Nat := v.field 8 4
/-- COLS. -/
def View.cols (v : View) : Nat := v.field 0xC 4
/-- MPITCH. -/
def View.mpitch (v : View) : Nat := v.field 0x10 4
/-- VPITCH. -/
def View.vpitch (v : View) : Nat := v.field 0x14 4
/-- TOFF. -/
def View.toff (v : View) : Nat := v.field 0x18 8
/-- A scaled format (R312). -/
def View.scaled (v : View) : Bool := v.vfmt != 3
/-- e: bytes of a view element. -/
def View.e (v : View) : Nat := if v.vfmt = 3 then 2 else 1
/-- me: bytes of a master element. -/
def View.me (v : View) : Nat := if v.bfMaster then 2 else 4
/-- SC of R314. -/
def View.sc (v : View) : Nat := if v.scaled then 1 else 0
/-- L: elements of a view row. -/
def View.rowLen (v : View) : Nat := if v.layout = 1 then v.rows else v.cols
/-- VR: view rows. -/
def View.viewRows (v : View) : Nat := if v.layout = 1 then v.cols else v.rows
/-- RB: bytes of a view row. -/
def View.rb (v : View) : Nat := v.rowLen * v.e + v.sc * (v.rowLen / 32)
/-- NT: tiles. -/
def View.nt (v : View) : Nat := v.rows * v.cols / 1024
/-- TB: bytes of a tile. -/
def View.tb (v : View) : Nat := (1024 * v.e + 32 * v.sc + 127) / 128 * 128
/-- NB: blocks (R315). -/
def View.nb (v : View) : Nat := v.rows * v.cols / (v.br * v.bc)

/-- ViewPlace of R314: shard index, offset of the element and offset of its scale within the shard object. -/
def View.place (v : View) (r c : Nat) : Nat × Nat × Nat :=
  if v.layout != 2 then
    let vr := if v.layout = 1 then c else r
    let k := if v.layout = 1 then r else c
    let per := v.viewRows / v.shards
    let base := vr % per * v.vpitch
    (vr / per, base + k * v.e, base + v.rowLen * v.e + k / 32)
  else
    let t := r / 32 * (v.cols / 32) + c / 32
    let per := v.nt / v.shards
    let base := t % per * v.tb
    (t / per, base + (32 * (r % 32) + c % 32) * v.e, base + 1024 * v.e + r % 32)

/-- The block of master element (r, c) (R315). -/
def View.blockOf (v : View) (r c : Nat) : Nat := r / v.br * (v.cols / v.bc) + c / v.bc

/-- The top-left master element of block b (R315). -/
def View.blockOrigin (v : View) (b : Nat) : Nat × Nat := (b / (v.cols / v.bc) * v.br, b % (v.cols / v.bc) * v.bc)

/-- The master element at a byte offset of the master object, if the byte belongs to one. -/
def View.masterElem (v : View) (off : Nat) : Option (Nat × Nat) :=
  let r := off / v.mpitch
  let c := off % v.mpitch / v.me
  if r < v.rows ∧ c < v.cols then some (r, c) else none

/-- The block whose view bytes include byte `off` of shard s; none for tags and other bytes (R321). -/
def View.blockAt (v : View) (s off : Nat) : Option Nat :=
  if v.layout != 2 then
    let per := v.viewRows / v.shards
    let vr := off / v.vpitch
    let p := off % v.vpitch
    let k? := if p < v.rowLen * v.e then some (p / v.e) else if p < v.rb then some (32 * (p - v.rowLen * v.e)) else none
    match k? with
    | none => none
    | some k =>
      if per ≤ vr then none
      else
        let row := vr + s * per
        some (if v.layout = 1 then v.blockOf k row else v.blockOf row k)
  else
    let per := v.nt / v.shards
    let t := off / v.tb
    let p := off % v.tb
    let i? := if p < 1024 * v.e then some (p / v.e) else if v.scaled && decide (p < 1024 * v.e + 32) then some (32 * (p - 1024 * v.e))
      else none
    match i? with
    | none => none
    | some i =>
      if per ≤ t then none
      else
        let tt := t + s * per
        some (v.blockOf (tt / (v.cols / 32) * 32 + i / 32) (tt % (v.cols / 32) * 32 + i % 32))

/-- The shard and offset of block b's tag (R315, R324). -/
def View.tagPlace (v : View) (b : Nat) : Nat × Nat :=
  let (r, c) := v.blockOrigin b
  let (s, e, _) := v.place r c
  if v.rowa then (s, e / v.vpitch * v.vpitch + 504) else (s, v.toff + 8 * b)

/-- The `.glb` address of a shard byte. -/
def View.shardVa (v : View) (s off : Nat) : Word := v.shard s + word off

/-- The physical address of a block's tag. -/
def State.tagPa (s : State) (d : Nat) (v : View) (b : Nat) : Option Nat :=
  let (sh, off) := v.tagPlace b
  s.vaPa d v.asid (v.shardVa sh off)

/-- A block's tag (R316); 0 where its place does not translate. -/
def State.tag (s : State) (d : Nat) (v : View) (b : Nat) : Word :=
  match s.tagPa d v b with
  | some pa => s.rd64 pa
  | none => 0

/-- WANT of R316. -/
def tagWant (w : Word) : Nat := fld w 28 28
/-- HAVE of R316. -/
def tagHave (w : Word) : Nat := fld w 0 28
/-- POIS of R316. -/
def tagPois (w : Word) : Bool := w.getLsbD 63
/-- R316. -/
def tagFresh (w : Word) : Bool := tagHave w == tagWant w && !tagPois w
/-- A tag word. -/
def tagWord (pois : Bool) (want have_ : Nat) : Word := word (bit pois 63 + want % 2 ^ 28 * 2 ^ 28 + have_ % 2 ^ 28)

/-- BUSY of R316, in its place. -/
def tagBusy (w : Word) : Word := w &&& (1#64 <<< 62)

/-- The clk that n ns take (R8). -/
def clkOfNs (n : Nat) : Nat := (n * 21 + 9) / 10

/-- Whether the last Sync message of a die is 2 s old (R420). -/
def State.syncOld (s : State) (d : Nat) : Bool := decide ((s.die d).lastSync + clkOfNs 2000000000 ≤ s.clk)

/-- LOCK of a host die (R420). -/
def State.locked (s : State) (d : Nat) : Bool := (s.die d).lock && !s.syncOld d

/-- The clock at which a lease that die d granted ends at the home (R418, R420): at E, or, without LOCK, after twice its length
since the grant. -/
def State.grantEnd (s : State) (d : Nat) (g : Grant) : Nat :=
  if s.locked d then s.clk + clkOfNs (g.expiry - s.time) else g.granted + clkOfNs (2 * g.len)

/-- Whether another package holds an unexpired lease on a line (R418). -/
def State.leased (s : State) (line : Nat) : Bool :=
  [4, 5].any fun d => (s.die d).grants.any fun g => g.line == line && decide (s.clk < s.grantEnd d g)

/-- R418: a write to a line under lease waits until its leases have ended; the clock stands at their end (log entry 15). -/
def State.awaitLeases (s : State) (line : Nat) : State :=
  [4, 5].foldl (fun s d =>
    let gs := (s.die d).grants.filter fun g => g.line == line
    if gs.isEmpty then s
    else
      let s := { s with clk := gs.foldl (fun t (g : Grant) => max t (s.grantEnd d g)) s.clk }
      s.modDie d fun k => { k with grants := k.grants.filter fun g => !(g.line == line) }) s

/-- Writes a block's tag at its arbiter, by the engine's own translation (R318, R342). -/
def State.putTag (s : State) (d : Nat) (v : View) (b : Nat) (t : Word) : State :=
  let (sh, off) := v.tagPlace b
  match s.unitWalk d v.asid (v.shardVa sh off) true with
  | (0, pa, s) => (s.awaitLeases (pa / 128)).poke pa 8 t.toNat none
  | (_, _, s) => s

/-- The handle of a view (R327). -/
def View.handle (v : View) : Word := word (v.obj * 2 ^ 40 + v.ser % 256 * 2 ^ 8 + v.idx)

/-- One view of a die's table. -/
def State.view? (s : State) (d n : Nat) : Option View := (s.die d).views.findSome? fun (m, v) => if m = n then some v else none

/-- Changes a view of a die's table. -/
def State.modView (s : State) (d n : Nat) (f : View → View) : State :=
  s.modDie d fun x => { x with views := x.views.map fun (m, v) => if m = n then (m, f v) else (m, v) }

/-- R320: a block that a read or a `view.sync` needs moves to the head of the FIFO. -/
def State.hasten (s : State) (d n b : Nat) : State :=
  s.modDie d fun x => if x.vfifo.contains (n, b) then { x with vfifo := (n, b) :: x.vfifo.filter (· != (n, b)) } else x

/-- The outcome of the checks of a read (R322). -/
inductive Checked
  | ok
  | fault (kind : Nat)
  | held (blocks : List Nat)
deriving DecidableEq, Repr

/-- The blocks of a byte range of a shard, each once. -/
def View.blocksOf (v : View) (i off n : Nat) : List Nat :=
  (List.range n).foldl (fun bs j => match v.blockAt i (off + j) with
    | some b => if bs.contains b then bs else bs ++ [b]
    | none => bs) []

/-- R322: the checks of the blocks that one access reads, with their counts. A poisoned block decides first, then a stale one under
the policy 2 FAULT; blocks that hold the read under 0 WAIT are counted where they hold it. -/
def State.checkBlocks (s : State) (d n : Nat) (v : View) (bs : List Nat) : Checked × State :=
  let stale := bs.filter fun b => !tagFresh (s.tag d v b)
  if bs.any fun b => tagPois (s.tag d v b) then (.fault 10, s)
  else match stale, v.pol with
  | [], _ => (.ok, s)
  | _, 0 => (.held stale, s)
  | _, 1 => (.ok, s.modView d n fun v => { v with sstale := v.sstale + stale.length })
  | _, _ => (.fault 9, s.modView d n fun v => { v with faults := v.faults + 1 })

/-- One mark (R317): WANT grows, and the block joins the FIFO if it is not queued (R320). -/
def State.markBlock (s : State) (d n : Nat) (v : View) (b : Nat) : State :=
  let t := s.tag d v b
  let s := s.putTag d v b (tagWord (tagPois t) (tagWant t + 1) (tagHave t) ||| tagBusy t)
  if (s.die d).vfifo.contains (n, b) then s else s.modDie d fun k => { k with vfifo := k.vfifo ++ [(n, b)] }

/-- The blocks that bytes of a master object touch, each once. -/
def View.touched (v : View) (offs : List Nat) : List Nat :=
  offs.foldl (fun bs o => match v.masterElem o with
    | some (r, c) => let b := v.blockOf r c; if bs.contains b then bs else bs ++ [b]
    | none => bs) []

/-- The views of a master or a shard object on a die: key and view. -/
def Die.viewsOf (k : Die) (asid : Word) (obj : Nat) : List (Nat × View) :=
  if k.lost then [] else k.views.filter fun (_, v) => low32 v.asid == low32 asid && v.obj == obj

/-- The view whose shard is the object: die, key, view and shard index (R311). -/
def State.shardView (s : State) (asid : Word) (obj : Nat) : Option (Nat × Nat × View × Nat) :=
  (([0, 1, 2, 3].filter fun d => !(s.die d).lost).flatMap fun d => (s.die d).views.flatMap fun (n, v) =>
    if low32 v.asid == low32 asid then
      ((List.range v.shards).filter fun i => fld (v.shard i) 40 24 == obj).map fun i => (d, n, v, i)
    else []).head?

/-- R321: a read of n bytes of a shard by a unit that takes no part in the deferrals of R322: the fault kind, 0 for success. A block that
would hold it faults it as a stale one (log entry 130). -/
def State.shardKind (s : State) (asid : Word) (obj off n : Nat) : Nat × State :=
  match s.shardView asid obj with
  | none => (0, s)
  | some (d, m, v, i) =>
    match s.checkBlocks d m v (v.blocksOf i off n) with
    | (.ok, s) => (0, s)
    | (.fault k, s) => (k, s)
    | (.held _, s) => (9, s)

/-- R317: the marks of a write to bytes `offs` of an object, in every view of it. -/
def State.mark (s : State) (asid : Word) (obj : Nat) (offs : List Nat) : State :=
  [0, 1, 2, 3].foldl (fun s d => ((s.die d).viewsOf asid obj).foldl (fun s (n, v) =>
    (v.touched offs).foldl (fun s b => s.markBlock d n v b) s) s) s

/-- The offsets of an object at which a physical byte lies, by its extents (R339, R340). -/
def State.offsetsOf (s : State) (d : Nat) (asid : Word) (obj pa : Nat) : List Nat :=
  let da := s.descAddr d (asidOf asid) obj
  let w0 := s.rd64 da
  let n := fld (s.rd64 (da + 16)) 0 32
  let es := s.extents da n (s.rdDesc da) (fld w0 60 3) (w0.getLsbD 59) n
  (es.filter fun (_, e) => e.present && decide (e.frame * 2 ^ 15 ≤ pa) && decide (pa < (e.frame + 2 ^ e.k) * 2 ^ 15)).map
    fun (_, e) => e.voff * 2 ^ 15 + (pa - e.frame * 2 ^ 15)

/-- R317, R404: the marks of a write of n bytes at a physical address, in every view whose master holds them. -/
def State.markPhysical (s : State) (pa n : Nat) : State :=
  let masters := ([0, 1, 2, 3].flatMap fun d => (s.die d).views.map fun (_, v) => (d, v.asid, v.obj)).dedup
  let objs := masters.foldl (fun (os : List (Nat × Word × Nat)) (x : Nat × Word × Nat) =>
    if os.any fun y => low32 y.2.1 == low32 x.2.1 && y.2.2 == x.2.2 then os else os ++ [x]) []
  objs.foldl (fun s (d, asid, obj) =>
    s.mark asid obj ((List.range n).flatMap fun i => s.offsetsOf d asid obj (pa + i))) s

end Sys2Proof.Machine
end

