-- ==== Sys2Proof/Machine/Memory.lean ====
section
/-! DEFINITION. The memory model inside and between cores: L1 snapshots, unpublished bytes, publication and discard, egress and
streams, near and far accesses (R284-R299, R188, R206, R175), segments and full/empty words (R153, R154, R162). -/

namespace Sys2Proof.Machine

/-- The identity that a translated request carries (R345). `va` is the address of the line's first byte. -/
structure LineId where
  va : Word
  asid : Word
  gen : Nat
  chk : Bool
deriving DecidableEq, Repr

/-- The identity of an access at va under a translation. -/
def Xl.lineId (x : Xl) (asid va : Word) : LineId := ⟨word (va.toNat - x.pa % 128), asid, x.gen, x.chk⟩

/-- Byte i of a line. -/
def lineByte (data : BitVec 1024) (i : Nat) : Byte := data.extractLsb' (8 * i) 8

/-- A line with byte i replaced. -/
def setLineByte (data : BitVec 1024) (i : Nat) (b : Byte) : BitVec 1024 :=
  (data &&& ~~~(0xFF#1024 <<< (8 * i))) ||| (b.setWidth 1024 <<< (8 * i))

/-- The byte positions of a mask, ascending. -/
def bytesOf (m : BitVec 128) : List Nat := (List.range 128).filter fun i => m.getLsbD i

/-- The mask of n bytes from position i. -/
def byteMask (i n : Nat) : BitVec 128 := BitVec.ofNat 128 ((2 ^ n - 1) * 2 ^ i)

/-- Bytes of `a` where the mask is set, of `b` elsewhere. -/
def mergeLine (m : BitVec 128) (a b : BitVec 1024) : BitVec 1024 :=
  (bytesOf m).foldl (fun d i => setLineByte d i (lineByte a i)) b

/-- The 128 bytes of a line at their arbiter. -/
def State.arbLine (s : State) (line : Nat) : BitVec 1024 := BitVec.ofNat 1024 (s.rd (line * 128) 128)

/-- The object offset of byte i of a line. -/
def LineId.off (i : LineId) (b : Nat) : Nat := fld (i.va + word b) 0 40

/-- The identity of a line's latest unpublished bytes (R345). -/
def L1Line.id (l : L1Line) : LineId := ⟨l.va, l.asid, l.gen, l.chk⟩

/-- The unpublished bytes of a line that have an older identity. -/
def L1Line.olds (l : L1Line) : BitVec 128 := l.older.foldl (fun m p => m ||| p.mask) 0

/-- The bytes `m` of a line come under identity i, as its latest; other unpublished bytes keep theirs (R345). -/
def L1Line.under (l : L1Line) (m : BitVec 128) (i : LineId) : L1Line :=
  let r := l.um &&& ~~~m &&& ~~~l.olds
  let ps := (l.older.map fun p => { p with mask := p.mask &&& l.um &&& ~~~m }).filter fun p => p.mask != 0
  { l with
    older := if r = 0 ∨ l.id = i then ps else ps ++ [⟨r, l.va, l.asid, l.gen, l.chk⟩]
    va := i.va, asid := i.asid, gen := i.gen, chk := i.chk }

/-- The bytes `m` of a line by the identities under which they were stored, the oldest first (R345). -/
def L1Line.parts (l : L1Line) (m : BitVec 128) : List (BitVec 128 × LineId) :=
  (((l.older.map fun p => (p.mask &&& m, (⟨p.va, p.asid, p.gen, p.chk⟩ : LineId)))) ++ [(m &&& ~~~l.olds, l.id)]).filter fun p => p.1 != 0

/-- The unpublished bytes of a line are those of `m` from now on. -/
def L1Line.keepUm (l : L1Line) (m : BitVec 128) : L1Line :=
  { l with um := m, older := (l.older.map fun p => { p with mask := p.mask &&& m }).filter fun p => p.mask != 0 }

/-- R356: a write that covers the whole line clears its poison. -/
def State.unpoison (s : State) (line : Nat) (m : BitVec 128) : State :=
  if m = BitVec.allOnes 128 then { s with poison := s.poison.filter (· != line), ecc := set 0 s.ecc line 0 } else s

/-- A line's bytes change, every copy but that of core `keep` is noticed and awaited counters are tested (R288, R356, R367). -/
def State.rawCommit (s : State) (line : Nat) (m : BitVec 128) (data : BitVec 1024) (keep : Option Nat) : State :=
  let s := { s with mem := (bytesOf m).foldl (fun mm b => set 0 mm (line * 128 + b) (lineByte data b)) s.mem }
  ((s.unpoison line m).notice line keep).afterWrite (line * 128) 128

/-- The format of `.fadd` at a size of n bytes (R196). -/
def faddFmt (n : Nat) : Fp.Fmt := if n = 2 then Fp.bf16 else if n = 4 then Fp.f32 else Fp.f64

/-- The sum of `.fadd`: rounded to nearest-even, subnormals kept, canonical NaN (R196, R44). -/
def faddBits (f : Fp.Fmt) (m v : Nat) : Nat := (f.add 0 false (f.operand false m) (f.operand false v)).1

/-- R196: the new memory value of n bytes. -/
def AtomOp.apply (op : AtomOp) (n m v : Nat) : Nat :=
  let w := 8 * n
  let pick (b : Bool) : Nat := if b then m else v
  match op with
  | .add => (m + v) % 2 ^ w
  | .or => Nat.lor m v
  | .and => Nat.land m v
  | .xor => Nat.xor m v
  | .smin => pick (decide (Fp.sintOf w m ≤ Fp.sintOf w v))
  | .smax => pick (decide (Fp.sintOf w v ≤ Fp.sintOf w m))
  | .umin => pick (decide (m ≤ v))
  | .umax => pick (decide (v ≤ m))
  | .xchg => v
  | .fadd => faddBits (faddFmt n) m v

/-- The bytes that a request of another package leaves, from those that it finds (R195, R196, R419). -/
def Inbound.apply (h : Inbound) (n old v : Nat) : Nat :=
  match h with
  | .write => v
  | .atomic op => op.apply n old v
  | .cas e => if old = e.toNat % 2 ^ (8 * n) then v else old
  | .fe _ => v

/-- The identity of a future word of this package: that of the object whose extents hold it, otherwise the one that it has (log entry 129). -/
def State.futOwner (s : State) (pa : Nat) : Mask × Nat :=
  let f := get FutWord.zero s.futs (pa / 8)
  match [0, 1, 2, 3, 4, 5].findSome? fun d => (s.liveObjects d).findSome? fun (a, o) =>
      if (s.rd64 (s.descAddr d a o)).getLsbD 15 && inFrames (s.framesOf d a o) (pa / 128) then
        some (BitVec.ofNat 32 (fld (s.rd64 (s.astAddr d a)) 32 16 * 2 ^ 16 + a), o) else none with
  | some x => x
  | none => (f.asid, f.obj)

/-- A full/empty operation of another package at its word (R191, R419): whether the state of the word served it. Such an operation lends no
priority. -/
def State.farFe (s : State) (pa op : Nat) (v : Nat) : Bool × State :=
  let (asid, obj) := s.futOwner pa
  let f := get FutWord.zero s.futs (pa / 8)
  let full := f.full && f.asid == asid && f.obj == obj
  let put (s : State) (b : Bool) : State := { s with futs := set FutWord.zero s.futs (pa / 8) ⟨b, none, asid, obj⟩ }
  let store (s : State) : State := s.rawCommit (pa / 128) (byteMask (pa % 128) 8) (BitVec.ofNat 1024 (v % 2 ^ 64 * 2 ^ (8 * (pa % 128)))) none
  match op with
  | 0 => (full, s)
  | 1 => (full, if full then put s false else s)
  | 2 => (!full, if full then s else put (store s) true)
  | 3 => (true, put (store s) true)
  | _ => (true, put s (v % 2 == 1))

/-- A delayed request enters line order (R418, R419). What a full/empty operation lets happen, or its wait for its word, comes next. -/
def State.performDelayed (s : State) (w : Delayed) : State :=
  let s := s.awaitLeases w.line
  match w.how with
  | .fe op =>
    let (ok, s) := s.farFe w.pa op w.data.toNat
    { s with agenda := .outside (if ok then .serveWord w.pa else .inbound w.src w.pa 8 w.how (word w.data.toNat)) :: s.agenda }
  | how =>
    let v := how.apply w.n (s.rd w.pa w.n) w.data.toNat % 2 ^ (8 * w.n)
    (s.markPhysical w.pa w.n).rawCommit w.line (byteMask (w.pa % 128) w.n) (BitVec.ofNat 1024 (v * 2 ^ (8 * (w.pa % 128)))) none

/-- Of the delayed requests, those to a line and the earlier ones to their lines or of their streams (R298, R418); from the latest to the
earliest. -/
def delayedTo (line : Nat) (ws : List Delayed) : List Delayed :=
  (ws.foldr (fun (w : Delayed) (r : List Delayed × List Nat × List Nat) =>
    if w.line == line || r.2.1.contains w.line || r.2.2.contains w.src then (w :: r.1, w.line :: r.2.1, w.src :: r.2.2) else r) ([], [], [])).1

/-- R418: the requests of other packages that are delayed on a line are performed, with those that they follow, in the order of their
arrival. -/
def State.flushDelayed (s : State) (line : Nat) : State :=
  (delayedTo line s.delayed).foldl (fun (s : State) w => ({ s with delayed := s.delayed.erase w } : State).performDelayed w) s

/-- R418: a spoke agent that sends a write to a line it holds under lease drops its copy first. -/
def State.dropLeases (s : State) (line : Nat) : State :=
  match region (line * 128) with
  | .package _ => [4, 5].foldl (fun s d =>
      s.modDie d fun k => { k with leases := k.leases.filter fun l => !(l.pkg * 2 ^ 45 + 2 ^ 45 + l.line == line) }) s
  | _ => s

/-- A program or engine write enters line order (R288, R317, R418): views are marked first. Device windows are not memory: a write
that reaches one is not performed here (R390, R399). -/
def State.commitLine (s : State) (line : Nat) (m : BitVec 128) (data : BitVec 1024) (i : LineId) (keep : Option Nat) : State :=
  match region (line * 128) with
  | .config _ => s
  | .submit _ => s.discardSubmit (line * 128)
  | .nowhere => s
  | _ =>
    let s := ((s.awaitLeases line).flushDelayed line).dropLeases line
    let s := if i.chk then s.mark i.asid (fld i.va 40 24) ((bytesOf m).map i.off) else s
    s.rawCommit line m data keep

/-- Writes n ≤ 128 bytes of one line at the arbiter. -/
def State.commit (s : State) (pa n v : Nat) (i : LineId) (keep : Option Nat) : State :=
  s.commitLine (pa / 128) (byteMask (pa % 128) n) (BitVec.ofNat 1024 (v % 2 ^ (8 * n) * 2 ^ (8 * (pa % 128)))) i keep

/-- The refusal count of R358. -/
def State.countRefusal (s : State) (c : Nat) : State := s.modDie (dieOfCore c) fun k => k.addCount 4 1

/-- R345: bytes whose publication was refused and whose new walk faults stay under UM in the core that stored them (log entry 16). -/
def State.keepUm (s : State) (e : Egress) : State :=
  s.modCore e.src fun k =>
    let l := k.line (e.pa / 128)
    let m := e.mask &&& ~~~l.um
    k.setLine (e.pa / 128) { l with
      data := mergeLine m e.data l.data, vm := l.vm ||| m, um := l.um ||| m, touched := true
      older := if m = 0 then l.older else ⟨m, e.va, e.asid, e.gen, e.chk⟩ :: l.older }

/-- Whether a physical address lies in a package that no up port reaches (R422). -/
def State.cutOff (s : State) (pa : Nat) : Bool :=
  match region pa with
  | .package p => !s.reaches p
  | _ => false

/-- R338: a walk for an ASID with incarnation 0 waits while its flush is in progress. -/
def State.flushing (s : State) (asid : Word) : Bool :=
  incOf asid == 0 && s.dies.any fun (_, x) => x.trBusy && x.flushPend == some (asidOf asid)

/-- Performs one accepted write at its home (R292, R298). A refused one drops its object's translations and is translated again, with
the effects of a walk (R342, R345) once no flush holds it up (R338); bytes that a program may not write to a shard are discarded (R329), and
those whose home is out of reach stay (R422; log entry 16). -/
def State.performEgress (s : State) (d : Nat) (e : Egress) : State :=
  let i : LineId := ⟨e.va, e.asid, e.gen, e.chk⟩
  let obj := fld e.va 40 24
  if s.cutOff e.pa then s.keepUm e
  else if !e.chk || s.current d (asidOf e.asid) (incOf e.asid) obj e.gen then
    s.commitLine (e.pa / 128) e.mask e.data i (some e.src)
  else
    let s := (s.countRefusal e.src).dropObject e.src (asidOf e.asid) obj
    if s.flushing e.asid then s.keepUm e else
    let (k, x, s) := s.walk e.src (asidOf e.asid) (incOf e.asid) e.va .write true true
    if k = 0 then s.commitLine (x.pa / 128) e.mask e.data { i with gen := x.gen } (some e.src)
    else if k = 6 && (s.shardView e.asid obj).isSome then s
    else s.keepUm e

/-- The writes that a delivery toward a home performs: those to that home, and the earlier host-boundary writes of the sources of such
writes, whose streams keep their order whatever the homes (R292, R298). From the latest write to the earliest. -/
def streamed (home : Nat) (es : List Egress) : List Egress :=
  (es.foldr (fun (e : Egress) (r : List Egress × List Nat) =>
    if e.home == home || (decide (6 ≤ e.home) && r.2.contains e.src) then (e :: r.1, if 6 ≤ e.home then e.src :: r.2 else r.2) else r) ([], [])).1

/-- Performs accepted writes of die d, in order. -/
def State.sendEgress (s : State) (d : Nat) (es : List Egress) : State :=
  es.foldl (fun s e => (s.modDie d fun k => { k with egress := k.egress.erase e }).performEgress d e) s

/-- Performs every accepted write from die d toward one home, in order (R292). -/
def State.drainEgress (s : State) (d home : Nat) : State := s.sendEgress d (streamed home (s.die d).egress)

/-- Performs the first accepted write toward one home, behind what its stream has before it (R298). -/
def State.drainOne (s : State) (d home : Nat) : State :=
  let es := (s.die d).egress
  let n := es.findIdx fun e => e.home == home
  s.sendEgress d (streamed home (es.take (n + 1)))

/-- R292: what die d has already accepted toward the home of an address is performed before a later request to it. -/
def State.drainTo (s : State) (d pa : Nat) : State := s.drainEgress d (homeOf s pa)

/-- R292: what die d has accepted toward the homes of the table words that a walk reads is performed before the walk. -/
def State.drainTables (s : State) (d asid : Nat) (va : Word) : State :=
  if (s.die d).egress.isEmpty then s
  else if (s.die d).trMode then s.drainTo d ((get 0 (s.die d).invs (fld va 60 4)).toNat / 2 ^ 20 * 2 ^ 20 % 2 ^ 48)
  else
    let s := s.drainTo d (s.astAddr d asid)
    let da := s.descAddr d asid (fld va 40 24)
    let s := s.drainTo d da
    let n := fld (s.rd64 (da + 16)) 0 32
    if n ≤ 2 then s else (s.drainTo d (s.rd64 (da + 24)).toNat).drainTo d ((s.rd64 (da + 24)).toNat + 16 * (n - 1))

/-- A translation for a request, behind what its die has sent to the homes of the tables it walks (R292, R342). -/
def State.translate (s : State) (c asid inc : Nat) (va : Word) (acc : Acc) (priv : Bool) : Nat × Xl × State :=
  let d := dieOfCore c
  let s := match s.tlbFor c asid inc va acc priv with
    | some t => if t.inv || s.current d asid inc t.obj t.gen then s else s.drainTables d asid va
    | none => s.drainTables d asid va
  s.translateNow c asid inc va acc priv

/-- A walk by a unit of die d, whose access comes behind what the die has sent to the same home (R292). -/
def State.agentWalk (s : State) (d : Nat) (asid va : Word) (acc : Acc) : Nat × Xl × State :=
  let (k, x, s) := (s.drainTables d (asidOf asid) va).agentWalkNow d asid va acc
  (k, x, if k = 0 then s.drainTo d x.pa else s)

/-- Whether another core holds a published copy of a line. -/
def State.shared (s : State) (c line : Nat) : Bool :=
  s.cores.any fun (c', k) => c' != c && (k.line line).copied

/-- Other holders of a line give up ownership when a copy is filled (R286, R289): E becomes S, M becomes O. -/
def State.downgrade (s : State) (c line : Nat) : State :=
  { s with cores := s.cores.map fun (c', k) =>
      let l := k.line line
      if c' = c then (c', k)
      else match l.st with
      | .e => (c', k.setLine line { l with st := .s })
      | .m => (c', k.setLine line { l with st := .o })
      | _ => (c', k) }

/-- Whether an address lies on another package, where atomics are performed far (R415). -/
def elsewhere (pa : Nat) : Bool := match region pa with | .package _ => true | _ => false

/-- Whether an address is never cached (R389, R421): an external host's window, or another package outside the lease domain. -/
def State.uncached (s : State) (pa : Nat) : Bool :=
  match region pa with
  | .host _ => true
  | .package p => decide (s.ownPkg.map (· / 1024) ≠ some (p / 1024))
  | _ => false

/-- Whether two packages share a lease domain (R414). -/
def State.inDomain (s : State) (pkg : Nat) : Bool := decide (s.ownPkg.map (· / 1024) = some (pkg / 1024))

/-- The line of another package's memory in this package's map (log entry 4). -/
def farLine (pkg line : Nat) : Nat := 2 ^ 45 * (pkg + 1) + line

/-- Whether a lease is valid at its holder (R417, R420). -/
def State.leaseValid (s : State) (d : Nat) (l : Lease) : Bool :=
  s.locked d && decide (s.time + l.bound + (s.die d).bound < l.expiry)

/-- R417: the holder's side of a fill of line `line` of package `pkg`: the home's reply brings the line as it stands there and, where
`expiry` is not 0, a lease with the home's BOUND. With a valid lease the agent answers from its copy. -/
def State.holderFill (s : State) (d pkg line : Nat) (data : BitVec 1024) (expiry bound : Nat) : State :=
  let mine (l : Lease) : Bool := l.pkg == pkg && l.line == line
  if (s.die d).leases.any fun l => mine l && s.leaseValid d l then s
  else
    let s := { s with mem := writeBytes s.mem (farLine pkg line * 128) 128 data.toNat }
    let lock := s.locked d
    s.modDie d fun x =>
      let rest := x.leases.filter fun l => !mine l
      if expiry = 0 ∨ !lock then { x with leases := rest }
      else { x with leases := (if 8192 ≤ rest.length then rest.drop 1 else rest) ++ [⟨pkg, line, data, expiry, bound⟩] }

/-- n free words as bytes, the first the lowest. -/
def State.freshWords (s : State) : Nat → Nat × State
  | 0 => (0, s)
  | n + 1 =>
    let (w, s) := s.freshWord
    let (r, s) := s.freshWords n
    (w.toNat + 2 ^ 64 * r, s)

/-- What the memory of another package holds at n bytes when a request reaches it is the other package's: a free value (R415, R421; log
entry 151). -/
def State.askHome (s : State) (pa n : Nat) : State :=
  if elsewhere pa then
    let (v, s) := s.freshWords ((n + 7) / 8)
    { s with mem := writeBytes s.mem pa n v }
  else s

/-- The host die whose spoke agent serves the object of a request (R415). -/
def State.agentDie (s : State) (d : Nat) (i : LineId) : Nat :=
  if fld (s.rd64 (s.descAddr d (asidOf i.asid) (fld i.va 40 24))) 60 3 = 5 then 5 else 4

/-- R417: a fill of a line of another package of the domain by a core of die d is served from a valid lease, or by the home with what the line
holds there and, it may be, a lease. -/
def State.askFill (s : State) (d line : Nat) (i : LineId) : State :=
  match region (line * 128) with
  | .package p =>
    let (data, s) := s.freshWords 16
    let (e, s) := s.freshWord
    let (b, s) := s.freshWord
    s.holderFill (s.agentDie d i) p (line % 2 ^ 45) (BitVec.ofNat 1024 data) e.toNat b.toNat
  | _ => s

/-- R288, R317: whether the home slice is the arbiter of a line whatever the requester, by the object of the request. -/
def State.homeOnly (s : State) (d line : Nat) (i : LineId) : Bool :=
  let w0 := s.rd64 (s.descAddr d (asidOf i.asid) (fld i.va 40 24))
  elsewhere (line * 128) || (i.chk && (w0.getLsbD 15 || w0.getLsbD 12))

/-- A fill: the bytes that the copy does not hold come from the arbiter (R287, R290), after every write that the die has
already sent to the same home (R292). The policy of the MOESI state is the model's (log entry 17). -/
def State.fill (s : State) (c line : Nat) (i : LineId) (pf : Bool) : State :=
  let s := (s.drainEgress (dieOfCore c) (homeOf s (line * 128))).askFill (dieOfCore c) line i
  let others := s.shared c line || s.homeOnly (dieOfCore c) line i
  let s := s.downgrade c line
  s.modCore c fun k =>
    let l := k.line line
    k.setLine line (({ l with
      data := mergeLine l.vm l.data (s.arbLine line), vm := BitVec.allOnes 128,
      st := (match l.st with | .e => .e | .m => .m | .o => .o | _ => if others then .s else .e), pf := pf } : L1Line).under 0 i)

/-- Whether a core's copy holds all n bytes at pa. -/
def Core.holds (k : Core) (pa n : Nat) : Bool :=
  let m := byteMask (pa % 128) n
  (k.line (pa / 128)).vm &&& m == m

/-- A demand access to a prefetched line counts once in PFU (R174). -/
def State.countUse (s : State) (c line : Nat) : State :=
  s.modCore c fun k =>
    let l := k.line line
    if l.pf then { k.setLine line { l with pf := false } with pfu := k.pfu + 1 } else k

/-- Whether a held store covers a byte. -/
def HeldStore.covers (h : HeldStore) (a : Nat) : Bool := decide (h.pa ≤ a) && decide (a < h.pa + h.n)

/-- The byte that a held store gives an address. -/
def HeldStore.byte (h : HeldStore) (a : Nat) : Byte := h.data.extractLsb' (8 * (a - h.pa)) 8

/-- The latest of a list of held stores that covers a byte. -/
def lastHeld (hs : List HeldStore) (a : Nat) : Option HeldStore :=
  (hs.filter (·.covers a)).foldl (fun r h => match r with
    | some x => if x.issued ≤ h.issued then some h else r
    | none => some h) none

/-- The stores that the teams of a core hold (R175, R299). -/
def Core.allHeld (k : Core) : List HeldStore := k.teams.flatMap fun (_, t) => t.heldStores

/-- A byte as a core reads it where it keeps no copy: its latest held store, otherwise the byte at the arbiter (R188, R299). -/
def Core.overlay (k : Core) (m : Mem) (a : Nat) : Byte :=
  match lastHeld k.allHeld a with
  | some h => h.byte a
  | none => byteAt m a

/-- A held store without the bytes that a later store of the core has replaced (R188): byte by byte where it loses some. -/
def HeldStore.cut (h : HeldStore) (gone : Nat → Bool) : List HeldStore :=
  let bs := (List.range h.n).map fun j => h.pa + j
  if bs.all fun a => !gone a then [h]
  else (bs.filter fun a => !gone a).map fun a =>
    { h with pa := a, n := 1, data := (h.byte a).setWidth 128, va := h.va + word (a - h.pa) }

/-- The teams of a core but one lose the bytes of held stores that a store at clk `now` has replaced. -/
def Core.supersede (k : Core) (but : Option Nat) (now : Nat) (gone : Nat → Bool) : Core :=
  { k with teams := k.teams.map fun (i, t) =>
      if some i = but then (i, t) else (i, { t with heldStores := t.heldStores.flatMap fun h => if h.issued ≤ now then h.cut gone else [h] }) }

/-- Reads n bytes of one line through the core's snapshot (R290), or at the home of an address that is never cached, behind the
writes of the same stream (R389, R421). -/
def State.readSnap (s : State) (c pa n : Nat) (i : LineId) : Nat × State :=
  if s.uncached pa then
    let s := (s.drainTo (dieOfCore c) pa).askHome pa n
    (readLE ((s.core c).overlay s.mem) pa n, s)
  else
    let s := s.countUse c (pa / 128)
    let s := if (s.core c).holds pa n then s else s.fill c (pa / 128) i false
    (readLE (fun a => lineByte ((s.core c).line (pa / 128)).data (a % 128)) pa n, s)

/-- An ordinary store of n bytes of one line into the core's copy (R287); `pin` in rollback mode (R175). -/
def State.storeSnap (s : State) (c pa n v : Nat) (i : LineId) (pin : Bool) : State :=
  if s.uncached pa then s.modDie (dieOfCore c) fun k =>
      { k with egress := k.egress ++ [⟨homeOf s pa, c, pa / 128 * 128, byteMask (pa % 128) n,
        BitVec.ofNat 1024 (v % 2 ^ (8 * n) * 2 ^ (8 * (pa % 128))), i.va, i.asid, i.gen, i.chk⟩] }
  else
    let m := byteMask (pa % 128) n
    let d := BitVec.ofNat 1024 (v % 2 ^ (8 * n) * 2 ^ (8 * (pa % 128)))
    (s.countUse c (pa / 128)).modCore c fun k =>
      let l := k.line (pa / 128)
      let l := l.under m i
      k.setLine (pa / 128) { l with
        data := mergeLine m d l.data, vm := l.vm ||| m, um := l.um ||| m,
        pin := if pin then l.pin ||| m else l.pin &&& ~~~m, touched := true }

/-- Whether a scope must see a write of home h acknowledged (true) or only accepted (false) (R292). -/
def scopeAcks (sc : Scope) (d h : Nat) : Bool :=
  match sc with
  | .core => false
  | .clu => h == d
  | .die => h == d
  | .pkg => decide (h < 6)
  | .sys => true

/-- Sends bytes of one line toward their home for a scope (R292); those of a line that the core holds M or E are published in
place. -/
def State.sendLine (s : State) (sc : Scope) (c line : Nat) (m : BitVec 128) (data : BitVec 1024) (i : LineId) : State :=
  let d := dieOfCore c
  let h := homeOf s (line * 128)
  let e : Egress := ⟨h, c, line * 128, m, data, i.va, i.asid, i.gen, i.chk⟩
  let st := ((s.core c).line line).st
  if h = d || st == .m || st == .e then s.performEgress d e
  else
    let s := s.modDie d fun k => { k with egress := k.egress ++ [e] }
    if scopeAcks sc d h then s.drainEgress d h else s

/-- Publication of one line of a core (R287, R292): only bytes under UM that are not pinned. Those of a line under lease wait (R418). -/
def State.publishLine (s : State) (sc : Scope) (c line : Nat) : State :=
  let l := (s.core c).line line
  let m := l.um &&& ~~~l.pin
  if m = 0 ∨ s.leased line then s
  else
    let s := s.modCore c fun k => k.setLine line { l.keepUm (l.um &&& l.pin) with
      st := (match l.st with | .e => .m | .m => .m | .o => .o | _ => .s) }
    (l.parts m).foldl (fun (s : State) p => s.sendLine sc c line p.1 l.data p.2) s

/-- A write of a whole 16-byte granule of local memory clears its poison (R356). -/
def State.locUnpoison (s : State) (c off n : Nat) : State :=
  s.modCore c fun k => { k with poison := k.poison.filter fun g => decide (16 * g < off) || decide (off + n < 16 * g + 16) }

/-- The granules that held cluster stores cover as a whole lose their poison (R356). -/
def State.cluUnpoison (s : State) (held : List CluStore) : State :=
  { s with cores := s.cores.map fun (c, k) => (c, { k with poison := k.poison.filter fun g =>
      !((List.range 16).all fun j => held.any fun h => h.core == c && h.off == 16 * g + j) }) }

/-- Cluster stores held at the writer reach their owners (R188, R292). -/
def State.publishClu (s : State) (c : Nat) : State :=
  let held := (s.core c).cluHeld
  if held.isEmpty then s
  else
    let s := s.modCore c fun k => { k with cluHeld := [] }
    (held.foldl (fun s h => s.modCore h.core fun k => { k with loc := set 0 k.loc h.off h.byte }) s).cluUnpoison held

/-- The writes already accepted whose acknowledgement a scope waits for (R292). -/
def State.settle (s : State) (sc : Scope) (d : Nat) : State :=
  ((s.die d).egress.map (·.home)).foldl (fun s h => if scopeAcks sc d h then s.drainEgress d h else s) s

/-- The publication half of a `phase` (R206, R292), lines in ascending address order. -/
def State.publish (s : State) (sc : Scope) (c : Nat) : State :=
  if sc = .core then s
  else
    let s := s.publishClu c
    let s := ((s.core c).l1.map (·.1)).foldl (fun s line => s.publishLine sc c line) s
    s.settle sc (dieOfCore c)

/-- The discard half (R291): stale lines lose all but their unpublished bytes, lines the core did not store to in the closing
phase go, lines held M or E stay. -/
def L1Line.discard (l : L1Line) : L1Line :=
  if l.stale || (!l.touched && l.st != .m && l.st != .e) then
    if l.um = 0 then L1Line.zero else { l with vm := l.um, stale := false, st := .i, touched := true }
  else { l with touched := l.um != 0 }

/-- The prefetched lines that leave unused (R174). -/
def Core.unused (ls : Sparse L1Line) : Nat := (ls.filter fun (_, l) => l.pf && l.discard == L1Line.zero).length

/-- The discard half of a `phase` on a core (R291). -/
def State.discard (s : State) (sc : Scope) (c : Nat) : State :=
  if sc = .core then s
  else s.modCore c fun k =>
    { k with pfn := k.pfn + word (Core.unused k.l1),
             l1 := (k.l1.map fun (a, l) => (a, l.discard)).filter fun (_, l) => l != L1Line.zero }

/-- A `phase` of a scope (R206). -/
def State.phase (s : State) (sc : Scope) (c : Nat) : State := (s.publish sc c).discard sc c

/-- A release of a scope. -/
def State.release (s : State) (sc : Scope) (c : Nat) : State := s.publish sc c

/-- An acquire of a scope. -/
def State.acquire (s : State) (sc : Scope) (c : Nat) : State := s.discard sc c

/-- A line leaves a core's L1 but for its pinned bytes (R175); a prefetched one that nothing has used is counted (R174). -/
def Core.dropLine (k : Core) (line : Nat) : Core :=
  let l := k.line line
  let k := if l.pf then { k with pfn := k.pfn + 1 } else k
  k.setLine line (if l.pin = 0 then L1Line.zero else { l.keepUm l.pin with vm := l.pin, stale := false, st := .i, pf := false })

/-- Unpublished bytes of a line are performed at its arbiter, each under its own identity (R288, R345). -/
def State.sendParts (s : State) (c line : Nat) (l : L1Line) : State :=
  (l.parts (l.um &&& ~~~l.pin)).foldl (fun (s : State) p =>
    s.performEgress (dieOfCore c) ⟨homeOf s (line * 128), c, line * 128, p.1, l.data, p.2.va, p.2.asid, p.2.gen, p.2.chk⟩) s

/-- A far operation at the home of a line (R197, R293): the die's earlier writes to that home come first, the requester's own
copy is published and invalidated, pinned bytes stay (R175). -/
def State.goFar (s : State) (c line : Nat) : State :=
  let s := s.drainTo (dieOfCore c) (line * 128)
  let l := (s.core c).line line
  (s.modCore c fun k => k.dropLine line).sendParts c line l

/-- Performs a read-modify-write of n bytes at the arbiter (R197): near where the core holds the line M or E, otherwise far.
The old value comes back. -/
def State.atArbiter (s : State) (c pa n : Nat) (i : LineId) (f : Nat → Nat) : Nat × State :=
  let line := pa / 128
  let l := (s.core c).line line
  if l.st = .m ∨ l.st = .e then
    let s := (s.countUse c line).modCore c fun k => k.setLine line ((k.line line).keepUm (l.um &&& l.pin))
    let s := s.sendParts c line l
    let old := s.rd pa n
    let s := s.commit pa n (f old) i (some c)
    (old, s.modCore c fun k =>
      let l := k.line line
      k.setLine line { l with data := mergeLine l.um l.data (s.arbLine line), vm := BitVec.allOnes 128, st := .m })
  else
    let s := (s.goFar c line).askHome pa n
    let old := s.rd pa n
    (old, s.commit pa n (f old) i none)

/-- A store at the line's home at once (R203, R294). -/
def State.storeHome (s : State) (c pa n v : Nat) (i : LineId) : State :=
  (s.goFar c (pa / 128)).commit pa n v i none

/-- R294: an engine reads the issuing core's unpublished bytes, every other byte at the arbiter. -/
def State.engineByte (s : State) (c pa : Nat) : Byte :=
  let l := (s.core c).line (pa / 128)
  if l.um.getLsbD (pa % 128) then lineByte l.data (pa % 128) else byteAt s.mem pa

/-- R294: an engine writes at the arbiter; every L1 copy is noticed, the issuing core's included. -/
def State.engineWrite (s : State) (pa n v : Nat) (i : LineId) : State := s.commit pa n v i none

/-- A store of n ≤ 8 bytes by a unit of die d, at its arbiter; the fault kind, 0 for success. -/
def State.agentStore (s : State) (d : Nat) (asid va : Word) (n v : Nat) : Nat × State :=
  let (k, x, s) := s.agentWalk d asid va .write
  if k != 0 then (k, s) else (0, s.commit x.pa n v (x.lineId asid va) none)

/-- A load of n bytes by a unit of die d, at its arbiter. -/
def State.agentLoad (s : State) (d : Nat) (asid va : Word) (n : Nat) : Nat × Nat × State :=
  let (k, x, s) := s.agentWalk d asid va .read
  if k != 0 then (k, 0, s)
  else if x.vsh then
    let (k, s) := s.shardKind asid x.obj (fld va 0 40) n
    (k, if k = 0 then s.rd x.pa n else 0, s)
  else match region x.pa with
  | .submit _ => (0, 0, s.discardSubmit x.pa)
  | _ =>
    let s := s.askHome x.pa n
    (0, s.rd x.pa n, s)

/-- R353, R356: whether any of n bytes lies in a poisoned line; the lines of a lost die are. -/
def State.poisoned (s : State) (pa n : Nat) : Bool :=
  (linesOf pa n).any fun l => s.poison.contains l || (s.die (homeOf s (128 * l))).lost

/-- What precedes a write of n bytes by a unit at its arbiter: the leases on its lines end (R418), and the views of its object are marked
(R317). -/
def State.beforeWrite (s : State) (x : Xl) (asid va : Word) (n : Nat) : State :=
  let s := (linesOf x.pa n).foldl (fun (s : State) l => ((s.awaitLeases l).flushDelayed l).dropLeases l) s
  if x.chk then s.mark asid (fld va 40 24) ((List.range n).map fun j => fld (va + word j) 0 40) else s

/-- A doubleword of `.glb` that a unit of die d changes in place (R342); nothing where it does not translate. -/
def State.agentUpdate (s : State) (d : Nat) (asid va : Word) (f : Nat → Nat) : State :=
  match s.agentWalk d asid va .write with
  | (0, x, s) =>
    let s := s.beforeWrite x asid va 8
    s.poke x.pa 8 (f (s.rd x.pa 8)) none
  | (_, _, s) => s

/-- R356: whether the copy of a core that a read of n bytes of one line goes through is uncorrectable. -/
def Core.badLine (k : Core) (pa n : Nat) : Bool := (k.line (pa / 128)).bad && k.holds pa n

/-- The home slice of a line (R284). -/
def State.sliceOf (s : State) (line : Nat) : Nat := homeSlice (128 * line) (s.rowLine line)

/-- The core of rank r of a team's cluster (R21, R23). -/
def Team.memberCore (t : Team) (c r : Nat) : Option Nat :=
  if t.cw * t.ch = 0 then (if r = 0 then some c else none) else (at? t.members r).map (·.1)

/-- The ranks of a team's cluster; a partial one has only those it holds teams of (R154, R426). -/
def Team.ranks (t : Team) : Nat := if t.cw * t.ch = 0 then 1 else t.members.length

/-- Where a team's slice of cluster memory begins in its core's local share: at the end of what the team holds there (R253). -/
def Team.sliceBase (t : Team) : Nat := t.locBase + t.locSize - t.cluSize

/-- The core that holds the slice of rank r of a team's cluster, and where the slice begins there. -/
def State.ownerSlice (s : State) (c ti r : Nat) : Option (Nat × Nat) :=
  let t := s.teamAt c ti
  if t.cw * t.ch = 0 then (if r = 0 then some (c, t.sliceBase) else none)
  else (at? t.members r).map fun (c', i) => (c', (s.teamAt c' i).sliceBase)

/-- R154: a segment access; `none` fails the limit. -/
def segOffset (sg : Seg) (o n : Nat) (perLane : Option Nat) : Option Nat :=
  if sg.limit.toNat < o + n then none
  else match perLane with
  | some l => some (sg.base.toNat + l * sg.limit.toNat + o)
  | none => some (sg.base.toNat + o)

/-- R154, R253: n bytes at an offset of a rank's slice, as a core and a place in its local share. BASE counts from the beginning of each rank's
slice (R153). -/
def State.cluAt (s : State) (c ti : Nat) (sg : Seg) (r off n : Nat) : Option (Nat × Nat) :=
  match segOffset sg off n none, s.ownerSlice c ti r with
  | some o, some (c', b) => some (c', b + o)
  | _, _ => none

/-- A full/empty word of local or cluster memory (R162): 0 full, t + 1 emptied with taker entry t (R193). -/
def Core.feAt (k : Core) (off : Nat) : Nat := get 0 k.fe (off / 4)

/-- Sets a full/empty word. -/
def Core.setFe (k : Core) (off v : Nat) : Core := { k with fe := set 0 k.fe (off / 4) v }

/-- A read of cluster memory by core c (R188): its own held stores first, then the owner's slice. -/
def State.cluByte (s : State) (c owner off : Nat) : Byte :=
  match ((s.core c).cluHeld.filter fun h => h.core == owner && h.off == off).getLast? with
  | some h => h.byte
  | none => byteAt (s.core owner).loc off

/-- A store to cluster memory (R188): at once in the core's own slice, held toward another rank. -/
def State.cluStore (s : State) (c owner off n v : Nat) : State :=
  if owner = c then (s.modCore c fun k => { k with loc := writeBytes k.loc off n v }).locUnpoison c off n
  else s.modCore c fun k => { k with cluHeld := (List.range n).foldl (fun hs j =>
    hs.filter (fun h => !(h.core == owner && h.off == off + j)) ++ [⟨owner, off + j, BitVec.ofNat 8 (v / 256 ^ j)⟩]) k.cluHeld }

end Sys2Proof.Machine
end

