-- ==== Sys2Proof/Machine/Records.lean ====
section
/-! DEFINITION. Rings of records in memory and the signals to a kernel instance (R140, R354, R382, R390), fault records and their
outstanding list (R354, R355). -/

namespace Sys2Proof.Machine

/-- The capacity of a ring word (R390): 2^M records, M from 6 to 16; 0 while software has supplied no ring. -/
def ringCap (w : Word) : Nat := if 6 ≤ fld w 0 5 ∧ fld w 0 5 ≤ 16 then 2 ^ fld w 0 5 else 0

/-- The physical base of a ring word. -/
def ringBase (w : Word) : Nat := fld w 12 36 * 2 ^ 12

/-- WIDX of a ring. -/
def State.widx (s : State) (w : Word) : Nat := s.rd (ringBase w) 8
/-- RIDX of a ring. -/
def State.ridx (s : State) (w : Word) : Nat := s.rd (ringBase w + 8) 8

/-- Whether a ring has room for a record; one that software has not supplied never has (log entry 18). -/
def State.ringRoom (s : State) (w : Word) : Bool :=
  decide ((s.widx w + 2 ^ 64 - s.ridx w) % 2 ^ 64 < ringCap w)

/-- Writes 8-byte words upward from an address. -/
def State.pokeWords (s : State) (pa : Nat) : List Word → State
  | [] => s
  | w :: ws => (s.poke pa 8 w.toNat none).pokeWords (pa + 8) ws

/-- Writes one record of n bytes at WIDX and then WIDX + 1 (R354). -/
def State.ringPut (s : State) (w : Word) (n : Nat) (rec_ : List Word) : State :=
  let i := s.widx w
  let s := s.pokeWords (ringBase w + 64 + n * (i % ringCap w)) rec_
  s.poke (ringBase w) 8 (i + 1) none

/-- R140: the die signals its kernel instance: bit b of `cr.ipend` of the hardware strand that SIGTGT field b names, if that
strand belongs to the die's own kernel instance. -/
def State.signal (s : State) (d b : Nat) : State :=
  let f := fld (s.die d).sigtgt (16 * b) 16
  let n := f % 2 ^ 12
  let c := 1024 + n / 2
  if f.testBit 15 ∧ c < 1184 ∧ dieOfCore c = d then
    s.modGrp c (n % 2) fun g => { g with ipend := g.ipend ||| (1#64 <<< b) }
  else s

/-- A counter of the scheduler, by its index in `inspect` unit 0x07 (R385). -/
def State.schedCount (s : State) (d n v : Nat) : State := s.modDie d fun k => k.addCount (32 + n) v

/-- A counter of a home slice, by its index in `inspect` unit 0x09 (R310). -/
def State.sliceCount (s : State) (d slice n v : Nat) : State := s.modDie d fun k => k.addCount (1024 + 8 * slice + n) v

/-- The eight words of a fault record (R354). -/
def FRec.words (r : FRec) (d : Nat) : List Word :=
  [ word (r.src * 2 ^ 60 + r.cause * 2 ^ 52 + r.kind * 2 ^ 44 + bit r.rpt 43 + r.acc * 2 ^ 40 + bit r.needc 39 + r.seq),
    r.addr, r.strand,
    word (r.team % 2 ^ 32 * 2 ^ 32 + r.core % 1024 * 2 ^ 22 + r.slot * 2 ^ 16 + r.lane * 2 ^ 11 + d * 2 ^ 8),
    r.pc, r.ctx, r.detail, word (d * 2 ^ 61 + r.seq) ]

/-- A record with only a source and a die-independent target. -/
def FRec.blank : FRec := ⟨0, 0, 0, false, 0, false, 0, 0, 0, 0, 0, 0, 0, 0, 0, 0, .none⟩

/-- Moves waiting records of the die buffer into the ring while there is room (R354). -/
def State.drainFaults (s : State) (d : Nat) : Nat → State
  | 0 => s
  | n + 1 =>
    match (s.die d).fbuf with
    | [] => s
    | r :: rs =>
      if s.ringRoom (s.die d).fring then
        let s := s.modDie d fun k => { (k.addCount 7 1) with fbuf := rs }
        ((s.ringPut (s.die d).fring 64 (r.words d)).signal d 0).drainFaults d n
      else s

/-- A new fault record (R354): it takes the next SEQ, is outstanding if it needs a completion, and enters the ring, or the die
buffer behind the records already there. Its number among all dies' records comes back. -/
def State.faultRecord (s : State) (d : Nat) (r : FRec) : Nat × State :=
  let k := s.die d
  let q := k.fseq
  let r := { r with seq := q }
  let s := s.setDie d { (if r.rpt then k.addCount 8 1 else k) with
    fseq := (q + 1) % 2 ^ 32, faults := if r.needc then k.faults ++ [r] else k.faults, fbuf := k.fbuf ++ [r] }
  let n := (s.die d).fbuf.length
  let s := s.drainFaults d n
  if (s.die d).fbuf.isEmpty || !decide (0 < ringCap (s.die d).fring) then (d * 2 ^ 32 + q, s)
  else
    let pa := ringBase (s.die d).fring + 0x10
    (d * 2 ^ 32 + q, s.poke pa 8 (s.rd pa 8 + 1) none)

/-- Whether the buffer of 512 records of a die has room for n more (R354). -/
def State.recordRoom (s : State) (d n : Nat) : Bool := decide ((s.die d).fbuf.length + n ≤ 512)

/-- Whether no die's buffer of records holds more than its 512 (R354). -/
def State.withinRoom (s : State) : Bool := s.dies.all fun x => decide (x.2.fbuf.length ≤ 512)

/-- Withdraws an outstanding record (R137, R357): a later completion that names it is refused. -/
def State.withdraw (s : State) (tag : Option Nat) : State :=
  match tag with
  | none => s
  | some q => s.modDie (q / 2 ^ 32) fun k => { k with faults := k.faults.filter fun r => r.seq != q % 2 ^ 32 }

/-- The SPACE word of a record (R354): ASID, INC and the generation used. -/
def spaceWord (asid : Word) (gen : Nat) : Word := word (asidOf asid * 2 ^ 48 + incOf asid * 2 ^ 32 + gen % 2 ^ 16 * 2 ^ 16)

/-- The current generation of an address's object as the tables hold it; 0 where there is none. -/
def State.genOf (s : State) (d : Nat) (asid va : Word) : Nat :=
  if (s.die d).trMode then 0
  else
    let a := s.rd64 (s.astAddr d (asidOf asid))
    let obj := fld va 40 24
    if a.getLsbD 63 && decide (obj < fld a 0 32) && obj != 0 then fld (s.rd64 (s.descAddr d (asidOf asid) obj)) 32 16 else 0

end Sys2Proof.Machine
end

