-- ==== Sys2Proof/Machine/Future.lean ====
section
/-! DEFINITION. Full/empty and future words: their state, their takers and the service of deferred requests (R162, R191-R193,
R302, R303). -/

namespace Sys2Proof.Machine

/-- A word with full/empty state: its key (the eighth of a physical address, or 2^60 + 2^32 core + offset for a word of a local
share), the die that holds its deferred requests, its home slice, its address, its size and the identity of the access. -/
structure FeRef where
  key : Nat
  d : Nat
  slice : Nat
  pa : Nat
  n : Nat
  asid : Mask
  obj : Nat
  id : LineId
deriving DecidableEq, Repr

/-- A word of a local share (R162). -/
def FeRef.local_ (c off : Nat) : FeRef := ⟨2 ^ 60 + 2 ^ 32 * c + off, dieOfCore c, 1000, off, 4, 0, 0, ⟨0, 0, 0, false⟩⟩

/-- Whether the word is a future word. -/
def FeRef.future (r : FeRef) : Bool := decide (r.key < 2 ^ 60)

/-- The core of a local word. -/
def FeRef.core (r : FeRef) : Nat := (r.key - 2 ^ 60) / 2 ^ 32

/-- A future word after its translation (R302). -/
def State.futureRef (s : State) (asid va : Word) (x : Xl) : FeRef :=
  let h := homeOf s x.pa
  ⟨x.pa / 8, if h < 6 then h else s.did, homeSlice x.pa (x.rowl == 1), x.pa, 8, low32 asid, x.obj, x.lineId asid va⟩

/-- Whether the word is full (R162, R192). -/
def State.feFull (s : State) (r : FeRef) : Bool :=
  if r.future then
    let f := get FutWord.zero s.futs r.key
    f.full && f.asid == r.asid && f.obj == r.obj
  else (s.core r.core).feAt r.pa == 0

/-- Sets the state of a word; an empty one records the team of a group as its taker (R193). Slot 65 stands for another package (R419). -/
def State.setFe (s : State) (r : FeRef) (full : Bool) (core slot : Nat) : State :=
  let t := (s.grp core slot).team
  if r.future then
    let w : FutWord := ⟨full, if full ∨ 64 ≤ slot then none else some (dieOfCore core, (s.teamAt core t).id), r.asid, r.obj⟩
    { s with futs := set FutWord.zero s.futs r.key w }
  else s.modCore r.core fun k => k.setFe r.pa (if full then 0 else 32 * core + t + 1)

/-- The data of a word at its place (R194). -/
def State.feRead (s : State) (r : FeRef) : Nat :=
  if r.future then s.rd r.pa 8 else readBytes (s.core r.core).loc r.pa 4

/-- Writes the data of a word at its place. -/
def State.feWrite (s : State) (r : FeRef) (v : Nat) : State :=
  if r.future then s.commit r.pa 8 v r.id none
  else s.modCore r.core fun k => { k with loc := writeBytes k.loc r.pa 4 (v % 2 ^ 32) }

/-- Changes a group, and the draft group that runs with it (R176). -/
def State.modLed (s : State) (c slot : Nat) (f : Group → Group) : State :=
  match (s.grp c slot).draft with
  | some ds => (s.modGrp c slot f).modGrp c ds f
  | none => s.modGrp c slot f

/-- A lane has performed its operation (R192): it is marked in its path and its x register receives the data. The value of an s register,
that of the highest lane (R30), is latched until the instruction completes. -/
def State.feReply (s : State) (core slot lane : Nat) (d : Dst) (v : Word) : State :=
  if 64 ≤ slot then s
  else s.modLed core slot fun g =>
    let g' := match d with
      | .x n => g.setX lane n.toNat v
      | _ => g
    let keep (p : Path) : Option Word := match d with
      | .s _ => if (lanesOf p.done).any fun l => decide (lane < l) then p.latch else some v
      | _ => p.latch
    { g' with paths := g.paths.map fun p => if p.mask.getLsbD lane then { p with done := p.done ||| laneBit lane, latch := keep p } else p }

/-- A loaded word, extended under SX (R191). -/
def feValue (r : FeRef) (sgn : Bool) (v : Nat) : Word := if sgn then sext (8 * r.n) v else word v

/-- Whether a word in its present state serves an operation: 0 ldf, 1 ldfe, 2 stef. -/
def State.feServes (s : State) (r : FeRef) (op : Nat) : Bool := if op = 2 then !s.feFull r else s.feFull r

/-- Performs a waiting operation on a word whose state serves it (R191). -/
def State.fePerform (s : State) (r : FeRef) (e : Defer) : State :=
  let v := feValue r e.sgn (s.feRead r)
  let s := s.feReply e.core e.slot e.lane (if e.op = 2 then .x 0 else e.dst) v
  match e.op with
  | 0 => s
  | 1 => s.setFe r false e.core e.slot
  | _ => (s.feWrite r e.data.toNat).setFe r true e.core e.slot

/-- Serve of R303: the deferred requests of a word, oldest first, until one that its state cannot serve. -/
def State.feServe (s : State) (r : FeRef) : Nat → State
  | 0 => s
  | n + 1 =>
    match (s.die r.d).defer.find? fun e => e.key == r.key with
    | none => s
    | some e =>
      if s.feServes r e.op then
        let s := s.modDie r.d fun x => { x with defer := x.defer.erase e }
        let s := if r.future then s.sliceCount r.d r.slice 2 1 else s
        (s.fePerform r e).feServe r n
      else s

/-- The deferred requests of the future word at an address are served (R303). -/
def State.serveAt (s : State) (pa : Nat) : State :=
  let h := homeOf s pa
  let (asid, obj) := s.futOwner pa
  s.feServe ⟨pa / 8, h, homeSlice pa (s.rowLine (pa / 128)), pa, 8, asid, obj, ⟨0, 0, 0, false⟩⟩ 4096

/-- A store of a unit of die d to a future word that fills it (R191, R401): the fault kind, 0 for success. -/
def State.agentFill (s : State) (d : Nat) (asid va : Word) (v : Nat) : Nat × State :=
  let (k, x, s) := s.agentWalk d asid va .stef
  if k ≠ 0 then (k, s)
  else
    let h := homeOf s x.pa
    let r : FeRef := ⟨x.pa / 8, if h < 6 then h else d, homeSlice x.pa (x.rowl == 1), x.pa, 8, low32 asid, x.obj, x.lineId asid va⟩
    let s := s.feWrite r v
    (0, ({ s with futs := set FutWord.zero s.futs r.key ⟨true, none, r.asid, r.obj⟩ }).feServe r 4096)

end Sys2Proof.Machine
end

