-- ==== Sys2Proof/Machine/Life.lean ====
section
/-! DEFINITION. The ends of strands, groups, teams, clusters and grids (R25, R117, R161, R357, R368, R429), the process launch
block and its page pools (R359). -/

namespace Sys2Proof.Machine

/-- The physical address of the process launch block of an ASID on a die (R359); 0 if it cannot launch there. -/
def State.plb (s : State) (d asid : Nat) : Nat :=
  let base := fld (s.die d).ptBase 19 29 * 2 ^ 19
  if base = 0 then 0 else s.rd (base + 8 * asid) 8

/-- One doubleword of a launch block. -/
def State.plbWord (s : State) (d asid off : Nat) : Word := if s.plb d asid = 0 then 0 else s.rd64 (s.plb d asid + off)

/-- Takes the head page of a pool (R359): offset 0x10 the swap pool, 0x18 the channel-overflow pool. A pool whose access faults
is empty. -/
def State.poolTake (s : State) (d : Nat) (asid : Word) (off : Nat) : Option (Word × State) :=
  let p := s.plb d (asidOf asid)
  let head := s.plbWord d (asidOf asid) off
  if p = 0 ∨ head = 0 then none
  else match s.agentWalk d asid head .read with
  | (0, x, s) => some (head, s.poke (p + off) 8 (s.rd x.pa 8) none)
  | _ => none

/-- Returns a page to the head of a pool (R359). -/
def State.poolReturn (s : State) (d : Nat) (asid : Word) (off : Nat) (page : Word) : State :=
  let p := s.plb d (asidOf asid)
  if p = 0 then s
  else
    let head := s.plbWord d (asidOf asid) off
    match s.agentWalk d asid page .write with
    | (0, x, s) => ((s.beforeWrite x asid page 8).poke x.pa 8 head.toNat none).poke (p + off) 8 page.toNat none
    | (_, _, s) => s

/-- The ASID that a team's groups run under: that of its grid's record, or of a group of it. -/
def State.teamAsid (s : State) (c t : Nat) : Word :=
  match (s.teamAt c t).record with
  | some p => p.asid
  | none => match (s.core c).slots.find? fun (_, g) => g.occ && g.team == t with
    | some (_, g) => g.asid
    | none => 0

/-- R160: a page of a process's overflow pool frees, so that no channel of the process on the die is non-extendable. -/
def State.clearNoext (s : State) (d : Nat) (asid : Word) : State :=
  { s with cores := s.cores.map fun (c, k) =>
      if dieOfCore c != d || k.chans.all (fun (_, h) => !h.noext) then (c, k)
      else (c, { k with chans := k.chans.map fun (i, h) =>
        (i, if asidOf (s.teamAsid c h.team) = asidOf asid then { h with noext := false } else h) }) }

/-- Whether a pool of a process has no page to give: none is listed, or the access to its head faults (R359). -/
def State.poolEmpty (s : State) (d : Nat) (asid : Word) (off : Nat) : Bool :=
  let head := s.plbWord d (asidOf asid) off
  head == 0 || (s.agentWalk d asid head .read).1 != 0

/-- R160: a channel is non-extendable from a failed extension until a page frees, by whatever hand. -/
def State.nonExtendable (s : State) (c n : Nat) : Bool :=
  let h := get Channel.zero (s.core c).chans n
  h.noext && s.poolEmpty (dieOfCore c) (s.teamAsid c h.team) 0x18

/-- R159, R160: emptied pages of a channel return to the overflow pool. -/
def State.freePages (s : State) (d : Nat) (asid : Word) (ps : List Word) : State :=
  if ps.isEmpty then s else (ps.foldl (fun s p => s.poolReturn d asid 0x18 p) s).clearNoext d asid

/-- R25: LIVE is cleared in the save area of a strand that has one. -/
def State.clearLive (s : State) (d : Nat) (asid ssa : Word) : State :=
  if ssa = 0 then s else s.agentUpdate d asid (ssa + 0x340) fun v => v / 2 * 2

/-- Frees the channels of a team (R161): overflow pages return to their pool. -/
def State.freeChannels (s : State) (c t : Nat) (asid : Word) : State :=
  let mine := (s.core c).chans.filter fun (_, h) => h.bound && h.team == t
  mine.foldl (fun s (n, h) =>
    let s := s.freePages (dieOfCore c) asid h.pages
    s.modCore c fun k => k.setChan n Channel.zero) s

/-- Frees the cassettes of a cluster (R21, R255). -/
def State.freeCassettes (s : State) (d : Nat) (key : Word) : State :=
  s.modDie d fun k => { k with routers := k.routers.map fun (r, v) =>
    (r, { v with cas := v.cas.filter fun (_, q) => !(q.decl && q.owner == key) }) }

/-- What is counted as the end of the owner's command stream (R25, R242): the engine stops and the team owns it no more. -/
def State.releaseEngine (s : State) (c t : Nat) : State :=
  s.modCore c fun k => if k.mxe.owner = some t then { k with mxe := { k.mxe with st := 0, owner := none, entry := 0 } } else k

/-- R25, R242: the stream of a team with no group left stops. -/
def State.stopEngine (s : State) (c t : Nat) : State :=
  s.modCore c fun k => if k.mxe.owner = some t ∧ k.mxe.st = 1 then { k with mxe := { k.mxe with st := 0 } } else k

/-- The die and key of the grid whose id is `id`: bits 63:61 hold the firing die (R362). -/
def gridDie (id : Word) : Nat := fld id 61 3

/-- R401: the notice of a submitted grid that has ended; one that cannot be given is dropped with a record. -/
def State.giveNotice (s : State) (g : Grid) : State :=
  match g.p.note with
  | none => s
  | some va =>
    let d := gridDie g.id
    match s.agentFill d g.p.asid va g.id.toNat with
    | (0, s) => s
    | (k, s) => (s.faultRecord d { FRec.blank with
        src := 8, kind := k, addr := va, ctx := spaceWord g.p.asid (s.genOf d g.p.asid va) }).2

/-- Whether the notice of a grid cannot be given and there is no room for its record (R354, R401). -/
def State.noticeWaits (s : State) (g : Grid) : Bool := s.withinRoom && !(s.giveNotice g).withinRoom

/-- After the decrement, or without it: the notice, then the store slot is free (R368, R401). -/
def State.freeGrid (s : State) (g : Grid) : State :=
  (s.giveNotice g).modDie g.p.tdie fun k => { k with slots := k.slots.filter fun x => x != (asidOf g.p.asid, g.p.slot) }

/-- Whether a record of a die awaits the counter of a grid (R429). -/
def Die.awaitsDone (k : Die) (grid : Word) : Bool := k.faults.any fun r => r.target == .done grid

/-- R368: the decrement of DONE of an ended grid by die d, then its store slot is free. A counter that does not translate or is
a future waits for the completion of its record (R429), or for room to write that record (R354); so does a grid whose notice needs a
record, and one whose address space is being flushed (R338). -/
def State.endGrid (s : State) (d : Nat) (g : Grid) : State :=
  let done := word (g.p.hdr.toNat / 2 ^ (8 * 0x38) % 2 ^ 64)
  if s.noticeWaits g || s.flushing g.p.asid then s.modDie d fun k => { k with pendDone := k.pendDone ++ [g] }
  else if done = 0 then s.freeGrid g
  else
    match s.agentWalk d g.p.asid done .rmw with
    | (0, x, s) => (s.commit x.pa 8 ((s.rd x.pa 8 + 2 ^ 64 - 1) % 2 ^ 64) (x.lineId g.p.asid done) none).freeGrid g
    | (kind, _, s) =>
      if !s.recordRoom d 1 then s.modDie d fun k => { k with pendDone := k.pendDone ++ [g] } else
      let r : FRec := { FRec.blank with
        src := 9, kind := kind, acc := 2, needc := true, addr := done,
        ctx := spaceWord g.p.asid (s.genOf d g.p.asid done), detail := g.id, target := .done g.id }
      ((s.faultRecord d r).2).modDie d fun k => { k with pendDone := k.pendDone ++ [g] }

/-- The end of a team counts toward its grid (R368). -/
def State.countGrid (s : State) (d : Nat) (grid : Word) : State :=
  let gd := gridDie grid
  match (s.die gd).grids.find? fun g => g.id == grid with
  | none => s
  | some g =>
    if 1 < g.left then
      s.modDie gd fun k => { k with grids := k.grids.map fun h => if h.id == grid then { h with left := h.left - 1 } else h }
    else (s.modDie gd fun k => { k with grids := k.grids.filter fun h => h.id != grid }).endGrid d g

/-- R354, R368: the ended grids whose record had no room try again. -/
def State.retryDone (s : State) (d : Nat) : State :=
  let gs := (s.die d).pendDone.filter fun g => !(s.die d).awaitsDone g.id
  gs.foldl (fun s g => (s.modDie d fun k => { k with pendDone := k.pendDone.erase g }).endGrid d g) s

/-- Whether another team of the same cluster lives. -/
def State.clusterLives (s : State) (key : Word) : Bool :=
  s.cores.any fun (_, k) => k.teams.any fun (_, t) => t.occ && t.ckey == key

/-- Whether a team has asynchronous work outstanding (R25). -/
def State.asyncLeft (s : State) (c t : Nat) : Bool := (s.core c).async.any fun a => a.team == t

/-- The bytes of a line that held stores cover (R175). -/
def heldMask (hs : List HeldStore) (line : Nat) : BitVec 128 :=
  hs.foldl (fun m h => if h.pa / 128 = line then m ||| byteMask (h.pa % 128) h.n else m) 0

/-- The bytes of a line with those that held stores give it. -/
def reheld (hs : List HeldStore) (line : Nat) (m : BitVec 128) (data : BitVec 1024) : BitVec 1024 :=
  (bytesOf m).foldl (fun d b => match lastHeld hs (128 * line + b) with
    | some h => setLineByte d b (h.byte (128 * line + b))
    | none => d) data

/-- The stores that the teams of a core but one hold. -/
def Core.heldBeside (k : Core) (t : Nat) : List HeldStore := k.teams.flatMap fun (i, x) => if i = t then [] else x.heldStores

/-- The pins of team t end (R175); those of other teams stay. With `drop` the bytes leave the copy too, and where another team has
stored to one before, its store stands again. -/
def Core.unpin (k : Core) (t : Nat) (hs : List HeldStore) (drop : Bool) : Core :=
  (hs.map fun h => h.pa / 128).dedup.foldl (fun k line =>
    let others := heldMask (k.heldBeside t) line
    let m := ~~~(heldMask hs line &&& ~~~others)
    let l := k.line line
    let l := { l.keepUm (l.um &&& m) with pin := l.pin &&& m }
    k.setLine line (if drop then { l with vm := l.vm &&& m, data := reheld (k.heldBeside t) line others l.data } else l)) k

/-- R299: the held stores of a team are published epoch by epoch with scope `sys`, and its lines are pinned no more. -/
def State.releaseHeld (s : State) (c team : Nat) : State :=
  let hs := (s.teamAt c team).heldStores
  let asid := s.teamAsid c team
  let s := hs.foldl (fun s h =>
    let s := s.modCore c fun k => k.supersede (some team) h.issued h.covers
    s.sendLine .sys c (h.pa / 128) (byteMask (h.pa % 128) h.n)
      (BitVec.ofNat 1024 (h.data.toNat % 2 ^ (8 * h.n) * 2 ^ (8 * (h.pa % 128))))
      ⟨word (h.va.toNat - h.pa % 128), asid, h.gen, h.chk⟩) s
  let s := s.modCore c fun k => k.unpin team hs false
  s.modTeam c team fun t => { t with heldStores := [], epoch := 0 }

/-- What stays of an ended team while its cluster lives (R21, R253, R254): its slice of cluster memory and, at rank 0, the cluster
barriers. -/
def Team.lingering (t : Team) : Team :=
  { t with
    occ := false, bars := [], shadow := none, heldStores := [], consumed := [], pend := [], preempting := false, asked := false,
    locBase := t.locBase + t.locSize - t.cluSize, locSize := t.cluSize }

/-- Whether a core is empty: no group, no held group, nothing of a team (R150). -/
def Core.isEmpty (k : Core) : Bool := k.slots.all (fun (_, g) => !g.occ) && k.teams.all fun (_, t) => t == Team.empty

/-- An empty core has no split fixed (R150, R177). -/
def Core.settle (k : Core) : Core := if k.isEmpty then { k with split := ⟨0, 0, 0⟩ } else k

/-- The cluster of a key has ended: nothing of its teams stays. -/
def State.clearLingering (s : State) (key : Word) : State :=
  { s with cores := s.cores.map fun (c, k) =>
      let k := { k with teams := k.teams.filter fun (_, t) => t.occ || t.ckey != key }
      (c, if isLatency c then k else k.settle) }

/-- R25: a team ends once its groups have ended, nothing asynchronous is outstanding and its pending-launch queue is empty.
`asid` is the space of its pools. -/
def State.endTeam (s : State) (c t : Nat) (asid : Word) : State :=
  let tm := s.teamAt c t
  let s := if tm.occ && tm.groups == 0 then s.stopEngine c t else s
  if !tm.occ || tm.groups != 0 || s.asyncLeft c t || !tm.pend.isEmpty then s
  else
    let d := dieOfCore c
    let s := (s.releaseHeld c t).publish .pkg c
    let s := (s.freeChannels c t asid).releaseEngine c t
    let s := s.modCore c fun k => k.setTeam t (if tm.cw * tm.ch = 0 then Team.empty else tm.lingering)
    let s := s.modCore c Core.settle
    let s := if s.clusterLives tm.ckey then s else (s.freeCassettes d tm.ckey).clearLingering tm.ckey
    if tm.migrated then s else s.countGrid d tm.grid

/-- Removes lanes from a path. -/
def Path.without (p : Path) (m : Mask) : Path :=
  { p with
    mask := p.mask &&& ~~~m, done := p.done &&& ~~~m, got := p.got &&& ~~~m, reads := p.reads.filter fun r => !m.getLsbD r.lane }

/-- Paths without the lanes of a mask; an emptied path goes. -/
def dropLanes (ps : List Path) (m : Mask) : List Path := (ps.map (·.without m)).filter fun p => p.mask != 0

/-- The lanes of a slot whose awaited counter a write has made zero or negative (R369). -/
def State.hitLanes (s : State) (c slot : Nat) : Mask :=
  (s.watches.filter fun w => w.hit && w.grid == 0 && w.core == c && w.slot == slot).foldl (fun m w => m ||| laneBit w.lane) 0

/-- R305: cancels the deferred requests of lanes of a slot, and what they await of join counters; a counter that has been found zero or
negative stays found (R369, R376). -/
def State.cancelDefers (s : State) (c slot : Nat) (m : Mask) : State :=
  let hit := s.hitLanes c slot &&& m
  let s := if hit = 0 then s else s.modGrp c slot fun g => { g with paths := g.paths.map fun p =>
    { p with done := if p.wait = .jwait then p.done ||| (hit &&& p.mask) else p.done } }
  { s with
    watches := s.watches.filter fun w => !(w.core == c && w.slot == slot && m.getLsbD w.lane && w.grid == 0)
    dies := s.dies.map fun (d, k) =>
      (d, { k with defer := k.defer.filter fun e => !(e.core == c && e.slot == slot && m.getLsbD e.lane) }) }

/-- Ends a group whose last lane has gone (R25): its slot frees and its team counts one group less. -/
def State.endGroup (s : State) (c slot : Nat) : State :=
  let g := s.grp c slot
  if !g.occ || g.live != 0 then s
  else
    let s := s.setGrp c slot Group.empty
    let s := match g.draft with
      | some ds => s.setGrp c ds Group.empty
      | none => s
    if g.held.isSome then s
    else (s.modTeam c g.team fun t => { t with groups := t.groups - 1 }).endTeam c g.team g.asid

/-- The strand ids of lanes of a group. -/
def Group.sids (g : Group) (m : Mask) : List Word := (lanesOf m).map fun l => (g.lane l).sid

/-- Strands wait at no call ring any more (R384). -/
def State.unblock (s : State) (sids : List Word) : State :=
  { s with dies := s.dies.map fun (d, x) => (d, { x with
      blocked := x.blocked.filter fun i => !sids.contains i, ringFull := x.ringFull.filter fun i => !sids.contains i }) }

/-- Lanes leave a group (R117): it no longer awaits them. A held group's lanes leave its original group too; `orig` frees an
original group that has no other live lane. -/
def State.leaveLanes (s : State) (c slot : Nat) (m : Mask) : State :=
  let g := s.grp c slot
  let s := s.cancelDefers c slot m
  let s := s.unblock (g.sids m)
  let s := s.modGrp c slot fun g => { g with
    live := g.live &&& ~~~m, paths := dropLanes g.paths m,
    held := g.held.map fun (h : Held) => { h with stags := h.stags.filter fun x => !m.getLsbD x.1 } }
  match g.held with
  | none => s.endGroup c slot
  | some h =>
    let s := s.modGrp c h.orig fun o => if o.occ && o.team == g.team && o.held.isNone then { o with live := o.live &&& ~~~m } else o
    let s := if (s.grp c slot).live = 0 then s.withdraw h.tag else s
    let s := (h.stags.filter fun x => m.getLsbD x.1).foldl (fun s x => s.withdraw (some x.2)) s
    (s.endGroup c slot).endGroup c h.orig

/-- R25: the strands of lanes end. -/
def State.endLanes (s : State) (c slot : Nat) (m : Mask) : State :=
  let g := s.grp c slot
  let s := (lanesOf m).foldl (fun s l => s.clearLive (dieOfCore c) g.asid (g.lane l).ssa) s
  s.leaveLanes c slot m

/-- The number that stands for a continuation's core in `State.watches`: it names its space and its first page. -/
def Cont.place (y : Cont) : Nat := 2 ^ 20 + y.group.asid.toNat * 2 ^ 64 + (y.pages.headD 0).toNat

/-- R25, R357, R371: the swapped-out groups of a killed team end with it: LIVE is cleared in their save areas, and their pages return. -/
def State.killConts (s : State) (c t : Nat) : State :=
  let d := dieOfCore c
  let mine (y : Cont) : Bool := y.core == c && y.team == t
  let ys := (s.die d).conts.filter mine
  let s := s.modDie d fun x => { x with conts := x.conts.filter fun y => !mine y }
  ys.foldl (fun (s : State) (y : Cont) =>
    let s : State := { s with watches := s.watches.filter fun w => !(w.grid == 0 && w.core == y.place && w.slot == 0) }
    let s := (lanesOf y.group.live).foldl (fun s l => s.clearLive d y.group.asid (y.group.lane l).ssa) s
    y.pages.reverse.foldl (fun s p => s.poolReturn d y.group.asid 0x10 p) s) s

/-- R357: a killed team's strands end without running again, its held faults are discarded, its channels and cassettes freed
and its pinned stores dropped. Records that wait in its pending-launch queue still leave it (R25, R365). -/
def State.killTeam (s : State) (c t : Nat) : State :=
  let asid := s.teamAsid c t
  let s := s.modCore c fun k => ({ k with async := k.async.filter fun a => !(a.team == t) }).unpin t (k.team t).heldStores true
  let s := s.modTeam c t fun x => { x with shadow := none, heldStores := [] }
  let held := (s.core c).slots.filter fun (_, g) => g.occ && g.team == t && g.held.isSome
  let s := held.foldl (fun s (i, g) => s.endLanes c i g.live) s
  let own := (s.core c).slots.filter fun (_, g) => g.occ && g.team == t && !g.isDraft
  let s := own.foldl (fun s (i, g) => s.endLanes c i g.live) s
  let s := (s.modTeam c t fun x => { x with groups := 0 }).killConts c t
  s.endTeam c t asid

/-- A kill reaches every team of a cluster (R283). -/
def State.killCluster (s : State) (key : Word) : State :=
  let ts := s.cores.flatMap fun (c, k) => (k.teams.filter fun (_, t) => t.occ && t.ckey == key).map fun (i, _) => (c, i)
  ts.foldl (fun s (c, t) => s.killTeam c t) s

end Sys2Proof.Machine
end

