-- ==== Sys2Proof/Machine/Ops.lean ====
section
/-! DEFINITION. The named operations of the core: paths and waits (R115-R117, R126, R166), accesses on behalf of a group,
holding lanes, and TAKING AN EXCEPTION as one operation (R131-R141, R149, R351-R357, R424, R425, R428) with the return from one
beside it (R137, R141). -/

namespace Sys2Proof.Machine

/-- The current path goes on at `pc` (R60). Lanes whose path-mates await a held slot complete their instruction and then wait
(R149). -/
def State.goto (s : State) (pc : Word) : State :=
  s.modCur fun g => g.modPath fun p =>
    { p with
      pc := pc, wait := if p.wait = .splitOthers then .splitOthers else .ready, done := 0, got := 0, lastFault := [], atSafept := none,
      tries := 0, again := 0, latch := none, trap := none, popped := [], reads := [] }

/-- The current path goes on after an instruction of `len` bytes (R60). -/
def State.advance (s : State) (len : Nat) : State := s.goto (s.pc + word len)

/-- The waits of R166 and the two that R126 adds, which reset the safe-point count. -/
def Wait.counts : Wait → Bool
  | .ready => false
  | .fault _ => false
  | .split _ _ _ _ => false
  | .splitOthers => false
  | .publish _ => false
  | _ => true

/-- The waits of R166 alone. -/
def Wait.group : Wait → Bool
  | .viewSync _ => false
  | .viewRead => false
  | w => w.counts

/-- Whether the path is stopped at its instruction. -/
def Wait.waits : Wait → Bool
  | .ready => false
  | _ => true

/-- The current path waits at its instruction (R116, R126, R166). Where a wait that resets the safe-point count begins, the count is 0. -/
def State.await (s : State) (w : Wait) : State :=
  s.modCur fun g =>
    let begins := w.counts && !g.path.wait.counts
    let g := g.modPath fun p => { p with wait := w, since := if p.wait.waits then p.since else s.clk }
    if begins then { g with count := 0 } else g

/-- The lanes of a list have performed their part of the instruction (R192). -/
def State.markDone (s : State) (m : Mask) : State := s.modCur fun g => g.modPath fun p => { p with done := p.done ||| m }

/-- The rollback mode of a team is in force: its interval is recoverable, its stores are held (R175). -/
def Team.holds (t : Team) : Bool := t.rb && !t.unrec

/-- The interval of a team in rollback mode becomes unrecoverable; its held stores are published first (R175, R299). -/
def State.unrecoverable (s : State) (c team : Nat) : State :=
  let t := s.teamAt c team
  if !isLatency c && t.holds then (s.releaseHeld c team).modTeam c team fun t => { t with unrec := true } else s

/-- R390, R187: a store to a word of a configuration block becomes the event of that write, behind those of lower lanes. -/
def State.queueConfig (s : State) (d off : Nat) (v : Word) : State :=
  let isCfg (t : Turn) : Bool := match t with | .event (.configWordWrite _ _ _) => true | _ => false
  { s with agenda := s.agenda.takeWhile isCfg ++ .event (.configWordWrite d off v) :: s.agenda.dropWhile isCfg }

/-- A store by a group at a translated `.glb` or `.chip` address: into the core's copy, held in rollback mode (R175, R287, R299), where
more than half of the L1 share pinned ends the recoverable interval. Stores of other teams that are held to the bytes of a store that
is not held stand no more (R188). A store to a word of a configuration block becomes the event of that write (R390). -/
def State.groupStore (s : State) (c team pa n v : Nat) (i : LineId) (va : Word) : State :=
  match region pa with
  | .config d =>
    if n = 8 ∧ pa % 8 = 0 then s.queueConfig d (pa % 2 ^ 16) (word v) else s
  | .submit _ => s.discardSubmit pa
  | .nowhere => s
  | _ =>
    let t := s.teamAt c team
    if isLatency c || !t.holds then
      (s.modCore c fun k => k.supersede none s.clk fun a => decide (pa ≤ a) && decide (a < pa + n)).storeSnap c pa n v i false
    else
      let s := if s.uncached pa then s else s.storeSnap c pa n v i true
      let s := s.modTeam c team fun t =>
        { t with heldStores := t.heldStores ++ [⟨t.epoch, pa, n, BitVec.ofNat 128 v, va, i.gen, i.chk, s.clk⟩] }
      if (s.core c).split.c * 64 < ((s.core c).l1.filter fun (_, l) => l.pin != 0).length then s.unrecoverable c team else s

/-- The same for the team of the group that issues. -/
def State.unrec (s : State) : State := s.unrecoverable s.cid s.cur.team

/-- What a `phase` of the issuing core does once its publication is complete (R206, R207): the discard, and in rollback mode, where the held
stores stay, a new epoch (R299). -/
def State.phaseEnd (s : State) (sc : Scope) : State :=
  let s := s.discard sc s.cid
  if s.team.holds ∧ sc ≠ .core ∧ !isLatency s.cid then s.modTeam s.cid s.cur.team fun t => { t with epoch := t.epoch + 1 } else s

/-- A doubleword of `.glb` read through the snapshot of a core (kind 0 is success). -/
def State.glbLoad (s : State) (c : Nat) (asid va : Word) (n : Nat) (acc : Acc) (priv : Bool) : Nat × Nat × State :=
  let (k, x, s) := s.translate c (asidOf asid) (incOf asid) va acc priv
  if k != 0 then (k, 0, s)
  else if x.vsh then
    let s := s.drainEgress (dieOfCore c) (homeOf s x.pa)
    let (k, s) := s.shardKind asid x.obj (fld va 0 40) n
    (k, if k = 0 then s.rd x.pa n else 0, s)
  else
    let (v, s) := s.readSnap c x.pa n (x.lineId asid va)
    (0, v, s)

/-- Stores doublewords at `.glb` addresses as ordinary stores of a group (R135); `none` if one faults. -/
def State.storeWords (s : State) (c team : Nat) (asid : Word) (priv : Bool) : List (Word × Word) → Option State
  | [] => some s
  | (va, v) :: r =>
    let (k, x, s) := s.translate c (asidOf asid) (incOf asid) va .write priv
    if k != 0 then none
    else (s.groupStore c team x.pa 8 v.toNat (x.lineId asid va) va).storeWords c team asid priv r

/-- The lane record of R134 at address `rec_`. -/
def laneRecord (g : Group) (l : Nat) (rec_ pc : Word) : List (Word × Word) :=
  ((List.range 64).map fun n => (rec_ + word (8 * n), g.x l n)) ++
  [ (rec_ + 0x200, pc), (rec_ + 0x208, word ((g.lane l).preds.toNat % 128 + 128)), (rec_ + 0x210, (g.lane l).fcsr),
    (rec_ + 0x218, (g.lane l).meet) ]

/-- The frame of R134: header, then one record for each lane of the mask. -/
def frameWords (g : Group) (f status : Word) (mask : Mask) (pc : Word) : List (Word × Word) :=
  [ (f, g.cause), (f + 8, g.tval), (f + 16, g.epc), (f + 24, ofMask mask), (f + 32, status), (f + 40, 0), (f + 48, 0),
    (f + 56, 0) ] ++
  (lanesOf mask).flatMap fun l => laneRecord g l (f + 0x40 + word (0x220 * l)) pc

/-- `cr.cause` (R133). -/
def causeWord (code orig : Nat) (detail : Mask) : Word := word (detail.toNat * 2 ^ 32 + orig * 2 ^ 8 + code)

/-- The status word of a save area (R18): FCLASS and LIVE stand as they are. -/
def saStatus (old : Word) (nest loc : Nat) (flt : Bool) : Word :=
  word (fld old 40 8 * 2 ^ 40 + nest % 256 * 2 ^ 16 + loc * 2 ^ 4 + bit flt 3 + bit (old.getLsbD 0) 0)

/-- The words that the hardware writes of a save area (R17), status apart. -/
def saWords (g : Group) (l : Nat) (pc : Word) : List (Nat × Word) :=
  let r := g.lane l
  ((List.range 64).map fun n => (8 * n, g.x l n)) ++ ((List.range 32).map fun n => (0x200 + 8 * n, g.s n)) ++
  [ (0x300, pc), (0x308, r.meet), (0x310, word (r.preds.toNat % 128 + 128)), (0x318, r.fcsr), (0x320, r.sid), (0x328, r.utvec),
    (0x330, r.uframe), (0x338, r.cbank), (0x348, r.serial), (0x350, word (g.asid.toNat % 2 ^ 32)) ]

/-- A lane with the identity of its strand: on a latency core the strand id, request serial and NEST are those of the save area that
`cr.ssa` names (R15; log entry 131). -/
def State.ownLane (s : State) (c : Nat) (g : Group) (l : Nat) : Lane :=
  let r := g.lane l
  if !isLatency c || r.ssa = 0 then r
  else match s.vaPa (dieOfCore c) g.asid r.ssa with
  | none => r
  | some pa => { r with sid := s.rd64 (pa + 0x320), serial := s.rd64 (pa + 0x348), nest := fld (s.rd64 (pa + 0x340)) 16 8 }

/-- `cr.status` of a lane with the identity of its strand (R15, R130). -/
def State.ownStatus (s : State) (c : Nat) (g : Group) (l : Nat) : Word := s.status c (g.setLane l (s.ownLane c g l)) l

/-- R19: writes the save area of a lane; the fault kind, 0 for success. -/
def State.saveLane (s : State) (c : Nat) (g : Group) (l : Nat) (pc : Word) (loc : Nat) (flt : Bool) : Nat × State :=
  let ssa := (g.lane l).ssa
  let (k, x, s) := s.translate c (asidOf g.asid) (incOf g.asid) ssa .write true
  if k != 0 then (k, s)
  else
    let g := g.setLane l (s.ownLane c g l)
    let s := (s.drainTo (dieOfCore c) x.pa).beforeWrite x g.asid ssa 0x358
    let s := (saWords g l pc).foldl (fun s (o, v) => s.poke (x.pa + o) 8 v.toNat none) s
    (0, s.poke (x.pa + 0x340) 8 (saStatus (s.rd64 (x.pa + 0x340)) (g.lane l).nest loc flt).toNat none)

/-- Writes LOC of a save area (R18). A strand that is resident again has no outstanding record. -/
def State.putLoc (s : State) (d : Nat) (asid ssa : Word) (loc : Nat) : State :=
  if ssa = 0 then s
  else s.agentUpdate d asid (ssa + 0x340) fun v =>
    let old := word v
    v - fld old 4 4 * 16 - (if loc = 1 then bit (old.getLsbD 3) 3 else 0) + loc * 16

/-- Sets or clears what a held group remembers of a lane's save area (R428). -/
def Group.setStag (g : Group) (l : Nat) (tag : Option Nat) : Group :=
  { g with held := g.held.map fun h =>
      { h with stags := (h.stags.filter fun x => x.1 != l) ++ (match tag with | some q => [(l, q)] | none => []) } }

/-- The record of a save area that could not be written (R428). -/
def State.saveRec (s : State) (c slot : Nat) (g : Group) (l kind : Nat) : FRec :=
  { FRec.blank with
    src := 1, cause := 0x14, kind := kind, acc := 1, needc := true, addr := (g.lane l).ssa, strand := (g.lane l).sid,
    team := (s.teamAt c g.team).id.toNat, core := c, slot := slot, lane := l, pc := g.epc,
    ctx := spaceWord g.asid (s.genOf (dieOfCore c) g.asid (g.lane l).ssa), target := .save c slot }

/-- A lane that is held writes its save area with LOC 4 (R19); a fault of that write gets a record of its own (R428). -/
def State.saveHeldLane (s : State) (c slot l : Nat) : State :=
  let g := s.grp c slot
  if (g.lane l).ssa = 0 then s
  else
    let (k, s) := s.saveLane c g l (g.pcOf l) 4 true
    if k = 0 then s.modGrp c slot fun g => g.setStag l none
    else
      let (q, s) := s.faultRecord (dieOfCore c) (s.saveRec c slot g l k)
      s.modGrp c slot fun g => g.setStag l (some q)

/-- The same for every lane of a held group. -/
def State.saveHeld (s : State) (c slot : Nat) : State :=
  (lanesOf (s.grp c slot).live).foldl (fun s l => s.saveHeldLane c slot l) s

/-- Whether the save area of a lane of a group could not be written (R428). -/
def State.saveFails (s : State) (c : Nat) (g : Group) (l : Nat) : Bool :=
  (g.lane l).ssa != 0 && (s.translate c (asidOf g.asid) (incOf g.asid) (g.lane l).ssa .write true).1 != 0

/-- The first free held slot of a core (R149). -/
def Core.freeHeld (k : Core) : Option Nat := [32, 33, 34, 35, 36, 37, 38, 39].find? fun i => !(k.slot i).occ

/-- The first free group slot of a core (R149). -/
def Core.freeSlot (k : Core) : Option Nat := (List.range 32).find? fun i => !(k.slot i).occ

/-- A fault record of a group's lanes (R139, R354). `addr` is 0 for a cause that has no address. -/
def State.laneRec (s : State) (c slot l : Nat) (cause kind acc : Nat) (addr detail : Word) (rpt : Bool) : FRec :=
  let g := s.grp c slot
  { FRec.blank with
    src := 1, cause := cause, kind := kind, rpt := rpt, acc := acc, needc := true, addr := addr, strand := (s.ownLane c g l).sid,
    team := (s.teamAt c g.team).id.toNat, core := c, slot := slot, lane := l, pc := g.path.pc,
    ctx := spaceWord g.asid (if cause = 0x14 ∨ cause = 0x15 ∨ cause = 0x17 then s.genOf (dieOfCore c) g.asid addr else 0), detail := detail }

/-- Moves the lanes `m` of the current path of a group into held slot `h`, stopped at the path's pc with the trap registers
given (R139, R149). They stay live in the original group (R117); of a group that is held already they are split off. -/
def State.makeHeld (s : State) (c slot h : Nat) (m : Mask) (cause : Nat) (cw tval : Word) (tag : Option Nat) : State :=
  let g := s.grp c slot
  let p := g.path
  let orig := match g.held with | some x => x.orig | none => slot
  let hg : Group := { g with
    live := m, paths := [{ p with mask := m, wait := .ready, done := p.done &&& m, got := p.got &&& m, atSafept := none, reads := [] }],
    cause := cw, epc := p.pc, tval := tval, count := 0, draft := none, lastIssue := s.clk, wfi := false,
    held := some ⟨orig, cause, tag, false, []⟩ }
  let s := (s.unblock (g.sids m)).setGrp c h hg
  s.modGrp c slot fun g => { g with
    paths := dropLanes g.paths m, live := if g.held.isSome then g.live &&& ~~~m else g.live }

/-- Whether the die's buffer of records has room for n more (R354); without it a new fault waits at its instruction. -/
def State.faultRoom (s : State) (n : Nat) : Bool := s.recordRoom s.did n

/-- The records that the hold of lanes of the group that issues takes: those of n faults, and one for each save area that cannot be
written (R354, R428). -/
def State.holdRoom (s : State) (n : Nat) (m : Mask) : Bool :=
  s.faultRoom (n + ((lanesOf m).filter fun l => s.saveFails s.cid s.cur l).length)

/-- R149: lanes of the current path wait for a held slot as a path of their own; the others complete the instruction and wait beside
them. -/
def State.splitOff (s : State) (m : Mask) (r : FRec) (cw tval : Word) (save : Bool) : State :=
  let c := s.cid
  let l := lowest m
  let (q, s) := s.faultRecord (dieOfCore c) { r with target := if save then .path c s.sid l else .save c s.sid }
  s.modCur fun g =>
    let p := g.path
    let held : Path := { p with mask := m, wait := .split (fld cw 0 32) tval (low32 (cw >>> 32)) (some q), lastFault := [(l, r.addr, r.kind)], reads := [] }
    let rest := p.without m
    if rest.mask = 0 then g.setPath held
    else { g with paths := { rest with wait := .splitOthers } :: (g.paths.drop 1 ++ [held]) }

/-- Stops lanes of the current path on a SIMT core for a record `r` (R139, R149): a held group that stops as a whole stays in its slot,
other lanes go to a held slot of their own, and without a free one their path waits for it. With `save` their save areas are written
(R19); without, the record is that of a save area (R428). -/
def State.holdFor (s : State) (m : Mask) (r : FRec) (cw tval : Word) (save : Bool) : State :=
  let c := s.cid
  let g := s.cur
  let l := lowest m
  let whole := g.held.isSome && m == g.live
  match (if whole then some s.sid else (s.core c).freeHeld) with
  | none => s.splitOff m r cw tval save
  | some hs =>
    let s : State := match whole, g.held with
      | true, some h => h.stags.foldl (fun (s : State) (x : Nat × Nat) => s.withdraw (some x.2)) ((s.withdraw h.tag).unblock (g.sids m))
      | _, _ => s
    let (q, s) := s.faultRecord (dieOfCore c) { r with slot := hs, target := if save then .held c hs else .save c hs }
    let s := s.modCur fun g => g.modPath fun p => { p with lastFault := [(l, r.addr, r.kind)] }
    let s := if whole then s.modCur fun g => { g with cause := cw, epc := g.path.pc, tval := tval, count := 0 }
      else s.makeHeld c s.sid hs m r.cause cw tval none
    let s := s.modGrp c hs fun g => { g with held := g.held.map fun (h : Held) => { h with
      cause := r.cause, running := false, tag := if save then some q else none, stags := if save then [] else [(l, q)] } }
    if save then s.saveHeld c hs else s

/-- The same for a kernel cause (R139). -/
def State.holdLanes (s : State) (m : Mask) (cause kind acc : Nat) (cw tval addr : Word) (rpt : Bool) (view : Word) : State :=
  s.holdFor m (s.laneRec s.cid s.sid (lowest m) cause kind acc addr view rpt) cw tval true

/-- Kernel delivery on a latency core (R139, R141): the frame at word 1 of the vector block, then the handler in word 0 with PRIV
and KT set. Where the block or the frame does not translate the hardware strand stops
with a record (log entry 19); low bits of words 0 and 1 do not count (log entry 36). -/
def State.enterKernel (s : State) (cw epc tval : Word) : State :=
  let c := s.cid
  let status := s.ownStatus c s.cur 0
  let old := s
  let s := (s.cancelDefers c s.sid 1).modCur fun g => { g with cause := cw, epc := epc, tval := tval }
  let g := s.cur
  let stop (s : State) : State :=
    let r := { s.laneRec c s.sid 0 (fld cw 0 8) 0 0 g.vectors 0 false with needc := false }
    if !old.faultRoom 1 then old.await (.fault 0)
    else ((s.faultRecord (dieOfCore c) r).2).modCur fun g => { g with halted := true }
  let (k0, handler, s) := s.glbLoad c g.asid g.vectors 8 .read true
  if k0 != 0 then stop s else
  let (k1, f, s) := s.glbLoad c g.asid (g.vectors + 8) 8 .read true
  let frame := f / 64 * 64
  if k1 != 0 then stop s
  else match s.storeWords c 0 g.asid true (frameWords g (word frame) status 1 epc) with
  | none => stop s
  | some s => (s.goto (word (handler / 8 * 8))).modCur fun g => { g with priv := true, kt := true, wfi := false }

/-- R244: a group with a restart symbol resumes at it as one path of all its lanes, with every meeting register 0. -/
def Group.restarted (g : Group) : Group :=
  if g.restart = 0 then g
  else
    let g := { g with epc := if g.held.isSome then g.restart else g.epc, paths := if g.live = 0 then [] else [Path.start g.restart g.live] }
    g.modLanes (lanesOf g.live) fun _ r => { r with meet := 0 }

/-- Writes PC and MEET of the save area of a lane that is held where R244 restarts it. -/
def State.putRestart (s : State) (d : Nat) (asid ssa pc : Word) : State :=
  if ssa = 0 then s else (s.agentUpdate d asid (ssa + 0x300) fun _ => pc.toNat).agentUpdate d asid (ssa + 0x308) fun _ => 0

/-- The lanes of a slot that stand in held groups. -/
def Core.lanesHeld (k : Core) (i : Nat) : Mask :=
  k.slots.foldl (fun m (_, x) => match x.held with
    | some h => if x.occ && h.orig == i then m ||| x.live else m
    | none => m) 0

/-- The slot of a group, or of the leader of a draft group (R176). -/
def Core.leaderOf (k : Core) (i : Nat) (g : Group) : Nat :=
  if g.isDraft then ((k.slots.find? fun (_, x) => x.draft == some i).map (·.1)).getD i else i

/-- R244 for the team in entry t of core c, which owns the engine. -/
def State.restartTeam (s : State) (c t : Nat) : State :=
  let s := s.modCore c fun k => { k with acc := [], mxe := { k.mxe with st := 0, rst := true, pois := 0 } }
  let mine (g : Group) : Bool := g.occ && g.team == t
  let any := (s.core c).slots.any fun (_, g) => mine g && g.restart != 0
  let again (k : Core) (i : Nat) (g : Group) : Group :=
    let g := g.restarted
    if g.held.isSome then g else { g with paths := dropLanes g.paths (k.lanesHeld (k.leaderOf i g)) }
  let s := s.modCore c fun k => { k with slots := k.slots.map fun (i, g) => (i, if mine g then again k i g else g) }
  let s := ((s.core c).slots.filter fun (_, g) => mine g && g.held.isSome && g.restart != 0).foldl (fun s (_, g) =>
    (lanesOf g.live).foldl (fun s l => s.putRestart (dieOfCore c) g.asid (g.lane l).ssa g.restart) s) s
  if any then s.modTeam c t fun x => { x with bars := x.bars.map fun (i, b) => (i, { b with count := 0, arrived := 0, members := 0, who := [] }) }
  else s

/-- The held faults of a team that goes back to its shadow are outstanding no more; their strands are resident (R18, R357). -/
def State.dropHeld (s : State) (c t : Nat) : State :=
  ((s.core c).slots.filter fun (_, g) => g.occ && g.team == t && g.held.isSome).foldl (fun s (_, g) =>
    let s := match g.held with
      | some h => h.stags.foldl (fun (s : State) x => s.withdraw (some x.2)) (s.withdraw h.tag)
      | none => s
    (lanesOf g.live).foldl (fun s l => s.putLoc (dieOfCore c) g.asid (g.lane l).ssa 1) s) s

/-- The groups that have not ended in a shadow (R175). -/
def Shadow.living (sh : Shadow) : Nat := (sh.groups.filter fun (_, g) => g.occ && !g.isDraft && g.held.isNone).length

/-- R357, R176: what a consumption of poison or a draft mismatch does to the team: back to the shadow where its interval is
recoverable, otherwise it is killed. -/
def State.rollback (s : State) (c t : Nat) : State :=
  match (s.teamAt c t).shadow with
  | none => s.killTeam c t
  | some sh =>
    let s := s.dropHeld c t
    let s := ((s.core c).slots.filter fun (_, g) => g.occ && g.team == t).foldl (fun s (i, g) => s.cancelDefers c i g.live) s
    let s := s.modCore c fun k => { (k.unpin t (k.team t).heldStores true) with
      slots := (k.slots.filter fun (_, g) => !(g.occ && g.team == t)) }
    let s := sh.groups.foldl (fun s (i, g) => s.setGrp c i { g with lastIssue := s.clk }) s
    let tm := s.teamAt c t
    let keep (a : Nat) : Bool := decide (a < tm.locBase) || decide (tm.locBase + tm.locSize ≤ a)
    let s := s.modCore c fun k => { k with
      loc := (sh.loc.foldl (fun m (a, b) => set 0 m a b) (k.loc.filter fun (a, _) => keep a)),
      fe := (sh.fe.foldl (fun m (a, v) => set 0 m a v) (k.fe.filter fun (a, _) => keep (4 * a))),
      chans := (sh.chans.foldl (fun m (a, v) => set Channel.zero m a v) (k.chans.filter fun (_, h) => !(h.bound && h.team == t))) }
    let s := s.modTeam c t fun x => { x with bars := sh.bars, heldStores := [], epoch := 0, unrec := false, groups := sh.living }
    if (s.core c).mxe.owner = some t then s.restartTeam c t else s

/-- The outcome of cause 0x17 or 0x18 in a team (R357); DETAIL of the record is the outcome (R354). `key` tells the place of consumed poison
from others, whose addresses may be equal. -/
def State.contain (s : State) (cause : Nat) (addr : Word) (key : Nat) : State :=
  let c := s.cid
  let t := s.cur.team
  let tm := s.team
  let again := cause == 0x17 && tm.consumed.contains key
  let back := tm.holds && tm.shadow.isSome && !again
  let r := { s.laneRec c s.sid s.low cause 0 0 (if cause = 0x17 then addr else 0) (if cause = 0x17 then (if back then 0x100 else 0x200) else 0) false with needc := false }
  let s := (s.faultRecord (dieOfCore c) r).2
  if back then (s.modTeam c t fun x => { x with consumed := key :: x.consumed }).rollback c t else s.killTeam c t

/-- A user cause (R131): below 0x10. -/
def isUser (cause : Nat) : Bool := decide (cause < 0x10)

/-- Delivery of a kernel cause to all lanes of the current path (R139, R141, R357). `kind` and `acc` are those of a memory or
fetch fault. -/
def State.kernelTrap (s : State) (cause orig : Nat) (tval : Word) (detail : Mask) (kind acc : Nat) : State :=
  let cw := causeWord cause orig detail
  if isLatency s.cid then s.enterKernel cw s.pc tval
  else if (cause = 0x17 ∨ cause = 0x18) ∧ s.faultRoom 1 then s.contain cause tval tval.toNat
  else if !s.holdRoom 1 s.active then s.await (.fault 0)
  else s.holdLanes s.active cause kind acc cw tval (if cause = 0x15 then tval else 0) false 0

/-- R135, R137: the paths of the held groups of a slot stop, or issue again. -/
def State.freezeHeld (s : State) (c orig : Nat) (b : Bool) : State :=
  s.modCore c fun k => { k with slots := k.slots.map fun (i, g) => match g.held with
    | some h => if h.orig = orig then (i, { g with paths := g.paths.map fun p => { p with frozen := b } }) else (i, g)
    | none => (i, g) }

/-- R135, R136: delivery of a user cause to the user handler, or as cause 0x13. -/
def State.userTrap (s : State) (cause : Nat) (tval : Word) (detail : Mask) : State :=
  let c := s.cid
  let g := s.cur
  let l := s.low
  let r := g.lane l
  let vec := r.utvec &&& ~~~7#64
  if vec = 0 || g.ut || g.kt then s.kernelTrap 0x13 cause tval detail 0 0
  else
    let mask := s.active
    let status := s.ownStatus c g l
    let g' := { g with cause := causeWord cause 0 detail, epc := g.path.pc, tval := tval }
    match (s.setCur g').storeWords c g.team g.asid g.priv (frameWords g' (r.uframe &&& ~~~63#64) status mask g.path.pc) with
    | none => s.kernelTrap 0x13 cause tval detail 0 0
    | some s =>
      let s := s.modCur fun g => { g with
        ut := true, paths := match g.paths with
          | [] => []
          | p :: ps => p :: ps.map fun p => { p with frozen := true } }
      let s := if g.held.isSome then s else s.freezeHeld c s.sid true
      s.goto vec

/-- TAKING AN EXCEPTION (R131-R141): a cause that affects every active lane of the current path. -/
def State.takeTrap (s : State) (cause : Nat) (tval : Word) (detail : Mask) : State :=
  if isUser cause then s.userTrap cause tval detail else s.kernelTrap cause 0 tval detail 0 0

/-- DETAIL of a memory or fetch fault (R351). -/
def faultDetail (kind acc : Nat) (rpt : Bool) : Mask := BitVec.ofNat 32 (kind + bit rpt 8 + acc * 2 ^ 9)

/-- Whether the record for a lane, address and kind repeats the last one (R355). -/
def State.repeats (s : State) (l : Nat) (addr : Word) (kind : Nat) : Bool := s.cur.path.lastFault.contains (l, addr, kind)

/-- A memory fault of one lane (0x14): held alone, while the others go on (R139, R351); on a latency core the strand enters the
kernel. -/
def State.laneFault (s : State) (l : Nat) (addr : Word) (kind acc : Nat) (view : Word) : State :=
  let rpt := s.repeats l addr kind
  let cw := causeWord 0x14 0 (faultDetail kind acc rpt)
  if isLatency s.cid then s.enterKernel cw s.pc addr
  else s.holdLanes (laneBit l) 0x14 kind acc cw addr addr rpt view

/-- R428: the save of a lane that was to leave faulted. The lane is held where it stands, with one record, that of its save area. -/
def State.saveFault (s : State) (l : Nat) (addr : Word) (kind : Nat) : State :=
  let rpt := s.repeats l addr kind
  let cw := causeWord 0x14 0 (faultDetail kind 1 rpt)
  if isLatency s.cid then s.enterKernel cw s.pc addr
  else s.holdFor (laneBit l) (s.laneRec s.cid s.sid l 0x14 kind 1 addr 0 rpt) cw addr false

/-- After some lanes of the current path have been held, the others go on (R139). -/
def State.advanceRest (s : State) (len : Nat) (before held : Mask) : State :=
  if before &&& ~~~held = 0 then s else s.advance len

/-- R139, R181: the lanes that fault are held one by one, in ascending order; the others go on with `rest`, which receives the
mask of the lanes held. -/
def State.splitFaults (s : State) (acc : Nat) (fs : List (Nat × Word × Nat × Word)) (rest : Mask → State → State) : State :=
  if fs.isEmpty then rest 0 s
  else if !isLatency s.cid && !s.holdRoom fs.length (maskOf (fs.map (·.1))) then s.await (.fault 0)
  else
    let m := maskOf (fs.map (·.1))
    let alone := s.active &&& ~~~m = 0
    let s := fs.foldl (fun s (l, a, k, v) => s.laneFault l a k acc v) s
    if alone then s else rest m s

/-- An instruction-fetch fault of the current path (R61, R351); `view` is the view handle of kinds 9 and 10. -/
def State.fetchFault (s : State) (addr : Word) (kind : Nat) (view : Word) : State :=
  let rpt := s.repeats s.low addr kind
  let cw := causeWord 0x15 0 (faultDetail kind 3 rpt)
  if isLatency s.cid then s.enterKernel cw s.pc addr
  else if !s.holdRoom 1 s.active then s.await (.fault 0)
  else s.holdLanes s.active 0x15 kind 3 cw addr addr rpt view

/-- A lane without a save area (0x16, R17, R145). -/
def State.noSaveArea (s : State) (l : Nat) : State :=
  let cw := causeWord 0x16 0 0
  if isLatency s.cid then s.enterKernel cw s.pc 0 else s.holdLanes (laneBit l) 0x16 0 0 cw 0 0 false 0

/-- R424, R425: an instruction that is never split waits whole, with one record for each lane, address and kind given. A
latency core enters the kernel for the first. `view` is the view handle of kinds 9 and 10. -/
def State.keepWhole (s : State) (acc : Nat) (view : Word) (fs : List (Nat × Word × Nat)) : State :=
  match fs with
  | [] => s
  | (_, a0, k0) :: _ =>
    if isLatency s.cid then s.enterKernel (causeWord 0x14 0 (faultDetail k0 acc false)) s.pc a0
    else if !s.faultRoom fs.length then s.await (.fault 0)
    else
      let s := fs.foldl (fun s (l, a, k) =>
        let r := { s.laneRec s.cid s.sid l 0x14 k acc a view (s.repeats l a k) with target := .path s.cid s.sid l }
        (s.faultRecord s.did r).2) s
      (s.modCur fun g => g.modPath fun p => { p with lastFault := fs }).await (.fault fs.length)

/-- The bytes that a core's publication has left under UM: line, address of the first of them, and identity (R345, R418). -/
def State.leftover (s : State) (c : Nat) : List (Nat × Word × LineId) :=
  (s.core c).l1.flatMap fun (line, l) =>
    (l.parts (l.um &&& ~~~l.pin)).map fun p => (line, p.2.va + word ((bytesOf p.1).headD 0), p.2)

/-- The kind of the fault that keeps bytes of a publication under UM: HOMELOST where their home is out of reach (R422), or that of a refused
one's retranslation; 0 where they wait for a lease or for a flush (R345, R418, R338). -/
def State.stuckKind (s : State) (c line : Nat) (va : Word) (i : LineId) : Nat :=
  if s.cutOff (128 * line) then 11
  else if !i.chk || s.leased line || s.flushing i.asid then 0
  else (s.walkTables (dieOfCore c) (asidOf i.asid) (incOf i.asid) va .write true).fault

/-- What goes on once the publication of the issuing core at a scope has completed. While bytes wait at the home the path waits; where the
retranslation of a refused publication faults, it waits whole with its fault record; in both cases the instruction executes again (R345, R418;
log entry 16). -/
def State.published (s : State) (sc : Scope) (l : Nat) (body : State → State) : State :=
  match (if sc = .core then [] else s.leftover s.cid) with
  | [] => body s
  | ls =>
    match ls.find? fun e => s.stuckKind s.cid e.1 e.2.1 e.2.2 != 0 with
    | some (line, va, i) => s.keepWhole 1 0 [(l, va, s.stuckKind s.cid line va i)]
    | none => s.await (.publish (ls.map (·.1)))

/-- A release of the issuing core at a scope for lane l, and what goes on once it is complete (R206, R345, R418). -/
def State.releaseThen (s : State) (sc : Scope) (l : Nat) (body : State → State) : State := (s.publish sc s.cid).published sc l body

/-- R418: what goes on once no line of a list is under a lease. -/
def State.unleased (s : State) (lines : List Nat) (body : State → State) : State :=
  if lines.any s.leased then s.await (.publish lines) else body s

/-- Cause 0x05 (R131, R181): every lane of the path, with the value and the lanes of the raising rule. -/
def State.segFault (s : State) (tval : Word) (lanes : Mask) : State := s.takeTrap 0x05 tval lanes

/-- Cause 0x17 for the path: consumed poison (R356), of a place with a key. -/
def State.poisonAt (s : State) (key : Nat) (addr : Word) (origin : Nat) : State :=
  if isLatency s.cid || !s.faultRoom 1 then s.takeTrap 0x17 addr (BitVec.ofNat 32 origin) else s.contain 0x17 addr key

/-- The same at a `.glb` address. -/
def State.poisonTrap (s : State) (addr : Word) (origin : Nat) : State := s.poisonAt addr.toNat addr origin

/-- The paths of lanes by their pcs (R116, R137): ascending by the lowest lane that goes to each pc. -/
def pathsByPc (ls : List (Nat × Word)) : List Path :=
  ls.foldl (fun ps (l, pc) =>
    if ps.any fun p => p.pc == pc then ps.map fun p => if p.pc == pc then { p with mask := p.mask ||| laneBit l } else p
    else ps ++ [Path.start pc (laneBit l)]) []

/-- Restores a lane from its frame record (R137, R141); reserved and wired bits follow R10 and R38. -/
def restoreLane (r : Lane) (alloc : Nat) (xs : List Word) (pred fcsr meet : Word) : Lane :=
  { r with
    xs := ((List.range 64).zip xs).foldl (fun m (n, v) => if n = 0 ∨ alloc ≤ n then m else set 0 m n v) r.xs,
    preds := pred.extractLsb' 0 7 |>.setWidth 8, fcsr := fcsrWrite r.fcsr fcsr, meet := meet }

/-- Reads doublewords at `.glb` addresses through the snapshot; `none` if one faults. -/
def State.loadWords (s : State) (c : Nat) (asid : Word) (priv : Bool) : List Word → Option (List Word × State)
  | [] => some ([], s)
  | va :: r =>
    let (k, v, s) := s.glbLoad c asid va 8 .read priv
    if k != 0 then none
    else match s.loadWords c asid priv r with
    | none => none
    | some (vs, s) => some (word v :: vs, s)

/-- The addresses of a frame's lane record in the order x0-x63, pc, predicates, fcsr, meeting register. -/
def recordAddrs (rec_ : Word) : List Word := (List.range 68).map fun n => rec_ + word (8 * n)

/-- R137: lanes of MASK that are held leave their held groups and are resident again (R18), and their outstanding records are
withdrawn. -/
def State.unhold (s : State) (c slot : Nat) (m : Mask) : State :=
  [32, 33, 34, 35, 36, 37, 38, 39].foldl (fun s h =>
    let g := s.grp c h
    match g.held with
    | none => s
    | some hd =>
      let back := g.live &&& m
      if hd.orig = slot ∧ g.occ ∧ back ≠ 0 then
        let s := (lanesOf back).foldl (fun s l => s.modGrp c slot fun o => o.setLane l (g.lane l)) s
        let s := (hd.stags.filter fun x => back.getLsbD x.1).foldl (fun s x => s.withdraw (some x.2)) s
        let s := if g.live &&& ~~~m = 0 then (s.withdraw hd.tag).setGrp c h Group.empty
          else s.setGrp c h { g with live := g.live &&& ~~~m, paths := dropLanes g.paths m }
        if hd.running then s
        else (lanesOf back).foldl (fun s l => s.putLoc (dieOfCore c) g.asid (g.lane l).ssa 1) s
      else s) s

/-- R137: the slot of the group whose handler an `eret` of the group that issues ends: its own, or, for a lane that was held inside its
group's handler, that of the original group. -/
def State.handlerSlot (s : State) : Nat :=
  match s.cur.held with
  | some h => let o := s.grp s.cid h.orig; if o.occ && o.ut && o.team == s.cur.team then h.orig else s.sid
  | none => s.sid

/-- R137: the return of a user handler once the frame's words are at hand. -/
def State.userReturn (s : State) (m : Mask) (recs : List (Nat × List Word)) : State :=
  let c := s.cid
  let slot := s.handlerSlot
  let gone := s.active ||| m
  let s := s.unhold c slot m
  let s := s.modGrp c slot fun g =>
    let lanes := recs.filter fun (l, _) => m.getLsbD l && g.live.getLsbD l
    let g := lanes.foldl (fun g (l, ws) => g.modLane l fun r =>
      restoreLane r g.alloc (ws.take 64) (ws.getD 65 0) (ws.getD 66 0) (ws.getD 67 0)) g
    let back := pathsByPc (lanes.map fun (l, ws) => (l, ws.getD 64 0 &&& ~~~7#64))
    { g with ut := false, paths := back ++ (dropLanes g.paths gone).map fun p => { p with frozen := false } }
  if (s.grp c slot).held.isSome then s
  else s.freezeHeld c slot false

/-- R141: the kernel's `eret`. -/
def State.kernelReturn (s : State) : State :=
  let c := s.cid
  let g := s.cur
  let old := s
  let stop (s : State) (a : Word) : State :=
    let r := { s.laneRec c s.sid 0 0x12 0 0 a 0 false with needc := false }
    if !old.faultRoom 1 then old.await (.fault 0)
    else ((s.faultRecord (dieOfCore c) r).2).modCur fun g => { g with halted := true }
  let (k1, f, s) := s.glbLoad c g.asid (g.vectors + 8) 8 .read true
  let frame := f / 64 * 64
  if k1 != 0 then stop s (g.vectors + 8)
  else match s.loadWords c g.asid true (recordAddrs (word frame + 0x40) ++ [word frame + 0x20]) with
  | none => stop s (word frame)
  | some (ws, s) =>
    let st := ws.getD 68 0
    let s := s.modCur fun g => (g.modLane 0 fun r =>
      restoreLane r g.alloc (ws.take 64) (ws.getD 65 0) (ws.getD 66 0) (ws.getD 67 0))
    (s.goto (ws.getD 64 0 &&& ~~~7#64)).modCur fun g =>
      { g with priv := st.getLsbD 0, ut := st.getLsbD 1, kt := st.getLsbD 6 }

/-- RETURN FROM AN EXCEPTION (R137, R141). `w` is the base word, the value of cause 0x12. -/
def State.returnTrap (s : State) (w : Word) : State :=
  let g := s.cur
  if g.kt then s.kernelReturn
  else if !g.ut then s.takeTrap 0x12 w 0
  else
    let f := (g.lane s.low).uframe &&& ~~~63#64
    match s.loadWords s.cid g.asid g.priv [f + 24] with
    | none => s.kernelTrap 0x13 0x12 w 0 0 0
    | some (h, s) =>
      let m := low32 (h.getD 0 0)
      match s.loadWords s.cid g.asid g.priv ((lanesOf m).flatMap fun l => recordAddrs (f + 0x40 + word (0x220 * l))) with
      | none => s.kernelTrap 0x13 0x12 w 0 0 0
      | some (ws, s) =>
        s.userReturn m (((lanesOf m).zip (List.range 32)).map fun (l, i) => (l, (ws.drop (68 * i)).take 68))

end Sys2Proof.Machine
end

