-- ==== Sys2Proof/Machine/Router.lean ====
section
/-! DEFINITION. The stage router (R255-R266, R276, R279): the events of a cassette, each one indivisible. -/

namespace Sys2Proof.Machine

/-- Names a cassette: die, router and number. -/
structure CasRef where
  d : Nat
  r : Nat
  k : Nat
deriving DecidableEq, Repr

/-- One cassette. -/
def State.cas (s : State) (c : CasRef) : Cassette :=
  get Cassette.zero (get Router.zero (s.die c.d).routers c.r).cas c.k

/-- Replaces a cassette. -/
def State.setCas (s : State) (c : CasRef) (q : Cassette) : State :=
  s.modDie c.d fun x =>
    let v := get Router.zero x.routers c.r
    { x with routers := set Router.zero x.routers c.r { v with cas := set Cassette.zero v.cas c.k q } }

/-- Changes a cassette. -/
def State.modCas (s : State) (c : CasRef) (f : Cassette → Cassette) : State := s.setCas c (f (s.cas c))

/-- NST of R256. -/
def Cassette.nst (q : Cassette) : Nat := fld q.ctrl 0 4
/-- W of R256. -/
def Cassette.window (q : Cassette) : Nat := 2 ^ fld q.ctrl 4 4
/-- TAIL of R256. -/
def Cassette.tail (q : Cassette) : Bool := q.ctrl.getLsbD 8
/-- STRICT of R256. -/
def Cassette.strict (q : Cassette) : Bool := q.ctrl.getLsbD 9
/-- LOG of R256. -/
def Cassette.logs (q : Cassette) : Bool := q.ctrl.getLsbD 10
/-- REPLAY of R256. -/
def Cassette.replays (q : Cassette) : Bool := q.ctrl.getLsbD 11
/-- One entry of the record table. -/
def Cassette.entry (q : Cassette) (i : Nat) : RecEntry := get RecEntry.zero q.entries i
/-- The entries queued at a port: 0-7 a stage, 8 the tail. -/
def Cassette.port (q : Cassette) (p : Nat) : List Nat := get [] q.ports p
/-- Replaces a port's queue. -/
def Cassette.setPort (q : Cassette) (p : Nat) (l : List Nat) : Cassette := { q with ports := set [] q.ports p l }
/-- R262. -/
def Cassette.drained (q : Cassette) : Bool := q.closed && q.entries.all fun e => e.2.st == 0
/-- The records not in state 0 (R275). -/
def Cassette.inflight (q : Cassette) : Nat := (q.entries.filter fun e => e.2.st != 0).length

/-- The core of rank 0 of a team's cluster (R251). -/
def State.rank0 (s : State) (c t : Nat) : Nat := ((s.teamAt c t).memberCore c 0).getD c

/-- The router that a team's cluster uses (R255). -/
def State.routerOf (s : State) (c t k : Nat) : CasRef := ⟨dieOfCore c, regionOf (s.rank0 c t), k⟩

/-- The cassette of a number, if the team's cluster declared it. -/
def State.casOf (s : State) (c t k : Nat) : Option CasRef :=
  let r := s.routerOf c t k
  let q := s.cas r
  if q.decl && q.owner == (s.teamAt c t).ckey && decide (k < 4) then some r else none

/-- R260. -/
def handle (k i seq : Nat) : Word := word (seq * 2 ^ 32 + k * 2 ^ 12 + i)

/-- Writes the table image of one entry (R258). -/
def State.imageEntry (s : State) (c : CasRef) (i : Nat) : State :=
  let q := s.cas c
  let e := q.entry i
  s.modCore q.tcore fun k => { k with
    loc := writeBytes (writeBytes k.loc (q.toff + 16 * i) 8 e.value.toNat) (q.toff + 16 * i + 8) 8
      (e.seq * 2 ^ 32 + e.st * 2 ^ 12 + e.stg * 2 ^ 8 + e.done.toNat) }

/-- Changes an entry and its image (R258). -/
def State.putEntry (s : State) (c : CasRef) (i : Nat) (e : RecEntry) : State :=
  (s.modCas c fun q => { q with entries := set RecEntry.zero q.entries i e }).imageEntry c i

/-- The lottery step of R264. -/
def lfsr (v : Mask) : Mask := if v.getLsbD 0 then (v >>> 1) ^^^ 0x80200003#32 else v >>> 1

/-- The first stage whose running sum exceeds x (R264). -/
def firstAbove (x sum : Nat) : List (Nat × Nat) → Nat
  | [] => 0
  | (st, e) :: r => if x < sum + e ∨ r = [] then st else firstAbove x (sum + e) r

/-- The effective weight of a stage (R264). -/
def Cassette.eff (q : Cassette) (st : Nat) : Nat := max 1 (get 0 q.wts st / (1 + (q.port st).length))

/-- The address of a record's word in the decision log (R279). -/
def Cassette.logAddr (q : Cassette) (seq : Nat) : Word := q.logBase + word (4 * (seq - 1))

/-- The logged stage of a record at its next routing under REPLAY (R279). -/
def State.loggedStage (s : State) (c : CasRef) (e : RecEntry) : Option Nat × State :=
  let q := s.cas c
  if !q.replays || q.logErr || decide (q.logLen < e.seq) then (none, s)
  else
    let (k, v, s) := s.agentLoad c.d q.asid (q.logAddr e.seq) 4
    if k != 0 then (none, s.modCas c fun q => { q with logErr := true }) else (some (v / 16 ^ e.routed % 16), s)

/-- R264: the stage chosen among the candidates. -/
def State.choose (s : State) (c : CasRef) (e : RecEntry) (cands : List Nat) : Nat × State :=
  let (l, s) := s.loggedStage c e
  match l.filter fun st => cands.contains st with
  | some st => (st, s)
  | none =>
    match cands with
    | [st] => (st, s)
    | _ =>
      let q := s.cas c
      let es := cands.map fun st => (st, q.eff st)
      let t := (es.map (·.2)).foldl (· + ·) 0
      let v := lfsr q.lfsr
      (firstAbove (v.toNat * t / 2 ^ 32) 0 es, s.setCas c { q with lfsr := v, draws := q.draws + 1 })

/-- The stages that a record has not passed (R263). -/
def candidates (nst : Nat) (done : BitVec 8) : List Nat := (List.range nst).filter fun st => !done.getLsbD st

/-- Admission order: how far a number lies behind the next one; numbers run from 1 to 2^32 - 1 (R260). -/
def seqAge (next seq : Nat) : Nat := (next + (2 ^ 32 - 1) - seq) % (2 ^ 32 - 1)

/-- The entry due at the tail: the smallest admission number in states 1, 2, 3, 6 (R266). -/
def Cassette.due (q : Cassette) : Option (Nat × RecEntry) :=
  (q.entries.filter fun (_, e) => e.st == 1 || e.st == 2 || e.st == 3 || e.st == 6).foldl
    (fun b (i, e) => match b with
      | none => some (i, e)
      | some (j, f) => if seqAge q.nextSeq f.seq < seqAge q.nextSeq e.seq then some (i, e) else some (j, f)) none

/-- TailAdvance of R266. -/
def State.tailAdvance (s : State) (c : CasRef) : Nat → State
  | 0 => s
  | n + 1 =>
    match (s.cas c).due with
    | none => s
    | some (i, e) =>
      if e.st = 3 then
        ((s.putEntry c i { e with st := 4 }).modCas c fun q => q.setPort 8 (q.port 8 ++ [i])).tailAdvance c n
      else s

/-- The weights at a window close (R265). -/
def Cassette.closeWindow (q : Cassette) : Cassette :=
  let wts := (List.range q.nst).foldl (fun w st =>
    let ent := get 0 q.ent st
    if ent = 0 then w
    else set 0 w st (min (2 ^ 24) (max 1 (2 ^ 20 * (ent - get 0 q.pass st + 1) / (get 0 q.cost st + ent + 1))))) q.wts
  { q with wts := wts, ent := [], pass := [], cost := [], winRet := 0, windows := q.windows + 1 }

/-- The decision log's word of a retiring record (R279). -/
def State.logRecord (s : State) (c : CasRef) (e : RecEntry) : State :=
  let q := s.cas c
  if q.logs && !q.logErr && decide (e.seq ≤ q.logLen) then
    let (k, s) := s.agentStore c.d q.asid (q.logAddr e.seq) 4 e.log.toNat
    if k != 0 then s.modCas c fun q => { q with logErr := true } else s
  else s

/-- R266: a record retires. -/
def State.retire (s : State) (c : CasRef) (i : Nat) (rejected : Bool) : State :=
  let e := (s.cas c).entry i
  let s := s.logRecord c e
  let s := s.putEntry c i { e with st := 0 }
  let s := s.modCas c fun q => { q with
    retired := q.retired + 1, winRet := q.winRet + 1, rejected := if rejected then q.rejected + 1 else q.rejected }
  let s := s.modCas c fun q => if q.window ≤ q.winRet then q.closeWindow else q
  s.tailAdvance c 4096

/-- What Route answers (R263, R272). -/
inductive Routed
  | stage (st : Nat)
  | tailed
  | passed
deriving DecidableEq, Repr

/-- R263: routes the record of entry i. With `keep` the caller on (core, slot) holds it. -/
def State.route (s : State) (c : CasRef) (i : Nat) (keep : Option (Nat × Nat)) : Routed × State :=
  let q := s.cas c
  let e := q.entry i
  match candidates q.nst e.done with
  | [] =>
    if q.tail then (.tailed, (s.putEntry c i { e with st := 3 }).tailAdvance c 4096)
    else (.passed, s.retire c i false)
  | cands =>
    let (st, s) := s.choose c e cands
    let e := { e with
      stg := st, routed := e.routed + 1,
      log := (e.log &&& ~~~(0xF#32 <<< (4 * e.routed))) ||| (BitVec.ofNat 32 st <<< (4 * e.routed)) }
    match keep with
    | some (core, slot) => (.stage st, s.putEntry c i { e with st := 2, core := core, slot := slot, start := s.clk })
    | none => (.stage st, (s.putEntry c i { e with st := 1 }).modCas c fun q => q.setPort st (q.port st ++ [i]))

/-- The counts of a completed execution (R265, R271). -/
def State.completeStage (s : State) (c : CasRef) (i : Nat) (pass : Bool) : State :=
  let e := (s.cas c).entry i
  s.modCas c fun q => { q with
    ent := set 0 q.ent e.stg (get 0 q.ent e.stg + 1),
    pass := set 0 q.pass e.stg (get 0 q.pass e.stg + pass.toNat),
    cost := set 0 q.cost e.stg (get 0 q.cost e.stg + min (2 ^ 20 - 1) (s.clk - e.start)) }

/-- R271: the completion of a held stage with its outcome; what Route answers, or `none` for a rejected record. -/
def State.stageDone (s : State) (c : CasRef) (i : Nat) (pass : Bool) (keep : Option (Nat × Nat)) : Option Routed × State :=
  let s := s.completeStage c i pass
  let e := (s.cas c).entry i
  if pass then
    let s := s.putEntry c i { e with done := e.done ||| (1#8 <<< e.stg) }
    let (r, s) := s.route c i keep
    (some r, s)
  else (none, s.retire c i true)

/-- R261, R262: the delivery to one popping lane of the group in (core, slot). -/
def State.deliver (s : State) (c : CasRef) (p core slot : Nat) : Word × State :=
  let q := s.cas c
  match q.port p with
  | [] => (0, s)
  | i :: r =>
    let e := q.entry i
    let s := s.setCas c (q.setPort p r)
    let s := s.putEntry c i { e with st := if e.st = 4 then 5 else 2, core := core, slot := slot, start := s.clk }
    (handle c.k i e.seq, s)

end Sys2Proof.Machine
end

