-- ==== Sys2Proof/Machine/ConfigBlock.lean ====
section
/-! DEFINITION. Reading the words of the die configuration blocks (R310, R349, R390, R416, R422). -/

namespace Sys2Proof.Machine

/-- Whether a die is a compute die (R3). -/
def isCompute (d : Nat) : Bool := decide (d < 4)

/-- The word of port p (R422): PORTST, then PORTERR. -/
def Die.portWord (x : Die) (p : Nat) (err : Bool) : Word :=
  let q := get Port.zero x.ports p
  if err then word (min q.rplay (2 ^ 32 - 1) * 2 ^ 32 + min q.fail (2 ^ 32 - 1))
  else word (bit q.up 63 + q.peer % 2 ^ 20 * 2 ^ 32 + min q.downs 65535)

/-- The word at a listed offset of a configuration block; write-only words, words a die does not have and every other offset
read 0 (R390). -/
def State.configWord (s : State) (d off : Nat) : Word :=
  let x := s.die d
  let c := isCompute d
  if off = 0 then word (bit x.cfgErr 4 + x.cspad)
  else if off = 8 then word (bit x.trErr 2 + bit x.trBusy 1 + bit x.trMode 0)
  else if off = 0x10 then x.astBase
  else if 0x20 ≤ off ∧ off < 0x70 ∧ off % 8 = 0 then get 0 x.invs ((off - 0x20) / 8)
  else if off = 0x70 then (if c then x.ptBase else 0)
  else if off = 0x78 then x.fring
  else if off = 0x80 then (if c then x.cring else 0)
  else if off = 0x88 then (if c then x.reply else 0)
  else if off = 0xA0 then (if c then word x.migWindow else 0)
  else if off = 0xA8 then (if c then 0 else x.aring)
  else if off = 0xB0 then x.mring
  else if off = 0xB8 then x.recctl
  else if off = 0xC0 then word ((if c then get 0 x.scrubD 1 * 2 ^ 8 else 0) + get 0 x.scrubD 0)
  else if off = 0xE0 then x.sigtgt
  else if c then 0
  else if off = 0xC8 then word (bit x.pkgSet 63 + x.pkgId)
  else if off = 0xD0 then word x.leaseLen
  else if off = 0xD8 then word (bit x.lock 63 + min x.bound (2 ^ 32 - 1))
  else if 0x100 ≤ off ∧ off < 0x180 ∧ off % 8 = 0 then x.portWord ((off - 0x100) / 16) (off / 8 % 2 = 1)
  else 0

/-- R390: a load of n bytes of a configuration block; only an aligned load of 8 bytes reads a word. -/
def State.configLoad (s : State) (d off n : Nat) : Nat := if n = 8 ∧ off % 8 = 0 then (s.configWord d off).toNat else 0

end Sys2Proof.Machine
end

