-- ==== Sys2Proof/Machine/Load.lean ====
section
/-! DEFINITION. A read of `.glb` bytes by a lane (R187, R290, R356): the snapshot, the host windows (R389), the device windows
(R390, R399) and the view reads, which are checked at the home and held there (R321, R322); the deferral entries of a slice (R303,
R304). -/

namespace Sys2Proof.Machine

/-- What a read answers. -/
inductive ReadRes
  /-- the bytes -/
  | data (v : Nat)
  /-- a fault kind (R353) with the view handle of kinds 9 and 10 -/
  | fault (kind : Nat) (view : Word)
  /-- consumed poison and its origin (R356) -/
  | poison (origin : Nat)
  /-- a held WAIT read (R322), or one that its slice has refused (R304) -/
  | held (refused : Bool)
deriving DecidableEq, Repr

/-- The deferral entries in use at a slice. -/
def State.sliceDefers (s : State) (d slice : Nat) : Nat := ((s.die d).defer.filter fun e => e.slice == slice).length

/-- A request takes a deferral entry; `count` marks one of a slice, whose highest use is kept (R303, R310). -/
def State.addDefer (s : State) (d : Nat) (e : Defer) (count : Bool) : State :=
  s.modDie d fun x => { x with
    defer := x.defer ++ [e],
    deferMax := if count then set 0 x.deferMax e.slice (max (s.sliceDefers d e.slice + 1) (get 0 x.deferMax e.slice)) else x.deferMax }

/-- R304: how long a requester waits after refusal n, in clk. -/
def backoff (n : Nat) : Nat := min (64 * 2 ^ (n - 1)) 4096

/-- R304: the current path has a request refused and makes it again after the wait of R304. -/
def State.refused (s : State) : State :=
  s.modCur fun g => g.modPath fun p => { p with tries := p.tries + 1, again := s.clk + backoff (p.tries + 1) }

/-- R322: the current path waits for a held view read. -/
def State.awaitRead (s : State) (refused : Bool) : State := (if refused then s.refused else s).await .viewRead

/-- The key under which reads of a view's block are held: the die whose table has the view, its entry and the block. -/
def viewKey (d n b : Nat) : Nat := 2 ^ 63 + (d * 4096 + n) * 2 ^ 40 + b

/-- The requests that the slices of all dies hold under a key. -/
def State.heldUnder (s : State) (key : Nat) : List Defer := s.dies.flatMap fun (_, x) => x.defer.filter fun e => e.key == key

/-- R322: the paths and commands that await a block receive its bytes as they stand, or the fault kind `kind`. A lane that reads only
unchecked bytes of a row has no entry at the slice and receives its bytes (R387). -/
def State.answerReads (s : State) (key kind : Nat) : State :=
  let es := s.heldUnder key
  let ans (c slot : Nat) (r : ViewRead) : ViewRead :=
    if r.key = key ∧ r.reply.isNone then
      let mine := es.any fun e => e.core == c && e.slot == slot && (e.lane == r.lane || slot == 64)
      { r with reply := some (if mine then kind else 0, r.pas.map fun a => byteAt s.mem a) }
    else r
  { s with cores := s.cores.map fun (c, k) => (c, { k with
      slots := k.slots.map fun (i, g) => (i, { g with paths := g.paths.map fun p => { p with reads := p.reads.map (ans c i) } })
      async := k.async.map fun a => { a with reads := a.reads.map (ans c 64) } }) }

/-- R322: the reads held for a block whose outcome is now decided are served, with fault kind `kind` or 0, and leave their slices. -/
def State.serveReads (s : State) (key kind : Nat) : State :=
  [0, 1, 2, 3, 4, 5].foldl (fun s d =>
    let es := (s.die d).defer.filter fun e => e.key == key
    if es.isEmpty then s
    else
      let s := es.foldl (fun s e => s.sliceCount d e.slice 2 1) s
      let s := s.modDie d fun x => { x with defer := x.defer.filter fun e => e.key != key }
      { s with agenda := s.agenda ++ (es.filter fun e => decide (e.slot < 64)).map fun e => .issue e.core e.slot }) (s.answerReads key kind)

/-- The view reads that are held for a lane of a slot, or, under slot 64, for the command of a tag (R322). -/
def State.heldViews (s : State) (c slot lane : Nat) : List ViewRead :=
  if slot < 64 then (s.grp c slot).paths.flatMap fun p => p.reads.filter fun r => r.lane == lane
  else ((s.core c).async.filter fun a => a.tag == lane).flatMap (·.reads)

/-- The answer that held reads have for a byte. -/
def replyAt (rs : List ViewRead) (pa : Nat) : Option (Nat × Byte) :=
  rs.findSome? fun r => r.reply.bind fun (k, bs) => ((r.pas.zip bs).find? fun e => e.1 == pa).map fun e => (k, e.2)

/-- Whether held reads have an answer for all bytes of a list. -/
def answered (rs : List ViewRead) (pas : List Nat) : Bool := pas.all fun a => (replyAt rs a).isSome

/-- The bytes of an access of n bytes at offset `off` of shard i, at `pa`, that lie in block b. -/
def View.bytesIn (v : View) (i off pa n b : Nat) : List Nat := ((List.range n).filter fun j => v.blockAt i (off + j) == some b).map (pa + ·)

/-- The blocks of an access whose bytes no held read has answered. -/
def View.openBlocks (v : View) (rs : List ViewRead) (i off pa n : Nat) : List Nat :=
  (v.blocksOf i off n).filter fun b => !answered rs (v.bytesIn i off pa n b)

/-- The bytes of a lane, or of a command, await a block. -/
def State.keepRead (s : State) (c slot lane key : Nat) (pas : List Nat) : State :=
  let kept := (s.heldViews c slot lane).any fun r => r.key == key && r.pas == pas && r.reply.isNone
  if kept then s
  else
    let path (p : Path) : Path := if p.mask.getLsbD lane then { p with reads := p.reads ++ [⟨lane, key, pas, none⟩] } else p
    let cmd (a : AsyncCmd) : AsyncCmd := if a.tag = lane then { a with reads := a.reads ++ [⟨0, key, pas, none⟩] } else a
    if slot < 64 then s.modGrp c slot fun g => { g with paths := g.paths.map path }
    else s.modCore c fun k => { k with async := k.async.map cmd }

/-- One held read of the bytes `pas` of a block at its slice on die `h` (R322): counted in WAITS where it takes an entry, refused where there is
none. The answer says whether it was refused. -/
def State.holdRead (s : State) (d n h pa slice core slot lane b : Nat) (pas : List Nat) : Bool × State :=
  let s := s.hasten d n b
  let key := viewKey d n b
  let mine (e : Defer) : Bool := e.key == key && e.core == core && e.slot == slot && e.lane == lane
  if (s.die h).defer.any mine then (false, s.keepRead core slot lane key pas)
  else if 64 ≤ s.sliceDefers h slice then (true, s.sliceCount h slice 1 1)
  else (false, ((s.modView d n fun v => { v with waits := v.waits + 1 }).addDefer h
    ⟨slice, key, 5, core, slot, lane, .x 0, word pa, false⟩ true).keepRead core slot lane key pas)

/-- The held reads of several blocks, each with its bytes. -/
def State.holdReads (s : State) (d n h pa slice core slot lane : Nat) (bs : List (Nat × List Nat)) : Bool × State :=
  bs.foldl (fun (r, s) b =>
    let (q, s) := s.holdRead d n h pa slice core slot lane b.1 b.2
    (r || q, s)) (false, s)

/-- A read that has been performed holds no entry for its blocks any more. -/
def State.dropReads (s : State) (d n core slot lane : Nat) (bs : List Nat) : State :=
  { s with dies := s.dies.map fun (i, x) => (i, { x with defer := x.defer.filter fun e =>
      !(e.op == 5 && e.core == core && e.slot == slot && e.lane == lane && bs.any fun b => e.key == viewKey d n b) }) }

/-- The bytes of a read at the home, those that a held read has been answered as they stood then, or their poison. -/
def State.homeRead (s : State) (rs : List ViewRead) (pa n : Nat) : ReadRes :=
  if s.poisoned pa n then .poison 1
  else .data (readLE (fun a => match replyAt rs a with | some x => x.2 | none => byteAt s.mem a) pa n)

/-- R321: a read of a shard, performed at its home on behalf of a lane of a slot. -/
def State.readShard (s : State) (c : Nat) (asid va : Word) (x : Xl) (n slot lane : Nat) : ReadRes × State :=
  let s := s.drainEgress (dieOfCore c) (homeOf s x.pa)
  match s.shardView asid x.obj with
  | none => (s.homeRead [] x.pa n, s)
  | some (d, m, v, i) =>
    let off := fld va 0 40
    let rs := s.heldViews c slot lane
    let bs := v.blocksOf i off n
    match (List.range n).findSome? fun j => (replyAt rs (x.pa + j)).bind fun y => if y.1 = 0 then none else some y.1 with
    | some k => (.fault k v.handle, s.dropReads d m c slot lane bs)
    | none =>
      match s.checkBlocks d m v (v.openBlocks rs i off x.pa n) with
      | (.held hs, s) =>
        let (r, s) := s.holdReads d m (homeOf s x.pa) x.pa (homeSlice x.pa (x.rowl == 1)) c slot lane
          (hs.map fun b => (b, v.bytesIn i off x.pa n b))
        (.held r, s)
      | (.fault k, s) => (.fault k v.handle, s.dropReads d m c slot lane bs)
      | (.ok, s) => (s.homeRead rs x.pa n, s.dropReads d m c slot lane bs)

/-- A read of n bytes of one line after its translation, on behalf of a lane of a slot. -/
def State.readXl (s : State) (c : Nat) (asid va : Word) (x : Xl) (n slot lane : Nat) : ReadRes × State :=
  match region x.pa with
  | .config d => (.data (s.configLoad d (x.pa % 2 ^ 16) n), s)
  | .submit _ => (.data 0, s.discardSubmit x.pa)
  | .nowhere => (.fault 5 0, s)
  | _ =>
    if x.vsh then s.readShard c asid va x n slot lane
    else if (s.core c).badLine x.pa n then (.poison 3, s)
    else if s.poisoned x.pa n then (.poison 1, s)
    else
      let (v, s) := s.readSnap c x.pa n (x.lineId asid va)
      (.data v, s)

/-- A `.glb` read of n bytes of one line by a lane of core c. -/
def State.readVa (s : State) (c : Nat) (asid va : Word) (n : Nat) (priv : Bool) (slot lane : Nat) : ReadRes × State :=
  let (k, x, s) := s.translate c (asidOf asid) (incOf asid) va .read priv
  if k != 0 then (.fault k 0, s) else s.readXl c asid va x n slot lane

/-- A read that may cross a line, as a constant-bank read at a bank that is not aligned can. -/
def State.readSpan (s : State) (c : Nat) (asid va : Word) (n : Nat) (priv : Bool) (slot lane : Nat) : ReadRes × State :=
  let m := 128 - va.toNat % 128
  if n ≤ m then s.readVa c asid va n priv slot lane
  else match s.readVa c asid va m priv slot lane with
  | (.data lo, s) =>
    match s.readVa c asid (va + word m) (n - m) priv slot lane with
    | (.data hi, s) => (.data (lo + hi * 2 ^ (8 * m)), s)
    | r => r
  | r => r

end Sys2Proof.Machine
end

