-- ==== Sys2Proof/Machine/Operands.lean ====
section
/-! DEFINITION. Operands: widening (R65, R423), constant-bank words (R189), queue registers (R85, R158, R183, R184, R261),
sources and destinations (R63, R64, R82, R83), and the gate that every instruction word passes (R70, R84, R131). -/

namespace Sys2Proof

open Machine

/-- The pattern of a small integer in a format of R33; it is exact (R65). -/
def fpLiteral (t : FpT) (v : BitVec 8) : Nat := ((Fp.fmtOf t).convert 0 false (Fp.ofInt v.toInt)).1

/-- n copies of a w-bit element. -/
def replicate (w : Nat) (e : Nat) : Nat → Nat
  | 0 => 0
  | n + 1 => e + 2 ^ w * replicate w e n

/-- R65: an inline literal. -/
def OpTy.lit (t : OpTy) (v : BitVec 8) : Word :=
  match t with
  | .int _ => v.signExtend 64
  | .fp f => word (fpLiteral f v)
  | .pack bf => word (replicate 16 (fpLiteral (if bf then .bf16 else .f16) v) 2)
  | .elem8 => word (replicate 8 v.toNat 8)
  | .elem4 => word (replicate 4 (v.toNat % 16) 8)

/-- R65: an extension word. -/
def OpTy.extWord (t : OpTy) (w : Word) : Word :=
  match t with
  | .pack _ => ofMask (low32 w)
  | .elem8 => ofMask (low32 w)
  | .elem4 => ofMask (low32 w)
  | _ => w

/-- The type that a role widens to. -/
def Role.ty : Role → OpTy
  | .val t => t
  | _ => .int .d

/-- R65: the bytes of a constant-bank operand. -/
def OpTy.constBytes (t : OpTy) : Nat := if t.wide then 8 else 4

/-- The queue registers that an instruction pops. -/
def Operands.pops (o : Operands) : List Nat := [o.a, o.b, o.c].filterMap fun a => a.queue.map (·.toNat)

/-- The queue register that an instruction pushes. -/
def Operands.pushes (o : Operands) : Option Nat := match o.d with | .q n => some n.toNat | _ => none

/-- Whether the instruction names a queue register, so that a fault keeps it whole (R424). -/
def Operands.queues (o : Operands) : Bool := !o.pops.isEmpty || o.pushes.isSome

/-- Base word of an instruction: the value of causes 0x08 and 0x10. -/
def Instr.word (i : Instr) : Word := (encode i).headD 0

/-- The three source operands with their types. -/
def Instr.sources (i : Instr) : (OpTy × Src) × (OpTy × Src) × (OpTy × Src) :=
  let f := i.form.getD (.bare false)
  let o := i.operands
  ((f.a.ty, o.a), (f.b.ty, o.b), (f.c.ty, o.c))

/-- Whether a register read of an instruction names x register n; `f` gives the lists. -/
def Role.xRegs : Role → Src → List Nat
  | .regs n _, .x i => (List.range n).map fun j => i.toNat + j
  | _, .x i => if i = 0 then [] else [i.toNat]
  | _, _ => []

/-- Marked P in R69, or a `/P` control register (R128, R129). -/
def Instr.privileged : Instr → Bool
  | .setseg _ => true
  | .tgen _ => true
  | .wfi _ => true
  | .inspect _ => true
  | .crr _ n => decide (0x30 ≤ n.toNat)
  | .crw _ n => decide (0x30 ≤ n.toNat)
  | .crs _ n => decide (0x30 ≤ n.toNat)
  | .crc _ n => decide (0x30 ≤ n.toNat)
  | _ => false

/-- A join-mask control register, which is S (R129). -/
def jmaskCrn (n : BitVec 8) : Bool := decide (0x20 ≤ n.toNat) && decide (n.toNat ≤ 0x27)

/-- A space that only a SIMT core reaches (R69, R190). -/
def Space.simtOnly : Space → Bool
  | .pvt => true | .loc => true | .clu => true | .acc => true
  | _ => false

/-- SP of R69 that only a SIMT core reaches. -/
def AtomSpace.simtOnly : AtomSpace → Bool
  | .loc => true | .clu => true
  | _ => false

/-- Marked S for the form used (R69, R129, R190). -/
def Instr.simtOnly : Instr → Bool
  | .voteAny _ | .voteAll _ | .voteUni _ | .voteBallot _ | .jmaskMov _ | .jmaskAnd _ | .jmaskOr _ | .jmaskAndn _ => true
  | .shflIdx _ _ | .shflUp _ _ | .shflDown _ _ | .shflXor _ _ | .bcast _ => true
  | .reduxAdd _ _ | .reduxMin _ _ | .reduxMax _ _ | .reduxAnd _ _ | .reduxOr _ _ | .reduxXor _ _ | .reduxFadd _ _
  | .reduxFmin _ _ | .reduxFmax _ _ => true
  | .meet _ | .join _ _ | .waitj _ _ => true
  | .crr _ n | .crw _ n | .crs _ n | .crc _ n => jmaskCrn n
  | .ld _ m | .st _ m | .ldf _ m | .ldfe _ m | .stef _ m | .stf _ m | .setfe _ m => m.space.simtOnly
  | .amoAdd _ m | .amoOr _ m | .amoAnd _ m | .amoXor _ m | .amoSmin _ m | .amoSmax _ m | .amoUmin _ m | .amoUmax _ m
  | .amoXchg _ m | .amoFadd _ m | .amoFAdd _ m | .amoFOr _ m | .amoFAnd _ m | .amoFXor _ m | .amoFSmin _ m | .amoFSmax _ m
  | .amoFUmin _ m | .amoFUmax _ m | .amoFXchg _ m | .amoFFadd _ m | .cas _ m => m.sp.simtOnly
  | .vamoRow _ _ | .cpy _ _ | .tld _ _ | .tst _ _ | .abarInit _ _ | .abarArrive _ _ | .abarWait _ _ | .ringRsv _ _
  | .ringPub _ _ | .ringGet _ _ | .ringPut _ _ | .qbind _ | .qstat _ | .barSync _ _ | .barArrive _ _ | .barSyncClu _ _
  | .barArriveClu _ _ => true
  | .mxgo _ | .mxstat _ | .mxstop _ | .stgDecl _ | .stgAdmit _ | .stgAdmitKeep _ | .stgAdmitClose _ | .stgNext _ | .stgDone _
  | .stgTail _ | .stgStat _ | .launch _ | .spawn _ | .jwait _ => true
  | _ => false

end Sys2Proof

namespace Sys2Proof.Machine

/-- R189, R129: a constant-bank operand, read once for the path at the bank of the lowest active lane. -/
def State.constant (s : State) (t : OpTy) (a : Src) : ReadRes × State :=
  match a with
  | .c n => s.readSpan s.cid s.cur.asid ((s.cur.lane s.low).cbank + word (4 * n.toNat)) t.constBytes s.cur.priv s.sid s.low
  | _ => (.data 0, s)

/-- The address of a constant-bank operand. -/
def State.constAddr (s : State) (a : Src) : Word :=
  match a with
  | .c n => (s.cur.lane s.low).cbank + word (4 * n.toNat)
  | _ => 0

/-- Entries in a channel, overflow pages included. -/
def Channel.count (h : Channel) : Nat := h.hw.length + h.ov.length

/-- R158, R159: the entries that a channel can accept at once. -/
def Channel.free (h : Channel) : Nat :=
  if h.pages.isEmpty then 8 - h.hw.length else h.pages.length * 4096 - h.used - h.ov.length

/-- R159: the hardware entries are refilled from the head of the overflow pages; the pages that their entries have emptied come back. -/
def Channel.refill (h : Channel) : Channel × List Word :=
  let n := min (8 - h.hw.length) h.ov.length
  let ov := h.ov.drop n
  let used := h.used + n
  let gone := if ov.isEmpty then (used + 4095) / 4096 else used / 4096
  ({ h with
      hw := h.hw ++ h.ov.take n, ov := ov, used := if ov.isEmpty then 0 else used % 4096, pages := h.pages.drop gone },
    h.pages.take gone)

/-- R158: pushes in order. -/
def Channel.push (h : Channel) (ws : List Word) : Channel × List Word :=
  (if h.pages.isEmpty then { h with hw := h.hw ++ ws } else { h with ov := h.ov ++ ws }).refill

/-- R158: pops of n entries. -/
def Channel.pop (h : Channel) (n : Nat) : Channel × List Word :=
  let m := n - h.hw.length
  { h with
    hw := h.hw.drop n, ov := h.ov.drop m, used := h.used + min m h.ov.length,
    bad := (h.bad.filter fun i => decide (n ≤ i)).map (· - n) }.refill

/-- KIND of a binding word (R183). -/
def bindKind (w : Word) : Nat := fld w 62 2
/-- Whether a binding lets the group pop. -/
def bindPops (w : Word) : Bool := bindKind w != 0 && w.getLsbD 60
/-- Whether a binding lets the group push. -/
def bindPushes (w : Word) : Bool := bindKind w != 0 && w.getLsbD 61

/-- The cassette and port that a binding word of KIND 10 names (R261). -/
def State.portOf (s : State) (w : Word) : CasRef × Nat := (s.routerOf s.cid s.cur.team (fld w 4 2), fld w 0 4)

/-- The idx-th entry that a pop of a queue register would take; the null handle from a drained cassette (R262). -/
def State.peek (s : State) (n idx : Nat) : Word :=
  let w := s.cur.q n
  if bindKind w = 1 then
    let h := s.k.chan (fld w 0 16)
    (at? (h.hw ++ h.ov) idx).getD 0
  else
    let (c, p) := s.portOf w
    let q := s.cas c
    match at? (q.port p) idx with
    | some i => handle c.k i (q.entry i).seq
    | none => 0

/-- Whether n pops of a queue register can be made (R85, R262). -/
def State.canPop (s : State) (q n : Nat) : Bool :=
  let w := s.cur.q q
  if bindKind w = 1 then decide (n ≤ (s.k.chan (fld w 0 16)).count)
  else
    let (c, p) := s.portOf w
    (s.cas c).drained || decide (n ≤ ((s.cas c).port p).length)

/-- Whether n pushes to a queue register can be made once `freed` entries have left the same channel (R64, R158; log entry
20). -/
def State.canPush (s : State) (q n freed : Nat) : Bool := decide (n ≤ ((s.k.chan (fld (s.cur.q q) 0 16)).pop freed).1.free)

/-- Whether two queue registers are bound to one channel or port. -/
def State.sameFifo (s : State) (p q : Nat) : Bool :=
  bindKind (s.cur.q p) == bindKind (s.cur.q q) && fld (s.cur.q p) 0 16 == fld (s.cur.q q) 0 16

/-- How many of a list of queue registers share the channel or port of one. -/
def State.sharers (s : State) (qs : List Nat) (q : Nat) : Nat := (qs.filter (s.sameFifo q)).length

/-- R85: the entries of a queue source's channel or port that the sources before it take (log entry 132). -/
def State.queueSkip (s : State) (before : List Src) (ls : List Nat) (a : Src) : Nat :=
  match a with
  | .q n => ls.length * s.sharers (before.filterMap fun b => b.queue.map (·.toNat)) n.toNat
  | _ => 0

/-- R356: whether n pops of a queue register's channel would take a poisoned entry. -/
def State.popsBad (s : State) (q n : Nat) : Bool :=
  bindKind (s.cur.q q) == 1 && (s.k.chan (fld (s.cur.q q) 0 16)).bad.any fun i => decide (i < n)

/-- The slot on whose behalf the group that issues holds records (R259). -/
def State.ownSlot (s : State) : Nat := match s.cur.held with | some h => h.orig | none => s.sid

/-- R278: the group holds a record of a STRICT cassette of its cluster in state 2 or 6. -/
def State.strictHeld (s : State) : Bool :=
  !isLatency s.cid && (s.die s.did).routers.any fun (_, v) => v.cas.any fun (_, q) =>
    q.decl && q.strict && q.owner == s.team.ckey &&
      q.entries.any fun (_, e) => (e.st == 2 || e.st == 6) && e.core == s.cid && e.slot == s.ownSlot

/-- R85, R261: n pops of a queue register, whose values are discarded. A record received from a port discards the snapshot
(R274) and makes the interval unrecoverable (R280). -/
def State.popQueue (s : State) (q n : Nat) : State :=
  let w := s.cur.q q
  if bindKind w = 1 then
    let (h, ps) := (s.k.chan (fld w 0 16)).pop n
    (s.modCore s.cid fun k => k.setChan (fld w 0 16) h).freePages s.did s.cur.asid ps
  else
    let (c, p) := s.portOf w
    let got := !((s.cas c).port p).isEmpty
    let s := s.unrec
    let s := (List.range n).foldl (fun s _ => (s.deliver c p s.cid s.ownSlot).2) s
    if got then s.discard .clu s.cid else s

/-- R85: pushes of values in order. -/
def State.pushQueue (s : State) (q : Nat) (ws : List Word) : State :=
  let n := fld (s.cur.q q) 0 16
  let (h, ps) := (s.k.chan n).push ws
  (s.modCore s.cid fun k => k.setChan n h).freePages s.did s.cur.asid ps

/-- The position of a lane among the acting lanes. -/
def posOf (ls : List Nat) (l : Nat) : Nat := (ls.takeWhile (· != l)).length

/-- The value of a source operand in a lane (R64, R65). `k` is the operand's constant-bank value, or what `queueSkip` gives for a queue
register. -/
def State.src (s : State) (t : OpTy) (k : Word) (ls : List Nat) (l : Nat) : Src → Word
  | .x n => s.cur.x l n.toNat
  | .q n => s.peek n.toNat (posOf ls l + k.toNat)
  | .p n => if s.cur.p l n.toNat then 1 else 0
  | .s n => s.cur.s n.toNat
  | .c _ => k
  | .lit v => t.lit v
  | .ext w => t.extWord w

/-- R85: every pop of the instruction. -/
def State.popSources (s : State) (ls : List Nat) (o : Operands) : State :=
  o.pops.foldl (fun s q => s.popQueue q ls.length) s

/-- The write of the result in every acting lane (R63, R83, R30, R85). -/
def State.writeDst (s : State) (d : Dst) (ls : List Nat) (v : Nat → Word) : State :=
  match d with
  | .x n => s.modCur fun g => ls.foldl (fun g l => g.setX l n.toNat (v l)) g
  | .p n => s.modCur fun g => ls.foldl (fun g l => g.setP l n.toNat ((v l).getLsbD 0)) g
  | .s n => match ls.getLast? with
    | some l => s.modCur fun g => g.setS n.toNat (v l)
    | none => s
  | .j n => match ls.getLast? with
    | some l => s.modCur fun g => g.setJ n.toNat (low32 (v l))
    | none => s
  | .q n => s.pushQueue n.toNat (ls.map v)

/-- The write of a latched value to an s register when an instruction that its lanes perform one by one completes (R30, R192). -/
def State.writeLatch (s : State) (d : Dst) : State :=
  s.modCur fun g => match d, g.path.latch with
    | .s n, some v => g.setS n.toNat v
    | _, _ => g

/-- The pops, then the write of the result, then the next instruction (R83, R85). -/
def State.finish (s : State) (i : Instr) (ls : List Nat) (v : Nat → Word) : State :=
  ((s.popSources ls i.operands).writeDst i.operands.d ls v).advance i.len

/-- R184: the first queue register that the instruction may not use. -/
def State.badQueue (s : State) (o : Operands) : Option Nat :=
  match o.pops.find? fun q => !bindPops (s.cur.q q) with
  | some q => some q
  | none => match o.pushes with
    | some q => if bindPushes (s.cur.q q) then none else some q
    | none => none

/-- R85: the first queue register that cannot serve the instruction yet. -/
def State.slowQueue (s : State) (ls : List Nat) (o : Operands) : Option Nat :=
  match o.pops.find? fun q => !s.canPop q (ls.length * s.sharers o.pops q) with
  | some q => some q
  | none => match o.pushes with
    | some q => if s.canPush q ls.length (ls.length * s.sharers o.pops q) then none else some q
    | none => none

/-- R356: whether the pops of the instruction would take a poisoned entry. -/
def State.poppedBad (s : State) (ls : List Nat) (o : Operands) : Bool :=
  o.pops.any fun q => s.popsBad q (ls.length * s.sharers o.pops q)

/-- Whether an acting lane reads a poisoned register (R356); a granule holds two x registers of a lane. -/
def State.readsPoison (s : State) (i : Instr) (ls : List Nat) : Bool :=
  if s.cur.regPoison.isEmpty then false
  else
    let f := i.form.getD (.bare false)
    let o := i.operands
    (f.a.xRegs o.a ++ f.b.xRegs o.b ++ f.c.xRegs o.c).any fun n => ls.any fun l => s.cur.regPoison.contains (32 * l + n / 2)

/-- The key of the first poisoned register that an acting lane reads (R357). -/
def State.poisonKey (s : State) (i : Instr) (ls : List Nat) : Nat :=
  let f := i.form.getD (.bare false)
  let o := i.operands
  let ns := f.a.xRegs o.a ++ f.b.xRegs o.b ++ f.c.xRegs o.c
  2 ^ 70 + 1024 * s.sid + ((ns.findSome? fun n => (ls.find? fun l => s.cur.regPoison.contains (32 * l + n / 2)).map fun l => 32 * l + n / 2).getD 0)

/-- The key of the channel from which the pops of the instruction would take a poisoned entry (R357). -/
def State.poppedKey (s : State) (ls : List Nat) (o : Operands) : Nat :=
  2 ^ 71 + ((o.pops.find? fun q => s.popsBad q (ls.length * s.sharers o.pops q)).map fun q => fld (s.cur.q q) 0 16).getD 0

/-- R70, R84, R131: where no lane acts the instruction has no effect; privilege comes before wrong core. -/
def State.gate (s : State) (i : Instr) (body : List Nat → State → State) : State :=
  match s.acting i.operands.g with
  | [] => s.advance i.len
  | l :: ls =>
    if i.privileged && !s.cur.priv then s.takeTrap 0x08 i.word 0
    else if i.simtOnly && isLatency s.cid then s.takeTrap 0x10 i.word 0
    else if s.readsPoison i (l :: ls) then s.poisonAt (s.poisonKey i (l :: ls)) 0 4
    else body (l :: ls) s

/-- The gate of an instruction that a STRICT cassette forbids (R278). -/
def State.gateStrict (s : State) (i : Instr) (body : List Nat → State → State) : State :=
  s.gate i fun ls s => if s.strictHeld then s.segFault 0xFFFFFFFFFFFFFFFD (maskOf ls) else body ls s

/-- The constant-bank operands (R189), then the queue registers (R184, R85, R356); the body receives what `State.src` needs of each
source. A constant that faults keeps the instruction whole (R425). -/
def State.withOperands (s : State) (i : Instr) (ls : List Nat) (body : Word → Word → Word → State → State) : State :=
  let ((ta, a), (tb, b), (tc, c)) := i.sources
  let l := ls.headD 0
  let bad (r : ReadRes) (x : Src) (s : State) : State :=
    match r with
    | .poison o => s.poisonTrap (s.constAddr x) o
    | .held r => s.awaitRead r
    | .fault k h => s.keepWhole 0 h [(l, s.constAddr x, k)]
    | .data _ => s
  match s.constant ta a with
  | (.data ka, s) =>
    match s.constant tb b with
    | (.data kb, s) =>
      match s.constant tc c with
      | (.data kc, s) =>
        match s.badQueue i.operands with
        | some q => s.segFault (word (0xFFFFFFFFFFFFFF00 + q)) (maskOf ls)
        | none =>
          match s.slowQueue ls i.operands with
          | some q => s.await (.queue q)
          | none =>
            if s.poppedBad ls i.operands then s.poisonAt (s.poppedKey ls i.operands) 0 4
            else body (word ka) (word (kb + s.queueSkip [a] ls b)) (word (kc + s.queueSkip [a, b] ls c)) s
      | (r, s) => bad r c s
    | (r, s) => bad r b s
  | (r, s) => bad r a s

/-- An instruction that computes one value in each acting lane from its source values. -/
def State.mapLanes (s : State) (i : Instr) (f : Word → Word → Word → Word) : State :=
  s.gate i fun ls s => s.withOperands i ls fun ka kb kc s =>
    let ((ta, a), (tb, b), (tc, c)) := i.sources
    s.finish i ls fun l => f (s.src ta ka ls l a) (s.src tb kb ls l b) (s.src tc kc ls l c)

end Sys2Proof.Machine
end

