-- ==== Sys2Proof/Machine/Flags.lean ====
section
/-! DEFINITION. The flags of `cr.fcsr` (R38-R40): the rounding mode of a lane, the exceptions that trap and those that are
ORed into the lane's flags. -/

namespace Sys2Proof.Machine

/-- R39: the rounding mode of an instruction in a lane; 7 is the lane's own. -/
def rmOf (rm : BitVec 3) (fcsr : Word) : Nat := if rm = 7 then fld fcsr 13 3 else rm.toNat

/-- The exceptions of a lane whose TE bit is set there (R38, R40). -/
def trapped (fcsr : Word) (e : Fp.Exc) : Fp.Exc := e &&& fcsr.extractLsb' 8 5

/-- R40: the exceptions are ORed into the lane's flags. -/
def orFlags (fcsr : Word) (e : Fp.Exc) : Word := fcsr ||| e.setWidth 64

/-- R40: the union of the trapped exceptions over the acting lanes. -/
def State.trappedUnion (s : State) (ls : List Nat) (e : Nat → Fp.Exc) : Fp.Exc :=
  ls.foldl (fun u l => u ||| trapped (s.cur.lane l).fcsr (e l)) 0

/-- The lanes in which an exception traps. -/
def State.trappedLanes (s : State) (ls : List Nat) (e : Nat → Fp.Exc) : List Nat :=
  ls.filter fun l => trapped (s.cur.lane l).fcsr (e l) != 0

/-- The flags of every acting lane. -/
def State.addFlags (s : State) (ls : List Nat) (e : Nat → Fp.Exc) : State :=
  s.modCur fun g => g.modLanes ls fun l r => { r with fcsr := orFlags r.fcsr (e l) }

/-- R40: an arithmetic result. If any lane's exception traps, nothing is written and the group takes cause 0x06; otherwise flags
and results are written. -/
def State.finishArith (s : State) (i : Instr) (ls : List Nat) (r : Nat → Word × Fp.Exc) : State :=
  let e := fun l => (r l).2
  let u := s.trappedUnion ls e
  if u ≠ 0 then s.takeTrap 0x06 (u.setWidth 64) (maskOf (s.trappedLanes ls e))
  else (s.addFlags ls e).finish i ls fun l => (r l).1

/-- A floating-point instruction: each acting lane computes a value and exceptions from its `cr.fcsr` and its sources. -/
def State.mapArith (s : State) (i : Instr) (f : Word → Word → Word → Word → Word × Fp.Exc) : State :=
  s.gate i fun ls s => s.withOperands i ls fun ka kb kc s =>
    let ((ta, a), (tb, b), (tc, c)) := i.sources
    s.finishArith i ls fun l =>
      f (s.cur.lane l).fcsr (s.src ta ka ls l a) (s.src tb kb ls l b) (s.src tc kc ls l c)

end Sys2Proof.Machine
end

