-- ==== Sys2Proof/Machine/Paths.lean ====
section
/-! DEFINITION. Paths of a group (R115-R117): splitting, switching and merging; the rendezvous at a meeting address and at `join`
(R120, R121), the rejoining of held lanes (R352). -/

namespace Sys2Proof.Machine

/-- The slot of the original group of a slot (R117). -/
def State.origSlot (s : State) (c slot : Nat) : Nat := match (s.grp c slot).held with | some h => h.orig | none => slot

/-- The held slots whose group belongs to an original group. -/
def State.heldSlots (s : State) (c orig : Nat) : List Nat :=
  [32, 33, 34, 35, 36, 37, 38, 39].filter fun h =>
    (s.grp c h).occ && (match (s.grp c h).held with | some x => x.orig == orig | none => false)

/-- Where a lane of a group lives: a held slot, or the original one. -/
def State.laneSlot (s : State) (c orig l : Nat) : Nat :=
  ((s.heldSlots c orig).find? fun h => (s.grp c h).live.getLsbD l).getD orig

/-- The state of a lane wherever it lives. -/
def State.laneOf (s : State) (c orig l : Nat) : Lane := (s.grp c (s.laneSlot c orig l)).lane l

/-- The lanes held for a fault that has not been completed (R122; log entry 21). -/
def State.heldLanes (s : State) (c orig : Nat) : Mask :=
  (s.heldSlots c orig).foldl (fun m h => match (s.grp c h).held with
    | some x => if x.running then m else m ||| (s.grp c h).live
    | none => m) 0

/-- Whether all lanes of a path hold one meeting-register value. -/
def Group.meetAll (g : Group) (p : Path) (v : Word) : Bool := (lanesOf p.mask).all fun l => (g.lane l).meet == v

/-- Whether a wait is tested by executing the instruction again. -/
def Wait.retries : Wait → Bool
  | .fault n => n == 0
  | .barrier _ _ _ _ => false
  | .split _ _ _ _ => false
  | .splitOthers => false
  | _ => true

/-- Whether a path's next instruction is the one at its pc: it is about to execute it, or executes it again until its wait ends (R116). -/
def Path.joins (p : Path) : Bool := p.wait.retries && p.atSafept.isNone && p.trap.isNone

/-- Whether two paths at one pc can be one: what a `view.sync` has captured belongs to its path alone (R331; log entry 150). -/
def Path.joinable (p q : Path) : Bool :=
  let captured (w : Wait) : Bool := match w with | .viewSync _ => true | _ => false
  p.joins && q.joins && p.frozen == q.frozen && p.pc == q.pc && (p.wait == q.wait || (!captured p.wait && !captured q.wait))

/-- The path of the lanes of two (R116): what either has performed stays performed, and the instruction is executed for the others. -/
def Path.merge (q p : Path) : Path :=
  { q with
    mask := q.mask ||| p.mask, wait := if p.wait = .ready then .ready else q.wait, since := min q.since p.since, done := q.done ||| p.done,
    got := q.got ||| p.got, again := max q.again p.again, reads := q.reads ++ p.reads, lastFault := q.lastFault ++ p.lastFault }

/-- R116: whether two paths merge: equal next pcs and equal meeting-register values in every lane. -/
def Group.mergeable (g : Group) (p q : Path) : Bool :=
  p.joinable q && (let v := (g.lane (lowest p.mask)).meet; g.meetAll p v && g.meetAll q v)

/-- R116: equal paths are merged into the first of them. -/
def Group.mergePaths (g : Group) : Group :=
  { g with paths := g.paths.foldl (fun ps p =>
      match ps.find? fun q => g.mergeable q p with
      | some q => ps.map fun r => if r = q then q.merge p else r
      | none => ps ++ [p]) [] }

/-- Whether a path can be tried at an issue turn at a clk: it is ready, or its wait is tested by executing its instruction again and the
time of a refused request has come (R304); or a deadlock trap is to be taken in it (R381). -/
def Path.tryable (p : Path) (clk : Nat) : Bool :=
  !p.frozen && p.atSafept.isNone && (p.trap.isSome || (p.wait.retries && decide (p.again ≤ clk)))

/-- R118, R116: the lanes of the current path go to their next pcs. `len` is the instruction's length; lanes that are not
listed continue after it. -/
def State.branch (s : State) (len : Nat) (targets : List (Nat × Word)) : State :=
  let g := s.cur
  let p := g.path
  let next := p.pc + word len
  let away := targets.filter fun t => t.2 != next
  let stay := p.mask &&& ~~~maskOf (away.map (·.1))
  match pathsByPc away with
  | [] => s.goto next
  | [q] => if stay = 0 then s.goto q.pc
    else s.setCur { g with paths := { Path.start next stay with frozen := p.frozen } :: (g.paths.drop 1 ++ [q]) }
  | qs => s.setCur { g with paths :=
      (if stay = 0 then [] else [Path.start next stay]) ++ g.paths.drop 1 ++ qs }

/-- Moves lanes of held groups back into the original group (R120, R121, R352); a held group so emptied ends. The original
group keeps its s registers (R413) and its `cr.asid` (log entry 153). -/
def State.unsplit (s : State) (c orig : Nat) (m : Mask) : State :=
  (s.heldSlots c orig).foldl (fun s h =>
    let g := s.grp c h
    let back := g.live &&& m
    if back = 0 then s
    else
      let s := (lanesOf back).foldl (fun s l => s.modGrp c orig fun o => o.setLane l (g.lane l)) s
      if g.live &&& ~~~back = 0 then s.setGrp c h Group.empty
      else s.setGrp c h { g with live := g.live &&& ~~~back, paths := dropLanes g.paths back }) s

/-- The lanes that have arrived at a rendezvous: those of the paths that `at_` accepts, in the original group and in the held groups that
stand in a user handler as it does (R135). -/
def State.arrivedAt (s : State) (c orig : Nat) (at_ : Path → Bool) : Mask :=
  ((orig :: s.heldSlots c orig).filter fun i => (s.grp c i).ut == (s.grp c orig).ut).foldl
    (fun m i => ((s.grp c i).paths.filter at_).foldl (fun m p => m ||| p.mask) m) 0

/-- Forms one path of the original group from the lanes of a mask, at a pc; the other lanes of their paths go on from where
they stood (R120, R121). -/
def State.gather (s : State) (c orig : Nat) (m : Mask) (pc : Word) (stood : Path → Bool) : State :=
  let s := s.unsplit c orig m
  s.modGrp c orig fun g =>
    let rest := dropLanes (g.paths.map fun p => if stood p && p.mask &&& m != 0 then { p with wait := .ready } else p) m
    { g with paths := Path.start pc m :: rest }

/-- R120: the current path of a group stands at its meeting address. It waits, or the meeting completes. -/
def State.tryMeeting (s : State) (c slot : Nat) : State :=
  let orig := s.origSlot c slot
  let pc := (s.grp c slot).path.pc
  let begins := !(s.grp c slot).path.wait.counts
  let s := s.modGrp c slot fun g => g.modPath fun p => { p with wait := .meeting, since := if p.wait = .meeting then p.since else s.clk }
  let here (p : Path) : Bool := p.wait == .meeting && p.pc == pc && !p.frozen
  let arrived := s.arrivedAt c orig here
  let want := (lanesOf (s.grp c orig).live).filter fun l => (s.laneOf c orig l).meet == pc
  if want.all fun l => arrived.getLsbD l then
    let m := maskOf want
    let s := s.gather c orig m pc here
    s.modGrp c orig fun g => g.modLanes want fun _ r => { r with meet := 0 }
  else if begins then s.modGrp c slot fun g => { g with count := 0 }
  else s

/-- R121: the current path of a group stands at `join jk`. It waits, or the join completes. -/
def State.tryJoin (s : State) (c slot k : Nat) : State :=
  let orig := s.origSlot c slot
  let pc := (s.grp c slot).path.pc
  let begins := !(s.grp c slot).path.wait.counts
  let s := s.modGrp c slot fun g => g.modPath fun p =>
    { p with wait := .join k, since := if p.wait = .join k then p.since else s.clk }
  let here (p : Path) : Bool := p.pc == pc && !p.frozen && (match p.wait with | .join _ => true | _ => false)
  let arrived := s.arrivedAt c orig here
  let o := s.grp c orig
  if o.live &&& o.j k &&& ~~~arrived = 0 then s.gather c orig arrived (pc + 8) here
  else if begins then s.modGrp c slot fun g => { g with count := 0 }
  else s

/-- R352: a held group whose lanes have meeting register 0 merges into a path of its original group with the same next pc and
meeting register 0. -/
def State.rejoin (s : State) (c orig : Nat) : State :=
  (s.heldSlots c orig).foldl (fun s h =>
    let g := s.grp c h
    let o := s.grp c orig
    let p := g.path
    let ok (q : Path) : Bool := q.joinable p && !q.frozen && o.meetAll q 0
    match g.held with
    | some x =>
      if x.running && g.paths.length == 1 && g.meetAll p 0 && o.paths.any ok && g.ut == o.ut then
        (s.unsplit c orig p.mask).modGrp c orig fun o =>
          match o.paths.find? ok with
          | some q => { o with paths := o.paths.map fun r => if r = q then q.merge p else r }
          | none => o
      else s
    | none => s) s

/-- R116, R352: what a switch of a group does besides choosing a path: the held lanes of an original group rejoin, and equal paths merge. -/
def State.meetPaths (s : State) (c slot : Nat) : State :=
  (if (s.grp c slot).held.isSome then s else s.rejoin c slot).modGrp c slot Group.mergePaths

/-- R116, R352: the group of a slot switches from its current path to another one that can be tried, if there is one. -/
def State.switchPath (s : State) (c slot : Nat) : State :=
  if !((s.grp c slot).paths.drop 1).any (·.tryable s.clk) then s
  else
    (s.modGrp c slot fun g =>
      let stuck := (g.paths.drop 1).takeWhile fun p => !p.tryable s.clk
      { g with paths := g.paths.drop (stuck.length + 1) ++ g.paths.take (stuck.length + 1) }).meetPaths c slot

/-- R116: at an issue turn a current path that cannot be tried gives way. -/
def State.switched (s : State) (c slot : Nat) : State :=
  if (s.grp c slot).path.tryable s.clk then s else s.switchPath c slot

/-- R116: `safept` and `yield` give way to another path that is not stopped. -/
def State.giveWay (s : State) : State := s.switchPath s.cid s.sid

end Sys2Proof.Machine
end

