-- ==== Sys2Proof/Machine/Migrate.lean ====
section
/-! DEFINITION. Migration (R143-R145, R392, R393), recall (R28, R427) and what the recording log receives (R407-R409). -/

namespace Sys2Proof.Machine

/-- The capacity of a log ring (R407). -/
def recCap (w : Word) : Nat := 2 ^ fld w 3 5

/-- R408: one record of the recording log; a full ring drops it and sets ERR. -/
def State.logEvent (s : State) (d : Nat) (type : Nat) (w0 : Nat) (w1 w2 : Word) : State :=
  let x := s.die d
  if fld x.recctl 0 2 = 0 then s
  else
    let base := fld x.recctl 12 52 * 2 ^ 12
    let cap := recCap x.recctl
    let i := s.rd base 8
    if cap ≤ (i + 2 ^ 64 - s.rd (base + 8) 8) % 2 ^ 64 then
      (s.poke (base + 16) 8 (s.rd (base + 16) 8 + 1) none).modDie d fun x => { x with recctl := x.recctl ||| 4 }
    else
      let seq := x.recSeq
      let s := s.modDie d fun x => { x with recSeq := x.recSeq + 1 }
      let s := s.pokeWords (base + 64 + 32 * (i % cap)) [word (type * 2 ^ 60 + w0 * 2 ^ 32 + seq % 2 ^ 32), w1, w2, word s.time]
      s.poke base 8 (i + 1) none

/-- R408: a record of TYPE 4, whose three words are data. -/
def State.logData (s : State) (d : Nat) (w1 w2 w3 : Word) : State :=
  let x := s.die d
  if fld x.recctl 0 2 = 0 then s
  else
    let base := fld x.recctl 12 52 * 2 ^ 12
    let cap := recCap x.recctl
    let i := s.rd base 8
    if cap ≤ (i + 2 ^ 64 - s.rd (base + 8) 8) % 2 ^ 64 then
      (s.poke (base + 16) 8 (s.rd (base + 16) 8 + 1) none).modDie d fun x => { x with recctl := x.recctl ||| 4 }
    else
      let seq := x.recSeq
      let s := s.modDie d fun x => { x with recSeq := x.recSeq + 1 }
      let s := s.pokeWords (base + 64 + 32 * (i % cap)) [word (4 * 2 ^ 60 + seq % 2 ^ 32), w1, w2, w3]
      s.poke base 8 (i + 1) none

/-- R409: the earliest TYPE 1 record of a strand that no replayed read has consumed, among the 4,096 that follow RIDX. -/
def State.replayTime (s : State) (d : Nat) (sid : Word) : Option (Nat × Word) :=
  let x := s.die d
  let base := fld x.recctl 12 52 * 2 ^ 12
  let cap := recCap x.recctl
  let lo := s.rd (base + 8) 8
  let hi := s.rd base 8
  let at_ (k : Nat) : Nat := base + 64 + 32 * ((lo + k) % cap)
  ((List.range 4096).find? fun k => decide (lo + k < hi) && fld (s.rd64 (at_ k)) 60 4 == 1 && s.rd64 (at_ k + 8) == sid &&
    !x.consumedLog.contains (lo + k)).map fun k => (lo + k, s.rd64 (at_ k + 16))

/-- R129, R408, R409: a lane's read of `cr.time`. -/
def State.readTime (s : State) (d : Nat) (sid : Word) : Word × State :=
  let live := word s.time
  match fld (s.die d).recctl 0 2 with
  | 0 => (live, s)
  | 1 => (live, s.logEvent d 1 0 sid live)
  | _ =>
    match s.replayTime d sid with
    | some (k, v) => (v, (s.modDie d fun x => { x with consumedLog := k :: x.consumedLog }).logEvent d 1 0 sid v)
    | none => (live, (s.modDie d fun x => { x with recctl := x.recctl ||| 4 }).logEvent d 1 0 sid live)

/-- WIDX - RIDX of a host die's arrival ring (R393). -/
def State.arrivalsWaiting (s : State) (h : Nat) : Nat :=
  let w := (s.die h).aring
  (s.widx w + 2 ^ 64 - s.ridx w) % 2 ^ 64

/-- R393: the host die that a lane without a valid hint goes to. -/
def State.hostFor (s : State) (hint : Option Nat) : Nat :=
  match hint with
  | some h => h
  | none =>
    if (s.die 4).lost then 5 else if (s.die 5).lost then 4
    else if s.arrivalsWaiting 5 < s.arrivalsWaiting 4 then 5 else 4

/-- R393: arrivals that waited for room enter the ring in order. -/
def State.drainArrivals (s : State) (h : Nat) : Nat → State
  | 0 => s
  | n + 1 =>
    match (s.die h).arrWait with
    | [] => s
    | (ssa, sid) :: r =>
      if s.ringRoom (s.die h).aring then
        let s := s.modDie h fun x => { x with arrWait := r }
        ((s.ringPut (s.die h).aring 16 [ssa, sid]).signal h 2).drainArrivals h n
      else s

/-- R393: the arrival record of a strand that has left for a host die; without room it waits. -/
def State.arrive (s : State) (h : Nat) (ssa sid : Word) : State :=
  let s := s.modDie h fun x => { x with arrWait := x.arrWait ++ [(ssa, sid)] }
  s.drainArrivals h (s.die h).arrWait.length

/-- A hint of R143: a legal die, or none. -/
def hintDie (lo hi : Nat) (a : Word) : Option Nat := if lo ≤ a.toNat ∧ a.toNat ≤ hi then some a.toNat else none

/-- The x registers of a lane outside a `safept` mask read 0 (R127). -/
def Lane.maskRegs (r : Lane) (mask : Word) : Lane := { r with xs := r.xs.filter fun (n, _) => mask.getLsbD n }

/-- R145 steps 2-5, R28: a lane of the group that issues leaves for a latency core with the pc given. `regs` is the mask of a
`safept`. The lane must have a save area, and the core's publication be complete. -/
def State.migrateLane (s : State) (l : Nat) (pc : Word) (hint : Option Nat) (regs : Option Word) : State :=
  let s := (s.publish .pkg s.cid).phaseEnd .pkg
  let g := s.cur
  let r := g.lane l
  let g' := match regs with
    | some m => g.setLane l (r.maskRegs m)
    | none => g
  let (k, s) := s.saveLane s.cid g' l pc 2 false
  if k != 0 then s.saveFault l r.ssa k
  else (s.leaveLanes s.cid s.sid (laneBit l)).arrive (s.hostFor hint) r.ssa r.sid

/-- A lane leaves, or is held for want of a save area (R17, R145). -/
def State.migrateOrHold (s : State) (l : Nat) (pc : Word) (hint : Option Nat) (regs : Option Word) : State :=
  if (s.cur.lane l).ssa = 0 then s.noSaveArea l else s.migrateLane l pc hint regs

/-- The lanes of the current path that a pending recall names (R427). -/
def State.recalled (s : State) : List Nat := (lanesOf s.active).filter fun l => s.recalls.contains (s.cur.lane l).sid

/-- The same group, if it is held for lanes of a mask: they leave when its records are completed with RETRY (R17, R428). The upper byte
of `Held.cause` says so: 1 leave after RETRY, 2 leave at the next issue, 3 end at the next issue. -/
def Group.toLeave (g : Group) (m : Mask) : Group :=
  { g with
    held := g.held.map fun h => if g.live &&& m ≠ 0 ∧ (h.tag.isSome ∨ h.stags ≠ []) then { h with cause := h.cause % 256 + 256 } else h
    paths := g.paths.map fun p => match p.wait with
      | .split c v x t => if p.mask &&& m ≠ 0 then { p with wait := .split (c % 256 + 256) v x t } else p
      | _ => p }

/-- The lanes of a mask that were to leave a slot and are held instead. -/
def State.markLeave (s : State) (c slot : Nat) (m : Mask) : State :=
  let orig := match (s.grp c slot).held with | some h => h.orig | none => slot
  s.modCore c fun k => { k with slots := k.slots.map fun (i, g) =>
    if (match g.held with | some h => h.orig == orig | none => i == orig) then (i, g.toLeave m) else (i, g) }

/-- Whether the die's buffer has room for the records of the lanes of a list that are held instead of leaving (R17, R354, R428). -/
def State.leaveRoom (s : State) (ls : List Nat) : Bool :=
  isLatency s.cid || s.faultRoom (ls.filter fun l => (s.cur.lane l).ssa == 0 || s.saveFails s.cid s.cur l).length

/-- Whether a release of the issuing core at scope `pkg` completes at once (R206, R345, R418). -/
def State.mayRelease (s : State) : Bool := ((s.unrec.publish .pkg s.cid).leftover s.cid).isEmpty

/-- R28, R427: the recalled lanes of the current path leave, each with its pc, as if they had executed `migrate.l` (R145). Without room for
the records of those that are held, and until the core's publication can complete, the recalls stay pending (log entry 164). -/
def State.takeRecalls (s : State) (pc : Nat → Word) (regs : Option Word) : State :=
  let ls := s.recalled
  if ls.isEmpty || !s.leaveRoom ls || !s.mayRelease then s
  else
    let (c, slot) := s.focus
    let s := ls.foldl (fun s l =>
      let sid := (s.cur.lane l).sid
      ({ s with recalls := s.recalls.filter (· != sid) }).migrateOrHold l (pc l) none regs) s.unrec
    s.markLeave c slot (maskOf ls)

/-- Groups resident on a compute die (R392). -/
def State.residents (s : State) (d : Nat) : Nat :=
  s.cores.foldl (fun n (c, k) => if dieOfCore c = d ∧ !isLatency c then n + (k.slots.filter fun (i, g) => g.occ && decide (i < 32)).length
    else n) 0

/-- The least element by a key, the first of equals. -/
def leastBy (f : Nat → Nat) : List Nat → Option Nat
  | [] => none
  | x :: r =>
    match leastBy f r with
    | none => some x
    | some y => if f y < f x then some y else some x

/-- R392: the die whose packer takes a strand. -/
def State.packerDie (s : State) (asid : Nat) (hint : Option Nat) : Option Nat :=
  let ok := [0, 1, 2, 3].filter fun d => s.plb d asid != 0 && !(s.die d).lost
  match hint with
  | some h => if ok.contains h then some h else leastBy s.residents ok
  | none => leastBy s.residents ok

/-- What the hardware reads of a save area when it restores a strand (R17, R19): the lane, the s registers, the pc and the ASID
field. -/
structure Restored where
  lane : Lane
  sregs : Sparse Word
  pc : Word
  asid : Word
deriving DecidableEq, Repr

/-- The image of a save area at a physical address, for a strand whose x registers below `alloc` exist. -/
def State.readImage (s : State) (pa alloc : Nat) (ssa : Word) : Restored :=
  let w (o : Nat) : Word := s.rd64 (pa + o)
  { lane := {
      xs := (List.range 64).foldl (fun m n => if n = 0 ∨ alloc ≤ n then m else set 0 m n (w (8 * n))) [],
      preds := (w 0x310).extractLsb' 0 7 |>.setWidth 8, meet := w 0x308, fcsr := fcsrWrite 0 (w 0x318), utvec := w 0x328,
      uframe := w 0x330, cbank := w 0x338, ssa := ssa, serial := w 0x348, sid := w 0x320, nest := fld (w 0x340) 16 8 }
    sregs := (List.range 32).foldl (fun m n => set 0 m n (w (0x200 + 8 * n))) []
    pc := w 0x300 &&& ~~~7#64
    asid := word (fld (w 0x350) 0 32) }

/-- Reads a save area on die d (R19); none if its read faults. -/
def State.readSave (s : State) (d alloc : Nat) (asid ssa : Word) : Option Restored × State :=
  let (k, x, s) := s.agentWalk d asid ssa .read
  (if k = 0 then some (s.readImage x.pa alloc ssa) else none, s)

/-- The save areas of lanes of a group, without those of lanes that have none and those whose read faults. -/
def State.readAreas (s : State) (d : Nat) (g : Group) : List Nat → List (Nat × Restored) × State
  | [] => ([], s)
  | l :: r =>
    if (g.lane l).ssa = 0 then s.readAreas d g r
    else
      let (z, s) := s.readSave d g.alloc g.asid (g.lane l).ssa
      let (zs, s) := s.readAreas d g r
      ((z.map fun z => (l, z)).toList ++ zs, s)

/-- Free values for the registers that are unpredictable after `migrate.s` (R392; log entries 8 and 133). -/
def State.scramble (s : State) (l : Nat) : State :=
  let s := (List.range 63).foldl (fun s i => let (v, s) := s.freshWord; s.modCur fun g => g.setX l (i + 1) v) s
  let s := (List.range 32).foldl (fun s i => let (v, s) := s.freshWord; s.modCur fun g => g.setS i v) s
  let (p, s) := s.freshWord
  let (f, s) := s.freshWord
  let (m, s) := s.freshWord
  let (uv, s) := s.freshWord
  let (uf, s) := s.freshWord
  let (cb, s) := s.freshWord
  let (sa, s) := s.freshWord
  let (ca, s) := s.freshWord
  let (ep, s) := s.freshWord
  let (tv, s) := s.freshWord
  s.modCur fun g => ({ g with cause := ca, epc := ep, tval := tv }).modLane l fun r =>
    { r with
      preds := p.extractLsb' 0 7 |>.setWidth 8, fcsr := fcsrWrite r.fcsr f, meet := m, utvec := uv, uframe := uf, cbank := cb,
      ssa := sa }

/-- R392: the hardware strand that executed `migrate.s` goes on at word 2 of its vector block in privileged mode, x4 holding the
save area's address. -/
def State.strandGone (s : State) (ssa : Word) : State :=
  let g := s.cur
  let (k, pc, s) := s.glbLoad s.cid g.asid (g.vectors + 16) 8 .read true
  let s := s.scramble 0
  let s := (s.modCur fun g => { g with priv := true }).modCur fun g => g.setX 0 4 ssa
  if k != 0 then s.modCur fun g => { g with halted := true } else s.goto (word (pc / 8 * 8))

/-- R144: `migrate.s` on a latency core. -/
def State.migrateToSimt (s : State) (pc : Word) (hint : Option Nat) : State :=
  let g := s.cur
  let r := s.ownLane s.cid g 0
  if r.ssa = 0 then s.takeTrap 0x16 0 0
  else s.releaseThen .pkg 0 fun s =>
    let s := s.phaseEnd .pkg
    match s.packerDie (asidOf g.asid) hint with
    | some d =>
      let (k, s) := s.saveLane s.cid g 0 pc 2 false
      if k != 0 then s.laneFault 0 r.ssa k 1 0
      else (s.modDie d fun x => { x with packq := x.packq ++ [⟨r.ssa, r.sid, s.cid * 2 + s.sid, g.asid, Lane.zero⟩] }).strandGone r.ssa
    | none =>
      let (k, s) := s.saveLane s.cid g 0 pc 3 false
      if k != 0 then s.laneFault 0 r.ssa k 1 0 else (s.arrive (s.hostFor none) r.ssa r.sid).strandGone r.ssa

end Sys2Proof.Machine
end

