-- ==== Sys2Proof/Machine/Calls.lean ====
section
/-! DEFINITION. System calls of a SIMT core (R142, R382-R384): call records, the reply table, blocking on a full ring and the
delivery of replies. -/

namespace Sys2Proof.Machine

/-- The address of a reply slot (R383). -/
def replyAddr (w : Word) (n : Nat) : Nat := fld w 17 31 * 2 ^ 17 + 32 * n

/-- STATE of a reply slot. -/
def State.replyState (s : State) (d n : Nat) : Nat := s.rd (replyAddr (s.die d).reply n + 24) 8 % 4

/-- The first free reply slot of a die; none while software has supplied no table (log entry 18). -/
def State.freeReply (s : State) (d : Nat) : Option Nat :=
  if fld (s.die d).reply 17 31 = 0 then none
  else (List.range 4096).find? fun n => s.replyState d n == 0 && (s.die d).calls.all fun c => c.slot != n

/-- The words of a call record (R382). -/
def Call.words (c : Call) : List Word := [c.serial, word (c.slot * 2 ^ 32 + c.num.toNat % 2 ^ 32)] ++ c.args

/-- Appends a call's record to the ring and signals the kernel instance. -/
def State.appendCall (s : State) (d : Nat) (c : Call) : State :=
  (s.ringPut (s.die d).cring 64 c.words).signal d 1

/-- R142, R383: writes the record of one lane, if the ring has room and a reply slot is free. -/
def State.writeCall (s : State) (l : Nat) : Bool × State :=
  let d := s.did
  let g := s.cur
  let r := g.lane l
  if !s.ringRoom (s.die d).cring then (false, s)
  else match s.freeReply d with
  | none => (false, s)
  | some n =>
    let c : Call := ⟨n, r.sid, r.serial, g.x l 10, [4, 5, 6, 7, 8, 9].map fun i => g.x l i⟩
    let a := replyAddr (s.die d).reply n
    let s := (s.poke a 8 r.sid.toNat none).poke (a + 24) 8 1 none
    let s := (s.modCur fun g => g.modLane l fun r => { r with serial := r.serial + 1 }).appendCall d c
    let s := (s.modDie d fun x => { x with calls := x.calls ++ [c] }).schedCount d 21 1
    (true, if s.dies.any fun x => x.2.blocked.contains r.sid then (s.unblock [r.sid]).putLoc d g.asid r.ssa 1 else s)

/-- R382: a strand that finds the call ring of its die full is counted in the ring's header, once while it stays full. -/
def State.countFull (s : State) (d : Nat) (sid : Word) : State :=
  let x := s.die d
  if ringCap x.cring = 0 || s.ringRoom x.cring then s.modDie d fun x => { x with ringFull := x.ringFull.filter (· != sid) }
  else if x.ringFull.contains sid then s
  else
    let h := ringBase x.cring + 0x10
    (s.poke h 8 (s.rd h 8 + 1) none).modDie d fun x => { x with ringFull := x.ringFull ++ [sid] }

/-- R384: a lane that finds the ring full or no reply slot free is saved with LOC 6 once; the mask of the lane if that save held it (R428).
The header counts those that the full ring blocks (R382). -/
def State.blockCall (s : State) (l : Nat) : Mask × State :=
  let d := s.did
  let r := s.cur.lane l
  if (s.die d).blocked.contains r.sid then (0, s.countFull d r.sid)
  else if !s.leaveRoom [l] && r.ssa != 0 then (0, s)
  else
    let (k, s) := if r.ssa = 0 then (0, s) else s.saveLane s.cid s.cur l s.pc 6 false
    if k != 0 then (laneBit l, s.saveFault l r.ssa k)
    else (0, (s.modDie d fun x => { x with blocked := x.blocked ++ [r.sid] }).countFull d r.sid)

/-- The records of the lanes that have none yet, in ascending lane order; the mask of the lanes held meanwhile. -/
def State.writeCalls (s : State) (ls : List Nat) : Mask × State :=
  ls.foldl (fun ((m, s) : Mask × State) l =>
    if s.cur.path.done.getLsbD l then (m, s)
    else match s.writeCall l with
    | (true, s) => (m, s.markDone (laneBit l))
    | (false, s) => let (h, s) := s.blockCall l; (m ||| h, s)) (0, s)

/-- `syscall` on a SIMT core (R142, R148): records, then the wait until every reply has been delivered. -/
def State.simtCall (s : State) (ls : List Nat) : State :=
  let s := s.unrec
  let before := s.active
  let (held, s) := s.writeCalls ls
  if before &&& ~~~held = 0 then s
  else if ls.all fun l => held.getLsbD l || s.cur.path.got.getLsbD l then (s.discard .pkg s.cid).advance 8
  else s.await .reply

/-- The lane that awaits a call of a strand, wherever its team has been placed since (R377): core, slot and lane. -/
def State.caller (s : State) (sid : Word) : Option (Nat × Nat × Nat) :=
  (s.cores.flatMap fun (c, k) => k.slots.flatMap fun (i, g) =>
    if g.occ && !g.isDraft then
      ((g.paths.filter fun p => p.wait == .reply).flatMap fun p =>
        ((lanesOf p.mask).filter fun l => (g.lane l).sid == sid).map fun l => (c, i, l))
    else []).head?

/-- Whether a strand is in a continuation, or in a team that pre-emption has saved. -/
def State.strandSaved (s : State) (sid : Word) : Bool :=
  let has (g : Group) : Bool := (lanesOf g.live).any fun l => (g.lane l).sid == sid
  s.dies.any fun (_, x) => x.conts.any (fun y => has y.group) || x.lvl.any fun (_, rs) => rs.any fun r => match r.work with
    | .resume ts => ts.any fun t => (t.groups.any fun (_, g) => has g) || t.conts.any fun y => has y.group
    | _ => false

/-- R383, R408: a posted reply reaches its lane; the slot is free again. A reply for a swapped-out group or a saved team stays
posted (R142), and one for a strand that is gone is discarded. -/
def State.deliverReply (s : State) (d : Nat) (c : Call) : State :=
  let a := replyAddr (s.die d).reply c.slot
  let result := s.rd64 (a + 8)
  let error := s.rd64 (a + 16)
  let free (s : State) : State :=
    (s.poke (a + 24) 8 0 none).modDie d fun x => { x with calls := x.calls.filter fun y => y.slot != c.slot }
  match s.caller c.strand with
  | some (core, slot, l) =>
    let s := s.modLed core slot fun g =>
      let g := (g.setX l 4 result).setX l 5 error
      { g with paths := g.paths.map fun p => if p.mask.getLsbD l then { p with got := p.got ||| laneBit l } else p }
    ((free s).logEvent d 2 (error.toNat % 2 ^ 28) c.strand result).logData d error 0 0
  | none => if s.strandSaved c.strand then s else free s

/-- R383: a call in state 3 is written again with the same SERIAL and SLOT, once the ring has room. -/
def State.reissue (s : State) (d : Nat) (c : Call) : State :=
  if s.ringRoom (s.die d).cring then
    ((s.poke (replyAddr (s.die d).reply c.slot + 24) 8 1 none).appendCall d c).schedCount d 22 1
  else s

/-- R383: the die tests the STATE of a pending call. -/
def State.testReply (s : State) (d : Nat) (c : Call) : State :=
  match s.replyState d c.slot with
  | 2 => s.deliverReply d c
  | 3 => s.reissue d c
  | _ => s

/-- The die tests every pending call. -/
def State.testReplies (s : State) (d : Nat) : State := (s.die d).calls.foldl (fun s c => s.testReply d c) s

/-- SYSCALL_REPLY_POST: the kernel instance writes RESULT and ERROR and then sets STATE to 2 (R383). -/
def execSyscallReplyPost (die slot : Nat) (result error : Word) (s : State) : Host.Outcome State Fault Refusal :=
  let a := replyAddr (s.die die).reply slot
  .next ((((s.poke (a + 8) 8 result.toNat none).poke (a + 16) 8 error.toNat none).poke (a + 24) 8 2 none).testReplies die)

/-- SYSCALL_REISSUE: the kernel instance sets STATE to 3 (R383). -/
def execSyscallReissue (die slot : Nat) (s : State) : Host.Outcome State Fault Refusal :=
  .next ((s.poke (replyAddr (s.die die).reply slot + 24) 8 3 none).testReplies die)

/-- CALL_RING_ROOM: the kernel instance writes RIDX of the call ring, which the die reads again (R384); the blocked lanes write
their records when their path issues again. -/
def execCallRingRoom (die : Nat) (ridx : Word) (s : State) : Host.Outcome State Fault Refusal :=
  .next ((s.poke (ringBase (s.die die).cring + 8) 8 ridx.toNat none).testReplies die)

end Sys2Proof.Machine
end

