-- ==== Sys2Proof/Machine/Control.lean ====
section
/-! DEFINITION. Control instructions (R118-R127, R137, R138, R142-R145) and the words that are no instruction (R70-R74). -/

namespace Sys2Proof.Machine

/-- The address of a code displacement at the current instruction (R118, R119). -/
def State.codeAddr (s : State) (disp : Word) : Word := s.pc + 8 * disp

/-- `br` (R118). -/
def execBr (o : Operands) (s : State) : Host.Outcome State Fault Refusal :=
  let i := Instr.br o
  .next (s.gate i fun ls s => s.withOperands i ls fun ka _ _ s =>
    let ((ta, a), _, _) := i.sources
    s.branch i.len (ls.map fun l => (l, s.codeAddr (s.src ta ka ls l a))))

/-- `jal` (R118). -/
def execJal (o : Operands) (s : State) : Host.Outcome State Fault Refusal :=
  let i := Instr.jal o
  .next (s.gate i fun ls s => s.withOperands i ls fun ka _ _ s =>
    let ((ta, a), _, _) := i.sources
    let link := s.pc + word i.len
    let targets := ls.map fun l => (l, s.codeAddr (s.src ta ka ls l a))
    (s.writeDst o.d ls fun _ => link).branch i.len targets)

/-- `jalr` (R118); every source is read before the link is written (R83). -/
def execJalr (o : Operands) (s : State) : Host.Outcome State Fault Refusal :=
  let i := Instr.jalr o
  .next (s.gate i fun ls s => s.withOperands i ls fun ka kb _ s =>
    let ((ta, a), (tb, b), _) := i.sources
    let link := s.pc + word i.len
    let targets := ls.map fun l => (l, (s.src ta ka ls l a + s.src tb kb ls l b) &&& ~~~7#64)
    ((s.popSources ls o).writeDst o.d ls fun _ => link).branch i.len targets)

/-- The meeting address that a lane sets (R119): a displacement is a literal or an extension word. -/
def State.meetAddr (s : State) (a : Src) (v : Word) : Word :=
  match a with
  | .lit _ => s.codeAddr v
  | .ext _ => s.codeAddr v
  | _ => v &&& ~~~7#64

/-- `meet` (R119). -/
def execMeet (o : Operands) (s : State) : Host.Outcome State Fault Refusal :=
  let i := Instr.meet o
  .next (s.gate i fun ls s => s.withOperands i ls fun ka _ _ s =>
    let ((ta, a), _, _) := i.sources
    let old := fun l => (s.cur.lane l).meet
    let new := fun l => s.meetAddr a (s.src ta ka ls l a)
    (s.modCur fun g => g.modLanes ls fun l r => { r with meet := new l }).finish i ls old)

/-- `join` (R121). -/
def execJoin (o : Operands) (k : BitVec 3) (s : State) : Host.Outcome State Fault Refusal :=
  .next (s.gate (.join o k) fun _ s => s.tryJoin s.cid s.sid k.toNat)

/-- `waitj` (R122). -/
def execWaitj (o : Operands) (k : BitVec 3) (s : State) : Host.Outcome State Fault Refusal :=
  .next (s.gate (.waitj o k) fun _ s =>
    let orig := s.origSlot s.cid s.sid
    if s.heldLanes s.cid orig &&& (s.grp s.cid orig).j k.toNat = 0 then s.advance 8 else s.await (.waitj k.toNat))

/-- `exit` (R124, R25). -/
def execExit (o : Operands) (s : State) : Host.Outcome State Fault Refusal :=
  .next (s.gate (.exit o) fun ls s =>
    if isLatency s.cid then (s.clearLive s.did s.cur.asid (s.cur.lane 0).ssa).takeTrap 0x1A 0 0 else (s.advance 8).endLanes s.cid s.sid (maskOf ls))

/-- `yield` (R124, R116). -/
def execYield (o : Operands) (s : State) : Host.Outcome State Fault Refusal :=
  .next (s.gate (.yield o) fun _ s =>
    let s := s.advance 8
    if isLatency s.cid then s else s.giveWay)

/-- `nop` (R124). -/
def execNop (o : Operands) (s : State) : Host.Outcome State Fault Refusal :=
  .next (s.gate (.nop o) fun _ s => s.advance 8)

/-- The live mask of a `safept` (R125). -/
def liveMask (o : Operands) : Word := o.extWord.getD 0

/-- The team of the group that issues is to be pre-empted (R127, R375). -/
def State.stopping (s : State) : Bool := !isLatency s.cid && s.team.preempting

/-- `safept` (R125-R127): the count restarts, pending recalls take their lanes, and a path of a team that is to be pre-empted
stops. -/
def execSafept (o : Operands) (s : State) : Host.Outcome State Fault Refusal :=
  let i := Instr.safept o
  .next (s.gate i fun ls s =>
    let m := liveMask o
    let s := (s.modCur fun g => { g with count := 0 }).advance i.len
    if isLatency s.cid then s
    else
      let all := maskOf ls
      let gone := maskOf s.recalled
      let next := s.pc
      let s := s.takeRecalls (fun _ => next) (some m)
      if all &&& ~~~gone = 0 then s
      else if s.stopping then (s.modCur fun g => g.modPath fun p => { p with atSafept := some m }).giveWay
      else s.giveWay)

/-- The lanes that do not act go on after the instruction as a path of their own, so that a trap of the acting lanes affects
those alone (R138). -/
def State.splitActing (s : State) (ls : List Nat) (len : Nat) : State :=
  s.modCur fun g =>
    let p := g.path
    let m := maskOf ls
    let rest := p.mask &&& ~~~m
    if rest = 0 then g
    else { g with paths := { p with mask := m } :: (g.paths.drop 1 ++ [{ Path.start (p.pc + word len) rest with frozen := p.frozen }]) }

/-- `trap` (R138). -/
def execTrap (o : Operands) (code : BitVec 8) (s : State) : Host.Outcome State Fault Refusal :=
  .next (s.gate (.trap o code) fun ls s => (s.splitActing ls 8).takeTrap 0x07 (code.setWidth 64) 0)

/-- `syscall` (R142, R278). -/
def execSyscall (o : Operands) (s : State) : Host.Outcome State Fault Refusal :=
  .next (s.gateStrict (.syscall o) fun ls s => if isLatency s.cid then s.takeTrap 0x19 0 0 else s.simtCall ls)

/-- `eret` (R137, R141). -/
def execEret (o : Operands) (s : State) : Host.Outcome State Fault Refusal :=
  .next (s.gate (.eret o) fun _ s => s.returnTrap (Instr.eret o).word)

/-- `migrate.s` (R143, R144). -/
def execMigrateS (o : Operands) (s : State) : Host.Outcome State Fault Refusal :=
  let i := Instr.migrateS o
  .next (s.gate i fun ls s =>
    if !isLatency s.cid then s.advance i.len
    else s.withOperands i ls fun ka _ _ s =>
      let ((ta, a), _, _) := i.sources
      s.migrateToSimt (s.pc + word i.len) (hintDie 0 3 (s.src ta ka ls (ls.headD 0) a)))

/-- `migrate.l` (R143, R145, R278). -/
def execMigrateL (o : Operands) (s : State) : Host.Outcome State Fault Refusal :=
  let i := Instr.migrateL o
  .next (s.gateStrict i fun ls s =>
    if isLatency s.cid then s.advance i.len
    else s.withOperands i ls fun ka _ _ s =>
      let ((ta, a), _, _) := i.sources
      let hints := ls.map fun l => (l, hintDie 4 5 (s.src ta ka ls l a))
      let stay := s.active &&& ~~~maskOf ls
      let next := s.pc + word i.len
      if !s.leaveRoom ls then s.await (.fault 0) else
      s.unrec.releaseThen .pkg (ls.headD 0) fun s =>
        let s := hints.foldl (fun s (l, h) => s.migrateOrHold l next h none) (s.popSources ls o)
        if stay = 0 then s else s.advance i.len)

/-- `udf` (R74): cause 0x02 in every active lane. -/
def execUdf (w : Word) (s : State) : Host.Outcome State Fault Refusal := .next (s.takeTrap 0x02 w 0)

/-- A word of the emulation majors (R73): cause 0x01 with reason 9. -/
def execEmulationMajor (w : Word) (_len : Nat) (s : State) : Host.Outcome State Fault Refusal := .next (s.takeTrap 0x01 w 9)

/-- A word that fails a check of R70: cause 0x01 with the reason of the first. -/
def execIllegalInstruction (w : Word) (reason : Nat) (s : State) : Host.Outcome State Fault Refusal :=
  .next (s.takeTrap 0x01 w (BitVec.ofNat 32 reason))

end Sys2Proof.Machine
end

