-- ==== Sys2Proof/Machine/CtrlRegs.lean ====
section
/-! DEFINITION. Control registers (R9, R10, R23, R128-R130, R140, R170, R171). -/

namespace Sys2Proof.Machine

/-- The value of a control register in a lane of the group that issues (R129); `cr.time` is `State.readCr`'s. -/
def State.crValue (s : State) (l n : Nat) : Word :=
  let c := s.cid
  let g := s.cur
  let r := s.ownLane c g l
  let lat := isLatency c
  let t := s.team
  let none : Word := 0xFFFFFFFFFFFFFFFF
  if n = 0x00 then s.ownStatus c g l
  else if n = 0x01 then g.cause
  else if n = 0x02 then g.epc
  else if n = 0x03 then g.tval
  else if n = 0x04 then r.utvec
  else if n = 0x05 then r.uframe
  else if n = 0x06 then r.fcsr
  else if n = 0x07 then r.cbank
  else if n = 0x08 then r.meet
  else if n = 0x10 then word l
  else if n = 0x11 then (if lat then 0 else word g.gidx)
  else if n = 0x12 then (if lat then none else t.id)
  else if n = 0x13 then (if lat then 0 else word t.rank)
  else if n = 0x14 then (if lat then none else t.grid)
  else if n = 0x15 then word c
  else if n = 0x16 then word (dieOfCore c)
  else if n = 0x17 then r.sid
  else if n = 0x19 then s.cycle c
  else if 0x20 ≤ n ∧ n ≤ 0x27 then ofMask (g.j (n - 0x20))
  else if n = 0x30 then (s.core c).sample
  else if n = 0x31 then (s.core c).sbuf
  else if n = 0x40 then (if lat then g.ktvec else 0)
  else if n = 0x41 then g.asid
  else if n = 0x42 then r.ssa
  else if n = 0x43 then (if lat then g.ipend else 0)
  else if n = 0x44 then (if lat then g.ienable else 0)
  else 0

/-- Reads a control register in a lane; a read of `cr.time` may be logged or replayed (R408, R409). -/
def State.readCr (s : State) (l n : Nat) : Word × State :=
  if n = 0x18 then s.readTime s.did (s.ownLane s.cid s.cur l).sid else (s.crValue l n, s)

/-- The reads of all acting lanes, in ascending order. -/
def State.readCrs (s : State) (n : Nat) : List Nat → List (Nat × Word) × State
  | [] => ([], s)
  | l :: ls =>
    let (v, s) := s.readCr l n
    let (vs, s) := s.readCrs n ls
    ((l, v) :: vs, s)

/-- R170: a write of `cr.sample`. -/
def sampleWrite (old new : Word) : Word :=
  let sz := if fld new 8 4 = 15 then fld old 8 4 else fld new 8 4
  word (fld new 16 16 * 2 ^ 16 + sz * 2 ^ 8 + bit (old.getLsbD 1 && !new.getLsbD 1) 1 + bit (new.getLsbD 0) 0)

/-- Writes a control register of a lane, field by field (R9, R10, R129); read-only registers ignore it. -/
def State.writeCr (s : State) (l n : Nat) (v : Word) : State :=
  let lat := isLatency s.cid
  let lane (f : Lane → Lane) : State := s.modCur fun g => g.modLane l f
  if n = 0x02 then s.modCur fun g => { g with epc := v }
  else if n = 0x03 then s.modCur fun g => { g with tval := v }
  else if n = 0x04 then lane fun r => { r with utvec := v }
  else if n = 0x05 then lane fun r => { r with uframe := v }
  else if n = 0x06 then lane fun r => { r with fcsr := fcsrWrite r.fcsr v }
  else if n = 0x07 then lane fun r => { r with cbank := v }
  else if 0x20 ≤ n ∧ n ≤ 0x27 then s.modCur fun g => g.setJ (n - 0x20) (low32 v)
  else if n = 0x30 then s.modCore s.cid fun k => { k with sample := sampleWrite k.sample v }
  else if n = 0x31 then s.modCore s.cid fun k => { k with sbuf := v &&& ~~~0xFFF#64, sasid := s.cur.asid }
  else if n = 0x40 then (if lat then s.modCur fun g => { g with ktvec := v } else s)
  else if n = 0x41 then s.modCur fun g => { g with asid := ofMask (low32 v) }
  else if n = 0x42 then lane fun r => { r with ssa := v }
  else if n = 0x43 then (if lat then s.modCur fun g => { g with ipend := g.ipend &&& ~~~v } else s)
  else if n = 0x44 then (if lat then s.modCur fun g => { g with ienable := v &&& 15 } else s)
  else s

/-- Whether a control register is held by each lane; the others keep what the highest acting lane writes (R128, R129), those held by the
core too (log entry 134). -/
def crPerLane (n : Nat) : Bool := (decide (4 ≤ n) && decide (n ≤ 8)) || n == 0x42

/-- R128: an access to a control register. `f` of the old value and of operand a gives the new value; none for a read. -/
def State.crOp (s : State) (i : Instr) (n : Nat) (f : Option (Word → Word → Word)) : State :=
  s.gate i fun ls s => s.withOperands i ls fun ka _ _ s =>
    let ((ta, a), _, _) := i.sources
    let vals := ls.map fun l => (l, s.src ta ka ls l a)
    let (olds, s) := s.readCrs n ls
    let old (l : Nat) : Word := ((olds.find? fun e => e.1 == l).map (·.2)).getD 0
    let writers := if crPerLane n then vals else vals.drop (vals.length - 1)
    let s := match f with
      | some f => writers.foldl (fun (s : State) (l, v) => s.writeCr l n (f (old l) v)) s
      | none => s
    s.finish i ls old

/-- `crr` (R128). -/
def execCrr (o : Operands) (crn : BitVec 8) (s : State) : Host.Outcome State Fault Refusal :=
  .next (s.crOp (.crr o crn) crn.toNat none)

/-- `crw` (R128). -/
def execCrw (o : Operands) (crn : BitVec 8) (s : State) : Host.Outcome State Fault Refusal :=
  .next (s.crOp (.crw o crn) crn.toNat (some fun _ a => a))

/-- `crs` (R128). -/
def execCrs (o : Operands) (crn : BitVec 8) (s : State) : Host.Outcome State Fault Refusal :=
  .next (s.crOp (.crs o crn) crn.toNat (some fun old a => old ||| a))

/-- `crc` (R128). -/
def execCrc (o : Operands) (crn : BitVec 8) (s : State) : Host.Outcome State Fault Refusal :=
  .next (s.crOp (.crc o crn) crn.toNat (some fun old a => old &&& ~~~a))

end Sys2Proof.Machine
end

