-- ==== Sys2Proof/Machine/System.lean ====
section
/-! DEFINITION. `setseg`, `tgen`, `ifence` and `wfi` (R146, R344-R347) and the generation bump that `view.reg` shares. -/

namespace Sys2Proof.Machine

/-- The extent in bytes of a segment's backing store: the core's local share, or the die's chip scratchpad (R150, R152, R306). -/
def State.segExtent (s : State) (n : Nat) : Nat :=
  if n = 3 then (s.die s.did).cspad * 2 ^ 21 else s.k.split.b * 2 ^ 14

/-- `setseg` (R146). -/
def execSetseg (o : Operands) (s : State) : Host.Outcome State Fault Refusal :=
  let i := Instr.setseg o
  .next (s.gate i fun ls s => s.withOperands i ls fun ka kb kc s =>
    let ((ta, a), (tb, b), (tc, c)) := i.sources
    let l := ls.headD 0
    let n := s.src ta ka ls l a
    let base := s.src tb kb ls l b
    let limit := s.src tc kc ls l c
    let span := base.toNat + (if n = 0 then 32 else 1) * limit.toNat
    if 3 < n.toNat then s.segFault n (maskOf ls)
    else if s.segExtent n.toNat < span then s.segFault base (maskOf ls)
    else
      let s := (s.popSources ls o).modCur fun g =>
        { g with segs := set ⟨0, 0⟩ g.segs n.toNat ⟨low32 limit, low32 base⟩ }
      s.advance i.len)

/-- R346: the copies of an object's lines in a core's L1 become stale and give up ownership; bytes under UM stay. A copy is the object's by the
identity under which it was filled, or because it lies in the object's extents. -/
def Core.staleObject (k : Core) (fs : List (Nat × Nat)) (asid : Word) (obj : Nat) : Core :=
  let stale (a : Nat) (l : L1Line) : L1Line :=
    if (l.chk && low32 l.asid == low32 asid && fld l.va 40 24 == obj) || inFrames fs a then { l.noticed with stale := true } else l
  { k with l1 := k.l1.map fun (a, l) => (a, stale a l) }

/-- The same on every core. -/
def State.staleObject (s : State) (fs : List (Nat × Nat)) (asid : Word) (obj : Nat) : State :=
  { s with cores := s.cores.map fun (c, k) => (c, k.staleObject fs asid obj) }

/-- R346: the home die of an object increments its generation and the die's bump count, of which every die holds a copy. The
new generation comes back. -/
def State.bumpGen (s : State) (d : Nat) (asid : Word) (obj : Nat) : Nat × State :=
  let da := s.descAddr d (asidOf asid) obj
  let w0 := s.rd64 da
  let gen := (fld w0 32 16 + 1) % 2 ^ 16
  let home := fld w0 60 3
  let s := s.poke (da + 4) 2 gen none
  let s := [0, 1, 2, 3, 4, 5].foldl (fun s e => s.modDie e fun x =>
    { x with bumps := set 0 x.bumps home ((get 0 x.bumps home + 1) % 2 ^ 32) }) s
  let far := if w0.getLsbD 59 then 2 ^ 37 * (fld (s.rd64 (da + 8)) 40 20 + 1) else 0
  (gen, s.staleObject ((s.framesOf d (asidOf asid) obj).map fun e => (e.1 + far, e.2)) asid obj)

/-- The fault of an object that `tgen` cannot find (R146, R342); 0 where its descriptor is valid. -/
def State.objectFault (s : State) (d : Nat) (asid : Word) (obj : Nat) : Nat :=
  let a := s.rd64 (s.astAddr d (asidOf asid))
  if obj = 0 then 1
  else if !a.getLsbD 63 || fld a 32 16 != incOf asid then 2
  else if fld a 0 32 ≤ obj then 3
  else if !(s.rd64 (s.descAddr d (asidOf asid) obj)).getLsbD 63 then 3
  else 0

/-- `tgen` (R146, R346). -/
def execTgen (o : Operands) (s : State) : Host.Outcome State Fault Refusal :=
  let i := Instr.tgen o
  .next (s.gate i fun ls s => s.withOperands i ls fun ka _ _ s =>
    let ((ta, a), _, _) := i.sources
    let l := ls.headD 0
    let v := s.src ta ka ls l a
    let obj := fld v 40 24
    match s.objectFault s.did s.cur.asid obj with
    | 0 =>
      s.releaseThen .pkg l fun s =>
        let (gen, s) := s.bumpGen s.did s.cur.asid obj
        s.finish i ls fun _ => word gen
    | k => s.keepWhole 2 0 [(l, v, k)])

/-- `ifence` (R146): the fetch of the model always reads the core's snapshot, so no fetched word is older. -/
def execIfence (o : Operands) (s : State) : Host.Outcome State Fault Refusal :=
  .next (s.gate (.ifence o) fun _ s => s.advance 8)

/-- `wfi` (R146, R140): the hardware strand stops until a kernel signal is pending and enabled. -/
def execWfi (o : Operands) (s : State) : Host.Outcome State Fault Refusal :=
  .next (s.gate (.wfi o) fun _ s =>
    if !isLatency s.cid then s.advance 8
    else if s.cur.ipend &&& s.cur.ienable != 0 then s.advance 8
    else s.modCur fun g => { g with wfi := true })

end Sys2Proof.Machine
end

