-- ==== Sys2Proof/Machine/LoadStore.lean ====
section
/-! DEFINITION. Addresses and checks of every access (R181, R182, R154, R189, R156), loads and stores (R186-R190), cache hints and
`phase` (R204-R207). -/

namespace Sys2Proof.Machine

/-- Bytes of an access size (R14). -/
def MSize.bytes : MSize → Nat
  | .b => 1 | .h => 2 | .w => 4 | .d => 8 | .x => 16

/-- Where an access goes after steps 3 and 4 of R181. -/
inductive Place
  | glb (va : Word)
  | chip (pa : Nat)
  /-- local share of a core: private and local segments -/
  | loc (core off : Nat)
  /-- the local share of a rank's core, reached as cluster memory -/
  | clu (core off : Nat)
  | acc (off : Nat)
deriving DecidableEq, Repr

/-- Whether the team of the group that issues owns the matrix engine (R156). -/
def State.ownsEngine (s : State) : Bool := s.team.mxe

/-- A cluster address (R182, R154): the rank's core and the place in its local share. -/
def State.cluPlace (s : State) (ea n : Nat) : Option (Nat × Nat) :=
  if 2 ^ 36 ≤ ea then none else s.cluAt s.cid s.cur.team (s.cur.seg 2) (ea / 2 ^ 32) (ea % 2 ^ 32) n

/-- R182: whether the sum of base a and value b carries from OFFSET into RANK; a negative b borrows from OFFSET alone. -/
def cluCarry (a b : Word) : Bool :=
  let hi (w : Word) : Nat := w.toNat / 2 ^ 32
  hi (a + b) != (hi a + (if hi b = 2 ^ 32 - 1 ∧ b.toNat % 2 ^ 32 ≠ 0 then 0 else hi b)) % 2 ^ 32

/-- Steps 3 and 4 of R181 for an access of n bytes of lane l in a space; `low` is the lowest acting lane, whose constant bank counts. `none`
fails one of them. -/
def State.placeOf (s : State) (sp : Space) (low l : Nat) (a : Word) (n : Nat) : Option Place :=
  let ea := a.toNat
  let aligned (p : Place) : Option Place := if ea % n = 0 then some p else none
  match sp with
  | .glb => aligned (.glb a)
  | .pvt => (segOffset (s.cur.seg 0) ea n (some l)).bind fun o => aligned (.loc s.cid o)
  | .loc => (segOffset (s.cur.seg 1) ea n none).bind fun o => aligned (.loc s.cid o)
  | .clu => (s.cluPlace ea n).bind fun (c, o) => aligned (.clu c o)
  | .chip => (segOffset (s.cur.seg 3) ea n none).bind fun o => aligned (.chip (chipAddr s.did o))
  | .acc => if ea + n ≤ 65536 ∧ s.ownsEngine then aligned (.acc ea) else none
  | .con =>
    if 4 * ea + n ≤ 65536 ∧ 4 * ea % n = 0 then some (.glb ((s.cur.lane low).cbank + word (4 * ea))) else none

/-- The place of one lane's address; one that carries into the rank has none (R182). -/
def State.placeAt (s : State) (sp : Space) (low n : Nat) (carried : Nat → Bool) (e : Nat × Word) : Option Place :=
  if carried e.1 then none else s.placeOf sp low e.1 e.2 n

/-- Steps 3 and 4 of R181 for all lanes: cause 0x05 where one fails, otherwise the places. -/
def State.placed (s : State) (sp : Space) (n : Nat) (carried : Nat → Bool) (eas : List (Nat × Word)) (body : List (Nat × Place) → State) :
    State :=
  if sp = .acc ∧ !s.ownsEngine then s.segFault 0xFFFFFFFFFFFFFFFF (maskOf (eas.map (·.1)))
  else
    let low := (eas.headD (0, 0)).1
    match eas.filter fun e => (s.placeAt sp low n carried e).isNone with
    | [] => body (eas.filterMap fun e => (s.placeAt sp low n carried e).map fun p => (e.1, p))
    | (l, a) :: r => s.segFault a (maskOf (l :: r.map (·.1)))

/-- The engine's poison of an accumulator byte (R240, R356): one POIS bit for each 16 KiB physical tile. -/
def Core.accPoisoned (k : Core) (off : Nat) : Bool := k.mxe.pois.getLsbD (off / 16384)

/-- The 16-byte granules of local memory that are poisoned (R356). -/
def Core.locPoisoned (k : Core) (off n : Nat) : Bool :=
  k.poison.any fun g => decide (g < (off + n + 15) / 16) && decide (off / 16 ≤ g)

/-- The translation of an access at a place: the fault kind, or the physical address and the line's identity. -/
def State.accXl (s : State) (p : Place) (acc : Acc) : Nat × Xl × State :=
  match p with
  | .glb va => s.translate s.cid (asidOf s.cur.asid) (incOf s.cur.asid) va acc s.cur.priv
  | _ => (0, ⟨0, 0, 0, 0, false, 0, false, false, false, false⟩, s)

/-- The translations of all lanes, in ascending order. -/
def State.accXls (s : State) (acc : Acc) : List (Nat × Place) → List (Nat × Place × Nat × Xl) × State
  | [] => ([], s)
  | (l, p) :: r =>
    let (k, x, s) := s.accXl p acc
    let (xs, s) := s.accXls acc r
    ((l, p, k, x) :: xs, s)

/-- The read of n bytes of lane l at a place after its translation (R187, R188). -/
def State.readPlace (s : State) (l : Nat) (p : Place) (k : Nat) (x : Xl) (n : Nat) : ReadRes × State :=
  match p with
  | .glb va =>
    if k != 0 then (.fault k 0, s)
    else if 128 < va.toNat % 128 + n then s.readSpan s.cid s.cur.asid va n s.cur.priv s.sid l
    else s.readXl s.cid s.cur.asid va x n s.sid l
  | .chip pa =>
    if s.k.badLine pa n then (.poison 3, s)
    else if s.poisoned pa n then (.poison 2, s)
    else let (v, s) := s.readSnap s.cid pa n ⟨0, 0, 0, false⟩; (.data v, s)
  | .loc c off => (if (s.core c).locPoisoned off n then .poison 4 else .data (readBytes (s.core c).loc off n), s)
  | .clu c off => (if (s.core c).locPoisoned off n then .poison 4 else .data (readLE (s.cluByte s.cid c) off n), s)
  | .acc off => (if s.k.accPoisoned off then .poison 5 else .data (readBytes s.k.acc off n), s)

/-- One lane's read of a place. -/
def State.readAt (s : State) (l : Nat) (p : Place) (n : Nat) : ReadRes × State :=
  let (k, x, s) := s.accXl p .read
  s.readPlace l p k x n

/-- A lane's read of a shard (R321): the lane, its translation, the view's die, entry and data, the shard and the offset there, and the stale
blocks that hold it (R322). -/
structure ShardRead where
  lane : Nat
  x : Xl
  d : Nat
  m : Nat
  v : View
  i : Nat
  off : Nat
  blocks : List Nat
deriving DecidableEq, Repr

/-- The reads of shards among the reads of an instruction. -/
def State.shardReads (s : State) (n : Nat) (xs : List (Nat × Place × Nat × Xl)) : List ShardRead :=
  xs.filterMap fun (l, p, k, x) => match p with
    | .glb va =>
      if k != 0 || !x.vsh then none
      else (s.shardView s.cur.asid x.obj).map fun (d, m, v, i) =>
        let off := fld va 0 40
        let blocks := match (s.checkBlocks d m v (v.openBlocks (s.heldViews s.cid s.sid l) i off x.pa n)).1 with
          | .held bs => bs
          | _ => []
        ⟨l, x, d, m, v, i, off, blocks⟩
    | _ => none

/-- The home slice of a read. -/
def ShardRead.slice (r : ShardRead) : Nat := homeSlice r.x.pa (r.x.rowl == 1)

/-- The bytes of a read that await a block: those of the block, and in a row-atomic view all (R324, R387). -/
def ShardRead.bytes (r : ShardRead) (n b : Nat) : List Nat :=
  if r.v.rowa then (List.range n).map (r.x.pa + ·) else r.v.bytesIn r.i r.off r.x.pa n b

/-- The row of a row-atomic view that a read lies in, which is one block (R324). -/
def ShardRead.row (r : ShardRead) : Nat := r.i * (r.v.viewRows / r.v.shards) + r.off / 512

/-- Whether the slice of a row has entries for all the lanes that it holds (R387). -/
def State.rowRoom (s : State) (rs : List ShardRead) (r : ShardRead) : Bool :=
  let h := homeOf s r.x.pa
  let new := rs.filter fun q => q.v.rowa && !q.blocks.isEmpty && q.slice == r.slice && homeOf s q.x.pa == h && !q.blocks.any fun b =>
    (s.die h).defer.any fun e => e.key == viewKey q.d q.m b && e.core == s.cid && e.slot == s.sid && e.lane == q.lane
  decide (s.sliceDefers h r.slice + new.length ≤ 64)

/-- One lane's held read, and whether it was refused (R322). -/
def State.holdLane (s : State) (n : Nat) (fits : Bool) (r : ShardRead) : Bool × State :=
  let h := homeOf s r.x.pa
  if r.v.rowa && !fits then (true, s.sliceCount h r.slice 1 1)
  else s.holdReads r.d r.m h r.x.pa r.slice s.cid s.sid r.lane (r.blocks.map fun b => (b, r.bytes n b))

/-- R324, R387: the lanes that read only unchecked bytes of a row that is held receive them in the event that serves the row. -/
def State.holdMates (s : State) (n : Nat) (rs : List ShardRead) : State :=
  (rs.filter fun r => r.v.rowa && r.blocks.isEmpty && rs.any fun q => q.v.rowa && q.d == r.d && q.m == r.m && q.blocks.contains r.row).foldl
    (fun (s : State) r => s.keepRead s.cid s.sid r.lane (viewKey r.d r.m r.row) (r.bytes n r.row)) s

/-- R292: where an instruction reads a shard, what its die has sent to the homes that it reads is performed first, so that all its lanes are
served in one event (R387). -/
def State.drainReads (s : State) (xs : List (Nat × Place × Nat × Xl)) : State :=
  if xs.any fun e => e.2.2.1 == 0 && e.2.2.2.vsh then
    xs.foldl (fun s (_, p, k, x) => match p with
      | .glb _ => if k = 0 then s.drainTo s.did x.pa else s
      | _ => s) s
  else s

/-- The reads of all lanes, in ascending order. While a view holds one of them none is performed (R322; log entry 40). -/
def State.readPlaces (s : State) (n : Nat) (ps : List (Nat × Place)) : List (Nat × Place × ReadRes) × State :=
  let (xs, s) := s.accXls .read ps
  let s := s.drainReads xs
  let rs := s.shardReads n xs
  if rs.all fun r => r.blocks.isEmpty then
    xs.foldl (fun (rs, s) (l, p, k, x) =>
      let (r, s) := s.readPlace l p k x n
      (rs ++ [(l, p, r)], s)) ([], s)
  else
    let hs := rs.filter fun r => !r.blocks.isEmpty
    let fits := hs.all fun r => !r.v.rowa || s.rowRoom rs r
    let (no, s) := hs.foldl (fun (no, s) r =>
      let (q, s) := s.holdLane n fits r
      (no || q, s)) (false, s)
    let s := if fits then s.holdMates n rs else s
    (xs.map fun (l, p, k, _) => (l, p, if k != 0 then .fault k 0 else .held no), s)

/-- The address of a `.glb` place. -/
def Place.va : Place → Word
  | .glb a => a
  | _ => 0

/-- The key of a place among those whose poison a team has consumed (R357). -/
def Place.key : Place → Nat
  | .glb a => a.toNat
  | .chip pa => 2 ^ 72 + pa
  | .loc c off => 2 ^ 73 + 2 ^ 32 * c + off
  | .clu c off => 2 ^ 73 + 2 ^ 32 * c + off
  | .acc off => 2 ^ 74 + off

/-- R356: consumed poison of a lane's place: `cr.tval` is the address that the lane gave, in `.con` that of the bank's byte. -/
def State.poisonPlace (s : State) (eas : List (Nat × Word)) (l : Nat) (p : Place) (origin : Nat) : State :=
  let addr := match p with
    | .glb a => a
    | _ => ((eas.find? fun e => e.1 == l).map (·.2)).getD 0
  s.poisonAt p.key addr origin

/-- The faulting lanes of a list of reads: lane, address, kind and view. -/
def readFaults (rs : List (Nat × Place × ReadRes)) : List (Nat × Word × Nat × Word) :=
  rs.filterMap fun (l, p, r) => match r with
    | .fault k v => some (l, p.va, k, v)
    | _ => none

/-- The data of a lane's read; 0 for a lane without any. -/
def readData (rs : List (Nat × Place × ReadRes)) (l : Nat) : Nat :=
  match rs.find? fun e => e.1 == l with
  | some (_, _, .data v) => v
  | _ => 0

/-- What the reads of an instruction decide: poison for the path, faults of lanes, a held view read, or the values of the lanes
that go on (R181, R322, R356, R424). -/
def State.withReads (s : State) (o : Operands) (acc : Nat) (eas : List (Nat × Word)) (rs : List (Nat × Place × ReadRes))
    (body : List Nat → State → State) : State :=
  let fs := readFaults rs
  let ok := (rs.map (·.1)).filter fun l => fs.all fun f => f.1 != l
  match rs.findSome? fun e => match e.2.2 with | .poison o => some (e.1, e.2.1, o) | _ => none with
  | some (l, p, o) => s.poisonPlace eas l p o
  | none =>
    if o.queues && !fs.isEmpty then
      s.keepWhole acc ((fs.map fun f => f.2.2.2).headD 0) (fs.map fun (l, a, k, _) => (l, a, k))
    else s.splitFaults acc fs fun _ s =>
      match rs.findSome? fun e => match e.2.2 with | .held r => some r | _ => none with
      | some r => s.awaitRead r
      | none => body ok s

/-- Writes a loaded value of n bytes (R187). -/
def State.writeLoaded (s : State) (d : Dst) (n : Nat) (sx : Bool) (ls : List Nat) (v : Nat → Nat) : State :=
  if n = 16 then
    match d with
    | .x i => s.modCur fun g => ls.foldl (fun g l =>
        (g.setX l i.toNat (word (v l % 2 ^ 64))).setX l (i.toNat + 1) (word (v l / 2 ^ 64))) g
    | _ => s
  else s.writeDst d ls fun l => if sx then sext (8 * n) (v l) else word (v l)

/-- The effective addresses a + b of the acting lanes (R181). -/
def State.addrs (s : State) (i : Instr) (ls : List Nat) (ka kb : Word) : List (Nat × Word) :=
  let ((ta, a), (tb, b), _) := i.sources
  ls.map fun l => (l, s.src ta ka ls l a + s.src tb kb ls l b)

/-- R182: whether a lane's cluster address carries from OFFSET into RANK. -/
def State.carried (s : State) (sp : Space) (i : Instr) (ls : List Nat) (ka kb : Word) (l : Nat) : Bool :=
  let ((ta, a), (tb, b), _) := i.sources
  sp == .clu && cluCarry (s.src ta ka ls l a) (s.src tb kb ls l b)

/-- `ld` (R186, R187). -/
def execLd (o : Operands) (m : MemMod) (s : State) : Host.Outcome State Fault Refusal :=
  let i := Instr.ld o m
  let n := MSize.bytes m.size
  .next (s.gate i fun ls s => s.withOperands i ls fun ka kb _ s =>
    let eas := s.addrs i ls ka kb
    s.placed m.space n (s.carried m.space i ls ka kb) eas fun ps =>
      let (rs, s) := s.readPlaces n ps
      s.withReads o 0 eas rs fun ok s =>
        ((s.popSources ls o).writeLoaded o.d n m.sx ok (readData rs)).advance i.len)

/-- The faults of a list of translations. -/
def xlFaults (xs : List (Nat × Place × Nat × Xl)) : List (Nat × Word × Nat × Word) :=
  xs.filterMap fun (l, p, k, _) => if k = 0 then none else some (l, p.va, k, 0)

/-- The store of n bytes at a place (R187, R188). -/
def State.storePlace (s : State) (p : Place) (x : Xl) (n v : Nat) : State :=
  match p with
  | .glb va => s.groupStore s.cid s.cur.team x.pa n v (x.lineId s.cur.asid va) va
  | .chip pa => s.groupStore s.cid s.cur.team pa n v ⟨0, 0, 0, false⟩ 0
  | .loc c off => (s.modCore c fun k => { k with loc := writeBytes k.loc off n v }).locUnpoison c off n
  | .clu c off => s.cluStore s.cid c off n v
  | .acc _ => s

/-- What the translations of an instruction decide: the lanes that fault leave the path, or keep it whole (R181, R424). -/
def State.withXls (s : State) (o : Operands) (acc : Nat) (xs : List (Nat × Place × Nat × Xl))
    (body : List (Nat × Place × Xl) → State → State) : State :=
  let fs := xlFaults xs
  if o.queues && !fs.isEmpty then s.keepWhole acc 0 (fs.map fun (l, a, k, _) => (l, a, k))
  else s.splitFaults acc fs fun _ s => body ((xs.filter fun e => e.2.2.1 == 0).map fun (l, p, _, x) => (l, p, x)) s

/-- The value that a lane stores: operand c, or the pair of a `.x` store (R187). -/
def State.storeVal (s : State) (i : Instr) (kc : Word) (ls : List Nat) (n l : Nat) : Nat :=
  let (_, _, (tc, c)) := i.sources
  if n = 16 then
    match c with
    | .x r => (s.cur.x l r.toNat).toNat + (s.cur.x l (r.toNat + 1)).toNat * 2 ^ 64
    | _ => 0
  else (s.src tc kc ls l c).toNat % 2 ^ (8 * n)

/-- `st` (R186, R187). -/
def execSt (o : Operands) (m : MemMod) (s : State) : Host.Outcome State Fault Refusal :=
  let i := Instr.st o m
  let n := MSize.bytes m.size
  .next (s.gate i fun ls s => s.withOperands i ls fun ka kb kc s =>
    s.placed m.space n (s.carried m.space i ls ka kb) (s.addrs i ls ka kb) fun ps =>
      let vals := ls.map fun l => (l, s.storeVal i kc ls n l)
      let val (l : Nat) : Nat := ((vals.find? fun e => e.1 == l).map (·.2)).getD 0
      let (xs, s) := s.accXls .write ps
      s.withXls o 1 xs fun ok s =>
        ((ok.foldl (fun (s : State) (l, p, x) => s.storePlace p x n (val l)) s).popSources ls o).advance i.len)

/-- A run-ahead translation (R348) by core c for an address space: what the caches answer, or a walk for an object of which they hold an entry,
which sets neither A nor D and is dropped where it faults or A is not set. A walk is counted and its result kept (R343, R358). -/
def State.aheadXl (s : State) (c : Nat) (space va : Word) (acc : Acc) (priv : Bool) : Option Xl × State :=
  let d := dieOfCore c
  let asid := asidOf space
  let inc := incOf space
  match s.cached c asid inc va acc priv with
  | some x => (some x, s)
  | none =>
    let known := (s.core c).tlb ++ (if isLatency c then [] else get [] (s.die d).rtlb (regionOf c))
    let holds := (s.cachedDesc c asid inc (fld va 40 24)).isSome ||
      known.any fun t => t.asid == asid && t.inc == inc && t.obj == fld va 40 24 && !t.inv && s.tlbLive d t
    if (s.die d).trMode || !holds || s.flushing space then (none, s)
    else
      let s := (s.drainTables d asid va).modDie d fun k => k.addCount 5 1
      let w := s.walkTables d asid inc va acc priv
      if w.fault != 0 then (none, s.modDie d fun k => k.addCount 6 1)
      else if !w.e.a || s.homeLost (fld w.w0 60 3) (w.w0.getLsbD 59) (fld w.w1 40 20) then (none, s)
      else
        let t := w.entry asid inc (get 0 (s.die d).bumps (fld w.w0 60 3)) va acc
        (some (t.xl va), (s.install c t).installTables c ⟨asid, w.a0, w.a1⟩ ⟨asid, inc, t.obj, w.ds⟩)

/-- R345: a run-ahead request that its home refuses is dropped with its object's entries. -/
def State.aheadRefused (s : State) (c : Nat) (space : Word) (x : Xl) : Bool :=
  x.chk && !s.current (dieOfCore c) (asidOf space) (incOf space) x.obj x.gen

/-- Whether an address lies in a shard as its tables stand, whatever the caches hold (R321). -/
def State.inShard (s : State) (va : Word) : Bool :=
  let w := s.walkTables s.did (asidOf s.cur.asid) (incOf s.cur.asid) va .flush true
  !(s.die s.did).trMode && w.fault == 0 && w.w0.getLsbD 11

/-- One prefetch request (R204, R321, R348): into the L1, or with `l2` into the L2 alone. -/
def State.prefetchAt (s : State) (l2 : Bool) (pa : Nat) (i : LineId) : State :=
  let s := s.modCore s.cid fun k => { k with pfi := k.pfi + 1 }
  if l2 || (s.k.line (pa / 128)).vm = BitVec.allOnes 128 then s else s.fill s.cid (pa / 128) i true

/-- A dropped prefetch (R174). -/
def State.prefetchDrop (s : State) : State := s.modCore s.cid fun k => { k with pfs := k.pfs + 1 }

/-- A prefetch of the line at an address of a space. -/
def State.prefetchLine (s : State) (sp : Space) (l2 : Bool) (l : Nat) (va : Word) : State :=
  if sp = .chip then
    match s.placeOf .chip l l va 1 with
    | some (.chip pa) => s.prefetchAt l2 pa ⟨0, 0, 0, false⟩
    | _ => s.prefetchDrop
  else if s.inShard va then s
  else match s.aheadXl s.cid s.cur.asid va .read s.cur.priv with
  | (none, s) => s.prefetchDrop
  | (some x, s) =>
    if s.aheadRefused s.cid s.cur.asid x then ((s.countRefusal s.cid).dropObject s.cid (asidOf s.cur.asid) x.obj).prefetchDrop
    else match region x.pa with
    | .config _ => s.prefetchDrop
    | .submit _ => s.prefetchDrop
    | .nowhere => s.prefetchDrop
    | .host _ => s.prefetchDrop
    | _ => if s.uncached x.pa then s.prefetchDrop else s.prefetchAt l2 x.pa (x.lineId s.cur.asid va)

/-- The first lane of each line that a list of addresses names. -/
def distinctLines (as : List (Nat × Word)) : List (Nat × Word) :=
  as.foldl (fun r (l, a) => if r.any fun e => e.2.toNat / 128 == a.toNat / 128 then r else r ++ [(l, a)]) []

/-- `prefetch` (R204). -/
def execPrefetch (o : Operands) (m : MemMod) (s : State) : Host.Outcome State Fault Refusal :=
  let i := Instr.prefetch o m
  .next (s.gate i fun ls s => s.withOperands i ls fun ka kb _ s =>
    let as := distinctLines (s.addrs i ls ka kb)
    ((as.foldl (fun (s : State) (l, a) => s.prefetchLine m.space m.ev l a) s).popSources ls o).advance i.len)

/-- The write-back and invalidation of one line (R205); a line with pinned bytes (R175) stays as it is. -/
def State.flushLine (s : State) (line : Nat) : State :=
  if (s.k.line line).pin ≠ 0 then s else
  let s := s.publishLine .pkg s.cid line
  s.modCore s.cid fun k => if (k.line line).um &&& ~~~(k.line line).pin = 0 then k.dropLine line else k

/-- `cflush` (R205). -/
def execCflush (o : Operands) (m : MemMod) (s : State) : Host.Outcome State Fault Refusal :=
  let i := Instr.cflush o m
  .next (s.gate i fun ls s => s.withOperands i ls fun ka kb _ s =>
    let as := distinctLines (s.addrs i ls ka kb)
    let s := as.foldl (fun (s : State) (_, a) =>
      let (k, x, s) := s.translate s.cid (asidOf s.cur.asid) (incOf s.cur.asid) a .flush s.cur.priv
      if k != 0 then s else s.flushLine (x.pa / 128)) s
    (s.popSources ls o).advance i.len)

/-- A core's held stores to bytes of a rank's slice reach it before a later operation of the core on them (R188). -/
def State.flushClu (s : State) (c owner off n : Nat) : State :=
  let mine (h : CluStore) : Bool := h.core == owner && decide (off ≤ h.off) && decide (h.off < off + n)
  let held := (s.core c).cluHeld.filter mine
  if held.isEmpty then s
  else
    let s := s.modCore c fun k => { k with cluHeld := k.cluHeld.filter fun h => !mine h }
    (held.foldl (fun s h => s.modCore h.core fun k => { k with loc := set 0 k.loc h.off h.byte }) s).cluUnpoison held

/-- `phase` (R206, R207). -/
def execPhase (o : Operands) (sc : Scope) (s : State) : Host.Outcome State Fault Refusal :=
  .next (s.gate (.phase o sc) fun ls s => s.releaseThen sc (ls.headD 0) fun s => (s.phaseEnd sc).advance 8)

end Sys2Proof.Machine
end

