-- ==== Sys2Proof/Machine/FullEmpty.lean ====
section
/-! DEFINITION. The full/empty instructions (R162, R191-R194, R302-R305). -/

namespace Sys2Proof.Machine

/-- What the requesting core still holds of a word, and what its die has sent there, reaches its place first (R293, R188, R292). The word of
another package is then as that package has it (log entry 151). -/
def State.feOwn (s : State) (r : FeRef) (c : Nat) : State :=
  if !r.future then s.flushClu c r.core r.pa 4
  else if !elsewhere r.pa then s.goFar c (r.pa / 128)
  else
    let (w, s) := ((s.goFar c (r.pa / 128)).askHome r.pa 8).freshWord
    { s with futs := set FutWord.zero s.futs r.key ⟨w.getLsbD 0, none, r.asid, r.obj⟩ }

/-- R303, R304: one lane's request is performed, deferred, or refused without an effect where the slice has no free entry; the answer says
whether it was refused. A request that waits in another package is made again until it is performed there (log entry 151). -/
def State.feRequest (s : State) (r : FeRef) (e : Defer) : Bool × State :=
  let s := s.feOwn r e.core
  if s.feServes r e.op then (false, (s.fePerform r e).feServe r 4096)
  else if r.future && elsewhere r.pa then (false, s)
  else if r.future && decide (64 ≤ s.sliceDefers r.d r.slice) then (true, s.sliceCount r.d r.slice 1 1)
  else (false, s.addDefer r.d e r.future)

/-- Whether a lane of the group that issues has a request deferred. -/
def State.isDeferred (s : State) (l : Nat) : Bool :=
  s.dies.any fun (_, x) => x.defer.any fun e => e.core == s.cid && e.slot == s.sid && e.lane == l

/-- The word of a place (R191). -/
def State.feRef (s : State) (p : Place) (x : Xl) : FeRef :=
  match p with
  | .glb va => s.futureRef s.cur.asid va x
  | .loc c off => FeRef.local_ c off
  | .clu c off => FeRef.local_ c off
  | _ => FeRef.local_ s.cid 0

/-- The scope of the order that a full/empty operation implies (R194). -/
def feScope (sp : Space) (remote : Bool) : Scope :=
  match sp with
  | .clu => .clu
  | .glb => if remote then .sys else .pkg
  | _ => .core

/-- R356: the origin of consumed poison of a full/empty word. -/
def State.fePoisoned (s : State) (r : FeRef) : Option Nat :=
  if r.future then (if (s.k.line (r.pa / 128)).bad then some 3 else if s.poisoned r.pa 8 then some 1 else none)
  else if (s.core r.core).locPoisoned r.pa 4 then some 4 else none

/-- Whether an address of a future object lies in another package (R194). -/
def State.isRemote (s : State) (va : Word) : Bool :=
  match s.vaPa s.did s.cur.asid va with
  | some pa => decide (2 ^ 52 ≤ pa)
  | none => false

/-- One lane's operation (R191), and whether it was refused: 3 `stf` and 4 `setfe` act at once, the others wait for their word. -/
def State.feLane (s : State) (r : FeRef) (e : Defer) : Bool × State :=
  if e.op = 3 then
    (false, ((((s.feOwn r e.core).feWrite r e.data.toNat).setFe r true e.core e.slot).feServe r 4096).markDone (laneBit e.lane))
  else if e.op = 4 then (false, (((s.feOwn r e.core).setFe r (e.data.getLsbD 0) e.core e.slot).feServe r 4096).markDone (laneBit e.lane))
  else s.feRequest r e

/-- R192: the lanes that have neither performed nor been deferred make their checks and requests, in ascending lane order; the
path goes on once all have performed. -/
def State.feLanes (s : State) (i : Instr) (m : MemMod) (acc : Acc) (op : Nat) (ls : List Nat) (ka kb kc : Word) : State :=
  let o := i.operands
  let todo := ls.filter fun l => !s.cur.path.done.getLsbD l && !s.isDeferred l
  let data := ls.map fun l => (l, s.storeVal i kc ls (MSize.bytes m.size) l)
  let eas := s.addrs i ls ka kb
  let sc := feScope m.space (m.space == .glb && eas.any fun e => s.isRemote e.2)
  s.placed m.space (MSize.bytes m.size) (s.carried m.space i ls ka kb) (eas.filter fun e => todo.contains e.1) fun ps =>
    let (xs, s) := s.accXls acc ps
    match xs.findSome? fun (l, p, k, x) => if k = 0 then (s.fePoisoned (s.feRef p x)).map fun o => (l, p, o) else none with
    | some (l, p, o) => s.poisonPlace eas l p o
    | none => s.withXls o 4 xs fun ok s =>
      let lines := if m.space = .glb ∧ op ≠ 0 then ok.map fun e => e.2.2.pa / 128 else []
      s.unleased lines fun s =>
      let s := if m.space = .glb then s.unrec else s
      s.releaseThen (if (op = 2 ∨ op = 3) ∧ ok ≠ [] then sc else .core) (ls.headD 0) fun s =>
      let (no, s) := ok.foldl (fun (no, s) (l, p, x) =>
        let r := s.feRef p x
        let v := ((data.find? fun e => e.1 == l).map (·.2)).getD 0
        let (q, s) := s.feLane r ⟨r.slice, r.key, op, s.cid, s.sid, l, o.d, word v, m.sx⟩
        (no || q, s)) (false, s)
      let s : State := if no then s.refused else s
      if (lanesOf s.active).all fun l => !ls.contains l || s.cur.path.done.getLsbD l then
        (((if op ≤ 1 then s.discard sc s.cid else s).popSources ls o).writeLatch o.d).advance i.len
      else s.await .word

/-- `ldf` (R191). -/
def execLdf (o : Operands) (m : MemMod) (s : State) : Host.Outcome State Fault Refusal :=
  let i := Instr.ldf o m
  .next (s.gate i fun ls s => s.withOperands i ls fun ka kb kc s => s.feLanes i m .ldf 0 ls ka kb kc)

/-- `ldfe` (R191, R278). -/
def execLdfe (o : Operands) (m : MemMod) (s : State) : Host.Outcome State Fault Refusal :=
  let i := Instr.ldfe o m
  .next (s.gateStrict i fun ls s => s.withOperands i ls fun ka kb kc s => s.feLanes i m .ldfe 1 ls ka kb kc)

/-- `stef` (R191, R278). -/
def execStef (o : Operands) (m : MemMod) (s : State) : Host.Outcome State Fault Refusal :=
  let i := Instr.stef o m
  .next (s.gateStrict i fun ls s => s.withOperands i ls fun ka kb kc s => s.feLanes i m .stef 2 ls ka kb kc)

/-- `stf` (R191, R278). -/
def execStf (o : Operands) (m : MemMod) (s : State) : Host.Outcome State Fault Refusal :=
  let i := Instr.stf o m
  .next (s.gateStrict i fun ls s => s.withOperands i ls fun ka kb kc s => s.feLanes i m .stef 3 ls ka kb kc)

/-- `setfe` (R191, R278). -/
def execSetfe (o : Operands) (m : MemMod) (s : State) : Host.Outcome State Fault Refusal :=
  let i := Instr.setfe o m
  .next (s.gateStrict i fun ls s => s.withOperands i ls fun ka kb kc s => s.feLanes i m .stef 4 ls ka kb kc)

/-- DEFERRAL_RETRY: a path whose requests a slice has refused issues them again once its wait has run out (R304). -/
def execDeferralRetry (core slot : Nat) (s : State) : Host.Outcome State Fault Refusal :=
  .next { s with agenda := .issue core slot :: s.agenda }

end Sys2Proof.Machine
end

