-- ==== Sys2Proof/Machine/Atomics.lean ====
section
/-! DEFINITION. Atomics (R195-R199), `cas` and row atomics (R200-R202). -/

namespace Sys2Proof.Machine

/-- The space of an atomic (R69). -/
def AtomSpace.space : AtomSpace → Space
  | .glb => .glb | .loc => .loc | .clu => .clu | .chip => .chip

/-- R197: one indivisible read-modify-write at its place; the old value comes back. -/
def State.atomicAt (s : State) (p : Place) (x : Xl) (n : Nat) (f : Nat → Nat) : Nat × State :=
  match p with
  | .glb va => s.atArbiter s.cid x.pa n (x.lineId s.cur.asid va) f
  | .chip pa => s.atArbiter s.cid pa n ⟨0, 0, 0, false⟩ f
  | .loc c off =>
    let old := readBytes (s.core c).loc off n
    (old, s.modCore c fun k => { k with loc := writeBytes k.loc off n (f old) })
  | .clu c off =>
    let s := s.flushClu s.cid c off n
    let old := readBytes (s.core c).loc off n
    (old, s.modCore c fun k => { k with loc := writeBytes k.loc off n (f old) })
  | .acc _ => (0, s)

/-- The operations of all lanes, in ascending lane order; the old values come back. -/
def State.atomicLanes (s : State) (n : Nat) (f : Nat → Nat → Nat) : List (Nat × Place × Xl) → List (Nat × Nat) × State
  | [] => ([], s)
  | (l, p, x) :: r =>
    let (old, s) := s.atomicAt p x n (f l)
    let (olds, s) := s.atomicLanes n f r
    ((l, old) :: olds, s)

/-- The origin of R356 where the place of an atomic is poisoned; an uncorrectable copy of its line counts too. -/
def State.placePoisoned (s : State) (p : Place) (x : Xl) (n : Nat) : Option Nat :=
  let line (pa o : Nat) : Option Nat := if (s.k.line (pa / 128)).bad then some 3 else if s.poisoned pa n then some o else none
  match p with
  | .glb _ => line x.pa 1
  | .chip pa => line pa 2
  | .loc c off => if (s.core c).locPoisoned off n then some 4 else none
  | .clu c off => if (s.core c).locPoisoned off n then some 4 else none
  | .acc off => if s.k.accPoisoned off then some 5 else none

/-- R195-R199: an atomic of the acting lanes at given addresses; `f` gives a lane's new value from the old one. -/
def State.atomic (s : State) (i : Instr) (m : AtomMod) (carried : Nat → Bool) (ls : List Nat) (eas : List (Nat × Word))
    (f : Nat → Nat → Nat) : State :=
  let n := MSize.bytes m.size
  let o := i.operands
  s.placed (AtomSpace.space m.sp) n carried eas fun ps =>
    let (xs, s) := s.accXls .rmw ps
    match xs.findSome? fun (l, p, k, x) => if k = 0 then (s.placePoisoned p x n).map fun o => (l, p, o) else none with
    | some (l, p, o) => s.poisonPlace eas l p o
    | none => s.withXls o 2 xs fun ok s =>
      s.unleased (if m.sp = .glb then ok.map fun e => e.2.2.pa / 128 else []) fun s =>
      s.unrec.releaseThen (if m.ord = .rel ∨ m.ord = .ar then m.scope else .core) (ls.headD 0) fun s =>
      let (olds, s) := s.atomicLanes n f ok
      let s := if m.ord = .acq ∨ m.ord = .ar then s.acquire m.scope s.cid else s
      ((s.popSources ls o).writeDst o.d (olds.map (·.1)) fun l =>
        word (((olds.find? fun e => e.1 == l).map (·.2)).getD 0)).advance i.len

/-- `amo` and `amo.f`: an operation with operand c at [a, b]. -/
def State.amo (s : State) (i : Instr) (m : AtomMod) (op : AtomOp) (ls : List Nat) : State :=
  s.withOperands i ls fun ka kb kc s =>
    let n := MSize.bytes m.size
    let vals := ls.map fun l => (l, s.storeVal i kc ls n l)
    s.atomic i m (s.carried (AtomSpace.space m.sp) i ls ka kb) ls (s.addrs i ls ka kb) fun l old =>
      op.apply n old (((vals.find? fun e => e.1 == l).map (·.2)).getD 0)

/-- The operations that a stage may use (R277). -/
def State.amoFree (s : State) (i : Instr) (m : AtomMod) (op : AtomOp) : State := s.gate i fun ls s => s.amo i m op ls

/-- The operations that a STRICT cassette forbids (R278). -/
def State.amoStrict (s : State) (i : Instr) (m : AtomMod) (op : AtomOp) : State := s.gateStrict i fun ls s => s.amo i m op ls

/-- `amo.add` (R196). -/
def execAmoAdd (o : Operands) (m : AtomMod) (s : State) : Host.Outcome State Fault Refusal := .next (s.amoFree (.amoAdd o m) m .add)

/-- `amo.or` (R196). -/
def execAmoOr (o : Operands) (m : AtomMod) (s : State) : Host.Outcome State Fault Refusal := .next (s.amoFree (.amoOr o m) m .or)

/-- `amo.and` (R196, R278). -/
def execAmoAnd (o : Operands) (m : AtomMod) (s : State) : Host.Outcome State Fault Refusal := .next (s.amoStrict (.amoAnd o m) m .and)

/-- `amo.xor` (R196, R278). -/
def execAmoXor (o : Operands) (m : AtomMod) (s : State) : Host.Outcome State Fault Refusal := .next (s.amoStrict (.amoXor o m) m .xor)

/-- `amo.smin` (R196). -/
def execAmoSmin (o : Operands) (m : AtomMod) (s : State) : Host.Outcome State Fault Refusal := .next (s.amoFree (.amoSmin o m) m .smin)

/-- `amo.smax` (R196). -/
def execAmoSmax (o : Operands) (m : AtomMod) (s : State) : Host.Outcome State Fault Refusal := .next (s.amoFree (.amoSmax o m) m .smax)

/-- `amo.umin` (R196). -/
def execAmoUmin (o : Operands) (m : AtomMod) (s : State) : Host.Outcome State Fault Refusal := .next (s.amoFree (.amoUmin o m) m .umin)

/-- `amo.umax` (R196). -/
def execAmoUmax (o : Operands) (m : AtomMod) (s : State) : Host.Outcome State Fault Refusal := .next (s.amoFree (.amoUmax o m) m .umax)

/-- `amo.xchg` (R196, R278). -/
def execAmoXchg (o : Operands) (m : AtomMod) (s : State) : Host.Outcome State Fault Refusal := .next (s.amoStrict (.amoXchg o m) m .xchg)

/-- `amo.fadd` (R196, R278). -/
def execAmoFadd (o : Operands) (m : AtomMod) (s : State) : Host.Outcome State Fault Refusal := .next (s.amoStrict (.amoFadd o m) m .fadd)

/-- `amo.f.add` (R196). -/
def execAmoFAdd (o : Operands) (m : AtomMod) (s : State) : Host.Outcome State Fault Refusal := .next (s.amoFree (.amoFAdd o m) m .add)

/-- `amo.f.or` (R196). -/
def execAmoFOr (o : Operands) (m : AtomMod) (s : State) : Host.Outcome State Fault Refusal := .next (s.amoFree (.amoFOr o m) m .or)

/-- `amo.f.and` (R196, R278). -/
def execAmoFAnd (o : Operands) (m : AtomMod) (s : State) : Host.Outcome State Fault Refusal := .next (s.amoStrict (.amoFAnd o m) m .and)

/-- `amo.f.xor` (R196, R278). -/
def execAmoFXor (o : Operands) (m : AtomMod) (s : State) : Host.Outcome State Fault Refusal := .next (s.amoStrict (.amoFXor o m) m .xor)

/-- `amo.f.smin` (R196). -/
def execAmoFSmin (o : Operands) (m : AtomMod) (s : State) : Host.Outcome State Fault Refusal := .next (s.amoFree (.amoFSmin o m) m .smin)

/-- `amo.f.smax` (R196). -/
def execAmoFSmax (o : Operands) (m : AtomMod) (s : State) : Host.Outcome State Fault Refusal := .next (s.amoFree (.amoFSmax o m) m .smax)

/-- `amo.f.umin` (R196). -/
def execAmoFUmin (o : Operands) (m : AtomMod) (s : State) : Host.Outcome State Fault Refusal := .next (s.amoFree (.amoFUmin o m) m .umin)

/-- `amo.f.umax` (R196). -/
def execAmoFUmax (o : Operands) (m : AtomMod) (s : State) : Host.Outcome State Fault Refusal := .next (s.amoFree (.amoFUmax o m) m .umax)

/-- `amo.f.xchg` (R196, R278). -/
def execAmoFXchg (o : Operands) (m : AtomMod) (s : State) : Host.Outcome State Fault Refusal := .next (s.amoStrict (.amoFXchg o m) m .xchg)

/-- `amo.f.fadd` (R196, R278). -/
def execAmoFFadd (o : Operands) (m : AtomMod) (s : State) : Host.Outcome State Fault Refusal := .next (s.amoStrict (.amoFFadd o m) m .fadd)

/-- `cas` (R195, R196, R278): [a] alone is the address, b the expected value, c the new one. -/
def execCas (o : Operands) (m : AtomMod) (s : State) : Host.Outcome State Fault Refusal :=
  let i := Instr.cas o m
  let n := MSize.bytes m.size
  .next (s.gateStrict i fun ls s => s.withOperands i ls fun ka kb kc s =>
    let ((ta, a), (tb, b), _) := i.sources
    let eas := ls.map fun l => (l, s.src ta ka ls l a)
    let vals := ls.map fun l => (l, (s.src tb kb ls l b).toNat % 2 ^ (8 * n), s.storeVal i kc ls n l)
    s.atomic i m (fun _ => false) ls eas fun l old =>
      match vals.find? fun e => e.1 == l with
      | some (_, e, v) => if old = e then v else old
      | none => old)

/-- One BF16 element of a row (R201). -/
def rowElem (row k v : Nat) : Nat := faddBits Fp.bf16 (row / 2 ^ (16 * k) % 2 ^ 16) v

/-- The 16 bytes that a lane adds, as eight BF16 sums (R201). -/
def rowAdd (old lo hi : Nat) : Nat :=
  (List.range 8).foldl (fun r k => r + rowElem old k ((lo + hi * 2 ^ 64) / 2 ^ (16 * k) % 2 ^ 16) * 2 ^ (16 * k)) 0

/-- R201, R317, R324: the row update at its home, one write: its marks, each block once, and then the bytes of each lane. -/
def State.addRow (s : State) (pa : Nat) (i : LineId) (ls : List (Nat × Nat × Nat)) : State :=
  let offs := ls.flatMap fun (l, _, _) => (List.range 16).map fun k => fld i.va 0 40 + 16 * l + k
  let s := if i.chk then s.mark i.asid (fld i.va 40 24) offs else s
  ls.foldl (fun s (l, lo, hi) =>
    let a := pa + 16 * l
    s.commit a 16 (rowAdd (s.rd a 16) lo hi) { i with va := i.va + word (16 * l / 128 * 128), chk := false } none) s

/-- `vamo.row` (R200-R202, R278, R425). -/
def execVamoRow (o : Operands) (m : RowMod) (s : State) : Host.Outcome State Fault Refusal :=
  let i := Instr.vamoRow o m
  .next (s.gateStrict i fun ls s => s.withOperands i ls fun ka kb _ s =>
    let l0 := ls.headD 0
    let row := ((s.addrs i ls ka kb).headD (0, 0)).2
    let c := match o.c with | .x n => n.toNat | _ => 0
    if row.toNat % 512 ≠ 0 then s.segFault row (maskOf ls)
    else
      let (k, x, s) := s.translate s.cid (asidOf s.cur.asid) (incOf s.cur.asid) row .row s.cur.priv
      if k ≠ 0 then s.keepWhole 2 0 [(l0, row, k)]
      else if (List.range 4).any (fun j => (s.k.line (x.pa / 128 + j)).bad) then s.poisonTrap row 3
      else if s.poisoned x.pa 512 then s.poisonTrap row 1
      else
        s.unleased ([0, 1, 2, 3].map (x.pa / 128 + ·)) fun s =>
        s.unrec.releaseThen (if m.ord = .rel ∨ m.ord = .ar then m.scope else .core) l0 fun s =>
        let s := [0, 1, 2, 3].foldl (fun s j => s.goFar s.cid (x.pa / 128 + j)) s
        let s := s.addRow x.pa (x.lineId s.cur.asid row)
          (ls.map fun l => (l, (s.cur.x l c).toNat, (s.cur.x l (c + 1)).toNat))
        let s := if m.ord = .acq ∨ m.ord = .ar then s.acquire m.scope s.cid else s
        (s.popSources ls o).advance i.len)

end Sys2Proof.Machine
end

