-- ==== Sys2Proof/Machine/Async.lean ====
section
/-! DEFINITION. Async barrier objects and rings (R215-R219) and the asynchronous copy engine (R208-R214, R294). -/

namespace Sys2Proof.Machine

/-! Words of a local share -/

/-- n bytes of a core's local share. -/
def State.locRd (s : State) (c off n : Nat) : Nat := readBytes (s.core c).loc off n

/-- Writes n bytes of a core's local share. -/
def State.locWr (s : State) (c off n v : Nat) : State := s.modCore c fun k => { k with loc := writeBytes k.loc off n v }

/-! Async barrier objects -/

/-- One signal (R215, R216): an amount, and whether a command ended in error. -/
def State.abarSignal (s : State) (c off : Nat) (amount : Word) (err : Bool) : State :=
  let count := (word (s.locRd c off 8) + amount).toNat
  let w1 := s.locRd c (off + 8) 8
  let sig := (w1 / 2 ^ 32 + 1) % 2 ^ 32
  let low := w1 % 2 ^ 32
  (s.locWr c off 8 count).locWr c (off + 8) 8 (sig * 2 ^ 32 + (if err then Nat.lor low 1 else low))

/-- R215: a target has been reached. -/
def abarReached (count target : Word) : Bool := decide ((count - target).toNat < 2 ^ 63)

/-! Rings -/

/-- A ring descriptor (R217) as its core and the offset in its local share. -/
structure RingRef where
  core : Nat
  off : Nat
deriving DecidableEq, Repr

/-- BASE. -/
def State.ringBaseOf (s : State) (r : RingRef) : Word := word (s.locRd r.core r.off 8)
/-- GEOM. -/
def State.ringGeom (s : State) (r : RingRef) : Word := word (s.locRd r.core (r.off + 8) 8)
/-- NSLOT. -/
def State.ringN (s : State) (r : RingRef) : Nat := fld (s.ringGeom r) 0 9
/-- SLOTSZ. -/
def State.ringSlotSize (s : State) (r : RingRef) : Nat := fld (s.ringGeom r) 32 32
/-- RSV. -/
def State.ringRsv (s : State) (r : RingRef) : Nat := s.locRd r.core (r.off + 0x10) 4
/-- GET. -/
def State.ringGet (s : State) (r : RingRef) : Nat := s.locRd r.core (r.off + 0x14) 4
/-- FLAGS. -/
def State.ringFlags (s : State) (r : RingRef) : Word := word (s.locRd r.core (r.off + 0x18) 8)

/-- STATE of slot i: 0 free, 1 reserved, 2 published, 3 taken. -/
def State.slotState (s : State) (r : RingRef) (i : Nat) : Nat := s.locRd r.core (r.off + 0x20 + i / 4) 1 / 4 ^ (i % 4) % 4

/-- Sets STATE of a slot. -/
def State.setSlotState (s : State) (r : RingRef) (i v : Nat) : State :=
  let a := r.off + 0x20 + i / 4
  let b := s.locRd r.core a 1
  s.locWr r.core a 1 (b - b / 4 ^ (i % 4) % 4 * 4 ^ (i % 4) + v * 4 ^ (i % 4))

/-- ERR := 1. -/
def State.ringErr (s : State) (r : RingRef) : State :=
  s.locWr r.core (r.off + 0x18) 8 (Nat.lor (s.ringFlags r).toNat 1)

/-- R218: the descriptor at a `.loc` offset of a group with these segments, if it passes the check. -/
def State.ringAt (s : State) (core : Nat) (segs : Sparse Seg) (o : Nat) : Option RingRef :=
  if o % 32 ≠ 0 then none
  else match segOffset (get ⟨0, 0⟩ segs 1) o 96 none with
  | none => none
  | some off =>
    let r : RingRef := ⟨core, off⟩
    let b := s.ringBaseOf r
    let n := s.ringN r
    let size := s.ringSlotSize r
    if n = 0 || decide (256 < n) || fld (s.ringGeom r) 9 23 != 0 || fld (s.ringFlags r) 1 63 != 0 || decide (size < 16) ||
        size % 16 != 0 || fld b 40 24 != 0 || decide (2 ≤ fld b 36 4) || (fld b 36 4 == 0 && fld b 32 4 != 0) || decide (12 ≤ fld b 32 4) then none
    else some r

/-- `ring.rsv` of one lane (R218): the slot, if one is free. -/
def State.reserveSlot (s : State) (r : RingRef) : Option (Nat × State) :=
  let i := s.ringRsv r % s.ringN r
  if s.slotState r i = 0 then some (i, (s.setSlotState r i 1).locWr r.core (r.off + 0x10) 4 ((s.ringRsv r + 1) % 2 ^ 32)) else none

/-- `ring.get` of one lane: the slot, if one is published. -/
def State.takeSlot (s : State) (r : RingRef) : Option (Nat × State) :=
  let i := s.ringGet r % s.ringN r
  if s.slotState r i = 2 then some (i, (s.setSlotState r i 3).locWr r.core (r.off + 0x14) 4 ((s.ringGet r + 1) % 2 ^ 32)) else none

/-- `ring.pub` (v = 2 from 1) and `ring.put` (v = 0 from 3) of one lane (R218). -/
def State.moveSlot (s : State) (r : RingRef) (i src v : Nat) : State :=
  if i < s.ringN r ∧ s.slotState r i = src then s.setSlotState r i v else s.ringErr r

/-! Engine addresses and copy commands -/

/-- LEN, or LOFF, of a completion word (R208). -/
def compLow (w : Word) : Nat := fld w 0 32
/-- CK of a completion word. -/
def compCk (w : Word) : Nat := fld w 38 2
/-- COMP of a completion word. -/
def compObj (w : Word) : Nat := fld w 40 24

/-- The place of n bytes at an engine address (R182, R154) for a team on a core with these segments. -/
def State.enginePlace (s : State) (core team : Nat) (segs : Sparse Seg) (a : Word) (n : Nat) : Option Place :=
  let sg (i : Nat) : Seg := get ⟨0, 0⟩ segs i
  if fld a 40 24 ≠ 0 then some (.glb a)
  else if fld a 36 4 = 0 then
    (if fld a 32 4 = 0 then (segOffset (sg 1) (fld a 0 32) n none).map (.loc core) else none)
  else if fld a 36 4 = 1 then
    (s.cluAt core team (sg 2) (fld a 32 4) (fld a 0 32) n).map fun (c, off) => .loc c off
  else if fld a 36 4 = 2 then
    (if fld a 32 4 = 0 then (segOffset (sg 3) (fld a 0 32) n none).map fun o => .chip (chipAddr (dieOfCore core) o) else none)
  else none

/-- The place k bytes further on. -/
def Place.plus (p : Place) (k : Nat) : Place :=
  match p with
  | .glb a => .glb (a + word k)
  | .chip pa => .chip (pa + k)
  | .loc c off => .loc c (off + k)
  | .clu c off => .clu c (off + k)
  | .acc off => .acc (off + k)

/-- The ring slot that holds n bytes at an engine address (R209, R210). -/
def State.slotOf (s : State) (r : RingRef) (a : Word) (n : Nat) : Option Nat :=
  let b := s.ringBaseOf r
  let size := s.ringSlotSize r
  let off := fld a 0 32
  let i := (off - fld b 0 32) / size
  if fld a 32 32 = fld b 32 32 ∧ fld b 0 32 ≤ off ∧ i < s.ringN r ∧ off + n ≤ fld b 0 32 + (i + 1) * size then some i else none

/-! Shape records (R213) -/

/-- n bytes of a shape record at an offset. -/
def shapeField (sh : BitVec 1024) (off n : Nat) : Nat := sh.toNat / 2 ^ (8 * off) % 2 ^ (8 * n)
/-- CTRL. -/
def shapeCtrl (sh : BitVec 1024) : Word := word (shapeField sh 8 8)
/-- The element size in bytes. -/
def shapeEsz (sh : BitVec 1024) : Nat := 2 ^ fld (shapeCtrl sh) 0 3
/-- PERM. -/
def shapePerm (sh : BitVec 1024) : Nat := fld (shapeCtrl sh) 8 2
/-- EXTk. -/
def shapeExt (sh : BitVec 1024) (k : Nat) : Nat := shapeField sh (0x10 + 16 * k) 4
/-- BOXk. -/
def shapeBox (sh : BitVec 1024) (k : Nat) : Nat := shapeField sh (0x14 + 16 * k) 2
/-- STEPk. -/
def shapeStep (sh : BitVec 1024) (k : Nat) : Nat := shapeField sh (0x16 + 16 * k) 2
/-- STRk, signed. -/
def shapeStr (sh : BitVec 1024) (k : Nat) : Int := sint (word (shapeField sh (0x18 + 16 * k) 8))

/-- The box's element count over dimensions lo .. n - 1. -/
def boxProduct (sh : BitVec 1024) (lo n : Nat) : Nat := ((List.range n).filter fun k => decide (lo ≤ k)).foldl (fun p k => p * shapeBox sh k) 1

/-- Row pitch of the local tile (R214). -/
def shapePitch (sh : BitVec 1024) : Nat := shapeEsz sh * shapeBox sh 0 + (if shapePerm sh = 2 then 16 else 0)

/-- Bytes that the local tile occupies (R214). -/
def shapeSpan (sh : BitVec 1024) (n : Nat) : Nat := shapePitch sh * boxProduct sh 1 n

/-- R213: malformed for N = n dimensions. -/
def shapeBad (sh : BitVec 1024) (n : Nat) : Bool :=
  let c := shapeCtrl sh
  let rb := shapeEsz sh * shapeBox sh 0
  fld c 12 20 != 0 || fld c 10 2 == 3 || fld c 8 2 == 3 || fld c 7 1 != 0 || fld c 3 1 != 0 || decide (5 ≤ fld c 0 3) ||
  fld c 4 3 != n || n == 0 ||
  ((List.range 7).any fun k =>
    if k < n then shapeExt sh k == 0 || shapeBox sh k == 0 || shapeStep sh k == 0
    else shapeExt sh k != 0 || shapeBox sh k != 0 || shapeStep sh k != 0 || shapeField sh (0x18 + 16 * k) 8 != 0) ||
  decide (2 ^ 18 < shapeSpan sh n) || (shapePerm sh != 0 && rb % 16 != 0) || (shapePerm sh == 1 && rb == 16) ||
  shapeField sh 0 8 % shapeEsz sh != 0

/-- The index of dimension k of the i-th element of the box. -/
def boxIndex (sh : BitVec 1024) (i k : Nat) : Nat := i / boxProduct sh 0 k % shapeBox sh k

/-- The local offset of the i-th element from LOFF (R214). -/
def tileOffset (sh : BitVec 1024) (i : Nat) : Nat :=
  let row := i / shapeBox sh 0
  let o := shapeEsz sh * (i % shapeBox sh 0)
  let nch := shapeEsz sh * shapeBox sh 0 / 16
  let o := if shapePerm sh = 1 then 16 * ((o / 16 + row) % nch) + o % 16 else o
  shapePitch sh * row + o

/-- The tensor coordinate of dimension k of the i-th element (R214). -/
def tensorCoord (sh : BitVec 1024) (coords : List Word) (i k : Nat) : Int :=
  sint (coords.getD k 0) + boxIndex sh i k * shapeStep sh k

/-- Whether the i-th element lies inside the extents. -/
def insideTensor (sh : BitVec 1024) (coords : List Word) (n i : Nat) : Bool :=
  (List.range n).all fun k => let t := tensorCoord sh coords i k; decide (0 ≤ t) && decide (t < shapeExt sh k)

/-- The `.glb` address of the i-th element. -/
def tensorAddr (sh : BitVec 1024) (coords : List Word) (n i : Nat) : Word :=
  ofInt ((List.range n).foldl (fun g k => g + shapeStr sh k * tensorCoord sh coords i k) (shapeField sh 0 8))

/-- The element that an outside coordinate loads; none keeps the local bytes (R214). -/
def tileFill (sh : BitVec 1024) : Option Nat :=
  let f := fld (shapeCtrl sh) 32 32
  match fld (shapeCtrl sh) 10 2 with
  | 0 => some 0
  | 1 => some ((if shapeEsz sh ≤ 4 then f else f + 2 ^ 32 * f + 2 ^ 64 * f + 2 ^ 96 * f) % 2 ^ (8 * shapeEsz sh))
  | _ => none

/-! The engine's moves -/

/-- One move of a command: n bytes from a place, or a constant, to a place. -/
structure Move where
  src : Option Place
  const : Nat
  dst : Place
  n : Nat
deriving DecidableEq, Repr

/-- Whether the ranges of a `cpy` overlap. -/
def overlap (p q : Place) (n : Nat) : Bool :=
  let near (a b : Nat) : Bool := decide (a < b + n) && decide (b < a + n)
  match p, q with
  | .glb a, .glb b => near a.toNat b.toNat
  | .chip a, .chip b => near a b
  | .loc c a, .loc d b => c == d && near a b
  | _, _ => false

/-- The chunks of a `cpy` (R212); where the ranges overlap, a free value decides chunk by chunk whether it is copied. -/
def State.cpyMoves (s : State) (p q : Place) (n : Nat) : List Move × State :=
  (List.range (n / 16)).foldl (fun ((ms, s) : List Move × State) j =>
    let m : Move := ⟨some (p.plus (16 * j)), 0, q.plus (16 * j), 16⟩
    if overlap p q n then
      let (w, s) := s.freshWord
      (if w.getLsbD 0 then ms ++ [m] else ms, s)
    else (ms ++ [m], s)) ([], s)

/-- The moves of a `tld` or `tst` (R214) for a tile at a place. -/
def tileMoves (load : Bool) (sh : BitVec 1024) (coords : List Word) (tile : Place) : List Move :=
  let n := coords.length
  (List.range (boxProduct sh 0 n)).filterMap fun i =>
    let l := tile.plus (tileOffset sh i)
    let e := shapeEsz sh
    if insideTensor sh coords n i then
      let g : Place := .glb (tensorAddr sh coords n i)
      some (if load then ⟨some g, 0, l, e⟩ else ⟨some l, 0, g, e⟩)
    else if load then (tileFill sh).map fun v => ⟨none, v, l, e⟩
    else none

/-- The engine address of a tile (R208): TSP, RANK and LOFF as R182 lays them out. -/
def tileEngineAddr (comp : Word) : Word := word (fld comp 36 2 * 2 ^ 36 + fld comp 32 4 * 2 ^ 32 + compLow comp)

/-- The moves of a command. -/
def State.cmdMoves (s : State) (core : Nat) (a : AsyncCmd) : List Move × State :=
  if a.kind = 0 then
    let n := compLow a.comp
    match s.enginePlace core a.team a.segs a.src n, s.enginePlace core a.team a.segs a.dst n with
    | some p, some q => s.cpyMoves p q n
    | _, _ => ([], s)
  else match s.enginePlace core a.team a.segs (tileEngineAddr a.comp) (shapeSpan a.shape a.coords.length) with
  | some p => (tileMoves (a.kind = 1) a.shape a.coords p, s)
  | none => ([], s)

/-- A byte that a command moves, after translation: where from, or a constant, and where to. Local bytes are (core, offset). -/
inductive Spot
  | mem (pa : Nat) (id : LineId) (view : Bool) (obj : Nat) (off : Nat)
  | share (core off : Nat)
deriving DecidableEq, Repr

/-- The translation of one byte of a place by a core's engine: the fault kind, or where it lies. -/
def State.engineSpot (s : State) (core : Nat) (asid : Word) (p : Place) (acc : Acc) : Nat × Spot × State :=
  match p with
  | .glb va =>
    let (k, x, s) := s.translate core (asidOf asid) (incOf asid) va acc false
    (k, .mem x.pa (x.lineId asid va) x.vsh x.obj (fld va 0 40), s)
  | .chip pa => (0, .mem pa ⟨0, 0, 0, false⟩ false 0 0, s)
  | .loc c off => (0, .share c off, s)
  | .clu c off => (0, .share c off, s)
  | .acc off => (0, .share core off, s)

/-- What the translations of a command answer. -/
inductive Resolved
  | ok (bytes : List (Option Spot × Byte × Spot))
  | fault (kind : Nat) (va : Word) (acc : Nat)
deriving DecidableEq, Repr

/-- The translations of the bytes of all moves; the first that faults decides. -/
def State.resolveBytes (s : State) (core : Nat) (asid : Word) :
    List (Option Place × Byte × Place) → List (Option Spot × Byte × Spot) → Resolved × State
  | [], done => (.ok done.reverse, s)
  | (p, b, q) :: r, done =>
    let (k, src, s) := match p with
      | some p => let (k, x, s) := s.engineSpot core asid p .read; (k, some x, s)
      | none => (0, none, s)
    if k ≠ 0 then (.fault k ((p.map Place.va).getD 0) 0, s)
    else
      let (k, dst, s) := s.engineSpot core asid q .write
      if k ≠ 0 then (.fault k q.va 1, s) else s.resolveBytes core asid r ((src, b, dst) :: done)

/-- The bytes of a move. -/
def Move.bytes (m : Move) : List (Option Place × Byte × Place) :=
  (List.range m.n).map fun j => (m.src.map (·.plus j), BitVec.ofNat 8 (m.const / 256 ^ j), m.dst.plus j)

/-- A view block that a command reads: the die whose table has the view, its entry, the block, where the command first reads it, and all its
bytes there. -/
structure ReadBlock where
  d : Nat
  n : Nat
  b : Nat
  va : Word
  pa : Nat
  pas : List Nat
deriving DecidableEq, Repr

/-- The view blocks that a command reads, each once (R321). -/
def State.viewBlocks (s : State) (asid : Word) (bytes : List (Option Spot × Byte × Spot)) : List ReadBlock :=
  bytes.foldl (fun bs (p, _, _) => match p with
    | some (.mem pa _ true obj off) => match s.shardView asid obj with
      | some (d, n, v, i) => match v.blockAt i off with
        | some b =>
          let same (e : ReadBlock) : Bool := e.d == d && e.n == n && e.b == b
          if bs.any same then bs.map fun e => if same e then { e with pas := e.pas ++ [pa] } else e
          else bs ++ [⟨d, n, b, word (obj * 2 ^ 40 + off), pa, [pa]⟩]
        | none => bs
      | none => bs
    | _ => bs) []

/-- The check of one block (R322), with its count, where the held reads `rs` have no answer for it. -/
def State.checkRead (s : State) (rs : List ViewRead) (e : ReadBlock) : Checked × State :=
  match s.view? e.d e.n, replyAt rs e.pa with
  | _, some (0, _) => (.ok, s)
  | _, some (k, _) => (.fault k, s)
  | none, none => (.ok, s)
  | some v, none => s.checkBlocks e.d e.n v [e.b]

/-- What the checks of a command's blocks decide (R322): a fault with the view's handle and the address, a held read and whether it was
refused, or that the command goes on. -/
inductive CmdCheck
  | ok
  | fault (kind : Nat) (view va : Word)
  | held (refused : Bool)
deriving DecidableEq, Repr

/-- The fault of the first block that faults. -/
def State.faultRead (s : State) (rs : List ViewRead) (bs : List ReadBlock) : Option (CmdCheck × State) :=
  bs.findSome? fun (e : ReadBlock) => match s.checkRead rs e with
    | (.fault k, t) => some (.fault k (((s.view? e.d e.n).map View.handle).getD 0) e.va, t)
    | _ => none

/-- The checks of all blocks: one that faults decides, then those that hold the command. -/
def State.checkReads (s : State) (core tag : Nat) (bs : List ReadBlock) : CmdCheck × State :=
  let rs := s.heldViews core 64 tag
  let isHeld (e : ReadBlock) : Bool := match (s.checkRead rs e).1 with | .held _ => true | _ => false
  match s.faultRead rs bs with
  | some r => r
  | none => match bs.filter isHeld with
    | [] => (.ok, bs.foldl (fun s (e : ReadBlock) => ((s.checkRead rs e).2).dropReads e.d e.n core 64 tag [e.b]) s)
    | hs =>
      let (no, s) := hs.foldl (fun (no, s) (e : ReadBlock) =>
        let (r, s) := s.holdRead e.d e.n (homeOf s e.pa) e.pa (s.sliceOf (e.pa / 128)) core 64 tag e.b e.pas
        (no || r, s)) (false, s)
      (.held no, s)

/-- The value of a source byte (R294), that of a shard as its home has it or as a held read was answered (R321, R322), and whether it is
poisoned (R356). -/
def State.spotByte (s : State) (core : Nat) (rs : List ViewRead) (p : Spot) : Byte × Bool :=
  match p with
  | .mem pa _ true _ _ => (((replyAt rs pa).map (·.2)).getD (byteAt s.mem pa), s.poisoned pa 1)
  | .mem pa _ false _ _ =>
    let l := (s.core core).line (pa / 128)
    (s.engineByte core pa, if l.um.getLsbD (pa % 128) then l.bad else s.poisoned pa 1)
  | .share c off => (byteAt (s.core c).loc off, (s.core c).poison.contains (off / 16))

/-- The writes of a command to one line. -/
structure LineWrite where
  line : Nat
  mask : BitVec 128
  data : BitVec 1024
  id : LineId
deriving DecidableEq, Repr

/-- Adds a byte to the lines that a command writes. A byte that the command has already written keeps one of the two values,
which a free value chooses (R214). -/
def State.addByte (s : State) (ws : List LineWrite) (pa : Nat) (b : Byte) (id : LineId) : List LineWrite × State :=
  match ws.find? fun w => w.line == pa / 128 with
  | none => (ws ++ [⟨pa / 128, byteMask (pa % 128) 1, setLineByte 0 (pa % 128) b, id⟩], s)
  | some w =>
    let put (w : LineWrite) : LineWrite :=
      if w.line == pa / 128 then { w with mask := w.mask ||| byteMask (pa % 128) 1, data := setLineByte w.data (pa % 128) b } else w
    if w.mask.getLsbD (pa % 128) then
      let (f, s) := s.freshWord
      (if f.getLsbD 0 then ws.map put else ws, s)
    else (ws.map put, s)

/-- What a command's reads do besides giving bytes: another package's home answers for its own (R415), and each line of a submission page that
is read counts as a discarded request (R399). -/
def State.readFar (s : State) (core : Nat) (bytes : List (Option Spot × Byte × Spot)) : State :=
  let pas := bytes.filterMap fun (p, _, _) => match p with | some (.mem pa _ _ _ _) => some pa | _ => none
  let far := pas.filter fun pa => elsewhere pa && !((s.core core).line (pa / 128)).um.getLsbD (pa % 128)
  let s := far.dedup.foldl (fun s pa => s.askHome pa 1) s
  (pas.map (· / 128)).dedup.foldl (fun s line => match region (128 * line) with
    | .submit _ => s.discardSubmit (128 * line)
    | _ => s) s

/-- Performs the moves: local bytes at once, lines of `.glb` and `.chip` as one write each (R294). A granule that is written as a whole loses
its poison, and poison is carried (R356). -/
def State.moveBytes (s : State) (core : Nat) (rs : List ViewRead) (bytes : List (Option Spot × Byte × Spot)) : State :=
  let s := s.readFar core bytes
  let src (s : State) (p : Option Spot) (b : Byte) : Byte × Bool := match p with
    | some p => s.spotByte core rs p
    | none => (b, false)
  let vals := bytes.map fun (p, b, q) => (src s p b, q)
  let (ws, s) := vals.foldl (fun ((ws, s) : List LineWrite × State) ((b, _), q) => match q with
    | .mem pa id _ _ _ => s.addByte ws pa b id
    | .share c off => (ws, s.modCore c fun k => { k with loc := set 0 k.loc off b })) ([], s)
  let s := ws.foldl (fun s w => s.commitLine w.line w.mask w.data w.id none) s
  let s := s.cluUnpoison (vals.filterMap fun ((b, _), q) => match q with | .share c off => some ⟨c, off, b⟩ | _ => none)
  vals.foldl (fun s ((_, bad), q) =>
    if !bad then s
    else match q with
    | .mem pa _ _ _ _ => if s.poison.contains (pa / 128) then s else { s with poison := s.poison ++ [pa / 128] }
    | .share c off => s.modCore c fun k =>
      if k.poison.contains (off / 16) then k else { k with poison := k.poison ++ [off / 16] }) s

/-- The byte count that a command signals (R212, R214). -/
def AsyncCmd.count (a : AsyncCmd) : Nat :=
  if a.kind = 0 then compLow a.comp else shapeEsz a.shape * boxProduct a.shape 0 a.coords.length

/-- Signals the completion of a command (R210). -/
def State.signalComp (s : State) (core : Nat) (a : AsyncCmd) (err : Bool) : State :=
  match compCk a.comp with
  | 1 => match segOffset (get ⟨0, 0⟩ a.segs 1) (compObj a.comp) 16 none with
    | some off => s.abarSignal core off (word a.count) err
    | none => s
  | 2 => match s.ringAt core a.segs (compObj a.comp) with
    | none => s
    | some r =>
      let n := compLow a.comp
      let s := if err then s.ringErr r else s
      if a.kind = 0 then
        match s.slotOf r a.dst n, s.slotOf r a.src n with
        | some i, _ => s.moveSlot r i 1 2
        | none, some i => s.moveSlot r i 3 0
        | none, none => s
      else match s.slotOf r (tileEngineAddr a.comp) (shapeSpan a.shape a.coords.length) with
      | some i => if a.kind = 1 then s.moveSlot r i 1 2 else s.moveSlot r i 3 0
      | none => s
  | _ => s

/-- What keeps the release of a command from being complete (R210, R345, R418): none, or the first fault kind that does so, 0 where the bytes
just wait, with its address. -/
def State.relWaits (s : State) (core : Nat) (a : AsyncCmd) : Option (Nat × Word) :=
  if !a.rel || a.scope == .core then none
  else
    let ls := ((s.release a.scope core).leftover core).map fun e => ((s.release a.scope core).stuckKind core e.1 e.2.1 e.2.2, e.2.1)
    (ls.find? fun e => e.1 != 0).or ls.head?

/-- The end of a command: its release, its signal, and the end of a team that waited for it (R210, R25). -/
def State.endCmd (s : State) (core : Nat) (a : AsyncCmd) (err : Bool) : State :=
  let s := if a.rel && !err then s.release a.scope core else s
  (s.signalComp core a err).endTeam core a.team a.asid

/-- Removes the idx-th command of a core. -/
def State.dropCmd (s : State) (core idx : Nat) : State := s.modCore core fun k => { k with async := k.async.eraseIdx idx }

/-- Changes the idx-th command of a core. -/
def State.modCmd (s : State) (core idx : Nat) (f : AsyncCmd → AsyncCmd) : State :=
  s.modCore core fun k => match at? k.async idx with
    | some a => { k with async := setAt k.async idx (f a) }
    | none => k

/-- R210: a command stalls on a fault record, once there is room for it (R354). -/
def State.stallCmd (s : State) (core idx : Nat) (a : AsyncCmd) (kind acc : Nat) (va view : Word) : State :=
  let d := dieOfCore core
  if !s.recordRoom d 1 then s else
  let r : FRec := { FRec.blank with
    src := 2, cause := 0x14, kind := kind, acc := acc, needc := true, addr := va, team := (s.teamAt core a.team).id.toNat,
    core := core, slot := a.slot, lane := a.lane, ctx := spaceWord a.asid (s.genOf d a.asid va), detail := view,
    target := .engine core a.tag }
  let (q, s) := s.faultRecord d r
  s.modCmd core idx fun a => { a with stalled := some q, waiting := false }

/-- Runs the idx-th command of a core: it completes, stalls on a fault, or waits for a stale view block (R210, R322). -/
def State.runCmd (s : State) (core idx : Nat) : State :=
  match at? (s.core core).async idx with
  | none => s
  | some a =>
    if a.stalled.isSome || decide (s.clk < a.again) then s
    else
      let (ms, s') := s.cmdMoves core a
      match s'.resolveBytes core a.asid (ms.flatMap Move.bytes) [] with
      | (.fault k va acc, s) => s.stallCmd core idx a k acc va 0
      | (.ok bytes, s) =>
        let homes := bytes.flatMap fun (p, _, q) => (p.toList ++ [q]).filterMap fun x => match x with
          | .mem pa _ _ _ _ => some (homeOf s pa)
          | _ => none
        let s := homes.dedup.foldl (fun s h => s.drainEgress (dieOfCore core) h) s
        match s.checkReads core a.tag (s.viewBlocks a.asid bytes) with
        | (.held no, s) => s.modCmd core idx fun a =>
          if no then { a with waiting := true, tries := a.tries + 1, again := s.clk + backoff (a.tries + 1) } else { a with waiting := true }
        | (.fault k h va, s) => s.stallCmd core idx a k 0 va h
        | (.ok, t) =>
          let lines := bytes.filterMap fun (_, _, q) => match q with | .mem pa _ _ _ _ => some (pa / 128) | _ => none
          let t := t.moveBytes core (s.heldViews core 64 a.tag) bytes
          if lines.any s.leased then s
          else match t.relWaits core a with
          | none => (t.dropCmd core idx).endCmd core a false
          | some (0, _) => s.release a.scope core
          | some (k, va) => (s.release a.scope core).stallCmd core idx a k 1 va 0

/-- R210, R355: a command whose fault ends with an error: the destination bytes hold free values, and the completion is signalled
with ERR. -/
def State.failCmd (s : State) (core idx : Nat) : State :=
  match at? (s.core core).async idx with
  | none => s
  | some a =>
    let (ms, s) := s.cmdMoves core a
    let s := (ms.flatMap Move.bytes).foldl (fun s (_, _, q) =>
      let (w, s) := s.freshWord
      match s.engineSpot core a.asid q .write with
      | (0, .mem pa id _ _ _, s) => s.engineWrite pa 1 (w.toNat % 256) id
      | (0, .share c off, s) => s.modCore c fun k => { k with loc := set 0 k.loc off (w.extractLsb' 0 8) }
      | (_, _, s) => s) s
    (s.dropCmd core idx).endCmd core a true

/-- ASYNC_COPY_COMPLETE: the engine moves the bytes of a command and signals its completion (R210). -/
def execAsyncCopyComplete (core idx : Nat) (s : State) : Host.Outcome State Fault Refusal := .next (s.runCmd core idx)

/-! The commands' issue -/

/-- The common checks of a completion word (R209): its reserved codes and the completion object. The ring under CK = 10 comes
back. -/
def State.compOk (s : State) (core : Nat) (segs : Sparse Seg) (w : Word) : Bool :=
  match compCk w with
  | 0 => true
  | 1 => compObj w % 16 == 0 && (segOffset (get ⟨0, 0⟩ segs 1) (compObj w) 16 none).isSome
  | 2 => (s.ringAt core segs (compObj w)).isSome
  | _ => false

/-- R209: the failing word of a `cpy`, if a check fails. -/
def State.cpyBad (s : State) (a : AsyncCmd) : Option Word :=
  let n := compLow a.comp
  let at_ (x : Word) : Bool := x.toNat % 16 == 0 && (s.enginePlace s.cid a.team a.segs x n).isSome
  if !at_ a.src then some a.src
  else if !at_ a.dst then some a.dst
  else if n % 16 ≠ 0 || fld a.comp 32 6 != 0 || !s.compOk s.cid a.segs a.comp then some a.comp
  else if compCk a.comp = 2 then
    match s.ringAt s.cid a.segs (compObj a.comp) with
    | some r => if (s.slotOf r a.src n).isSome != (s.slotOf r a.dst n).isSome then none else some a.comp
    | none => some a.comp
  else none

/-- R209: the failing word of a `tld` or `tst`; the shape record lies at `.loc` offset `a.src`. -/
def State.tileBad (s : State) (a : AsyncCmd) : Option Word :=
  let n := a.coords.length
  let span := shapeSpan a.shape n
  if a.src.toNat % 16 ≠ 0 || (segOffset (get ⟨0, 0⟩ a.segs 1) a.src.toNat 128 none).isNone || shapeBad a.shape n then some a.src
  else if decide (2 ≤ fld a.comp 36 2) || (fld a.comp 36 2 == 0 && fld a.comp 32 4 != 0) ||
      (s.enginePlace s.cid a.team a.segs (tileEngineAddr a.comp) span).isNone || !s.compOk s.cid a.segs a.comp then some a.comp
  else if compCk a.comp = 2 then
    match s.ringAt s.cid a.segs (compObj a.comp) with
    | some r => if (s.slotOf r (tileEngineAddr a.comp) span).isSome then none else some a.comp
    | none => some a.comp
  else none

/-- Whether a command writes `.glb` or `.chip` (R211). -/
def AsyncCmd.outward (a : AsyncCmd) : Bool :=
  a.kind == 2 || (a.kind == 0 && (fld a.dst 40 24 != 0 || fld a.dst 36 4 == 2))

/-- Issues the commands of all acting lanes, in ascending lane order (R208, R209). A `cpy` of no bytes completes at once
(R212). -/
def State.issueCmds (s : State) (i : Instr) (ls : List Nat) (bad : State → AsyncCmd → Option Word) (cmds : List AsyncCmd) : State :=
  match cmds.find? fun a => (bad s a).isSome with
  | some a => s.segFault ((bad s a).getD 0) (maskOf ((cmds.filter fun a => (bad s a).isSome).map (·.lane)))
  | none =>
    let s := if cmds.any AsyncCmd.outward then s.unrec else s
    let empty (a : AsyncCmd) : Bool := a.kind == 0 && compLow a.comp == 0
    let go (s : State) : State :=
      let s := cmds.foldl (fun s a =>
        if empty a then s.endCmd s.cid a false
        else s.modCore s.cid fun k => { k with async := k.async ++ [{ a with tag := k.async.foldl (fun n (b : AsyncCmd) => max n b.tag) 0 + 1 }] }) s
      (s.popSources ls i.operands).advance i.len
    match cmds.find? fun a => empty a && a.rel with
    | some a => s.releaseThen a.scope a.lane go
    | none => go s

/-- A command of a lane of the group that issues. -/
def State.newCmd (s : State) (kind : Nat) (m : AsyncMod) (l : Nat) (src dst comp : Word) (shape : BitVec 1024) (coords : List Word) :
    AsyncCmd :=
  { kind := kind, team := s.cur.team, asid := s.cur.asid, segs := s.cur.segs, src := src, dst := dst, comp := comp,
    shape := shape, coords := coords, scope := m.scope, acq := m.acq, rel := m.rel, lane := l, slot := s.sid, stalled := none,
    waiting := false, tag := 0, tries := 0, again := 0, reads := [] }

/-- `cpy` (R208, R209, R212). -/
def execCpy (o : Operands) (m : AsyncMod) (s : State) : Host.Outcome State Fault Refusal :=
  let i := Instr.cpy o m
  .next (s.gate i fun ls s => s.withOperands i ls fun ka kb kc s =>
    let ((ta, a), (tb, b), (tc, c)) := i.sources
    s.issueCmds i ls State.cpyBad (ls.map fun l =>
      s.newCmd 0 m l (s.src ta ka ls l a) (s.src tb kb ls l b) (s.src tc kc ls l c) 0 []))

/-- A tensor copy (R208, R209, R213, R214). -/
def State.tileCmds (s : State) (i : Instr) (kind : Nat) (m : AsyncMod) : State :=
  s.gate i fun ls s => s.withOperands i ls fun ka _ kc s =>
    let ((ta, a), (_, b), (tc, c)) := i.sources
    let first := match b with | .x n => n.toNat | _ => 0
    s.issueCmds i ls State.tileBad (ls.map fun l =>
      let at_ := s.src ta ka ls l a
      let shape := match segOffset (s.cur.seg 1) at_.toNat 128 none with
        | some off => BitVec.ofNat 1024 (s.locRd s.cid off 128)
        | none => 0
      s.newCmd kind m l at_ 0 (s.src tc kc ls l c) shape ((List.range m.aux.toNat).map fun k => s.cur.x l (first + k)))

/-- `tld` (R208, R214). -/
def execTld (o : Operands) (m : AsyncMod) (s : State) : Host.Outcome State Fault Refusal := .next (s.tileCmds (.tld o m) 1 m)

/-- `tst` (R208, R214). -/
def execTst (o : Operands) (m : AsyncMod) (s : State) : Host.Outcome State Fault Refusal := .next (s.tileCmds (.tst o m) 2 m)

end Sys2Proof.Machine
end

