-- ==== Sys2Proof/Machine/AsyncBar.lean ====
section
/-! DEFINITION. The instructions on async barrier objects (R216), rings (R218), queue bindings (R183, R185) and named and cluster
barriers (R163-R165, R220-R222, R254, R175). -/

namespace Sys2Proof.Machine

/-- The offset in the core's share of a `.loc` place. -/
def Place.share : Place → Nat
  | .loc _ off => off
  | _ => 0

/-- `abar.init` (R216): once for the path, with the value of the lowest acting lane. -/
def execAbarInit (o : Operands) (m : AsyncMod) (s : State) : Host.Outcome State Fault Refusal :=
  let i := Instr.abarInit o m
  .next (s.gate i fun ls s => s.withOperands i ls fun ka kb _ s =>
    let ((ta, a), (tb, b), _) := i.sources
    let l := ls.headD 0
    let v := s.src tb kb ls l b
    s.placed .loc 16 (fun _ => false) [(l, s.src ta ka ls l a)] fun ps =>
      let off := (ps.headD (0, .loc 0 0)).2.share
      ((((s.locWr s.cid off 8 v.toNat).locWr s.cid (off + 8) 8 0).locUnpoison s.cid off 16).popSources ls o).advance i.len)

/-- The addresses of operand a in the acting lanes. -/
def State.baseAddrs (s : State) (i : Instr) (ls : List Nat) (ka : Word) : List (Nat × Word) :=
  let ((ta, a), _, _) := i.sources
  ls.map fun l => (l, s.src ta ka ls l a)

/-- The values of operand b in the acting lanes. -/
def State.secondVals (s : State) (i : Instr) (ls : List Nat) (kb : Word) : List (Nat × Word) :=
  let (_, (tb, b), _) := i.sources
  ls.map fun l => (l, s.src tb kb ls l b)

/-- A lane's entry in a list of lanes and values. -/
def valOf (vs : List (Nat × Word)) (l : Nat) : Word := ((vs.find? fun e => e.1 == l).map (·.2)).getD 0

/-- `abar.arrive` (R216). -/
def execAbarArrive (o : Operands) (m : AsyncMod) (s : State) : Host.Outcome State Fault Refusal :=
  let i := Instr.abarArrive o m
  .next (s.gate i fun ls s => s.withOperands i ls fun ka kb _ s =>
    let vs := s.secondVals i ls kb
    s.placed .loc 16 (fun _ => false) (s.baseAddrs i ls ka) fun ps =>
      s.releaseThen (if m.rel then m.scope else .core) (ls.headD 0) fun s =>
      let s := ps.foldl (fun (s : State) (l, p) => s.abarSignal s.cid p.share (valOf vs l) false) s
      (s.popSources ls o).advance i.len)

/-- `abar.wait` (R216). -/
def execAbarWait (o : Operands) (m : AsyncMod) (s : State) : Host.Outcome State Fault Refusal :=
  let i := Instr.abarWait o m
  .next (s.gate i fun ls s => s.withOperands i ls fun ka kb _ s =>
    let vs := s.secondVals i ls kb
    s.placed .loc 16 (fun _ => false) (s.baseAddrs i ls ka) fun ps =>
      if ps.all fun (l, p) => abarReached (word (s.locRd s.cid p.share 8)) (valOf vs l) then
        let s := if m.acq then s.acquire m.scope s.cid else s
        (s.popSources ls o).advance i.len
      else s.await .abar)

/-- R218: the descriptors of the acting lanes, or cause 0x05. A lane that has been served no longer names one (R192). -/
def State.withRings (s : State) (i : Instr) (ls : List Nat) (body : List (Nat × RingRef) → List (Nat × Word) → State → State) :
    State :=
  s.withOperands i ls fun ka kb _ s =>
    let as := (s.baseAddrs i ls ka).filter fun e => !s.cur.path.done.getLsbD e.1
    match as.find? fun e => (s.ringAt s.cid s.cur.segs e.2.toNat).isNone with
    | some (_, a) => s.segFault a (maskOf ls)
    | none =>
      body (as.filterMap fun (l, a) => (s.ringAt s.cid s.cur.segs a.toNat).map fun r => (l, r)) (s.secondVals i ls kb) s

/-- The lanes of `ring.rsv` and `ring.get` in ascending order, until one must wait: `true` if all are served. -/
def State.ringLanes (s : State) (take : State → RingRef → Option (Nat × State)) (d : Dst) (acq : Bool) (sc : Scope) :
    List (Nat × RingRef) → Bool × State
  | [] => (true, s)
  | (l, r) :: rest =>
    match take s r with
    | none => (false, s)
    | some (i, s) =>
      let s := s.feReply s.cid s.sid l d (word i)
      (if acq then s.acquire sc s.cid else s).ringLanes take d acq sc rest

/-- `ring.rsv` and `ring.get` (R218). -/
def State.ringWait (s : State) (i : Instr) (m : AsyncMod) (take : State → RingRef → Option (Nat × State)) : State :=
  s.gate i fun ls s => s.withRings i ls fun rs _ s =>
    let o := i.operands
    match s.ringLanes take o.d m.acq m.scope rs with
    | (true, s) => ((s.popSources ls o).writeLatch o.d).advance i.len
    | (false, s) => s.await .ring

/-- `ring.pub` and `ring.put` (R218). -/
def State.ringMove (s : State) (i : Instr) (m : AsyncMod) (src v : Nat) : State :=
  s.gate i fun ls s => s.withRings i ls fun rs vs s =>
    s.releaseThen (if m.rel then m.scope else .core) (ls.headD 0) fun s =>
    let s := rs.foldl (fun (s : State) (l, r) => s.moveSlot r (valOf vs l).toNat src v) s
    (s.popSources ls i.operands).advance i.len

/-- `ring.rsv` (R218). -/
def execRingRsv (o : Operands) (m : AsyncMod) (s : State) : Host.Outcome State Fault Refusal :=
  .next (s.ringWait (.ringRsv o m) m State.reserveSlot)

/-- `ring.pub` (R218). -/
def execRingPub (o : Operands) (m : AsyncMod) (s : State) : Host.Outcome State Fault Refusal :=
  .next (s.ringMove (.ringPub o m) m 1 2)

/-- `ring.get` (R218). -/
def execRingGet (o : Operands) (m : AsyncMod) (s : State) : Host.Outcome State Fault Refusal :=
  .next (s.ringWait (.ringGet o m) m State.takeSlot)

/-- `ring.put` (R218). -/
def execRingPut (o : Operands) (m : AsyncMod) (s : State) : Host.Outcome State Fault Refusal :=
  .next (s.ringMove (.ringPut o m) m 3 0)

/-! Queue bindings -/

/-- Whether a binding word may be bound by the group that issues (R183, R261). -/
def State.bindOk (s : State) (w : Word) : Bool :=
  let target := fld w 0 16
  let dir := fld w 60 2
  if fld w 16 44 ≠ 0 then false
  else match bindKind w with
  | 0 => dir == 0 && target == 0
  | 1 =>
    let h := s.k.chan target
    dir != 0 && decide (target < 64) && (!h.bound || h.team == s.cur.team)
  | 2 =>
    match s.casOf s.cid s.cur.team (fld w 4 2) with
    | some c =>
      let q := s.cas c
      dir == 1 && fld w 6 10 == 0 && (decide (fld w 0 4 < q.nst) || (fld w 0 4 == 8 && q.tail))
    | none => false
  | _ => false

/-- `qbind` (R183); its destination field is not a push. -/
def execQbind (o : Operands) (s : State) : Host.Outcome State Fault Refusal :=
  let n := match o.d with | .q n => n.toNat | _ => 0
  let i := Instr.qbind { o with d := .x 0 }
  .next (s.gate i fun ls s => s.withOperands i ls fun ka _ _ s =>
    let ((ta, a), _, _) := i.sources
    let w := s.src ta ka ls (ls.headD 0) a
    if s.bindOk w then
      let s := s.popSources ls i.operands
      let s := if bindKind w = 1 then s.modCore s.cid fun k =>
          let h := k.chan (fld w 0 16)
          if h.bound then k else k.setChan (fld w 0 16) { h with bound := true, team := s.cur.team }
        else s
      (s.modCur fun g => { g with qbind := set 0 g.qbind n w }).advance i.len
    else s.segFault w (maskOf ls))

/-- The word of R185 for a queue register. -/
def State.queueWord (s : State) (n : Nat) : Word :=
  let w := s.cur.q n
  let top := fld w 60 4 * 2 ^ 60
  match bindKind w with
  | 1 =>
    let h := s.k.chan (fld w 0 16)
    word (top + bit (s.nonExtendable s.cid (fld w 0 16)) 59 + min h.exts 65535 * 2 ^ 32 + min h.count (2 ^ 32 - 1))
  | 2 => let (c, p) := s.portOf w; word (top + min ((s.cas c).port p).length (2 ^ 32 - 1))
  | _ => word top

/-- `qstat` (R185). -/
def execQstat (o : Operands) (s : State) : Host.Outcome State Fault Refusal :=
  let i := Instr.qstat o
  .next (s.gate i fun ls s => s.withOperands i ls fun ka _ _ s =>
    let ((ta, a), _, _) := i.sources
    s.finish i ls fun l => s.queueWord ((s.src ta ka ls l a).toNat % 16))

/-! Barriers -/

/-- The state word of a team barrier (R163). -/
def Barrier.word (b : Barrier) : Word :=
  Machine.word (b.members.toNat * 2 ^ 32 + b.gen % 256 * 2 ^ 24 + b.arrived % 64 * 2 ^ 8 + b.count % 64)

/-- The state word of a cluster barrier (R254). -/
def Barrier.cluWord (b : Barrier) : Word := Machine.word (b.gen % 256 * 2 ^ 24 + b.arrived % 512 * 2 ^ 12 + b.count % 512)

/-- Where the barriers lie: the team of the group that issues, or the team of rank 0 of its cluster (R254). -/
def State.barHome (s : State) (clu : Bool) : Nat × Nat :=
  if clu then (at? s.team.members 0).getD (s.cid, s.cur.team) else (s.cid, s.cur.team)

/-- One barrier. -/
def State.bar (s : State) (clu : Bool) (n : Nat) : Barrier :=
  let (c, t) := s.barHome clu
  get Barrier.zero (if clu then (s.teamAt c t).cbars else (s.teamAt c t).bars) n

/-- Replaces a barrier. -/
def State.setBar (s : State) (clu : Bool) (n : Nat) (b : Barrier) : State :=
  let (c, t) := s.barHome clu
  s.modTeam c t fun x => if clu then { x with cbars := set Barrier.zero x.cbars n b } else { x with bars := set Barrier.zero x.bars n b }

/-- The arriving group's number (R164, R254). -/
def State.barGroup (s : State) (clu : Bool) : Nat := if clu then 32 * s.team.rank + s.cur.gidx else s.cur.gidx

/-- WHY of R222, 0 where the arrival is accepted. The checks are made in the order 5, 6, 4, then those of R164. -/
def State.barWhy (s : State) (clu : Bool) (b : Barrier) (cnt : Nat) (msk : Mask) : Nat :=
  if clu && s.team.cw * s.team.ch == 0 then 5
  else if clu && msk != 0 then 6
  else if cnt = 0 ∨ (if clu then 384 else 32) < cnt then 4
  else if b.count = 0 || b.who.contains (s.barGroup clu) then 0
  else if cnt ≠ b.count then 1
  else if msk ≠ b.members then 2
  else if b.members != 0 && !b.members.getLsbD s.cur.gidx then 3
  else 0

/-- The paths of one team that wait for a generation go on (R164); the cores of the others of a cluster discard as by
`phase.clu` (R221). -/
def State.releaseTeam (s : State) (c t : Nat) (clu : Bool) (bn gen : Nat) : State :=
  let go (p : Path) : Path := match p.wait with
    | .barrier x n g len => if x = clu ∧ n = bn ∧ g = gen then { Path.start (p.pc + word len) p.mask with frozen := p.frozen } else p
    | _ => p
  let hit (g : Group) : Bool := g.occ && g.team == t && g.paths.any fun p => go p != p
  let woken := (s.core c).slots.any fun (_, g) => hit g
  let s := s.modCore c fun k => { k with slots := k.slots.map fun (i, g) => if hit g then (i, { g with paths := g.paths.map go }) else (i, g) }
  let mine (y : Cont) : Bool := y.core == c && y.team == t
  let woken := woken || (s.die (dieOfCore c)).conts.any fun y => mine y && y.group.paths.any fun p => go p != p
  let s := s.modDie (dieOfCore c) fun x => { x with
    conts := x.conts.map fun (y : Cont) => if mine y then { y with group := { y.group with paths := y.group.paths.map go } } else y }
  if clu && woken then s.discard .clu c else s

/-- The local bytes, full/empty words and channels of a team that the shadow holds (R175). -/
def State.shadowOf (s : State) (c t : Nat) : Shadow :=
  let k := s.core c
  let tm := k.team t
  let inside (a : Nat) : Bool := decide (tm.locBase ≤ a) && decide (a < tm.locBase + tm.locSize)
  { groups := k.slots.filter fun (_, g) => g.occ && g.team == t
    loc := k.loc.filter fun (a, _) => inside a
    fe := k.fe.filter fun (a, _) => inside (4 * a)
    bars := tm.bars
    chans := k.chans.filter fun (_, h) => h.bound && h.team == t }

/-- R175: the end of a team-wide generation in rollback mode: held stores are published and a new shadow is taken. -/
def State.takeShadow (s : State) (c t : Nat) : State :=
  let s := s.releaseHeld c t
  let s := s.modTeam c t fun x => { x with unrec := false, consumed := [] }
  let sh := s.shadowOf c t
  s.modTeam c t fun x => { x with shadow := some sh }

/-- The numbers of the groups of a team that have not ended. -/
def State.livingGroups (s : State) (c t : Nat) : List Nat :=
  ((s.core c).slots.filter fun (i, g) => decide (i < 32) && g.occ && g.team == t && !g.isDraft).map fun (_, g) => g.gidx

/-- Whether a generation's arrivals include every group of the team in rollback mode (R175); one that has ended is none (log entry 152). -/
def State.teamWide (s : State) (clu : Bool) (who : List Nat) : Bool :=
  !clu && s.team.rb && (s.livingGroups s.cid s.cur.team).all fun i => who.contains i

/-- The channels and entries that the pops of an instruction take, in order (R85). -/
def State.entriesOf (s : State) (ls : List Nat) (o : Operands) : List (Nat × Word) :=
  let chs := (o.pops.filter fun q => bindKind (s.cur.q q) == 1).map fun q => fld (s.cur.q q) 0 16
  chs.dedup.flatMap fun ch =>
    let h := s.k.chan ch
    ((h.hw ++ h.ov).take (ls.length * (chs.filter (· == ch)).length)).map fun w => (ch, w)

/-- Entries go back to the heads of their channels (R381; log entry 139). -/
def State.unpop (s : State) (ws : List (Nat × Word)) : State :=
  (ws.map (·.1)).dedup.foldl (fun s ch => s.modCore s.cid fun k =>
    let mine := (ws.filter fun e => e.1 == ch).map (·.2)
    let h := k.chan ch
    k.setChan ch { h with hw := mine ++ h.hw, bad := h.bad.map (· + mine.length) }) s

/-- The arrival of the group that issues at a generation that is still open is taken back (R381). -/
def State.unarrive (s : State) (clu : Bool) (bn gen : Nat) : State :=
  let b := s.bar clu bn
  if b.gen ≠ gen then s
  else s.setBar clu bn (if b.arrived ≤ 1 then { b with count := 0, arrived := 0, members := 0, who := [] }
    else { b with arrived := b.arrived - 1, who := b.who.erase (s.barGroup clu) })

/-- R381: the deadlock trap in the current path; its waiting instruction has no effect. -/
def State.takeDeadlock (s : State) (tval : Word) (detail : Mask) : State :=
  let p := s.cur.path
  let s := s.cancelDefers s.cid s.sid p.mask
  let s := match p.wait with
    | .barrier clu bn gen _ => (s.unarrive clu bn gen).unpop p.popped
    | _ => s
  (s.modCur fun g => g.modPath fun p => { p with wait := .ready, trap := none, popped := [], tries := 0, again := 0 }).takeTrap 0x09 tval detail

/-- An accepted arrival (R164, R175), whose publication is complete (R221). `sync` waits; the queue registers of the operands are popped. -/
def State.barArrive (s : State) (i : Instr) (ls : List Nat) (clu sync : Bool) (bn cnt : Nat) (msk : Mask) : State :=
  let b := s.bar clu bn
  let me := s.barGroup clu
  let b := if b.count = 0 then { b with count := cnt, members := msk, arrived := 0, who := [] } else b
  let who := me :: b.who
  let popped := s.entriesOf ls i.operands
  let s := s.popSources ls i.operands
  if b.arrived + 1 = b.count then
    let s := s.setBar clu bn { b with gen := b.gen + 1, count := 0, arrived := 0, members := 0, who := [] }
    let wide := s.teamWide clu who
    let teams := if clu then s.team.members else [(s.cid, s.cur.team)]
    let s := teams.foldl (fun s (c, t) => s.releaseTeam c t clu bn b.gen) s
    let s := (if clu && sync then s.discard .clu s.cid else s).advance i.len
    if wide then s.takeShadow s.cid s.cur.team else s
  else
    let s := s.setBar clu bn { b with arrived := b.arrived + 1, who := who }
    if sync then (s.await (.barrier clu bn b.gen i.len)).modCur fun g => g.modPath fun p => { p with popped := popped } else s.advance i.len

/-- `bar.sync` and `bar.arrive` (R220-R222). A group that has arrived in the open generation waits to arrive in the next; a
team-wide generation in rollback mode ends only after the team's copies have (R211). -/
def State.barrierOp (s : State) (i : Instr) (clu sync : Bool) (bn : Nat) : State :=
  s.gate i fun ls s => s.withOperands i ls fun ka kb _ s =>
    let ((ta, a), (tb, b), _) := i.sources
    let l := ls.headD 0
    let cnt := (s.src ta ka ls l a).toNat % 2 ^ 32
    let msk := low32 (s.src tb kb ls l b)
    let st := s.bar clu bn
    let why := s.barWhy clu st cnt msk
    if why ≠ 0 then
      s.takeTrap 0x04 (if why = 5 then 0 else if clu then st.cluWord else st.word) (BitVec.ofNat 32 (why * 32 + bit clu 4 + bn))
    else if st.count ≠ 0 ∧ st.who.contains (s.barGroup clu) then s.await (.barBusy clu bn st.gen)
    else if s.teamWide clu (s.barGroup clu :: st.who) && st.arrived + 1 == (if st.count = 0 then cnt else st.count) &&
        s.asyncLeft s.cid s.cur.team then s.await (.barBusy clu bn st.gen)
    else s.releaseThen (if clu then .clu else .core) l fun s => s.barArrive i ls clu sync bn cnt msk

/-- `bar.sync` (R220, R221). -/
def execBarSync (o : Operands) (bn : BitVec 4) (s : State) : Host.Outcome State Fault Refusal :=
  .next (s.barrierOp (.barSync o bn) false true bn.toNat)

/-- `bar.arrive` (R220, R221). -/
def execBarArrive (o : Operands) (bn : BitVec 4) (s : State) : Host.Outcome State Fault Refusal :=
  .next (s.barrierOp (.barArrive o bn) false false bn.toNat)

/-- `bar.sync.clu` (R220, R221). -/
def execBarSyncClu (o : Operands) (bn : BitVec 4) (s : State) : Host.Outcome State Fault Refusal :=
  .next (s.barrierOp (.barSyncClu o bn) true true bn.toNat)

/-- `bar.arrive.clu` (R220, R221). -/
def execBarArriveClu (o : Operands) (bn : BitVec 4) (s : State) : Host.Outcome State Fault Refusal :=
  .next (s.barrierOp (.barArriveClu o bn) true false bn.toNat)

end Sys2Proof.Machine
end

