-- ==== Sys2Proof/Machine/MxEngine.lean ====
section
/-! DEFINITION. The matrix engine: its format word and arithmetic (R50-R54), the command stream (R227-R236, R238), and the
instructions `mxgo`, `mxstat` and `mxstop` (R224-R226, R241, R242). A command is performed whole at one step of the engine. -/

namespace Sys2Proof.Machine

/-! The format word (R50, R51) -/

/-- AFMT. -/
def fmtA (w : Mask) : Nat := (w.extractLsb' 0 4).toNat
/-- BFMT. -/
def fmtB (w : Mask) : Nat := (w.extractLsb' 4 4).toNat
/-- ACC. -/
def fmtAcc (w : Mask) : Nat := (w.extractLsb' 8 4).toNat
/-- BLK. -/
def fmtBlk (w : Mask) : Nat := (w.extractLsb' 12 4).toNat

/-- R51: whether a format word is valid. -/
def fmtValid (w : Mask) : Bool :=
  let a := fmtA w
  let b := fmtB w
  let acc := fmtAcc w
  let blk := fmtBlk w
  let pair := acc == 0 || acc == 1
  let small (x : Nat) : Bool := decide (4 ≤ x) && decide (x ≤ 7)
  let int (x : Nat) : Bool := x == 8 || x == 9
  let half (x : Nat) : Bool := x == 2 || x == 3
  w.extractLsb' 16 16 == 0 &&
  ((a == 0 && b == 0 && blk == 0 && acc == 2) ||
   (a == 1 && b == 1 && blk == 0 && pair) ||
   (half a && half b && blk == 0 && pair) ||
   (small a && small b && decide (blk ≤ 1) && pair) ||
   (int a && int b && blk == 0 && acc == 3) ||
   (int a && int b && blk == 1 && pair))

/-- The width in bits of an operand format (R50). -/
def mxBits (f : Nat) : Nat :=
  match f with
  | 0 => 64 | 1 => 32 | 2 => 16 | 3 => 16 | 6 => 4 | 9 => 4 | _ => 8

/-- The value of an operand element (R33-R36). -/
def mxElem (f b : Nat) : Fp.Val :=
  match f with
  | 0 => Fp.f64.value b | 1 => Fp.f32.value b | 2 => Fp.f16.value b | 3 => Fp.bf16.value b
  | f => (Fp.Elem.ofCode f).value b

/-- The chunk length L of R52. -/
def mxChunk (w : Mask) : Nat :=
  if fmtBlk w = 1 then 32
  else match fmtA w with
  | 0 => 4 | 1 => 8 | 2 => 16 | 3 => 16 | _ => 32

/-! Accumulation (R52-R54) -/

/-- An accumulator element: one word, or in the pair mode the sum and its compensation. -/
structure AccVal where
  c : Nat
  comp : Nat
deriving DecidableEq, Repr

/-- A rounded result; the engine never makes -0 of products (R54). -/
def plusZero (f : Fp.Fmt) (r : Nat × Fp.Exc) : Nat × Fp.Exc := (if r.1 = 2 ^ f.body then 0 else r.1, r.2)

/-- One addition of R53, rounded to nearest even. -/
def mxAdd (f : Fp.Fmt) (a : Nat) (x : Fp.Val) : Nat × Fp.Exc := plusZero f (f.add 0 false (f.value a) x)

/-- Whether an FP32 pattern is finite. -/
def finite32 (b : Nat) : Bool := b / 2 ^ 23 % 256 != 255

/-- `PairAccumulate` of R53. -/
def pairAccumulate (v : AccVal) (x : Fp.Val) : AccVal × Fp.Exc :=
  let f := Fp.f32
  let sub (a b : Nat) : Nat × Fp.Exc := f.sub 0 false (f.value a) (f.value b)
  let (w, e0) := plusZero f (f.convert 0 false x)
  let (t, e1) := mxAdd f v.c (f.value w)
  if !finite32 t then (⟨t, 0⟩, e0 ||| e1)
  else
    let (bv, e2) := sub t v.c
    let (av, e3) := sub t bv
    let (p, e4) := sub v.c av
    let (q, e5) := sub w bv
    let (err, e6) := f.add 0 false (f.value p) (f.value q)
    let (c2, e7) := f.add 0 false (f.value v.comp) (f.value err)
    (⟨t, c2⟩, e0 ||| e1 ||| e2 ||| e3 ||| e4 ||| e5 ||| e6 ||| e7)

/-- A saturating 32-bit signed addition; saturation sets OF (R53). -/
def intAccumulate (c : Nat) (x : Int) : Nat × Fp.Exc :=
  let t := Fp.sintOf 32 c + x
  if t < -(2 ^ 31) then (Fp.intPattern 32 (-(2 ^ 31)), Fp.ovf)
  else if (2 ^ 31 - 1 : Int) < t then (2 ^ 31 - 1, Fp.ovf)
  else (Fp.intPattern 32 t, 0)

/-- `Accumulate` of R53 in mode ACC. -/
def accumulate (acc : Nat) (v : AccVal) (x : Fp.Val) : AccVal × Fp.Exc :=
  match acc with
  | 0 => let (c, e) := mxAdd Fp.f32 v.c x; (⟨c, v.comp⟩, e)
  | 1 => pairAccumulate v x
  | 2 => let (c, e) := mxAdd Fp.f64 v.c x; (⟨c, v.comp⟩, e)
  | _ => let (c, e) := intAccumulate v.c (match x with | .fin n m k => Fp.signedAt n m k 0 | _ => 0); (⟨c, v.comp⟩, e)

/-- The value x of one chunk and what it records (R52): `sa` and `sb` are the scales, 127 where BLK = 0. -/
def chunkValue (ps : List (Fp.Val × Fp.Val)) (sa sb : Nat) : Fp.Val × Fp.Exc :=
  let k := Fp.chunkOf ps
  if k.nan then (.nan false, Fp.excIf k.invalid Fp.nv)
  else if k.pinf || k.ninf then (.inf k.ninf, 0)
  else if sa = 0xFF ∨ sb = 0xFF then (.nan false, 0)
  else
    let d := Fp.exactSum ps
    (.fin (decide (d.m < 0)) d.m.natAbs (d.e + ((sa : Int) - 127) + ((sb : Int) - 127)), 0)

/-- `MmaElement` of R52 over the chunks left: the products of each chunk with its scales. -/
def mmaElement (acc : Nat) : AccVal → Fp.Exc → List (List (Fp.Val × Fp.Val) × Nat × Nat) → AccVal × Fp.Exc
  | v, e, [] => (v, e)
  | v, e, (ps, sa, sb) :: r =>
    let (x, e1) := chunkValue ps sa sb
    let (v, e2) := accumulate acc v x
    mmaElement acc v (e ||| e1 ||| e2) r

/-! The engine of the core in focus -/

/-- The engine. -/
def State.mxe (s : State) : Mxe := s.k.mxe

/-- Changes the engine. -/
def State.modMxe (s : State) (f : Mxe → Mxe) : State := s.modCore s.cid fun k => { k with mxe := f k.mxe }

/-- The team that owns the engine. -/
def State.mxTeam (s : State) : Nat := s.mxe.owner.getD 0

/-- A group of the team that owns the engine; one that is swapped out belongs to it too (R370). -/
def State.mxGroup (s : State) : Group :=
  match s.k.slots.find? fun (_, g) => g.occ && g.team == s.mxTeam with
  | some (_, g) => g
  | none => (((s.die s.did).conts.find? fun y => y.core == s.cid && y.team == s.mxTeam).map (·.group)).getD Group.empty

/-- The latched `.loc` segment and the team's `.clu` segment (R155, R226). -/
def State.mxSegs (s : State) : Sparse Seg := [(1, s.mxe.seg), (2, s.mxGroup.seg 2)]

/-- An offset of n bytes in the latched segment, in the core's share. -/
def State.mxOff (s : State) (o n : Nat) : Option Nat := segOffset s.mxe.seg o n none

/-- Entry n of the latched ring table (R227). -/
def Mxe.ring (m : Mxe) (n : Nat) : Nat := m.rings.toNat / 2 ^ (16 * n) % 2 ^ 16

/-- Whether ring n's descriptor does not lie within the latched segment: ERR 7 (R230). -/
def State.mxRingOut (s : State) (n : Nat) : Bool :=
  let e := s.mxe.ring n
  decide (2 ^ 15 ≤ e) && (s.mxOff (32 * (e % 2 ^ 15)) 96).isNone

/-- The descriptor of ring n; none is ERR 7 or ERR 8. -/
def State.mxRing (s : State) (n : Nat) : Option RingRef :=
  let e := s.mxe.ring n
  if e < 2 ^ 15 then none else s.ringAt s.cid s.mxSegs (32 * (e % 2 ^ 15))

/-- The slot held from ring n, plus 1; 0 if none is held. -/
def Mxe.heldSlot (m : Mxe) (n : Nat) : Nat := get 0 m.held n

/-- The checks of the descriptor of ring n: a V bit of 0 or a malformed descriptor is ERR 8, one outside the segment ERR 7. -/
def State.ringChecks (s : State) (n : Nat) : List (Bool × Nat) :=
  [((s.mxRing n).isNone && !s.mxRingOut n, 8), (s.mxRingOut n, 7)]

/-- The next command (R230). -/
def State.mxNext (s : State) : State := s.modMxe fun m => { m with cpc := (m.cpc + 8) % 2 ^ 32 }

/-- The command that a DISP names. -/
def State.mxTarget (s : State) (disp : BitVec 16) : Nat := (word s.mxe.cpc + disp.signExtend 64 * 8).toNat

/-- R230: an error stop, with its fault record; without room for one the command waits (R354). -/
def State.mxStop (s : State) (err : Nat) : State :=
  if !s.faultRoom 1 then s
  else
    let r : FRec := { FRec.blank with
      src := 3, kind := err, team := (s.teamAt s.cid s.mxTeam).id.toNat, core := s.cid, pc := word s.mxe.cpc,
      ctx := spaceWord (s.teamAsid s.cid s.mxTeam) 0 }
    (s.faultRecord s.did r).2.modMxe fun m => { m with st := 3, err := err }

/-- A command acts only while the engine runs; `errs` lists its checks in order, with the code of each that fails (R230). -/
def State.mxCommand (s : State) (errs : List (Bool × Nat)) (body : State → State) : State :=
  if s.mxe.st ≠ 1 then s
  else match errs.find? (·.1) with
  | some (_, e) => s.mxStop e
  | none => body s

/-! Tiles (R233) -/

/-- Whether ACC has logical tile t. -/
def tileOk (acc t : Nat) : Bool := decide (t < (if acc = 0 ∨ acc = 3 then 4 else 2))

/-- The physical tiles that hold logical tile t. -/
def physTiles (acc t : Nat) : BitVec 4 :=
  if acc = 0 ∨ acc = 3 then 1#4 <<< t else 3#4 <<< (2 * t)

/-- The `.acc` offsets of the word, and in the pair mode of the compensation word, of element (i, j) of tile t. -/
def tileOffsets (acc t i j : Nat) : Nat × Nat :=
  match acc with
  | 1 => (32768 * t + 4 * (64 * i + j), 32768 * t + 16384 + 4 * (64 * i + j))
  | 2 => (32768 * t + 8 * (64 * i + j), 0)
  | _ => (16384 * t + 4 * (64 * i + j), 0)

/-- Reads an accumulator element. -/
def accRead (m : Mem) (acc t i j : Nat) : AccVal :=
  let (a, b) := tileOffsets acc t i j
  ⟨readBytes m a (if acc = 2 then 8 else 4), if acc = 1 then readBytes m b 4 else 0⟩

/-- Writes an accumulator element. -/
def accWrite (m : Mem) (acc t i j : Nat) (v : AccVal) : Mem :=
  let (a, b) := tileOffsets acc t i j
  let m := writeBytes m a (if acc = 2 then 8 else 4) v.c
  if acc = 1 then writeBytes m b 4 v.comp else m

/-- `mx.zero` (R234). -/
def execMxZero (t : BitVec 2) (s : State) : Host.Outcome State Fault Refusal :=
  let acc := fmtAcc s.mxe.fmt
  let ph := physTiles acc t.toNat
  .next (s.mxCommand [(!tileOk acc t.toNat, 6)] fun s =>
    (s.modCore s.cid fun k => { k with
      acc := k.acc.filter fun (a, _) => !ph.getLsbD (a / 16384), mxe := { k.mxe with pois := k.mxe.pois &&& ~~~ph } }).mxNext)

/-- `mx.fmt` (R234). -/
def execMxFmt (fw : BitVec 32) (s : State) : Host.Outcome State Fault Refusal :=
  .next (s.mxCommand [(!fmtValid fw, 2)] fun s => (s.modMxe fun m => { m with fmt := fw }).mxNext)

/-! `mx.mma` (R235, R236) -/

/-- 16, 32 or 64 (R229). -/
def mxSize (c : BitVec 2) : Nat := 16 * 2 ^ c.toNat

/-- Where a slot of a ring lies, or ERR 10 where it lies outside `.loc` and `.clu` (R182, R230). -/
def State.mxSlot (s : State) (r : RingRef) (slot : Nat) : Nat × Place :=
  let b := s.ringBaseOf r
  let o := fld b 0 32 + slot * s.ringSlotSize r
  match (if 2 ^ 32 ≤ o then none else s.enginePlace s.cid s.mxTeam s.mxSegs (word (fld b 32 32 * 2 ^ 32 + o)) (s.ringSlotSize r)) with
  | some (.loc c off) => (0, .loc c off)
  | some _ => (10, .loc 0 0)
  | none => (10, .loc 0 0)

/-- A byte of a slot; the engine sees stores to another rank's slice only once they are published (R188, R226). -/
def State.slotByte (s : State) (p : Place) (k : Nat) : Byte :=
  match p with
  | .loc c off => byteAt (s.core c).loc (off + k)
  | _ => 0

/-- Element k of a packed array in a slot, of format f (R31). -/
def State.slotElem (s : State) (p : Place) (f k : Nat) : Nat :=
  if mxBits f = 4 then (s.slotByte p (k / 2)).toNat / 16 ^ (k % 2) % 16
  else readLE (fun a => s.slotByte p a) (k * (mxBits f / 8)) (mxBits f / 8)

/-- Whether a slot's first n bytes hold poison (R356). -/
def State.slotPoisoned (s : State) (p : Place) (n : Nat) : Bool :=
  match p with
  | .loc c off => (s.core c).locPoisoned off n
  | _ => false

/-- The operands of `mx.mma`: sizes, and the slots of A, B and the scales. -/
structure MmaArgs where
  fmt : Mask
  m : Nat
  n : Nat
  k : Nat
  a : Place
  b : Place
  sc : Place
deriving DecidableEq, Repr

/-- The products and scales of one chunk of element (i, j). -/
def State.mmaChunk (s : State) (x : MmaArgs) (i j c : Nat) : List (Fp.Val × Fp.Val) × Nat × Nat :=
  let l := mxChunk x.fmt
  let ps := (List.range l).map fun q =>
    (mxElem (fmtA x.fmt) (s.slotElem x.a (fmtA x.fmt) (i * x.k + c * l + q)),
     mxElem (fmtB x.fmt) (s.slotElem x.b (fmtB x.fmt) (j * x.k + c * l + q)))
  let kb := x.k / 32
  if fmtBlk x.fmt = 1 then
    (ps, (s.slotByte x.sc (i * kb + c)).toNat, (s.slotByte x.sc (x.m * kb + j * kb + c)).toNat)
  else (ps, 127, 127)

/-- Every chunk of element (i, j), in ascending K (R52). -/
def State.mmaChunks (s : State) (x : MmaArgs) (i j : Nat) : List (List (Fp.Val × Fp.Val) × Nat × Nat) :=
  (List.range (x.k / mxChunk x.fmt)).map fun c => s.mmaChunk x i j c

/-- The accumulator memory after the command, and its exceptions (R236). -/
def State.mmaTile (s : State) (x : MmaArgs) (t : Nat) : Mem × Fp.Exc :=
  let acc := fmtAcc x.fmt
  (List.range (x.m * x.n)).foldl (fun ((mem, e) : Mem × Fp.Exc) q =>
    let i := q / x.n
    let j := q % x.n
    let (v, e1) := mmaElement acc (accRead mem acc t i j) 0 (s.mmaChunks x i j)
    (accWrite mem acc t i j v, e ||| e1)) (s.k.acc, 0)

/-- Saturation at 2^32 - 1 (R241). -/
def satAdd32 (a b : Nat) : Nat := min (a + b) (2 ^ 32 - 1)

/-- `mx.mma` (R230, R235, R236, R240, R356). Two of the residue mismatches that the command meets fall on one chunk, which stays poisoned; a
single one is made good by recomputation. -/
def execMxMma (t mc nc : BitVec 2) (ku : BitVec 8) (ra rb rs : BitVec 3) (s : State) : Host.Outcome State Fault Refusal :=
  let fmt := s.mxe.fmt
  let acc := fmtAcc fmt
  let blk := fmtBlk fmt == 1
  let m := mxSize mc
  let n := mxSize nc
  let k := 32 * ku.toNat
  let rings := if blk then [ra.toNat, rb.toNat, rs.toNat] else [ra.toNat, rb.toNat]
  let slot (r : Nat) : Nat × Place := match s.mxRing r with
    | some d => s.mxSlot d (s.mxe.heldSlot r - 1)
    | none => (0, .loc 0 0)
  let size (r : Nat) : Nat := ((s.mxRing r).map s.ringSlotSize).getD 0
  let na := m * k * mxBits (fmtA fmt) / 8
  let nb := n * k * mxBits (fmtB fmt) / 8
  let ns := (m + n) * k / 32
  let x : MmaArgs := ⟨fmt, m, n, k, (slot ra.toNat).2, (slot rb.toNat).2, (slot rs.toNat).2⟩
  let errs := [(!tileOk acc t.toNat, 6), (rings.any fun r => s.mxe.heldSlot r == 0, 4), (rings.any fun r => (s.mxRing r).isNone && !s.mxRingOut r, 8),
    (rings.any fun r => (slot r).1 == 10, 10), (rings.any s.mxRingOut, 7),
    (decide (size ra.toNat < na) || decide (size rb.toNat < nb) || (blk && decide (size rs.toNat < ns)), 3)]
  .next (s.mxCommand errs fun s =>
    let (mem, e) := s.mmaTile x t.toNat
    let twice := s.mxe.upset / 2
    let bad := bit (s.slotPoisoned x.a na || s.slotPoisoned x.b nb || (blk && s.slotPoisoned x.sc ns)) 0 + twice
    (s.modCore s.cid fun q => { q with
      acc := mem,
      mxe := { q.mxe with
        exc := q.mxe.exc ||| e, pois := if bad = 0 then q.mxe.pois else q.mxe.pois ||| physTiles acc t.toNat,
        poisoned := satAdd32 q.mxe.poisoned bad, retry := satAdd32 q.mxe.retry (s.mxe.upset % 2), upset := 0 } }).mxNext)

/-! Rings and signals (R231, R238) -/

/-- The release of a command of the engine, and what goes on once it is complete: until then the engine stays at the command (R206, R345,
R418; log entry 16). -/
def State.mxRelease (s : State) (rel : Bool) (sc : Scope) (body : State → State) : State :=
  if !rel then body s
  else
    let t := s.release sc s.cid
    if sc = .core || (t.leftover s.cid).isEmpty then body t else t

/-- `mx.wait` MODE 0. -/
def execMxWaitGet (ring : BitVec 3) (sc : Scope) (acq : Bool) (s : State) : Host.Outcome State Fault Refusal :=
  let n := ring.toNat
  .next (s.mxCommand (s.ringChecks n ++ [(s.mxe.heldSlot n != 0, 5)]) fun s =>
    match s.mxRing n with
    | none => s
    | some r => match s.takeSlot r with
      | none => s
      | some (i, s) =>
        let s := s.modMxe fun m => { m with held := set 0 m.held n (i + 1) }
        (if acq then s.acquire sc s.cid else s).mxNext)

/-- `mx.wait` MODE 1. -/
def execMxWaitFree (ring : BitVec 3) (s : State) : Host.Outcome State Fault Refusal :=
  .next (s.mxCommand (s.ringChecks ring.toNat) fun s =>
    match s.mxRing ring.toNat with
    | none => s
    | some r => if s.slotState r (s.ringRsv r % s.ringN r) = 0 then s.mxNext else s)

/-- `mx.rel`. -/
def execMxRel (ring : BitVec 3) (sc : Scope) (rel : Bool) (s : State) : Host.Outcome State Fault Refusal :=
  let n := ring.toNat
  .next (s.mxCommand (s.ringChecks n ++ [(s.mxe.heldSlot n == 0, 4)]) fun s =>
    match s.mxRing n with
    | none => s
    | some r => s.mxRelease rel sc fun s =>
      let s := s.moveSlot r (s.mxe.heldSlot n - 1) 3 0
      (s.modMxe fun m => { m with held := set 0 m.held n 0 }).mxNext)

/-- `mx.sig` MODE 0. -/
def execMxSigRing (ring : BitVec 3) (sc : Scope) (rel : Bool) (s : State) : Host.Outcome State Fault Refusal :=
  .next (s.mxCommand (s.ringChecks ring.toNat) fun s =>
    match s.mxRing ring.toNat with
    | none => s
    | some r =>
      if (s.reserveSlot r).isNone then s
      else s.mxRelease rel sc fun s => match s.reserveSlot r with
        | none => s
        | some (i, s) => (s.setSlotState r i 2).mxNext)

/-- `mx.sig` MODE 1. -/
def execMxSigAbar (obj : BitVec 20) (wt : BitVec 16) (sc : Scope) (rel : Bool) (s : State) : Host.Outcome State Fault Refusal :=
  .next (s.mxCommand [((s.mxOff (16 * obj.toNat) 16).isNone, 7)] fun s =>
    match s.mxOff (16 * obj.toNat) 16 with
    | none => s
    | some off => s.mxRelease rel sc fun s =>
      (s.abarSignal s.cid off (if wt = 0 then 1 else wt.setWidth 64) false).mxNext)

/-! Control nodes (R232) -/

/-- Whether the 8 bytes of a command at an offset lie in the latched segment. -/
def State.mxInside (s : State) (o : Nat) : Bool := (s.mxOff o 8).isSome

/-- Goes to a command. -/
def State.mxGoto (s : State) (o : Nat) : State := s.modMxe fun m => { m with cpc := o % 2 ^ 32 }

/-- A condition word at 4 × WOFF. -/
def State.mxCond (s : State) (woff : BitVec 20) : Nat :=
  match s.mxOff (4 * woff.toNat) 4 with
  | some off => s.locRd s.cid off 4
  | none => 0

/-- `mx.if`. -/
def execMxIf (disp : BitVec 16) (woff : BitVec 20) (s : State) : Host.Outcome State Fault Refusal :=
  .next (s.mxCommand [((s.mxOff (4 * woff.toNat) 4).isNone || !s.mxInside (s.mxTarget disp), 7)] fun s =>
    if s.mxCond woff ≠ 0 then s.mxNext else s.mxGoto (s.mxTarget disp))

/-- `mx.while`. -/
def execMxWhile (dec : Bool) (disp : BitVec 16) (woff : BitVec 20) (s : State) : Host.Outcome State Fault Refusal :=
  .next (s.mxCommand [((s.mxOff (4 * woff.toNat) 4).isNone || !s.mxInside (s.mxTarget disp), 7)] fun s =>
    match s.mxOff (4 * woff.toNat) 4 with
    | none => s
    | some off =>
      if s.mxCond woff = 0 then s.mxGoto (s.mxTarget disp)
      else (if dec then s.locWr s.cid off 4 (s.mxCond woff - 1) else s).mxNext)

/-- Whether the word at an offset of the latched segment is an `mx.while`. -/
def State.mxIsWhile (s : State) (o : Nat) : Bool :=
  match s.mxOff o 8 with
  | some off => fld (word (s.locRd s.cid off 8)) 60 4 == 8
  | none => false

/-- `mx.end`. -/
def execMxEnd (disp : BitVec 16) (s : State) : Host.Outcome State Fault Refusal :=
  let go := disp != 0
  .next (s.mxCommand [(go && !s.mxInside (s.mxTarget disp), 7), (go && !s.mxIsWhile (s.mxTarget disp), 9)] fun s =>
    if go then s.mxGoto (s.mxTarget disp) else s.mxNext)

/-- `mx.jump`. -/
def execMxJump (disp : BitVec 16) (s : State) : Host.Outcome State Fault Refusal :=
  .next (s.mxCommand [(!s.mxInside (s.mxTarget disp), 7)] fun s => s.mxGoto (s.mxTarget disp))

/-- `mx.halt`. -/
def execMxHalt (sc : Scope) (rel : Bool) (s : State) : Host.Outcome State Fault Refusal :=
  .next (s.mxCommand [] fun s => s.mxRelease rel sc fun s => (s.modMxe fun m => { m with st := 2 }).mxNext)

/-- R230: the command at CPC of the engine in focus, or the code of the error of reading it. -/
def State.mxFetch (s : State) : Except Nat Instr :=
  match s.mxOff s.mxe.cpc 8 with
  | none => .error 7
  | some off => match decodeMx (word (s.locRd s.cid off 8)) with
    | some i => .ok i
    | none => .error 1

/-! The instructions -/

/-- R225: the header's fields lie in `.loc`: its offset in the core's share if check 5 passes. -/
def State.mxHeader (s : State) (o : Word) : Option Nat :=
  if o.toNat % 64 ≠ 0 then none
  else match segOffset (s.cur.seg 1) o.toNat 64 none with
  | none => none
  | some off =>
    let entry := s.locRd s.cid (off + 16) 4
    if entry % 8 = 0 ∧ (segOffset (s.cur.seg 1) entry 8 none).isSome ∧ s.locRd s.cid (off + 20) 44 = 0 then some off else none

/-- Writes the restart symbol of every group of the team that issues, those held or swapped out included (R226, R370). -/
def State.setRestart (s : State) (v : Word) : State :=
  let t := s.cur.team
  let s := s.modDie s.did fun x => { x with conts := x.conts.map fun (y : Cont) =>
    if y.core == s.cid && y.team == t then { y with group := { y.group with restart := v } } else y }
  s.modCore s.cid fun k =>
    { k with slots := k.slots.map fun (i, g) => (i, if g.occ && g.team == t then { g with restart := v } else g) }

/-- R226. -/
def State.startEngine (s : State) (fmt : Mask) (off : Nat) (restart : Word) : State :=
  let entry := s.locRd s.cid (off + 16) 4
  let rings := BitVec.ofNat 128 (s.locRd s.cid off 16)
  let seg := s.cur.seg 1
  let t := s.cur.team
  (s.modMxe fun m => { m with
    st := 1, cpc := entry, fmt := fmt, rings := rings, entry := entry, held := [], err := 0, exc := 0, rst := false,
    owner := some t, seg := seg }).setRestart restart

/-- Cause 0x05 of an engine instruction of a team without the engine (R156, R225). -/
def State.gateEngine (s : State) (i : Instr) (body : List Nat → State → State) : State :=
  s.gate i fun ls s => if s.ownsEngine then body ls s else s.segFault 0xFFFFFFFFFFFFFFFF (maskOf ls)

/-- `mxgo` (R224-R226). -/
def execMxgo (o : Operands) (s : State) : Host.Outcome State Fault Refusal :=
  let i := Instr.mxgo o
  .next (s.gateEngine i fun ls s => s.withOperands i ls fun ka kb kc s =>
    let ((ta, a), (tb, b), (tc, c)) := i.sources
    let l := ls.headD 0
    let f (l : Nat) : Mask := low32 (s.src ta ka ls l a)
    let hdr := s.src tb kb ls l b
    let differ := ls.filter fun x => f x != f l
    if !differ.isEmpty then s.takeTrap 0x03 (ofMask (f l)) (maskOf differ)
    else if !fmtValid (f l) then s.takeTrap 0x01 (ofMask (f l)) 10
    else if s.mxe.st = 1 then s.segFault 0xFFFFFFFFFFFFFFFE (maskOf ls)
    else match s.mxHeader hdr with
    | none => s.segFault hdr (maskOf ls)
    | some off =>
      let restart := s.pc + s.src tc kc ls l c * 8
      ((s.popSources ls o).startEngine (f l) off restart).advance i.len)

/-- The words of `mxstat` (R241). -/
def mxStatWord (m : Mxe) (n : Nat) : Word :=
  match n with
  | 0 => word (m.exc.toNat * 2 ^ 48 + m.pois.toNat * 2 ^ 44 + m.err % 256 * 2 ^ 32 + m.cpc % 2 ^ 32 / 8 * 8 + bit m.rst 2 + m.st % 4)
  | 1 => word ((List.range 8).foldl (fun v r => v + (if m.heldSlot r = 0 then 0 else 2 ^ r)) 0)
  | 2 => word ((List.range 8).foldl (fun v r => v + (m.heldSlot r - 1) % 256 * 2 ^ (8 * r)) 0)
  | 3 => ofMask m.fmt
  | 4 => word (m.retry * 2 ^ 32 + m.poisoned)
  | _ => 0

/-- `mxstat` (R241). -/
def execMxstat (o : Operands) (s : State) : Host.Outcome State Fault Refusal :=
  let i := Instr.mxstat o
  .next (s.gateEngine i fun ls s => s.withOperands i ls fun ka _ _ s =>
    let ((ta, a), _, _) := i.sources
    s.finish i ls fun l =>
      let n := fld (s.src ta ka ls l a) 0 8
      if n = 5 then s.cur.restart else mxStatWord s.mxe n)

/-- `mxstop` (R242). -/
def execMxstop (o : Operands) (s : State) : Host.Outcome State Fault Refusal :=
  let i := Instr.mxstop o
  .next (s.gateEngine i fun _ s => ((s.modMxe fun m => { m with st := 0 }).setRestart 0).advance i.len)

end Sys2Proof.Machine
end

