-- ==== Sys2Proof/Machine/Stage.lean ====
section
/-! DEFINITION. The stage instructions (R267-R275): declaring a cassette, admission, completion, the tail and the statistics. -/

namespace Sys2Proof.Machine

/-- The gate of the stage instructions that change a router: in rollback mode the interval becomes unrecoverable (R280). -/
def State.gateStage (s : State) (i : Instr) (body : List Nat → Word → Word → State → State) : State :=
  s.gate i fun ls s => s.withOperands i ls fun ka kb _ s => body ls ka kb s

/-- The cassette of number k of the cluster of the group that issues. -/
def State.myCas (s : State) (k : Nat) : Option CasRef := s.casOf s.cid s.cur.team k

/-! `stg.decl` -/

/-- n bytes of a descriptor (R256). -/
def cdField (d : BitVec 1024) (off n : Nat) : Nat := d.toNat / 2 ^ (8 * off) % 2 ^ (8 * n)

/-- Where the record table lies, if the 16 × W bytes at TABLE lie within the cluster's `.clu` segment of one rank. -/
def State.cdTable (s : State) (d : BitVec 1024) : Option (Nat × Nat) :=
  let t := word (cdField d 8 8)
  if fld t 36 28 ≠ 1 ∨ t.toNat % 16 ≠ 0 then none
  else match s.enginePlace s.cid s.cur.team s.cur.segs t (16 * 2 ^ (cdField d 0 1 / 16)) with
  | some (.loc c off) => some (c, off)
  | _ => none

/-- R256: a malformed descriptor. -/
def State.cdBad (s : State) (d : BitVec 1024) : Bool :=
  let ctrl := word (cdField d 0 8)
  let base := cdField d 0x10 8
  let len := cdField d 0x1C 4
  let log := ctrl.getLsbD 10
  let rep := ctrl.getLsbD 11
  fld ctrl 12 52 != 0 || cdField d 0x78 8 != 0 || fld ctrl 0 4 == 0 || decide (8 < fld ctrl 0 4) ||
  decide (fld ctrl 4 4 < 4) || decide (12 < fld ctrl 4 4) || (log && rep) || ((log || rep) && (base == 0 || len == 0)) ||
  base % 4 != 0 || (s.cdTable d).isNone

/-- The cassette that a descriptor declares (R269). -/
def newCassette (d : BitVec 1024) (owner asid : Word) (tcore toff : Nat) : Cassette :=
  let w (i : Nat) : Nat := let v := cdField d (0x20 + 2 * i) 2; if v = 0 then 65536 else v
  let seed := cdField d 0x18 4
  { Cassette.zero with
    decl := true, owner := owner, tcore := tcore, toff := toff, asid := asid, ctrl := word (cdField d 0 8),
    table := word (cdField d 8 8), logBase := word (cdField d 0x10 8), logLen := cdField d 0x1C 4,
    lfsr := if seed = 0 then 1 else BitVec.ofNat 32 seed, nextSeq := 1,
    wts := (List.range (cdField d 0 1 % 16)).foldl (fun m i => set 0 m i (w i)) [] }

/-- R269: declares a cassette of number k and writes its table image. -/
def State.declare (s : State) (c : CasRef) (q : Cassette) : State :=
  let s := s.setCas c q
  s.modCore q.tcore fun k => { k with loc := writeBytes k.loc q.toff (16 * q.window) 0 }

/-- The 128 bytes of a descriptor at an engine address. -/
def State.readDescriptor (s : State) (a : Word) : ReadRes × State :=
  match s.enginePlace s.cid s.cur.team s.cur.segs a 128 with
  | none => (.fault 0 0, s)
  | some (.glb va) => s.readSpan s.cid s.cur.asid va 128 s.cur.priv s.sid s.low
  | some p => s.readAt s.low p 128

/-- `stg.decl` (R269). -/
def execStgDecl (o : Operands) (s : State) : Host.Outcome State Fault Refusal :=
  let i := Instr.stgDecl o
  .next (s.gateStage i fun ls ka _ s =>
    let ((ta, a), _, _) := i.sources
    let l := ls.headD 0
    let va := s.src ta ka ls l a
    if va.toNat % 64 ≠ 0 then s.segFault va (maskOf ls)
    else match s.readDescriptor va with
    | (.fault 0 _, s) => s.segFault va (maskOf ls)
    | (.fault k h, s) => s.keepWhole 0 h [(l, va, k)]
    | (.poison o, s) => s.poisonTrap va o
    | (.held r, s) => s.awaitRead r
    | (.data v, s) =>
      let d := BitVec.ofNat 1024 v
      match s.cdBad d, s.cdTable d with
      | false, some (tc, off) =>
        match [0, 1, 2, 3].find? fun k => !(s.cas (s.routerOf s.cid s.cur.team k)).decl with
        | none => s.segFault 0xFFFFFFFFFFFFFFFB (maskOf ls)
        | some k =>
          let s := s.unrec.declare (s.routerOf s.cid s.cur.team k) (newCassette d s.team.ckey s.cur.asid tc off)
          let s := s.logEvent s.did 5 0 va (word (cdField d 0x18 4))
          s.finish i ls fun _ => word k
      | _, _ => s.segFault va (maskOf ls))

/-! Admission -/

/-- One lane's admission (R270): the handle, if an entry is free. -/
def State.admitOne (s : State) (c : CasRef) (keep : Bool) (v : Word) : Option (Word × State) :=
  let q := s.cas c
  match (List.range q.window).find? fun i => (q.entry i).st == 0 with
  | none => none
  | some i =>
    let seq := q.nextSeq
    let s := s.setCas c { q with nextSeq := if seq = 2 ^ 32 - 1 then 1 else seq + 1, lastSeq := seq }
    let e : RecEntry := { RecEntry.zero with value := v, seq := seq, st := 6, core := s.cid, slot := s.ownSlot }
    let s := s.putEntry c i e
    some (handle c.k i seq, if keep then s else (s.route c i none).2)

/-- The lanes of an admission in ascending order, until one must wait. -/
def State.admitLanes (s : State) (c : CasRef) (keep : Bool) (d : Dst) : List (Nat × Word) → Bool × State
  | [] => (true, s)
  | (l, v) :: r =>
    if s.cur.path.done.getLsbD l then s.admitLanes c keep d r
    else match s.admitOne c keep v with
    | none => (false, s)
    | some (h, s) => (s.feReply s.cid s.sid l d h).admitLanes c keep d r

/-- R267: the value of operand a, that of the lowest acting lane when the instruction began; the path keeps it while the handles of lanes
already admitted replace the register. -/
def State.casArg (s : State) (v : Word) (d : Dst) : Word × State :=
  match d, s.cur.path.latch with
  | .s _, _ => (v, s)
  | _, some k => (k, s)
  | _, none => (v, s.modCur fun g => g.modPath fun p => { p with latch := some v })

/-- `stg.admit[.keep]` (R268, R270). The checks and the publication are made once, when the instruction begins. -/
def State.stageAdmit (s : State) (i : Instr) (keep : Bool) : State :=
  s.gateStage i fun ls ka kb s =>
    let o := i.operands
    let ((ta, a), (tb, b), _) := i.sources
    let vs := ls.map fun l => (l, s.src tb kb ls l b)
    let (k, s) := s.casArg (s.src ta ka ls (ls.headD 0) a) o.d
    let waiting := s.cur.path.wait == .ring || s.cur.path.done != 0
    match s.myCas k.toNat with
    | none => s.segFault k (maskOf ls)
    | some c =>
      if !waiting && (s.cas c).closed then s.segFault 0xFFFFFFFFFFFFFFFC (maskOf ls)
      else
        let enter_ (s : State) : State := match s.admitLanes c keep o.d vs with
          | (true, s) => ((s.popSources ls o).writeLatch o.d).advance i.len
          | (false, s) => s.await .ring
        if waiting then enter_ s else s.unrec.releaseThen .clu (ls.headD 0) enter_

/-- `stg.admit` (R270). -/
def execStgAdmit (o : Operands) (s : State) : Host.Outcome State Fault Refusal := .next (s.stageAdmit (.stgAdmit o) false)

/-- `stg.admit.keep` (R270). -/
def execStgAdmitKeep (o : Operands) (s : State) : Host.Outcome State Fault Refusal := .next (s.stageAdmit (.stgAdmitKeep o) true)

/-- `stg.admit.close` (R262, R270). -/
def execStgAdmitClose (o : Operands) (s : State) : Host.Outcome State Fault Refusal :=
  let i := Instr.stgAdmitClose o
  .next (s.gateStage i fun ls ka _ s =>
    let ((ta, a), _, _) := i.sources
    let k := s.src ta ka ls (ls.headD 0) a
    match s.myCas k.toNat with
    | none => s.segFault k (maskOf ls)
    | some c => ((s.unrec.modCas c fun q => { q with closed := true }).popSources ls o).advance i.len)

/-! Completion -/

/-- The cassette and entry that a handle names, if its number is declared and its admission number agrees (R268). -/
def State.handleOf (s : State) (h : Word) : Option (CasRef × Nat) :=
  match s.myCas (fld h 12 2) with
  | none => none
  | some c =>
    let i := fld h 0 12
    let q := s.cas c
    if i < q.window ∧ (q.entry i).seq = fld h 32 32 then some (c, i) else none

/-- Whether the group that issues holds the record of a handle in a state (R259, R268). -/
def State.holdsIn (s : State) (h : Word) (st : Nat) : Bool :=
  match s.handleOf h with
  | none => false
  | some (c, i) => let e := (s.cas c).entry i; e.st == st && e.core == s.cid && e.slot == s.ownSlot

/-- Whether two lanes of a list give the handle of one record (R260, R268). -/
def twice (hs : List (Nat × Word)) (h : Word) : Bool :=
  decide (1 < (hs.filter fun e => fld e.2 0 14 == fld h 0 14 && fld e.2 32 32 == fld h 32 32).length)

/-- The check of R268 over the acting lanes: `need h l` is the value that fails for lane l. -/
def State.stageCheck (s : State) (ls : List Nat) (fails : Nat → Option Word) (body : State → State) : State :=
  match ls.filterMap fun l => (fails l).map fun v => (l, v) with
  | [] => body s
  | (l, v) :: r => s.segFault v (maskOf (l :: r.map (·.1)))

/-- `stg.done` (R268, R271). -/
def execStgDone (o : Operands) (s : State) : Host.Outcome State Fault Refusal :=
  let i := Instr.stgDone o
  .next (s.gateStage i fun ls ka kb s =>
    let ((ta, a), (tb, b), _) := i.sources
    let hs := ls.map fun l => (l, s.src ta ka ls l a)
    let bs := ls.map fun l => (l, s.src tb kb ls l b)
    s.stageCheck ls (fun l => let h := valOf hs l; if s.holdsIn h 2 && !twice hs h then none else some h) fun s => s.unrec.releaseThen .clu (ls.headD 0) fun s =>
      let s := hs.foldl (fun (s : State) (l, h) => match s.handleOf h with
        | some (c, j) => (s.stageDone c j ((valOf bs l).getLsbD 0) none).2
        | none => s) s
      (s.popSources ls o).advance i.len)

/-- The stage code of R272. -/
def Routed.code : Option Routed → Nat
  | some (.stage st) => st
  | some .tailed => 8
  | some .passed => 9
  | none => 10

/-- The lanes of `stg.next` in ascending order, with their results. -/
def State.nextLanes (s : State) : List (Nat × Word × Word) → List (Nat × Word) × State
  | [] => ([], s)
  | (l, h, b) :: r =>
    match s.handleOf h with
    | none => s.nextLanes r
    | some (c, j) =>
      let me := some (s.cid, s.ownSlot)
      let (x, s) := if b = 0 then (let (x, s) := s.route c j me; (some x, s)) else s.stageDone c j (b = 1) me
      let (vs, s) := s.nextLanes r
      ((l, word (Routed.code x)) :: vs, s)

/-- `stg.next` (R268, R272, R274). The handle is tested before b, and b before the record's state (log entry 159). -/
def execStgNext (o : Operands) (s : State) : Host.Outcome State Fault Refusal :=
  let i := Instr.stgNext o
  .next (s.gateStage i fun ls ka kb s =>
    let ((ta, a), (tb, b), _) := i.sources
    let hs := ls.map fun l => (l, s.src ta ka ls l a)
    let bs := ls.map fun l => (l, s.src tb kb ls l b)
    let bad (l : Nat) : Option Word :=
      let h := valOf hs l
      let v := valOf bs l
      if (s.handleOf h).isNone then some h
      else if 2 < v.toNat then some v
      else if !s.holdsIn h (if v = 0 then 6 else 2) || twice hs h then some h else none
    s.stageCheck ls bad fun s => s.unrec.releaseThen .clu (ls.headD 0) fun s =>
      let (vs, s) := s.nextLanes (ls.map fun l => (l, valOf hs l, valOf bs l))
      let s := if vs.any fun e => decide (e.2.toNat < 8) then s.discard .clu s.cid else s
      s.finish i ls (valOf vs))

/-- `stg.tail` (R268, R273). -/
def execStgTail (o : Operands) (s : State) : Host.Outcome State Fault Refusal :=
  let i := Instr.stgTail o
  .next (s.gateStage i fun ls ka _ s =>
    let ((ta, a), _, _) := i.sources
    let hs := ls.map fun l => (l, s.src ta ka ls l a)
    s.stageCheck ls (fun l => let h := valOf hs l; if s.holdsIn h 5 && !twice hs h then none else some h) fun s => s.unrec.releaseThen .clu (ls.headD 0) fun s =>
      let s := hs.foldl (fun (s : State) (_, h) => match s.handleOf h with
        | some (c, j) => s.retire c j false
        | none => s) s
      (s.popSources ls o).advance i.len)

/-! Statistics -/

/-- The statistics words of a cassette (R275). Where no record is due at the tail, the next to be due is the next admitted. -/
def Cassette.stat (q : Cassette) (n : Nat) : Word :=
  let st := n % 8
  let stage (v : Nat) : Word := if st < q.nst then word v else 0
  if !q.decl then 0
  else match n with
  | 0 => q.ctrl
  | 1 => q.table
  | 2 => word (fld q.owner 0 32 * 2 ^ 32 + q.inflight * 16 + bit q.logErr 3 + bit q.drained 2 + bit q.closed 1 + 1)
  | 3 => ofMask q.lfsr
  | 4 => word q.draws
  | 5 => word q.lastSeq
  | 6 => word q.retired
  | 7 => word (q.windows * 2 ^ 32 + q.winRet)
  | 48 => word (q.port 8).length
  | 49 => word (match q.due with | some (_, e) => e.seq | none => q.nextSeq)
  | 50 => word q.rejected
  | n =>
    match n / 8 with
    | 1 => stage (get 0 q.wts st)
    | 2 => stage (get 0 q.ent st)
    | 3 => stage (get 0 q.pass st)
    | 4 => stage (get 0 q.cost st)
    | 5 => stage (q.port st).length
    | _ => 0

/-- `stg.stat` (R275). -/
def execStgStat (o : Operands) (s : State) : Host.Outcome State Fault Refusal :=
  let i := Instr.stgStat o
  .next (s.gateStage i fun ls ka kb s =>
    let ((ta, a), (tb, b), _) := i.sources
    let c := s.myCas (s.src ta ka ls (ls.headD 0) a).toNat
    s.finish i ls fun l => match c with
      | some c => (s.cas c).stat (fld (s.src tb kb ls l b) 0 8)
      | none => 0)

end Sys2Proof.Machine
end

