-- ==== Sys2Proof/Machine/Views.lean ====
section
/-! DEFINITION. Derived views: the check of a descriptor (R313, R324), the view instructions (R327-R333), the counters of a view
(R323) and the refresh of a block (R318-R320, R326). -/

namespace Sys2Proof.Machine

/-! Descriptors -/

/-- The end of the view bytes in one shard (R314). -/
def View.placedEnd (v : View) : Nat :=
  if v.layout = 2 then v.nt / v.shards * v.tb else (v.viewRows / v.shards - 1) * v.vpitch + v.rb

/-- The bytes that a shard must have (R315); the tags of a row-atomic view lie in its rows (R324). -/
def View.shardBytes (v : View) (rowa : Bool) : Nat :=
  if rowa then v.viewRows / v.shards * 512 else max v.placedEnd (v.toff + 8 * v.nb)

/-- Whether [a, b) meets one of the n ranges of r bytes at multiples of p. -/
def meetsRows (a b p r n : Nat) : Bool :=
  decide (a < b) && ((decide (a / p < n) && decide (a % p < r)) || (decide (a / p + 1 < n) && decide ((a / p + 1) * p < b)))

/-- R313: the tag region of a shard overlaps its view bytes. -/
def View.tagsOverlap (v : View) : Bool :=
  if v.layout = 2 then meetsRows v.toff (v.toff + 8 * v.nb) v.tb (1024 * v.e + 32 * v.sc) (v.nt / v.shards)
  else meetsRows v.toff (v.toff + 8 * v.nb) v.vpitch v.rb (v.viewRows / v.shards)

/-- R313: whether the S shards hold whole blocks. -/
def View.splits (v : View) : Bool :=
  match v.layout with
  | 0 => v.rows % v.shards == 0 && v.rows / v.shards % v.br == 0
  | 1 => v.cols % v.shards == 0 && v.cols / v.shards % v.bc == 0
  | _ => v.nt % v.shards == 0 &&
    v.nt / v.shards % (if v.br = 32 then v.bc / 32 else v.br / 32 * (v.cols / 32)) == 0

/-- R312, R313: a malformed descriptor, the overlap of its tags apart. A SHARD word that R312 does not allow makes it so (log entry 160). -/
def View.malformed (v : View) : Bool :=
  let f := v.vfmt
  let scaled := v.scaled
  v.ctl 16 48 != 0 || v.desc.toNat / 2 ^ (8 * 0x40) != 0 || !(f == 3 || f == 4 || f == 5 || f == 7) || v.layout == 3 ||
  v.ctl 6 2 == 3 || v.ctl 8 2 == 3 || v.rows == 0 || v.cols == 0 || v.rows % v.br != 0 || v.cols % v.bc != 0 ||
  ((v.layout == 2 || (v.layout == 1 && scaled)) && (v.rows % 32 != 0 || decide (v.br < 32))) ||
  (v.layout == 2 && v.cols % 32 != 0) || v.mpitch % 16 != 0 || decide (v.mpitch < v.cols * v.me) ||
  (if v.layout = 2 then v.vpitch != 0 else v.vpitch % 16 != 0 || decide (v.vpitch < v.rb)) || !v.splits || v.toff % 8 != 0 ||
  (f == 3 && v.bfMaster && v.layout == 0) ||
  (List.range 4).any fun i => if i < v.shards then fld (v.shard i) 0 40 != 0 else v.shard i != 0

/-- R324: the conditions of a row-atomic view on its descriptor. -/
def View.rowOk (v : View) : Bool :=
  v.bfMaster && v.cols == 256 && v.mpitch == 512 && v.layout == 0 && v.br == 1 && v.bc == 256 && v.scaled && v.vpitch == 512 &&
  v.toff == 0

/-! Object descriptors as the view engine reads and writes them -/

/-- The first word of an object's descriptor (R339). -/
def State.objWord (s : State) (d : Nat) (asid : Word) (obj : Nat) : Word := s.rd64 (s.descAddr d (asidOf asid) obj)

/-- LIMIT of an object. -/
def State.objLimit (s : State) (d : Nat) (asid : Word) (obj : Nat) : Nat :=
  fld (s.rd64 (s.descAddr d (asidOf asid) obj + 8)) 0 40

/-- Sets or clears a bit of the first word of an object's descriptor (VIEWED 12, VSH 11). -/
def State.objBit (s : State) (d : Nat) (asid : Word) (obj n : Nat) (v : Bool) : State :=
  let w := s.objWord d asid obj
  s.poke (s.descAddr d (asidOf asid) obj) 8 (if v then w ||| (1#64 <<< n) else w &&& ~~~(1#64 <<< n)).toNat none

/-- What the checks of `view.reg` find (R328). -/
inductive RegCheck
  | verr (n : Nat)
  | fault (kind : Nat) (va : Word) (acc : Nat) (view : Word)
  | poison (va : Word) (origin : Nat)
  | held (refused : Bool)
  | ok (v : View) (d : Nat)
deriving DecidableEq, Repr

/-- The check of a shard (R328): `none` if it passes. -/
def State.regShard (s : State) (v : View) (i : Nat) : Option RegCheck × State :=
  let g := s.cur
  let va := v.shard i
  let obj := fld va 40 24
  let (k, _, s) := s.translate s.cid (asidOf g.asid) (incOf g.asid) va .write g.priv
  if k = 6 then (some (.verr 4), s)
  else if k ≠ 0 then (some (.fault k va 1 0), s)
  else if (s.objWord s.did g.asid obj).getLsbD 59 then (some (.fault 7 va 1 0), s)
  else
    let w := s.objWord s.did g.asid obj
    let again := (List.range i).any fun j => fld (v.shard j) 40 24 == obj
    if w.getLsbD 11 || w.getLsbD 12 || w.getLsbD 15 || again || obj == v.obj ||
        decide (s.objLimit s.did g.asid obj < v.shardBytes v.rowa) then (some (.verr 4), s)
    else (none, s)

/-- The shards from i on. -/
def State.regShards (s : State) (v : View) : List Nat → Option RegCheck × State
  | [] => (none, s)
  | i :: r =>
    match s.regShard v i with
    | (none, s) => s.regShards v r
    | x => x

/-- The first of some blocks whose tag does not translate for a write: its address and fault kind. -/
def State.badTag (s : State) (d : Nat) (v : View) : List Nat → Option (Word × Nat) × State
  | [] => (none, s)
  | b :: r =>
    let (sh, off) := v.tagPlace b
    let va := v.shardVa sh off
    let (k, _, s) := s.unitWalk d v.asid va true
    if k = 0 then s.badTag d v r else (some (va, k), s)

/-- The key of a master's view index among the serials (R327). -/
def serKey (asid : Word) (obj idx : Nat) : Nat := (fld asid 0 32 * 2 ^ 24 + obj) * 8 + idx

/-- Steps 2 and 4 of R329 as checks: the descriptor, the master and the shards; the view that they would register. Of several failures the
first in this order is reported (log entry 162). -/
def State.regCheck (s : State) (m b : Word) (lane : Nat) : RegCheck × State :=
  let g := s.cur
  if b.toNat % 64 ≠ 0 then (.verr 1, s)
  else match s.readSpan s.cid g.asid b 128 g.priv s.sid lane with
  | (.fault k h, s) => (.fault k b 0 h, s)
  | (.poison o, s) => (.poison b o, s)
  | (.held r, s) => (.held r, s)
  | (.data raw, s) =>
    let obj := fld m 40 24
    let v : View := { asid := g.asid, obj := obj, idx := 0, ser := 0, desc := BitVec.ofNat 1024 raw, pol := 0, sstale := 0,
                      waits := 0, faults := 0, refresh := 0, poison := 0, exc := 0, rowa := false, stalled := [] }
    if v.malformed then (.verr 1, s)
    else if (s.die s.did).trMode || fld m 0 40 != 0 then (.verr 2, s)
    else
      let (k, _, s) := s.translate s.cid (asidOf g.asid) (incOf g.asid) m .write g.priv
      if k = 6 then (.verr 2, s)
      else if k ≠ 0 then (.fault k m 1 0, s)
      else
        let w := s.objWord s.did g.asid obj
        let d := fld w 60 3
        let rowa := fld w 13 2 == 1
        let v := { v with rowa := rowa, pol := v.ctl 6 2 }
        if w.getLsbD 59 then (.fault 7 m 1 0, s)
        else if decide (4 ≤ d) || w.getLsbD 15 || w.getLsbD 11 then (.verr 2, s)
        else if !rowa && v.tagsOverlap then (.verr 1, s)
        else if 8 ≤ ((s.die d).viewsOf g.asid obj).length ∨ 256 ≤ (s.die d).views.length then (.verr 3, s)
        else match s.regShards v (List.range v.shards) with
        | (some x, s) => (x, s)
        | (none, s) =>
          let shardRows := (List.range v.shards).all fun i => fld (s.objWord s.did g.asid (fld (v.shard i) 40 24)) 13 2 == 1
          if rowa && !(v.rowOk && shardRows) then (.verr 5, s)
          else match s.badTag d v (List.range v.nb) with
          | (some (va, k), s) => (.fault k va 1 0, s)
          | (none, s) => (.ok v d, s)

/-- Cause 0x05 of R328. A form whose operand is that of the lowest acting lane fails in every acting lane (log entry 161). -/
def State.viewErr (s : State) (n : Nat) (ls : List Nat) : State := s.segFault (0xFFFFFFFFFFFFFE00 + word n) (maskOf ls)

/-- Steps 3 and 4 of R329 on the master's home die d: the handle. -/
def State.registerView (s : State) (d : Nat) (v : View) : Word × State :=
  let s := (List.range v.shards).foldl (fun s i =>
    let obj := fld (v.shard i) 40 24
    ((s.objBit d v.asid obj 11 true).bumpGen d v.asid obj).2) s
  let used := ((s.die d).viewsOf v.asid v.obj).map (·.2.idx)
  let idx := ((List.range 8).find? fun i => !used.contains i).getD 0
  let n := ((List.range 256).find? fun n => (s.view? d n).isNone).getD 0
  let key := serKey v.asid v.obj idx
  let ser := (get 0 (s.die d).sers key + 1) % 256
  let v := { v with idx := idx, ser := ser }
  let s := s.modDie d fun x => { x with
    views := (x.views.filter (·.1 < n)) ++ [(n, v)] ++ x.views.filter (n < ·.1), sers := set 0 x.sers key ser,
    vfifo := x.vfifo ++ (List.range v.nb).map fun b => (n, b) }
  let s := (List.range v.nb).foldl (fun s b => s.putTag d v b (tagWord false 1 0)) s
  (v.handle, s.objBit d v.asid v.obj 12 true)

/-- `view.reg` (R327-R329). -/
def execViewReg (o : Operands) (s : State) : Host.Outcome State Fault Refusal :=
  let i := Instr.viewReg o
  .next (s.gate i fun ls s => s.withOperands i ls fun ka kb _ s =>
    let ((ta, a), (tb, b), _) := i.sources
    let l := ls.headD 0
    let m := s.src ta ka ls l a
    let at_ := s.src tb kb ls l b
    s.unrec.releaseThen .pkg l fun s => match s.regCheck m at_ l with
      | (.verr n, s) => s.viewErr n ls
      | (.fault k va acc h, s) => s.keepWhole acc h [(l, va, k)]
      | (.poison va n, s) => s.poisonTrap va n
      | (.held r, s) => s.awaitRead r
      | (.ok v d, s) =>
        let (h, s) := s.registerView d v
        s.finish i ls fun _ => h)

/-- The view that a handle names for an ASID (R327): die, table entry, view; `none` is VERR 6. -/
def State.viewOf (s : State) (asid h : Word) : Option (Nat × Nat × View) :=
  if fld h 16 24 ≠ 0 ∨ fld h 3 5 ≠ 0 then none
  else [0, 1, 2, 3].findSome? fun d =>
    (((s.die d).viewsOf asid (fld h 40 24)).find? fun (_, v) => v.idx == fld h 0 3 && v.ser % 256 == fld h 8 8).map
      fun (n, v) => (d, n, v)

/-- The translations of a list of addresses; the first fault decides. -/
def State.unitWalks (s : State) (d : Nat) (asid : Word) (wr : Bool) : List Word → Nat × Word × List Nat × State
  | [] => (0, 0, [], s)
  | va :: r =>
    let (k, pa, s) := s.unitWalk d asid va wr
    if k != 0 then (k, va, [], s)
    else
      let (k, x, ps, s) := s.unitWalks d asid wr r
      (k, x, pa :: ps, s)

/-- The bytes of a refresh at their physical addresses (R319): written at their arbiters, after what the lines have outstanding (R418). -/
def State.writeView (s : State) (qs : List Nat) (r : Refresh) : State :=
  let s := (qs.map (· / 128)).dedup.foldl (fun s l => (s.flushDelayed l).dropLeases l) s
  let s := (qs.zip r.writes).foldl (fun s (pa, _, n, q) => s.poke pa n q none) s
  let bytes := (qs.zip r.writes).flatMap fun (pa, _, n, _) => (List.range n).map (pa + ·)
  { s with poison := s.poison.filter fun l => !(List.range 128).all fun i => bytes.contains (128 * l + i) }

/-- The reads held for any block of a view (R322). -/
def State.heldOf (s : State) (d n : Nat) : List Defer :=
  s.dies.flatMap fun (_, x) => x.defer.filter fun e => e.op == 5 && e.key / 2 ^ 40 == viewKey d n 0 / 2 ^ 40

/-- R330, R333: the reads held for any block of a view are served with the bytes as they stand, or with a fault kind. -/
def State.serveView (s : State) (d n kind : Nat) : State := ((s.heldOf d n).map (·.key)).dedup.foldl (fun s k => s.serveReads k kind) s

/-- R330: a refresh that is stalled finishes its writes, its tag apart, where they translate. -/
def State.finishWrites (s : State) (d : Nat) (v : View) (r : Refresh) : State :=
  match s.unitWalks d v.asid true (r.writes.map (·.1)) with
  | (0, _, qs, s) => s.writeView qs r
  | (_, _, _, s) => s

/-- Steps 2, 3, 4 and 6 of R330. -/
def State.dropView (s : State) (d n : Nat) (v : View) : State :=
  let s := v.stalled.foldl (fun s r => s.finishWrites d v r) s
  let s := (s.serveView d n 0).modDie d fun x => { x with
    views := x.views.filter (·.1 != n), vfifo := x.vfifo.filter (·.1 != n),
    faults := x.faults.filter fun r => match r.target with | .view m _ => m != n | _ => true }
  let s := (List.range v.shards).foldl (fun s i => s.objBit d v.asid (fld (v.shard i) 40 24) 11 false) s
  if ((s.die d).viewsOf v.asid v.obj).isEmpty then s.objBit d v.asid v.obj 12 false else s

/-- `view.drop` (R330). -/
def execViewDrop (o : Operands) (s : State) : Host.Outcome State Fault Refusal :=
  let i := Instr.viewDrop o
  .next (s.gate i fun ls s => s.withOperands i ls fun ka _ _ s =>
    let ((ta, a), _, _) := i.sources
    match s.viewOf s.cur.asid (s.src ta ka ls (ls.headD 0) a) with
    | none => s.viewErr 6 ls
    | some (d, n, v) => s.unrec.releaseThen .pkg (ls.headD 0) fun s =>
      let v := (s.view? d n).getD v
      ((s.dropView d n v).popSources ls o).advance i.len)

/-- R316: p precedes or equals q. -/
def precedes (p q : Nat) : Bool := decide ((q + 2 ^ 28 - p % 2 ^ 28) % 2 ^ 28 < 2 ^ 27)

/-- The blocks that keep a `view.sync` with these targets waiting (R331). -/
def State.unmet (s : State) (d : Nat) (v : View) (targets : List Nat) : List Nat :=
  (List.range v.nb).filter fun b =>
    let t := s.tag d v b
    !(precedes (targets.getD b 0) (tagHave t) || tagPois t)

/-- `view.sync` (R331). -/
def execViewSync (o : Operands) (sc : Scope) (s : State) : Host.Outcome State Fault Refusal :=
  let i := Instr.viewSync o sc
  .next (s.gate i fun ls s => s.withOperands i ls fun ka _ _ s =>
    let ((ta, a), _, _) := i.sources
    let view := s.viewOf s.cur.asid (s.src ta ka ls (ls.headD 0) a)
    let test (s : State) (d n : Nat) (v : View) (targets : List Nat) : State :=
      match s.unmet d v targets with
      | [] =>
        let poisoned := (List.range v.nb).any fun b => tagPois (s.tag d v b)
        s.finish i ls fun _ => if poisoned then 1 else 0
      | bs => (bs.foldl (fun s b => s.hasten d n b) s).await (.viewSync targets)
    match s.cur.path.wait, view with
    | .viewSync _, none => s.finish i ls fun _ => 2
    | _, none => s.viewErr 6 ls
    | .viewSync targets, some (d, n, v) => test s d n v targets
    | _, some (d, n, v) => s.unrec.releaseThen sc (ls.headD 0) fun s =>
      test s d n v ((List.range v.nb).map fun b => tagWant (s.tag d v b)))

/-- The status word of a view (R323). -/
def View.statusWord (v : View) : Word := word (v.exc.toNat * 2 ^ 8 + bit v.rowa 3 + 4 + v.pol % 4)

/-- The entries of R323. -/
def State.viewCounter (s : State) (d : Nat) (v : View) (k : Nat) : Word :=
  let sat (n : Nat) : Word := word (min n (2 ^ 64 - 1))
  match k with
  | 0 => sat v.sstale
  | 1 => sat v.waits
  | 2 => sat v.faults
  | 3 => sat v.refresh
  | 4 => sat v.poison
  | 5 => word ((List.range v.nb).filter fun b => !tagFresh (s.tag d v b)).length
  | 6 => v.statusWord
  | _ => 0

/-- The word that a selector names (R332). -/
def State.viewWord (s : State) (d : Nat) (v : View) (b : Word) : Word :=
  if b.getLsbD 63 then s.viewCounter d v (fld b 0 8)
  else if fld b 0 32 < v.nb then s.tag d v (fld b 0 32) else 0

/-- The check of one lane of `view.tag` (R328): VERR 6, or a fault of the translation of the master. -/
def State.tagCheck (s : State) (h : Word) : Nat × State :=
  if (s.viewOf s.cur.asid h).isNone then (6, s)
  else
    let g := s.cur
    let (k, _, s) := s.translate s.cid (asidOf g.asid) (incOf g.asid) (word (fld h 40 24 * 2 ^ 40)) .read g.priv
    (k, s)

/-- The checks of all lanes: the kinds found. -/
def State.tagChecks (s : State) : List (Nat × Word) → List (Nat × Word × Nat) × State
  | [] => ([], s)
  | (l, h) :: r =>
    let (k, s) := s.tagCheck h
    let (ks, s) := s.tagChecks r
    ((l, h, k) :: ks, s)

/-- `view.tag` (R328, R332). -/
def execViewTag (o : Operands) (s : State) : Host.Outcome State Fault Refusal :=
  let i := Instr.viewTag o
  .next (s.gate i fun ls s => s.withOperands i ls fun ka kb _ s =>
    let ((ta, a), (tb, b), _) := i.sources
    let (ks, s) := s.tagChecks (ls.map fun l => (l, s.src ta ka ls l a))
    match ks.filter fun e => e.2.2 == 6, ks.find? fun e => e.2.2 != 0 with
    | e :: es, _ => s.viewErr 6 ((e :: es).map (·.1))
    | [], some (_, h, k) => s.keepWhole 0 0 [(ls.headD 0, word (fld h 40 24 * 2 ^ 40), k)]
    | [], none =>
      s.finish i ls fun l => match s.viewOf s.cur.asid (s.src ta ka ls l a) with
        | some (d, _, v) => s.viewWord d v (s.src tb kb ls l b)
        | none => 0)

/-- R333: what a change of policy does with the reads that are held: SERVE-STALE returns their bytes, FAULT faults them, both with their counts;
under WAIT they stay. -/
def State.serveHeld (s : State) (d n pol : Nat) : State :=
  let k := (s.heldOf d n).length
  match pol with
  | 0 => s
  | 1 => (s.modView d n fun v => { v with sstale := v.sstale + k }).serveView d n 0
  | _ => (s.modView d n fun v => { v with faults := v.faults + k }).serveView d n 9

/-- `view.pol` (R333). -/
def execViewPol (o : Operands) (s : State) : Host.Outcome State Fault Refusal :=
  let i := Instr.viewPol o
  .next (s.gate i fun ls s => s.withOperands i ls fun ka kb _ s =>
    let ((ta, a), (tb, b), _) := i.sources
    let l := ls.headD 0
    let p := fld (s.src tb kb ls l b) 0 2
    match s.viewOf s.cur.asid (s.src ta ka ls l a) with
    | none => s.viewErr 6 ls
    | some (d, n, _) =>
      if p = 3 then s.viewErr 7 ls
      else
        let s := (s.unrec.modView d n fun v => { v with pol := p }).serveHeld d n p
        (s.popSources ls o).advance i.len)

/-! Refresh -/

/-- The groups of master elements of a block, in the order of R319: each is written with one scale. -/
def View.groups (v : View) (b : Nat) : List (List (Nat × Nat)) :=
  let (r0, c0) := v.blockOrigin b
  let n := min 32 v.br
  match v.layout with
  | 1 => (List.range v.bc).flatMap fun c => (List.range (v.br / n)).map fun g =>
    (List.range n).map fun k => (r0 + n * g + k, c0 + c)
  | 2 => (List.range (v.br / 32)).flatMap fun tr => (List.range (v.bc / 32)).flatMap fun tc => (List.range 32).map fun row =>
    (List.range 32).map fun k => (r0 + 32 * tr + row, c0 + 32 * tc + k)
  | _ => (List.range v.br).flatMap fun r => (List.range (v.bc / 32)).map fun g =>
    (List.range 32).map fun k => (r0 + r, c0 + 32 * g + k)

/-- The `.glb` address of a master element. -/
def View.masterVa (v : View) (r c : Nat) : Word := word (v.obj * 2 ^ 40 + r * v.mpitch + c * v.me)

/-- One group's view bytes: the codes, the scale and the exceptions (R319). -/
def View.convert (v : View) (xs : List Nat) : List Nat × Nat × Fp.Exc :=
  let vals := xs.map (if v.bfMaster then Fp.bf16.value else Fp.f32.value)
  let union (es : List Fp.Exc) : Fp.Exc := es.foldl (· ||| ·) 0
  if v.scaled then
    let t := Fp.Elem.ofCode v.vfmt
    let (sc, e) := Fp.scaleOf t vals
    let qs := vals.map (Fp.quantize t 0 sc)
    (qs.map (·.1), sc, e ||| union (qs.map (·.2)))
  else if v.bfMaster then (xs, 0, 0)
  else
    let qs := vals.map (Fp.bf16.convert 0 false)
    (qs.map (·.1), 0, union (qs.map (·.2)))

/-- What a refresh writes: address and bytes of each element and scale, in order. -/
def View.writes (v : View) (groups : List (List (Nat × Nat))) (vals : List (List Nat)) : List (Word × Nat × Nat) × Fp.Exc :=
  (groups.zip vals).foldl (fun ((ws, e) : List (Word × Nat × Nat) × Fp.Exc) (g, xs) =>
    let (qs, sc, e1) := v.convert xs
    let el := (g.zip qs).map fun ((r, c), q) => let (sh, off, _) := v.place r c; (v.shardVa sh off, v.e, q)
    let scw := if v.scaled then
      (match g with | (r, c) :: _ => let (sh, _, off) := v.place r c; [(v.shardVa sh off, 1, sc)] | [] => []) else []
    (ws ++ el ++ scw, e ||| e1)) ([], 0)

/-- Splits a list into parts of given lengths. -/
def cutList {α : Type} : List Nat → List α → List (List α)
  | [], _ => []
  | n :: ns, xs => xs.take n :: cutList ns (xs.drop n)

/-- A fault record of the view engine (R326, R354). -/
def State.viewRecord (s : State) (d n b : Nat) (v : View) (kind acc : Nat) (va : Word) (needc : Bool) : State :=
  let r : FRec := { FRec.blank with
    src := 4, kind := kind, acc := acc, needc := needc, addr := va, strand := word b,
    ctx := spaceWord v.asid (s.genOf d v.asid va), detail := v.handle, target := .view n b }
  (s.faultRecord d r).2

/-- R326: a block is poisoned; the reads held for it fault (R322). -/
def State.poisonBlock (s : State) (d n b : Nat) (v : View) : State :=
  let t := s.tag d v b
  let s := s.putTag d v b (tagWord true (tagWant t) (tagHave t))
  let s := s.modView d n fun v => { v with poison := v.poison + 1, stalled := v.stalled.filter fun r => r.block != b }
  (s.modDie d fun x => x.addCount 17 1).serveReads (viewKey d n b) 10

/-- Whether the refresh of a block waits for the completion of a fault record (R326). -/
def Die.viewStalled (k : Die) (n b : Nat) : Bool := k.faults.any fun r => r.target == .view n b

/-- A refresh waits between its lock and its tag write (R316, R318): its tag shows BUSY. -/
def State.stallRefresh (s : State) (d n : Nat) (v : View) (r : Refresh) : State :=
  (s.putTag d v r.block (s.tag d v r.block ||| (1#64 <<< 62))).modView d n fun v =>
    { v with stalled := (v.stalled.filter fun x => x.block != r.block) ++ [r] }

/-- Steps 5 and 6 of R318: the writes of a refresh and its tag. It stalls where one of them faults (R326), and waits while another package
holds a lease on one of their lines (R418). Reads held for the block are served once it is fresh (R322). -/
def State.finishRefresh (s : State) (d n : Nat) (v : View) (r : Refresh) : State :=
  let (sh, toff) := v.tagPlace r.block
  let (k, va, qs, s) := s.unitWalks d v.asid true (r.writes.map (·.1) ++ [v.shardVa sh toff])
  if k ≠ 0 then (s.stallRefresh d n v r).viewRecord d n r.block v k 1 va true
  else if qs.any fun pa => s.leased (pa / 128) then s.stallRefresh d n v r
  else
    let s := s.writeView qs r
    let s := s.putTag d v r.block (tagWord false (tagWant (s.tag d v r.block)) r.want)
    let s := s.modView d n fun v =>
      { v with refresh := v.refresh + 1, exc := v.exc ||| r.exc, stalled := v.stalled.filter fun x => x.block != r.block }
    let s := s.modDie d fun x => x.addCount 16 1
    if tagFresh (s.tag d v r.block) then s.serveReads (viewKey d n r.block) 0 else s

/-- R318, R319, R326: the refresh of one block, as one event where nothing stalls it. -/
def State.refreshBlock (s : State) (d n b : Nat) (v : View) : State :=
  let s := s.modDie d fun x => { x with vfifo := x.vfifo.filter (· != (n, b)) }
  let groups := v.groups b
  let want := tagWant (s.tag d v b)
  let (k, va, ps, s) := s.unitWalks d v.asid false (groups.flatten.map fun (r, c) => v.masterVa r c)
  if k ≠ 0 then s.viewRecord d n b v k 0 va true
  else if ps.any fun pa => s.poisoned pa 1 then
    (s.poisonBlock d n b v).viewRecord d n b v 10 0 (v.masterVa (v.blockOrigin b).1 (v.blockOrigin b).2) false
  else
    let vals := cutList (groups.map List.length) (ps.map fun pa => s.rd pa v.me)
    let (ws, e) := v.writes groups vals
    s.finishRefresh d n v ⟨b, want, ws, e⟩

/-- Whether the flush of a view's address space is in progress (R338). -/
def State.viewFlushing (s : State) (d n : Nat) : Bool :=
  match s.view? d n with | some v => s.flushing v.asid | none => false

/-- The stalled refresh of the engine of die d that can go on: its fault has been completed, or no lease stands in its way. -/
def State.nextStalled (s : State) (d : Nat) : Option (Nat × View × Refresh) :=
  (s.die d).views.findSome? fun (n, v) =>
    (v.stalled.find? fun r => !(s.die d).viewStalled n r.block && !s.viewFlushing d n).map fun r => (n, v, r)

/-- The next block that the engine of die d can refresh (R320): one whose refresh is stalled is not refreshed again meanwhile. -/
def State.nextBlock (s : State) (d : Nat) : Option (Nat × Nat × View) :=
  ((s.die d).vfifo.find? fun (n, b) => !(s.die d).viewStalled n b && !s.viewFlushing d n &&
      !((s.view? d n).any fun v => v.stalled.any fun r => r.block == b)).bind fun (n, b) =>
    (s.view? d n).map fun v => (n, b, v)

/-- VIEW_REFRESH (R318): a stalled refresh that can go on, or the first block of the FIFO that no fault stalls. Without room for a fault record
the engine waits (R354). -/
def execViewRefresh (die : Nat) (s : State) : Host.Outcome State Fault Refusal :=
  .next (if !s.recordRoom die 1 then s
  else match s.nextStalled die, s.nextBlock die with
    | some (n, v, r), _ => s.finishRefresh die n v r
    | none, some (n, b, v) => s.refreshBlock die n b v
    | none, none => s)

/-- R326, R282: the view engine of a die enters an illegal state in the refresh of a block: the block is poisoned, with a record. -/
def State.viewIllegal (s : State) (d n b : Nat) : State :=
  match s.view? d n with
  | none => s
  | some v =>
    if v.nb ≤ b then s
    else
      let s := s.modDie d fun x => { x with vfifo := x.vfifo.filter (· != (n, b)) }
      (s.poisonBlock d n b v).viewRecord d n b v 0 0 (v.masterVa (v.blockOrigin b).1 (v.blockOrigin b).2) false

end Sys2Proof.Machine
end

