-- ==== Sys2Proof/Machine/Inspect.lean ====
section
/-! DEFINITION. `inspect` (R146, R147) and the word maps of its units (R177-R180, R243, R254, R281, R310, R335, R358, R385), with
the reasons that the sampler reports (R173). -/

namespace Sys2Proof.Machine

/-- REASON and DETAIL of a group (R173); a core that is drained reports reason 9 (R283). A record shows a group that issued at the turn
before it as issued in that cycle. -/
def State.reason (s : State) (c : Nat) (g : Group) : Nat × Nat :=
  if s.clk < (s.core c).drainUntil then (9, 0)
  else if (s.core c).fw then (8, 0)
  else if (match g.held with | some h => !h.running | none => false) then (9, (g.held.map (·.cause % 256)).getD 0)
  else if g.path.frozen then (9, fld g.cause 0 8)
  else match g.path.wait with
  | .ready => (if g.lastIssue = s.clk ∨ g.lastIssue + 1 = s.clk then 0 else 1, 0)
  | .queue n => (4, n)
  | .barrier _ n _ _ => (5, n)
  | .barBusy _ n _ => (5, n)
  | .abar => (5, 2 ^ 15)
  | .word => (6, 0)
  | .reply => (6, 0)
  | .ring => (7, 0)
  | .meeting => (10, 0)
  | .join _ => (10, 0)
  | .waitj _ => (10, 0)
  | .jwait => (10, 0)
  | .viewSync _ => (3, 0)
  | .viewRead => (3, 0)
  | .publish _ => (3, 0)
  | .fault _ => (9, 0x14)
  | .split cause _ _ _ => (9, cause % 256)
  | .splitOthers => (9, (g.paths.findSome? fun p => match p.wait with | .split cause _ _ _ => some (cause % 256) | _ => none).getD 0)

/-- A segment register as a word (R153). -/
def Seg.word (x : Seg) : Word := Machine.word (x.limit.toNat * 2 ^ 32 + x.base.toNat)

/-- Word w of a slot (R178). -/
def State.slotWord (s : State) (c slot w : Nat) : Option Word :=
  let g := s.grp c slot
  if w = 0 then some (word (bit g.occ 63 + bit g.held.isSome 62 + g.team % 32 * 2 ^ 32 + (s.reason c g).1))
  else if w = 1 then some (word (g.live.toNat * 2 ^ 32 + g.path.mask.toNat))
  else if w = 2 then some g.path.pc
  else if w = 3 then some (word (if g.occ then min (s.clk - g.lastIssue) (2 ^ 64 - 1) else 0))
  else if 8 ≤ w ∧ w < 40 then some (g.s (w - 8))
  else if 40 ≤ w ∧ w < 48 then some (ofMask (g.j (w - 40)))
  else if 48 ≤ w ∧ w < 52 then some (g.seg (w - 48)).word
  else if w = 52 then some g.restart
  else if w = 53 then some g.asid
  else none

/-- Word w of a team table entry (R178). -/
def Team.tableWord (t : Team) (w : Nat) : Option Word :=
  if w = 0 then some t.id
  else if w = 1 then some (word (bit t.mxe 2 + bit t.dr 1 + bit t.rb 0))
  else if 2 ≤ w ∧ w < 18 then some (get Barrier.zero t.bars (w - 2)).word
  else none

/-- The team of rank 0 of a cluster on a core (R254); of several, that of the lowest entry (log entry 158). -/
def Core.rank0Team (k : Core) : Team :=
  ((k.teams.find? fun (_, t) => t.rank == 0 && t.cw * t.ch != 0).map (·.2)).getD Team.empty

/-- The core word (R177). -/
def Core.tableWord (k : Core) : Word :=
  let used (lo hi : Nat) : Nat := (k.slots.filter fun (i, g) => g.occ && decide (lo ≤ i) && decide (i < hi)).length
  let own := (k.mxe.owner.map fun t => fld (k.team t).id 0 32).getD 0
  word (own * 2 ^ 32 + bit k.mxe.owner.isSome 26 + bit k.fw 25 + used 32 40 * 2 ^ 21 + used 0 32 * 2 ^ 15 + k.split.c * 2 ^ 10 +
    k.split.b * 2 ^ 5 + k.split.a)

/-- Unit 0x01 (R177, R178, R254). -/
def State.unitCore (s : State) (c n : Nat) : Option Word :=
  if n = 0 then some (s.core c).tableWord
  else if 64 ≤ n ∧ n < 64 + 64 * 40 then s.slotWord c ((n - 64) / 64) ((n - 64) % 64)
  else if 4096 ≤ n ∧ n < 4096 + 64 * 32 then ((s.core c).team ((n - 4096) / 64)).tableWord ((n - 4096) % 64)
  else if 8192 ≤ n ∧ n < 8208 then some (get Barrier.zero (s.core c).rank0Team.cbars (n - 8192)).cluWord
  else none

/-- Unit 0x02 (R243). Without an owner index 17 reads 0 (log entry 157). -/
def Core.unitMxe (k : Core) (n : Nat) : Option Word :=
  if n ≤ 4 then some (mxStatWord k.mxe n)
  else if 8 ≤ n ∧ n < 16 then some (word (k.mxe.ring (n - 8)))
  else if n = 16 then some (word k.mxe.entry)
  else if n = 17 then some ((k.mxe.owner.map fun t => (k.team t).id).getD 0)
  else none

/-- Unit 0x03 (R179). -/
def Core.unitSampler (k : Core) (n : Nat) : Option Word :=
  match n with
  | 0 => some k.sample
  | 1 => some k.sbuf
  | 2 => some k.widx
  | 3 => some k.dropped
  | 8 => some k.pfi
  | 9 => some k.pfu
  | 10 => some k.pfl
  | 11 => some k.pfn
  | 12 => some k.pfs
  | _ => none

/-- Unit 0x04 (R180). -/
def State.unitChannel (s : State) (c n : Nat) : Option Word :=
  let h := (s.core c).chan (n / 16)
  let w := n % 16
  if 64 ≤ n / 16 then none
  else if w = 0 then
    some (word (bit h.bound 63 + bit (s.nonExtendable c (n / 16)) 62 + h.team % 32 * 2 ^ 32 + min h.exts 65535 * 2 ^ 16 + h.hw.length))
  else if w = 1 then some (h.pages.headD 0)
  else if w = 2 then some (word h.ov.length)
  else if 8 ≤ w then some (h.hw.getD (w - 8) 0)
  else none

/-- Unit 0x05 (R281). -/
def Die.unitRouter (k : Die) (r n : Nat) : Option Word :=
  let v := get Router.zero k.routers r
  if 16 ≤ r then none
  else if n < 1024 then some ((get Cassette.zero v.cas (n / 256)).stat (n % 256))
  else if n = 1024 then
    some (word (min v.drains (2 ^ 32 - 1) * 2 ^ 32 + (v.cas.foldl (fun m (i, q) => m + bit (q.decl && decide (i < 4)) i) 0)))
  else none

/-- Unit 0x06 (R335). The refreshes in progress are those that a fault has stalled (log entry 163). -/
def State.unitView (s : State) (d n i : Nat) : Option Word :=
  if n < 256 then
    let v? := s.view? d n
    if i = 0 then some (match v? with
      | some v => word (2 ^ 63 + v.obj * 2 ^ 16 + v.ser % 256 * 2 ^ 8 + v.idx)
      | none => 0)
    else if 1 ≤ i ∧ i ≤ 16 then some (match v? with | some v => word (v.field (8 * (i - 1)) 8) | none => 0)
    else if 32 ≤ i ∧ i < 39 then some (match v? with | some v => s.viewCounter d v (i - 32) | none => 0)
    else none
  else if n = 256 then
    match i with
    | 0 => some (word ((s.die d).vfifo.length * 2 ^ 32 + min 15 ((s.die d).views.map fun x => x.2.stalled.length).sum))
    | 1 => some (word ((s.die d).count 16))
    | 2 => some (word ((s.die d).count 17))
    | _ => none
  else none

/-- The header of the record that a level holds at a position, its grid id and its wait (R385). -/
def SRec.word (r : SRec) (clk w : Nat) : Option Word :=
  let p? := match r.work with
    | .launch p _ => some p
    | .resume (t :: _) => t.team.record
    | _ => none
  if w < 8 then some (match p? with | some p => Machine.word (p.hdr.toNat / 2 ^ (64 * w) % 2 ^ 64) | none => 0)
  else if w = 8 then some (match r.work with
    | .launch p _ => p.grid
    | .resume (t :: _) => t.team.grid
    | _ => 0)
  else if w = 9 then some (Machine.word (clk - r.since))
  else none

/-- The teams of a die that lending has raised (R379, R385). -/
def State.raised (s : State) (d : Nat) : Nat :=
  ((s.cores.filter fun (c, _) => !isLatency c && dieOfCore c == d).flatMap fun (_, k) => k.teams.filter fun (_, t) => t.occ && t.eff != t.base).length +
  ((s.die d).lvl.flatMap fun (_, rs) => rs.flatMap fun r => match r.work with
    | .resume zs => zs.filter fun z => z.team.occ && z.team.eff != z.team.base
    | _ => []).length

/-- Unit 0x07 (R385). -/
def State.unitSched (s : State) (d n i : Nat) : Option Word :=
  let k := s.die d
  if n = 0 then
    if i < 8 then some (word (get [] k.lvl i).length)
    else if i = 17 then some (word (s.raised d))
    else if i = 23 then some (word k.ringFull.length)
    else if i < 24 then some (word (k.count (32 + i)))
    else none
  else if n ≤ 8 ∧ i < 1024 then
    match at? (get [] k.lvl (n - 1)) (i / 16) with
    | some r => r.word s.clk (i % 16)
    | none => none
  else none

/-- The four words of a translation-cache entry (R358); no entry reads 0. -/
def tlbWord (t : Option TlbEntry) (w : Nat) : Word :=
  match t with
  | none => 0
  | some t =>
    match w with
    | 0 => word (t.asid * 2 ^ 48 + t.inc * 2 ^ 32 + t.obj * 2 ^ 8 + t.k * 16 + bit t.inv 1 + 1)
    | 1 => word (t.voff % 2 ^ 25 * 2 ^ 39 + t.fill)
    | 2 => word (t.gen * 2 ^ 48 + t.frame % 2 ^ 33 * 2 ^ 15)
    | _ => word (t.home * 2 ^ 13 + bit t.remote 12 + bit t.vsh 11 + bit t.viewed 10 + t.rowl * 2 ^ 8 + bit t.fut 7 + bit t.d 6 + t.xwr.toNat)

/-- The entries of one core's translation cache as unit 0x08 numbers them. -/
def State.coreTlb (s : State) (c n : Nat) : Option Word :=
  if n < 256 then some (tlbWord (at? (s.core c).tlb (n / 4)) (n % 4)) else none

/-- A region's caches (R358). -/
def State.regionCache (s : State) (d r n : Nat) : Option Word :=
  let k := s.die d
  if n < 16384 then some (tlbWord (at? (get [] k.rtlb r) (n / 4)) (n % 4))
  else if n < 16384 + 4096 then
    some (match at? (get [] k.dcache r) ((n - 16384) / 8) with
      | some e => descWord e.words (n % 8)
      | none => 0)
  else if n < 20480 + 128 then
    some (match at? (get [] k.acache r) ((n - 20480) / 2) with
      | some a => if n % 2 = 0 then a.w0 else a.w1
      | none => 0)
  else none

/-- Unit 0x08 (R358). -/
def State.unitXlate (s : State) (d n i : Nat) : Option Word :=
  let k := s.die d
  if n < 256 then (if isCompute d then s.coreTlb (256 * d + n) i else none)
  else if n < 272 then (if isCompute d then s.regionCache d (n - 256) i else none)
  else if 768 ≤ n ∧ n < 776 then (if isCompute d then s.coreTlb (1152 + 8 * d + (n - 768)) i else none)
  else if n = 1024 then
    if i = 0 then some (s.configWord d 8)
    else if i = 1 then some k.astBase
    else if i = 2 then some 0
    else if i = 3 then some (word (get 0 k.bumps d))
    else if 4 ≤ i ∧ i < 9 then some (word (k.count i))
    else if i = 9 then some (word k.fbuf.length)
    else if 10 ≤ i ∧ i < 16 then some (word (get 0 k.bumps (i - 10)))
    else if 16 ≤ i ∧ i < 26 then some (get 0 k.invs (i - 16))
    else if i = 32 then some (word (k.count 18))
    else none
  else none

/-- The code of a line state in a directory entry (R310). -/
def Moesi.code : Moesi → Nat | .i => 0 | .s => 1 | .e => 2 | .o => 3 | .m => 4

/-- The directory entry of a line (R310). -/
def State.dirEntry (s : State) (d line : Nat) : Word :=
  let hs := s.cores.filter fun (_, k) => (k.line line).copied
  let own := hs.find? fun (_, k) => (k.line line).st == .m || (k.line line).st == .o || (k.line line).st == .e
  let st := match own with
    | some (_, k) => (k.line line).st.code
    | none => if hs.isEmpty then 0 else 1
  let dies := [0, 1, 2, 3, 4, 5].foldl (fun m e => m + bit (e != d && hs.any fun (c, _) => dieOfCore c == e) e) 0
  let regions := (List.range 16).foldl (fun m r =>
    m + bit (hs.any fun (c, _) => !isLatency c && dieOfCore c == d && regionOf c == r) r) 0
  let lease := [4, 5].any fun h => (s.die h).grants.any fun g => g.line == line
  word (st * 2 ^ 61 + bit (s.poison.contains line) 59 + bit (s.futLine line) 58 + bit lease 57 + ((own.map (·.1)).getD 0) % 2048 * 2 ^ 46 +
    dies * 2 ^ 16 + regions)

/-- A deferral entry (R310). The spec gives no OP code for a held view read (log entry 137). -/
def Defer.word (e : Defer) : Word :=
  let (op, addr) := if e.op = 5 then (Config.viewReadOp.toNat, e.data.toNat / 8) else (e.op, e.key)
  Machine.word (2 ^ 63 + op * 2 ^ 61 + e.core % 2048 * 2 ^ 50 + e.lane * 2 ^ 45 + addr % 2 ^ 45)

/-- The lines that a scrubber covers: an HBM4E stack of 64 GiB, or the LPDDR-6 of a host die (R308, R388). -/
def scrubTotal (d : Nat) : Nat := if isCompute d then 2 ^ 29 else 2 ^ 33

/-- The deadline of a scrubber in ns (R309, R390). -/
def State.scrubDeadline (s : State) (d k : Nat) : Nat := get 0 (s.die d).scrubD k * 3600 * 10 ^ 9

/-- One scrubber of a die. -/
def State.scrubber (s : State) (d k : Nat) : Scrub := get ⟨0, 0, 0⟩ (s.die d).scrub k

/-- R309: the scrubber has covered less than t / D - 1/64 of its memory, t into its pass. -/
def State.scrubUrgent (s : State) (d k : Nat) : Bool :=
  let x := s.scrubber d k
  let total := scrubTotal d
  let dl := s.scrubDeadline d k
  decide (64 * x.pos * dl + total * dl < 64 * (s.time - x.start.toNat) * total)

/-- Unit 0x09 (R310). -/
def State.unitSlice (s : State) (d n : Nat) (b : Word) : Option Word :=
  let k := s.die d
  let i := b.toNat
  let entries := k.defer.filter fun e => e.slice == n
  if n < (if isCompute d then 128 else 32) then
    if b.getLsbD 63 then
      let line := fld b 7 41
      if region (line * 128) = .dram d ∧ s.sliceOf line = n then some (s.dirEntry d line) else none
    else if i = 0 then some (word entries.length)
    else if i = 3 then some (word (get 0 k.deferMax n))
    else if i < 7 then some (word (k.count (1024 + 8 * n + i)))
    else if 64 ≤ i ∧ i < 128 then some (match at? entries (i - 64) with | some e => e.word | none => 0)
    else none
  else if 256 ≤ n ∧ n < (if isCompute d then 258 else 257) then
    let x := s.scrubber d (n - 256)
    match i with
    | 0 => some (word (bit (s.scrubUrgent d (n - 256)) 63 + 2 ^ 62 + get 0 k.scrubD (n - 256)))
    | 1 => some (word x.pos)
    | 2 => some x.start
    | 3 => some (word x.passes)
    | _ => none
  else if n = 512 ∧ i = 0 then some (s.configWord d 0)
  else none

/-- The word that a unit selector and an index name; `none` if there is none (R147). -/
def State.inspectWord (s : State) (a b : Word) : Option Word :=
  let n := fld a 8 16
  let d := fld a 24 3
  let i := b.toNat
  if fld a 27 37 ≠ 0 ∨ 5 < d then none
  else match fld a 0 8 with
  | 1 => if n < 1024 then s.unitCore n i else none
  | 2 => if n < 1024 then (s.core n).unitMxe i else none
  | 3 => if n < 1024 then (s.core n).unitSampler i else none
  | 4 => if n < 1024 then s.unitChannel n i else none
  | 5 => if isCompute d then (s.die d).unitRouter n i else none
  | 6 => if isCompute d then s.unitView d n i else none
  | 7 => if isCompute d then s.unitSched d n i else none
  | 8 => s.unitXlate d n i
  | 9 => s.unitSlice d n b
  | _ => none

/-- `inspect` (R146, R147). -/
def execInspect (o : Operands) (s : State) : Host.Outcome State Fault Refusal :=
  let i := Instr.inspect o
  .next (s.gate i fun ls s => s.withOperands i ls fun ka kb _ s =>
    let ((ta, a), (tb, b), _) := i.sources
    let rs := ls.map fun l => (l, s.inspectWord (s.src ta ka ls l a) (s.src tb kb ls l b))
    let s := s.finish i ls fun l => ((rs.find? fun e => e.1 == l).bind (·.2)).getD 0
    s.modCur fun g => rs.foldl (fun g (l, r) => g.setP l 6 r.isSome) g)

end Sys2Proof.Machine
end

