-- ==== Sys2Proof/Machine/Launch.lean ====
section
/-! DEFINITION. Launch records (R360-R362), `launch` and `spawn` (R363-R366), the pending-launch queue (R365), firing (R367, R429)
and `jwait` (R369). -/

namespace Sys2Proof.Machine

/-! The record (R360) -/

/-- Word i of a record's header. -/
def hdrWord (h : BitVec 512) (i : Nat) : Word := word (h.toNat / 2 ^ (64 * i) % 2 ^ 64)

/-- ENTRY. -/
def recEntry (h : BitVec 512) : Word := hdrWord h 0
/-- GROUPS. -/
def recGroups (h : BitVec 512) : Nat := fld (hdrWord h 1) 40 24
/-- Groups per team. -/
def recGpt (h : BitVec 512) : Nat := fld (hdrWord h 1) 35 5 + 1
/-- Active lanes in the last group. -/
def recLast (h : BitVec 512) : Nat := fld (hdrWord h 1) 30 5 + 1
/-- PRIO. -/
def recPrio (h : BitVec 512) : Nat := fld (hdrWord h 1) 27 3
/-- CW. -/
def recCw (h : BitVec 512) : Nat := fld (hdrWord h 1) 23 4
/-- CH. -/
def recCh (h : BitVec 512) : Nat := fld (hdrWord h 1) 19 4
/-- MXE. -/
def recMxe (h : BitVec 512) : Bool := (hdrWord h 1).getLsbD 18
/-- RB. -/
def recRb (h : BitVec 512) : Bool := (hdrWord h 1).getLsbD 17
/-- DR. -/
def recDr (h : BitVec 512) : Bool := (hdrWord h 1).getLsbD 16
/-- FCSR. -/
def recFcsr (h : BitVec 512) : Word := word (fld (hdrWord h 1) 0 16)
/-- Stack bytes per lane. -/
def recStackStep (h : BitVec 512) : Nat := 16 * fld (hdrWord h 2) 48 16
/-- REGS. -/
def recRegs (h : BitVec 512) : Nat := fld (hdrWord h 2) 41 7
/-- Local memory per team in bytes. -/
def recLocal (h : BitVec 512) : Nat := 1024 * fld (hdrWord h 2) 32 9
/-- Cluster slice per team in bytes. -/
def recClu (h : BitVec 512) : Nat := 1024 * fld (hdrWord h 2) 23 9
/-- Private bytes per lane. -/
def recPvt (h : BitVec 512) : Nat := 16 * fld (hdrWord h 2) 15 8
/-- The split in units of 16 KiB. -/
def recSplit (h : BitVec 512) : Split := ⟨fld (hdrWord h 2) 10 5, fld (hdrWord h 2) 5 5, fld (hdrWord h 2) 0 5⟩
/-- UNIF. -/
def recUnif (h : BitVec 512) : Word := hdrWord h 3
/-- CBANK. -/
def recCbank (h : BitVec 512) : Word := hdrWord h 4
/-- STACK. -/
def recStack (h : BitVec 512) : Word := hdrWord h 5
/-- INPUT. -/
def recInput (h : BitVec 512) : Word := hdrWord h 6
/-- DONE. -/
def recDone (h : BitVec 512) : Word := hdrWord h 7

/-- The teams of a grid (R362). -/
def recTeams (h : BitVec 512) : Nat := (recGroups h + recGpt h - 1) / recGpt h
/-- The groups of team t (R362). -/
def recGroupsOf (h : BitVec 512) (t : Nat) : Nat := min (recGpt h) (recGroups h - t * recGpt h)

/-- The bytes of register share that a team's groups need (R361). -/
def recRegBytes (h : BitVec 512) : Nat :=
  (if recRb h || recDr h then 2 else 1) * (256 * (4 * ((recRegs h + 3) / 4)) * recGpt h)

/-- The bytes of local share that a team occupies, its shadow apart. -/
def recLocBytes (h : BitVec 512) : Nat := recLocal h + recClu h + 32 * recPvt h * recGpt h * (if recDr h then 2 else 1)

/-- The bytes of local share that a team needs (R361). -/
def recShareBytes (h : BitVec 512) : Nat :=
  recLocBytes h + (if recRb h then recLocal h + recClu h else 0)

/-- R361. -/
def recMalformed (h : BitVec 512) : Bool :=
  let sp := recSplit h
  let f := recFcsr h
  fld (recEntry h) 0 3 != 0 || fld (recStack h) 0 4 != 0 || fld (recInput h) 0 3 != 0 || fld (recDone h) 0 3 != 0 ||
  recGroups h == 0 || ((recCw h == 0) != (recCh h == 0)) || decide (12 < recCw h * recCh h) || (recClu h != 0 && recCw h == 0) ||
  recRegs h == 0 || decide (64 < recRegs h) || sp.a + sp.b + sp.c != 28 || decide (sp.a < 4) || decide (sp.c < 2) ||
  decide (5 ≤ fld f 13 3) || fld f 5 3 != 0 || (recDr h && decide (16 < recGpt h)) ||
  decide (16384 * sp.a < recRegBytes h) || decide (16384 * sp.b < recShareBytes h)

/-! Reading and pushing -/

/-- The record store of a process on a die: RSBASE and RSCNT (R359). -/
def State.storeBase (s : State) (d asid : Nat) : Word := s.plbWord d asid 0
/-- RSCNT. -/
def State.storeCount (s : State) (d asid : Nat) : Nat := fld (s.plbWord d asid 8) 0 32
/-- PMAX. -/
def State.pmax (s : State) (d asid : Nat) : Nat := fld (s.plbWord d asid 0x28) 0 3

/-- The lowest free slot of a record store (R364). -/
def State.freeStoreSlot (s : State) (d asid : Nat) : Option Nat :=
  (List.range (s.storeCount d asid)).find? fun i => !((s.die d).slots.contains (asid, i))

/-- The fired records that wait on a die. -/
def Die.waiting (k : Die) : Nat := (k.lvl.map fun e => e.2.length).foldl (· + ·) 0

/-- The target die of a lane (R363). -/
def State.targetDie (s : State) (asid : Nat) (hint : Word) : Option Nat :=
  if hint.toNat < 4 then some hint.toNat
  else ([0, 1, 2, 3].filter fun d => s.plb d asid != 0).foldl (fun b d => match b with
    | none => some d
    | some e => if (s.die d).waiting < (s.die e).waiting then some d else some e) none

/-- Reads n blocks of 128 bytes of `.glb` by the group that issues. -/
def State.readBlocks (s : State) (lane : Nat) (va : Word) : Nat → ReadRes × State
  | 0 => (.data 0, s)
  | n + 1 =>
    match s.readSpan s.cid s.cur.asid va 128 s.cur.priv s.sid lane with
    | (.data lo, s) =>
      match s.readBlocks lane (va + 128) n with
      | (.data hi, s) => (.data (lo + 2 ^ 1024 * hi), s)
      | r => r
    | r => r

/-- A record as a lane pushes it: the lane, the target die, header and arguments, and the uniform block. -/
structure Pushed where
  lane : Nat
  die : Nat
  bytes : BitVec 1024
  unif : BitVec 2048
deriving DecidableEq, Repr

/-- The reads of one lane (R364). The address that failed comes with the outcome. -/
def State.readRecord (s : State) (l d : Nat) (a : Word) : (Option Pushed × ReadRes × Word) × State :=
  match s.readBlocks l a 1 with
  | (.data b, s) =>
    let h := BitVec.ofNat 512 b
    if recUnif h = 0 then ((some ⟨l, d, BitVec.ofNat 1024 b, 0⟩, .data 0, 0), s)
    else match s.readBlocks l (recUnif h) 2 with
    | (.data u, s) => ((some ⟨l, d, BitVec.ofNat 1024 b, BitVec.ofNat 2048 u⟩, .data 0, 0), s)
    | (r, s) => ((none, r, recUnif h), s)
  | (r, s) => ((none, r, a), s)

/-- The reads of all lanes, in ascending order; the first that fails decides. -/
def State.readRecords (s : State) : List (Nat × Nat × Word) → List Pushed → (Option (List Pushed) × Nat × ReadRes × Word) × State
  | [], done => ((some done.reverse, 0, .data 0, 0), s)
  | (l, d, a) :: r, done =>
    match s.readRecord l d a with
    | ((some p, _, _), s) => s.readRecords r (p :: done)
    | ((none, x, va), s) => ((none, l, x, va), s)

/-- The s registers of a uniform block. -/
def unifRegs (u : BitVec 2048) : Sparse Word :=
  (List.range 32).foldl (fun m i => set 0 m i (word (u.toNat / 2 ^ (64 * i) % 2 ^ 64))) []

/-- Writes a record and its uniform block into a store slot of die d (R362): the fault kind, 0 for success. -/
def State.fillSlot (s : State) (d : Nat) (asid va : Word) (bytes : BitVec 1024) (unif : BitVec 2048) : Nat × State :=
  let (k, x, s) := s.agentWalk d asid va .write
  if k ≠ 0 then (k, s)
  else
    let lines := [bytes.toNat, unif.toNat % 2 ^ 1024, unif.toNat / 2 ^ 1024, 0]
    (0, ((List.range 4).zip lines).foldl (fun s (i, v) =>
      s.commit (x.pa + 128 * i) 128 v (x.lineId asid (va + word (128 * i))) none) s)

/-- What a push takes besides its record: the priority, the nesting depth, whether it is a `spawn` and a note for its submitter. -/
structure PushInfo where
  asid : Word
  prio : Nat
  nest : Nat
  spawned : Bool
  note : Option Word
deriving DecidableEq, Repr

/-- One push (R364): a free store slot of the target die receives the record; the pushed record, or none if it is refused. -/
def State.pushRecord (s : State) (p : Pushed) (i : PushInfo) : Option PendRec × State :=
  let d := p.die
  let a := asidOf i.asid
  match s.freeStoreSlot d a with
  | none => (none, s.schedCount d 9 1)
  | some n =>
    let va := s.storeBase d a + word (512 * n)
    match s.fillSlot d i.asid va p.bytes p.unif with
    | (0, s) =>
      let seq := (s.die d).gridSeq
      let s := s.modDie d fun x => { x with gridSeq := seq + 1, slots := x.slots ++ [(a, n)] }
      (some { hdr := p.bytes.setWidth 512, slot := n, tdie := d, asid := i.asid, nest := i.nest, prio := i.prio,
              grid := word (d * 2 ^ 61 + seq), spawned := i.spawned, note := i.note, since := s.clk, s0s31 := unifRegs p.unif }, s)
    | (k, s) =>
      let r : FRec := { FRec.blank with
        src := 9, kind := k, acc := 1, addr := va, ctx := spaceWord i.asid (s.genOf d i.asid va) }
      (none, ((s.faultRecord d r).2).schedCount d 9 1)

/-- Appends a record to the pending-launch queue of a team (R365). -/
def State.appendPend (s : State) (c t : Nat) (p : PendRec) : State :=
  let s := if 4 ≤ (s.teamAt c t).pend.length then s.schedCount (dieOfCore c) 10 1 else s
  s.modTeam c t fun x => { x with pend := x.pend ++ [p] }

/-- The pushes of all lanes in ascending order, with what each d receives. -/
def State.pushAll (s : State) (spawned : Bool) : List Pushed → List (Nat × Word) × State
  | [] => ([], s)
  | p :: r =>
    let g := s.cur
    let prio := if spawned then s.team.base else min (recPrio (p.bytes.setWidth 512)) (s.pmax p.die (asidOf g.asid))
    match s.pushRecord p ⟨g.asid, prio, (g.lane p.lane).nest + 1, spawned, none⟩ with
    | (none, s) =>
      let (vs, s) := s.pushAll spawned r
      ((p.lane, 0) :: vs, s)
    | (some q, s) =>
      let (vs, s) := (s.appendPend s.cid g.team q).pushAll spawned r
      ((p.lane, q.grid) :: vs, s)

/-- Cause 0x05 of R364. -/
def State.launchErr (s : State) (fs : List (Nat × Nat)) : State :=
  s.segFault (0xFFFFFFFFFFFFFD00 + word ((fs.headD (0, 0)).2)) (maskOf (fs.map (·.1)))

/-- LERR of the first checks of R364; 0 passes. A later check replaces an earlier one. -/
def launchErrOf (a : Word) (nest : Nat) (target : Option Nat) (plbZero : Bool) : Nat :=
  let e := if a.toNat % 128 ≠ 0 then 1 else 0
  let e := if nest = 8 then 2 else e
  if target.isNone || plbZero then 5 else e

/-- `launch` and `spawn` (R364, R366). -/
def State.launchOp (s : State) (i : Instr) (spawned : Bool) : State :=
  s.gateStrict i fun ls s => s.withOperands i ls fun ka kb _ s =>
    let ((ta, a), (tb, b), _) := i.sources
    let asid := asidOf s.cur.asid
    let at_ := ls.map fun l => (l, s.src ta ka ls l a)
    let tgt := ls.map fun l => (l, if spawned then some s.did else s.targetDie asid (s.src tb kb ls l b))
    let target (l : Nat) : Option Nat := ((tgt.find? fun e => e.1 == l).map (·.2)).getD none
    let err (l : Nat) : Nat :=
      launchErrOf (valOf at_ l) (s.cur.lane l).nest (target l) (s.plb ((target l).getD 0) asid == 0)
    match (ls.map fun l => (l, err l)).filter fun e => e.2 != 0 with
    | f :: fs => s.launchErr (f :: fs)
    | [] =>
      match s.readRecords (ls.map fun l => (l, (target l).getD 0, valOf at_ l)) [] with
      | ((none, l, .fault k h, va), s) => s.keepWhole 0 h [(l, va, k)]
      | ((none, _, .poison n, va), s) => s.poisonTrap va n
      | ((none, _, .held r, _), s) => s.awaitRead r
      | ((none, _, .data _, _), s) => s
      | ((some ps, _, _, _), s) =>
        match ps.filter fun p => recMalformed (p.bytes.setWidth 512) with
        | f :: fs => s.launchErr ((f :: fs).map fun p => (p.lane, 3))
        | [] =>
          s.unrec.releaseThen .pkg (ls.headD 0) fun s =>
            let (vs, t) := s.pushAll spawned ps
            if t.withinRoom then t.finish i ls (valOf vs) else s.await (.fault 0)

/-- `launch` (R363, R364). -/
def execLaunch (o : Operands) (s : State) : Host.Outcome State Fault Refusal := .next (s.launchOp (.launch o) false)

/-- `spawn` (R363, R364). -/
def execSpawn (o : Operands) (s : State) : Host.Outcome State Fault Refusal := .next (s.launchOp (.spawn o) true)

/-! Firing (R367, R429) -/

/-- A record fires: its grid begins, and it joins the tail of its level (R367, R372). -/
def State.fire (s : State) (d : Nat) (p : PendRec) : State :=
  (s.schedCount d 8 1).modDie d fun x => { x with
    grids := x.grids ++ [⟨p.grid, p, recTeams p.hdr⟩],
    lvl := set [] x.lvl p.prio (get [] x.lvl p.prio ++ [⟨.launch p 0, s.clk, s.clk⟩]) }

/-- A read of a join counter by a die under an ASID (R367, R369, R429): the fault kind, its physical address and its value. -/
def State.readCounter (s : State) (d : Nat) (asid va : Word) : Nat × Nat × Word × State :=
  let (k, x, s) := s.agentWalk d asid va .counter
  if k ≠ 0 then (k, 0, 0, s)
  else
    let (k, s) := if x.vsh then s.shardKind asid x.obj (fld va 0 40) 8 else (0, s)
    let s := s.askHome x.pa 8
    (k, x.pa, s.rd64 x.pa, s)

/-- R429: the record of an INPUT counter that cannot be read. -/
def State.inputFault (s : State) (d : Nat) (p : PendRec) (k : Nat) : State :=
  let va := recInput p.hdr
  let r : FRec := { FRec.blank with
    src := 9, kind := k, needc := true, addr := va, ctx := spaceWord p.asid (s.genOf d p.asid va), detail := p.grid,
    target := .input p.grid }
  (s.faultRecord d r).2

/-- The INPUT counter of an unfired record of die d is read (R367): the record fires, waits for a write, or waits for the
completion of a fault record, or for room to write that record (R354), or for the end of a flush (R338). -/
def State.testInput (s : State) (d : Nat) (p : PendRec) : State :=
  if s.flushing p.asid then s else
  let (k, pa, v, s) := s.readCounter d p.asid (recInput p.hdr)
  if k ≠ 0 then (if s.recordRoom d 1 then s.inputFault d p k else s)
  else if sint v ≤ 0 then
    let s := s.modDie d fun x => { x with unfired := x.unfired.filter fun q => q.grid != p.grid }
    (if sint v < 0 then s.schedCount d 11 1 else s).fire d p
  else { s with watches := s.watches ++ [⟨pa, false, false, 0, 0, 0, p.grid⟩] }

/-- A record arrives at the scheduler of its target die (R367). -/
def State.arriveRecord (s : State) (p : PendRec) : State :=
  let p := { p with since := s.clk }
  if p.spawned || recInput p.hdr == 0 then s.fire p.tdie p
  else (s.modDie p.tdie fun x => { x with unfired := x.unfired ++ [p] }).testInput p.tdie p

/-- The records whose watched counter a write has made zero or negative fire, in the order of those writes (R367). -/
def State.fireWatched (s : State) : State :=
  let hits := s.watches.filter fun w => w.hit && w.grid != 0
  if hits.isEmpty then s
  else
    let s := { s with watches := s.watches.filter fun w => !(w.hit && w.grid != 0) }
    hits.foldl (fun (s : State) (w : Watch) => [0, 1, 2, 3].foldl (fun (s : State) (d : Nat) =>
      ((s.die d).unfired.filter fun p => p.grid == w.grid).foldl (fun (s : State) (p : PendRec) =>
        let s := s.modDie d fun x => { x with unfired := x.unfired.filter fun q => q.grid != p.grid }
        (if w.neg then s.schedCount d 11 1 else s).fire d p) s) s) s

/-- R354, R429: the records whose counter could be neither read nor reported try again. -/
def State.retryInputs (s : State) (d : Nat) : State :=
  let idle (p : PendRec) : Bool := s.watches.all (fun w => w.grid != p.grid) && (s.die d).faults.all fun r => r.target != .input p.grid
  ((s.die d).unfired.filter idle).foldl (fun (s : State) (p : PendRec) => s.testInput d p) s

/-- Whether the head of a team's pending-launch queue may move (R365). -/
def Team.mayMove (t : Team) (clk : Nat) : Bool := t.occ && !t.pend.isEmpty && (!t.moved || decide (t.lastMove + 32 ≤ clk))

/-- PENDING_LAUNCH_MOVE (R365). -/
def execPendingLaunchMove (core team : Nat) (s : State) : Host.Outcome State Fault Refusal :=
  let t := s.teamAt core team
  .next (match t.pend with
    | [] => s
    | p :: r =>
      if !t.mayMove s.clk then s
      else
        let asid := s.teamAsid core team
        let s := s.modTeam core team fun t => { t with pend := r, lastMove := s.clk, moved := true }
        (s.arriveRecord p).endTeam core team asid)

/-! `jwait` (R369) -/

/-- Whether a lane's counter has been found zero or negative by a watched write. -/
def State.watchOf (s : State) (c slot l : Nat) : Option Watch :=
  s.watches.find? fun w => w.grid == 0 && w.core == c && w.slot == slot && w.lane == l

/-- The reads of the lanes' counters at their arbiters, one in a shard as R321 says. -/
def State.readCounters (s : State) (xs : List (Nat × Place × Nat × Xl)) : List (Nat × Place × ReadRes) × State :=
  xs.foldl (fun (rs, s) (l, p, k, x) =>
    let (r, s) : ReadRes × State := match p with
      | .glb va =>
        if k ≠ 0 then (.fault k 0, s)
        else if x.vsh then s.readShard s.cid s.cur.asid va x 8 s.sid l
        else if s.poisoned x.pa 8 then (.poison 1, s)
        else
          let s := (s.drainTo s.did x.pa).askHome x.pa 8
          (.data (s.rd x.pa 8), s)
      | _ => (.fault k 0, s)
    (rs ++ [(l, p, r)], s)) ([], s)

/-- One lane's counter, at a physical address, with the value read there: the lane is marked if it is zero or negative; otherwise every later
write to it is tested. What another package's home writes is read again. -/
def State.testCounter (s : State) (l pa v : Nat) : State :=
  if sint (word v) ≤ 0 then s.markDone (laneBit l)
  else if elsewhere pa then s
  else { s with watches := s.watches ++ [⟨pa, false, false, s.cid, s.sid, l, 0⟩] }

/-- The lanes whose watched counters have been hit are marked, and are watched no more. -/
def State.takeHits (s : State) (ls : List Nat) : State :=
  let hit := ls.filter fun l => ((s.watchOf s.cid s.sid l).map (·.hit)).getD false
  if hit.isEmpty then s
  else
    let s := { s with watches := s.watches.filter fun w =>
      !(w.grid == 0 && w.core == s.cid && w.slot == s.sid && hit.contains w.lane) }
    s.markDone (maskOf hit)

/-- `jwait` (R369). -/
def execJwait (o : Operands) (s : State) : Host.Outcome State Fault Refusal :=
  let i := Instr.jwait o
  .next (s.gate i fun ls s => s.withOperands i ls fun ka kb _ s =>
    let s := s.takeHits ls
    let eas := (s.addrs i ls ka kb).filter fun (l, _) =>
      !s.cur.path.done.getLsbD l && (s.watchOf s.cid s.sid l).isNone
    s.placed .glb 8 (fun _ => false) eas fun ps =>
      let (xs, s) := s.accXls .counter ps
      let (rs, s) := s.readCounters xs
      s.withReads o 0 eas rs fun ok s =>
        let s := (xs.filter fun e => ok.contains e.1).foldl (fun (s : State) e => s.testCounter e.1 e.2.2.2.pa (readData rs e.1)) s
        let rest := ls.filter fun l => s.active.getLsbD l
        if rest.all fun l => s.cur.path.done.getLsbD l then
          ((s.discard .pkg s.cid).popSources ls o).advance i.len
        else s.await .jwait)

end Sys2Proof.Machine
end

