-- ==== Sys2Proof/Machine/Fetch.lean ====
section
/-! DEFINITION. Instruction fetch (R60, R61) and what a waiting path awaits (R116, R166). -/

namespace Sys2Proof.Machine

/-- What a fetch answers. -/
inductive Fetched
  /-- the instruction that the fetched words decode to -/
  | ok (i : Instr)
  /-- the address of the word that faulted, the kind (R61, R353) and the view handle of kinds 9 and 10 -/
  | fault (addr : Word) (kind : Nat) (view : Word)
  /-- consumed poison at an address, and its origin (R356) -/
  | poison (addr : Word) (origin : Nat)
  /-- the word lies in a stale block of a WAIT view (R322), whose slice may have refused the read (R304) -/
  | held (refused : Bool)
deriving DecidableEq, Repr

/-- One word of the instruction at the current pc of the group that issues. -/
def State.fetchWord (s : State) (va : Word) : ReadRes × State :=
  let g := s.cur
  let (k, x, s) := s.translate s.cid (asidOf g.asid) (incOf g.asid) va .fetch g.priv
  if k ≠ 0 then (.fault k 0, s) else s.readXl s.cid g.asid va x 8 s.sid s.low

/-- What a read of the instruction word at an address answers where it gives no data. -/
def ReadRes.fetched (r : ReadRes) (va : Word) : Fetched :=
  match r with
  | .fault k h => .fault va k h
  | .poison o => .poison va o
  | .held q => .held q
  | .data _ => .held false

/-- R61: the base word and any extension word are fetched before decoding begins. -/
def State.fetch (s : State) : Fetched × State :=
  let pc := s.pc
  match s.fetchWord pc with
  | (.data w, s) =>
    if wordLen (word w) = 8 then (.ok (decode (word w) 0), s)
    else match s.fetchWord (pc + 8) with
    | (.data e, s) => (.ok (decode (word w) (word e)), s)
    | (r, s) => (r.fetched (pc + 8), s)
  | (r, s) => (r.fetched pc, s)

/-- The state as a given path of a slot sees it when it issues. -/
def State.atPath (s : State) (c slot : Nat) (p : Path) : State :=
  ({ s with focus := (c, slot) }).modGrp c slot fun g => { g with paths := p :: g.paths.filter (· != p) }

/-- The instruction that a path awaits to perform, if its words can be read. -/
def State.waitInstr (s : State) (c slot : Nat) (p : Path) : Option Instr :=
  match (s.atPath c slot p).fetch.1 with
  | .ok i => some i
  | _ => none

/-- The lanes of a path whose part of its instruction has been performed: of a `syscall`, those whose reply has been delivered (R192, R305; log
entry 149). -/
def State.servedLanes (s : State) (c slot : Nat) (p : Path) : Mask :=
  match s.waitInstr c slot p with
  | some (.syscall _) => p.got
  | _ => p.done

/-- The length of the instruction at the pc of a path. -/
def State.lenAt (s : State) (c slot : Nat) (p : Path) : Nat := match s.waitInstr c slot p with | some i => i.len | none => 8

end Sys2Proof.Machine
end

