-- ==== Sys2Proof/Machine/Place.lean ====
section
/-! DEFINITION. Placement (R150-R157, R250-R252, R362, R371-R374, R396, R426): which core fits, what a team's groups start as, and
the scheduler's choice. -/

namespace Sys2Proof.Machine

/-! What a core holds -/

/-- The free group slots, ascending (R149). -/
def Core.freeSlots (k : Core) : List Nat := (List.range 32).filter fun i => !(k.slot i).occ

/-- The free entries of the team table, ascending. -/
def Core.freeTeams (k : Core) : List Nat := (List.range 32).filter fun t => k.team t == Team.empty

/-- The bytes of register share in use (R151); rollback and draft modes double a team's (R361). -/
def Core.regsUsed (k : Core) : Nat :=
  k.slots.foldl (fun n (i, g) =>
    if i < 32 ∧ g.occ ∧ !g.isDraft then n + (if (k.team g.team).rb || (k.team g.team).dr then 2 else 1) * (256 * g.alloc) else n) 0

/-- The local bytes of a team entry, as a base and a size (R152). -/
def Team.footprint (t : Team) : Nat × Nat :=
  match t.occ, t.record with
  | true, some p => (t.locBase, recLocBytes p.hdr)
  | true, none => (t.locBase, 0)
  | false, _ => (t.locBase, t.locSize)

/-- The bytes of local share that a team entry takes (R152, R361). -/
def Team.share (t : Team) : Nat :=
  match t.occ, t.record with
  | true, some p => recShareBytes p.hdr
  | true, none => 0
  | false, _ => t.locSize

/-- The bytes of local share in use (R152). -/
def Core.shareUsed (k : Core) : Nat := k.teams.foldl (fun n (_, t) => n + t.share) 0

/-- The lowest base at which n bytes overlap no other team's. -/
def Core.freeLocal (k : Core) (n : Nat) : Nat :=
  let fs := k.teams.map fun (_, t) => t.footprint
  let free (b : Nat) : Bool := fs.all fun (x, m) => m == 0 || decide (b + n ≤ x) || decide (x + m ≤ b)
  let ends := (0 :: fs.map fun (x, m) => x + m).filter free
  ends.foldl min (ends.headD 0)

/-- Whether a continuation has fired (R371): the counters of its `jwait` paths have all been found zero or negative, or a deadlock
trap is to be taken in it. -/
def State.contFired (s : State) (y : Cont) : Bool :=
  let w := y.place
  (y.group.paths.any fun p => p.trap.isSome) || (y.group.paths.filter fun p => p.wait == .jwait).all fun p =>
    (lanesOf p.mask).all fun l => p.done.getLsbD l ||
      (s.watches.any fun x => x.grid == 0 && x.core == w && x.lane == l && x.hit) ||
      !(s.watches.any fun x => x.grid == 0 && x.core == w && x.lane == l)

/-- Whether a core holds back placements for a fired continuation (R371). -/
def State.contWaits (s : State) (c : Nat) : Bool := (s.die (dieOfCore c)).conts.any fun y => y.core == c && s.contFired y

/-- R374: whether a core fits a team that needs the split, group slots, register bytes, local bytes and the engine as given. -/
def State.coreFits (s : State) (c : Nat) (sp : Split) (slots regs share : Nat) (mxe : Bool) : Bool :=
  let k := s.core c
  (k.isEmpty || k.split == sp) && decide (slots ≤ k.freeSlots.length) && decide (k.regsUsed + regs ≤ 16384 * sp.a) &&
  decide (k.shareUsed + share ≤ 16384 * sp.b) && !(mxe && k.teams.any fun (_, t) => t.occ && t.mxe) &&
  !k.freeTeams.isEmpty && !s.contWaits c

/-- R374: whether a core fits a team of a record. -/
def State.fitsRecord (s : State) (c : Nat) (h : BitVec 512) : Bool :=
  s.coreFits c (recSplit h) (recGpt h * (if recDr h then 2 else 1)) (recRegBytes h) (recShareBytes h) (recMxe h)

/-- R396: whether a core fits a packed group. -/
def State.fitsPacked (s : State) (c : Nat) : Bool :=
  let k := s.core c
  !k.freeSlots.isEmpty && (k.isEmpty || decide (k.regsUsed + 16384 ≤ 16384 * k.split.a)) && !k.freeTeams.isEmpty && !s.contWaits c

/-- The cores of a compute die, ascending (R3). -/
def coresOf (d : Nat) : List Nat := (List.range 256).map fun i => 256 * d + i

/-- R374: those that already have the split come before empty ones, then the lowest number. -/
def State.pickCore (s : State) (d : Nat) (ok : Nat → Bool) : Option Nat :=
  let fit := (coresOf d).filter ok
  match fit.find? fun c => !(s.core c).isEmpty with
  | some c => some c
  | none => fit.head?

/-- The cores of the rectangle of w × h cores whose top-left core is i of die d, by rank (R250, R251); empty if it does not lie in
the mesh. -/
def rectangle (d i w h : Nat) : List Nat :=
  if i % 16 + w ≤ 16 ∧ i / 16 + h ≤ 16 then (List.range (w * h)).map fun r => 256 * d + i + 16 * (r / w) + r % w else []

/-- R250, R426: the first rectangle whose first n cores all pass a test. -/
def pickRectangle (d w h n : Nat) (ok : List Nat → Bool) : Option (List Nat) :=
  ((List.range 256).map fun i => (rectangle d i w h).take n).find? fun cs => !cs.isEmpty && ok cs

/-! What a team starts as -/

/-- A lane of a launched group (R24, R362): grid lane index k, the launch frame and the strand id. -/
def startLane (p : PendRec) (frame : Word) (k : Nat) (sid : Word) : Lane :=
  let h := p.hdr
  let x2 := if recStack h = 0 then 0 else recStack h + word (recStackStep h * (k + 1))
  { Lane.zero with
    xs := set 0 (set 0 [] 2 x2) 3 frame, fcsr := recFcsr h, cbank := recCbank h, sid := sid, nest := p.nest }

/-- The segment registers of group i of a team whose local bytes start at `base` (R155, R362): that of cluster memory, whose BASE counts from
the beginning of a slice (R153), is the same for every member (R253). `chip` is word 0x20 of the placing die's launch block. -/
def startSegs (h : BitVec 512) (base i : Nat) (chip : Word) : Sparse Seg :=
  let seg (limit at_ : Nat) : Seg := ⟨BitVec.ofNat 32 limit, BitVec.ofNat 32 at_⟩
  let all := [ seg (recPvt h) (base + recLocal h + recClu h + 32 * recPvt h * i), seg (recLocal h) base,
    seg (recClu h) 0, ⟨BitVec.ofNat 32 (fld chip 32 32), BitVec.ofNat 32 (fld chip 0 32)⟩ ]
  ((List.range 4).zip all).foldl (fun m (n, v) => set ⟨0, 0⟩ m n v) []

/-- The active lanes of grid group n (R362). -/
def startMask (h : BitVec 512) (n : Nat) : Mask :=
  let lanes := if n + 1 = recGroups h then recLast h else 32
  BitVec.ofNat 32 (2 ^ lanes - 1)

/-- A group as placement leaves it (R24, R157, R362). `seq` is the strand number of its lane 0. -/
def startGroup (p : PendRec) (t gidx n d seq clk : Nat) (frame : Word) (segs : Sparse Seg) : Group :=
  let m := startMask p.hdr n
  let origin := if p.spawned then 2 else 1
  { Group.empty with
    occ := true, team := t, gidx := gidx, sregs := p.s0s31, jmask := set 0 [] 0 m, segs := segs, asid := p.asid,
    regs := recRegs p.hdr, live := m, paths := [Path.start (recEntry p.hdr) m], lastIssue := clk,
    lanes := (lanesOf m).foldl (fun ls l =>
      set Lane.zero ls l (startLane p frame (32 * n + l) (word (origin * 2 ^ 61 + d * 2 ^ 58 + seq + l)))) [] }

/-- A berth: where a team of a record goes: its core and entry, and its place in a cluster. -/
structure Berth where
  core : Nat
  entry : Nat
  rank : Nat
  ckey : Word
  members : List (Nat × Nat)
deriving DecidableEq, Repr

/-- A new team id of a die. -/
def Die.newTeam (k : Die) (d : Nat) : Word := word (d * 2 ^ 61 + k.teamSeq)

/-- R162: the full/empty words of a range of local bytes read full. -/
def Core.fillFe (k : Core) (base size : Nat) : Core :=
  { k with fe := k.fe.filter fun (a, _) => decide (4 * a < base) || decide (base + size ≤ 4 * a) }

/-- R347: a translation cache that wakes is emptied if any bump count has advanced by 2^15 or more. -/
def State.wakeDie (s : State) (d : Nat) : State :=
  match (s.die d).slept with
  | none => s
  | some old =>
    let far := [0, 1, 2, 3, 4, 5].any fun h =>
      decide (2 ^ 15 ≤ (get 0 (s.die d).bumps h + 2 ^ 32 - get 0 old h) % 2 ^ 32)
    let s := s.modDie d fun k => { k with slept := none, ps := 0 }
    if far then
      let s := s.modDie d fun k => { (k.addCount 18 1) with rtlb := [], dcache := [], acache := [] }
      { s with cores := s.cores.map fun (c, k) => if dieOfCore c = d then (c, { k with tlb := [] }) else (c, k) }
    else s

/-- Places team `idx` of a record at a spot (R157, R362): its groups take the lowest free slots, draft groups those that follow
(R176), and its core discards its snapshot, so that the team reads the ARGS of its own record (log entry 24). -/
def State.placeTeam (s : State) (d lvl : Nat) (p : PendRec) (idx : Nat) (z : Berth) : State :=
  let h := p.hdr
  let s := s.wakeDie d
  let k := s.core z.core
  let base := k.freeLocal (recLocBytes h)
  let ng := recGroupsOf h idx
  let slots := k.freeSlots
  let frame := s.storeBase p.tdie (asidOf p.asid) + word (512 * p.slot + 0x40)
  let chip := s.plbWord d (asidOf p.asid) 0x20
  let id := (s.die d).newTeam d
  let tm : Team := { Team.empty with
    occ := true, id := id, grid := p.grid, index := idx, rank := z.rank, ckey := if z.members.isEmpty then id else z.ckey,
    cw := recCw h, ch := recCh h, members := z.members, mxe := recMxe h, rb := recRb h, dr := recDr h, groups := ng,
    base := lvl, eff := lvl, placedAt := s.clk, record := some p, locBase := base, locSize := recLocal h + recClu h,
    cluSize := recClu h }
  let s := s.modDie d fun x => { x with teamSeq := x.teamSeq + 1 }
  let s := s.modCore z.core fun k =>
    { ((k.setTeam z.entry tm).fillFe base (recLocal h + recClu h)) with
      split := recSplit h
      mxe := if recMxe h then { Mxe.zero with owner := some z.entry, pois := k.mxe.pois, retry := k.mxe.retry, poisoned := k.mxe.poisoned }
        else k.mxe }
  (List.range ng).foldl (fun (s : State) i =>
    let n := idx * recGpt h + i
    let g := startGroup p z.entry i n (gridDie p.grid) (s.die (gridDie p.grid)).strandSeq s.clk frame (startSegs h base i chip)
    let s := s.modDie (gridDie p.grid) fun x => { x with strandSeq := x.strandSeq + 32 }
    let at_ := slots.getD i 0
    if recDr h then
      let ds := slots.getD (ng + i) 0
      (s.setGrp z.core at_ { g with draft := some ds }).setGrp z.core ds { g with isDraft := true }
    else s.setGrp z.core at_ g) (s.discard .pkg z.core)

/-- Places the cluster whose first team is `idx` on the cores of a rectangle (R250, R251, R426). -/
def State.placeCluster (s : State) (d lvl : Nat) (p : PendRec) (idx : Nat) (cs : List Nat) : State :=
  let members := cs.map fun c => (c, (s.core c).freeTeams.headD 0)
  let key := (s.die d).newTeam d
  ((List.range members.length).zip members).foldl (fun s (r, c, t) => s.placeTeam d lvl p (idx + r) ⟨c, t, r, key, members⟩) s

/-! The scheduler's turn (R373) -/

/-- The head record of a level. -/
def Die.head (k : Die) (lvl : Nat) : Option SRec := (get [] k.lvl lvl).head?

/-- Replaces the head record of a level; `none` removes it, and the next record is the head from now on. -/
def Die.setHead (k : Die) (lvl clk : Nat) (r : Option SRec) : Die :=
  let rest := (get [] k.lvl lvl).drop 1
  { k with lvl := set [] k.lvl lvl (match r with
      | some r => r :: rest
      | none => match rest with
        | [] => []
        | x :: xs => { x with lastPlace := clk } :: xs) }

/-- The teams of a record that its next placement takes: one, or those of a whole cluster (R373, R426). -/
def nextTeams (h : BitVec 512) (next : Nat) : Nat :=
  if recCw h * recCh h = 0 then 1 else min (recCw h * recCh h) (recTeams h - next)

/-- Where the next team or cluster of a record fits on a die, if it does. -/
def State.findBerth (s : State) (d : Nat) (h : BitVec 512) (next : Nat) : Option (List Nat) :=
  if recCw h * recCh h = 0 then (s.pickCore d fun c => s.fitsRecord c h).map ([·])
  else pickRectangle d (recCw h) (recCh h) (nextTeams h next) fun cs => cs.all fun c => s.fitsRecord c h

/-- Places the next team or cluster of a launch record (R373, R374). -/
def State.placeLaunch (s : State) (d lvl : Nat) (r : SRec) (p : PendRec) (next : Nat) : Option State :=
  match s.findBerth d p.hdr next with
  | none => none
  | some cs =>
    let s := if recCw p.hdr * recCh p.hdr = 0 then
        s.placeTeam d lvl p next ⟨cs.headD 0, (s.core (cs.headD 0)).freeTeams.headD 0, 0, 0, []⟩
      else s.placeCluster d lvl p next cs
    let next := next + cs.length
    some (s.modDie d fun k => k.setHead lvl s.clk (if next < recTeams p.hdr then some { r with work := .launch p next, lastPlace := s.clk } else none))

/-- Places a packed group (R157, R396), after an acquire of scope `pkg` on its core (R144). -/
def State.placePacked (s : State) (d lvl : Nat) (g : Group) : Option State :=
  match s.pickCore d s.fitsPacked with
  | none => none
  | some c =>
    let s := s.wakeDie d
    let k := s.core c
    let t := k.freeTeams.headD 0
    let tm : Team := { Team.empty with
      occ := true, id := (s.die d).newTeam d, grid := BitVec.allOnes 64, ckey := (s.die d).newTeam d, groups := 1, migrated := true,
      base := lvl, eff := lvl, placedAt := s.clk }
    let s := s.modCore c fun k => { (k.setTeam t tm) with split := if k.isEmpty then ⟨4, 4, 20⟩ else k.split }
    let s := (s.discard .pkg c).setGrp c (k.freeSlots.headD 0) { g with team := t, gidx := 0, lastIssue := s.clk }
    some (s.modDie d fun k => { (k.setHead lvl s.clk none) with teamSeq := k.teamSeq + 1 })

end Sys2Proof.Machine
end

