-- ==== Sys2Proof/Machine/Swap.lean ====
section
/-! DEFINITION. Swap-out at `jwait` and continuations (R370, R371). -/

namespace Sys2Proof.Machine

/-- Whether a lane of a slot awaits a counter that has not been found zero or negative. -/
def State.awaitsCounter (s : State) (c slot : Nat) : Bool :=
  s.watches.any fun w => w.grid == 0 && w.core == c && w.slot == slot && !w.hit

/-- R370: whether a group swaps out, its save areas and pages apart. -/
def State.maySwap (s : State) (c slot : Nat) : Bool :=
  let g := s.grp c slot
  let tm := s.teamAt c g.team
  g.occ && !isLatency c && decide (slot < 32) && !g.isDraft && !tm.rb && (s.heldSlots c slot).isEmpty && !g.paths.isEmpty &&
  g.paths.all (fun p => p.wait.group && !p.frozen && p.atSafept.isNone) &&
  g.paths.any (fun p => p.wait == .jwait) && s.awaitsCounter c slot

/-- Two pages of the swap pool (R359). -/
def State.twoPages (s : State) (d : Nat) (asid : Word) : Option (Word × Word × State) :=
  match s.poolTake d asid 0x10 with
  | none => none
  | some (a, s) => match s.poolTake d asid 0x10 with
    | none => none
    | some (b, s) => some (a, b, s)

/-- The first lane whose save area cannot be written, with the fault kind (R428). -/
def State.badSave (s : State) (c : Nat) (g : Group) : Option (Nat × Nat) :=
  (lanesOf g.live).findSome? fun l =>
    if (g.lane l).ssa = 0 then none
    else match (s.translate c (asidOf g.asid) (incOf g.asid) (g.lane l).ssa .write true).1 with
      | 0 => none
      | k => some (l, k)

/-- The watches of a slot follow its group; a continuation is named by its first page. -/
def State.moveWatches (s : State) (c slot c' slot' : Nat) : State :=
  { s with watches := s.watches.map fun w => if w.grid = 0 ∧ w.core = c ∧ w.slot = slot then { w with core := c', slot := slot' } else w }

/-- The records that a group holds of its die's cassettes (R259) follow it to another slot. -/
def Cassette.moveHolder (q : Cassette) (c slot c' slot' : Nat) : Cassette :=
  { q with entries := q.entries.map fun (i, e) =>
      if e.st ≠ 0 ∧ e.core = c ∧ e.slot = slot then (i, { e with core := c', slot := slot' }) else (i, e) }

/-- The same for every cassette of a die. -/
def State.moveHolder (s : State) (d c slot c' slot' : Nat) : State :=
  s.modDie d fun x => { x with routers := x.routers.map fun (r, v) =>
    (r, { v with cas := v.cas.map fun (k, q) => (k, q.moveHolder c slot c' slot') }) }

/-- Steps 1-4 of R370. -/
def State.swapGroup (s : State) (c slot : Nat) (a b : Word) : State :=
  let d := dieOfCore c
  let g := s.grp c slot
  let y : Cont := ⟨c, g.team, { g with lastIssue := s.clk }, [a, b]⟩
  let s := (((s.moveWatches c slot y.place 0).moveHolder d c slot y.place 0).cancelDefers c slot g.live).unblock (g.sids g.live)
  let (k, x, s) := s.agentWalk d g.asid a .write
  let s := if k ≠ 0 then s else (lanesOf g.live).foldl (fun s l =>
    let pa := x.pa + 1024 * l
    (saWords g l (g.pcOf l)).foldl (fun (s : State) (w : Nat × Word) => s.poke (pa + w.1) 8 w.2.toNat none)
      ((s.beforeWrite { x with pa := pa } g.asid (a + word (1024 * l)) 0x358).poke (pa + 0x340) 8
        (saStatus 1 (g.lane l).nest 5 false).toNat none)) s
  let s := (lanesOf g.live).foldl (fun s l => if (g.lane l).ssa = 0 then s else (s.saveLane c g l (g.pcOf l) 5 false).2) s
  let s := s.setGrp c slot Group.empty
  let s := match g.draft with
    | some ds => s.setGrp c ds Group.empty
    | none => s
  let s := s.modTeam c g.team fun t => { t with contsOut := t.contsOut + 1 }
  (s.modDie d fun x => { x with conts := x.conts ++ [y] }).schedCount d 12 1

/-- SWAP_OUT (R370). A save area that cannot be written holds its lane, and the group stays (R428). -/
def execSwapOut (core slot : Nat) (s : State) : Host.Outcome State Fault Refusal :=
  let g := s.grp core slot
  .next (if !s.maySwap core slot then s
  else match s.twoPages (dieOfCore core) g.asid with
  | none => s
  | some (a, b, t) =>
    match s.badSave core g with
    | none => t.swapGroup core slot a b
    | some (l, k) =>
      match g.paths.find? fun p => p.mask.getLsbD l with
      | none => s
      | some p =>
        let v := s.atPath core slot p
        if v.faultRoom 1 then v.saveFault l (g.lane l).ssa k else s)

/-- The register bytes that a group takes (R151, R361). -/
def Team.regsOf (t : Team) (g : Group) : Nat := (if t.rb || t.dr then 2 else 1) * (256 * g.alloc)

/-- Whether a continuation's core has a slot and the registers for it (R371). -/
def State.contFits (s : State) (y : Cont) : Bool :=
  let k := s.core y.core
  decide ((if y.group.draft.isSome then 2 else 1) ≤ k.freeSlots.length) &&
    decide (k.regsUsed + (k.team y.team).regsOf y.group ≤ 16384 * k.split.a)

/-- What a returning continuation finds of its lanes: in their save areas, and for those without one in its first page (R19, R371). -/
def State.unswapped (s : State) (y : Cont) : List (Nat × Restored) × List (Nat × Restored) × State :=
  let g := y.group
  let d := dieOfCore y.core
  let (zs, s) := s.readAreas d g (lanesOf g.live)
  let (k, x, s) := s.agentWalk d g.asid (y.pages.headD 0) .read
  let bare := (lanesOf g.live).filter fun l => k == 0 && (g.lane l).ssa == 0
  (zs, bare.map fun l => (l, s.readImage (x.pa + 1024 * l) g.alloc 0), s)

/-- The lanes of a group as their save areas hold them. -/
def Group.takeLanes (g : Group) (zs : List (Nat × Restored)) : Group :=
  zs.foldl (fun (g : Group) (e : Nat × Restored) => g.modLane e.1 fun r => { e.2.lane with sid := r.sid }) g

/-- R19, R413: the field S of save areas, which the lanes of a group share: what software has changed takes effect, and of several changes
that of the highest lane (log entry 138). -/
def Group.takeS (g : Group) (zs : List (Nat × Restored)) : Group :=
  { g with sregs := (List.range 32).foldl (fun m n => match (zs.filter fun z => get 0 z.2.sregs n != g.s n).getLast? with
      | some z => set 0 m n (get 0 z.2.sregs n)
      | none => m) g.sregs }

/-- R19: the same for the field ASID. -/
def Group.takeAsid (g : Group) (zs : List (Nat × Restored)) : Group :=
  match (zs.filter fun z => low32 z.2.asid != low32 g.asid).getLast? with
  | some z => { g with asid := z.2.asid }
  | none => g

/-- The lanes whose PC software has changed in their save areas go on there (R19); `of_` says which lanes that reaches. -/
def Group.takePcs (g : Group) (zs : List (Nat × Restored)) (of_ : Nat → Bool) : Group :=
  let moved := zs.filterMap fun z => if of_ z.1 && z.2.pc != g.pcOf z.1 then some (z.1, z.2.pc) else none
  let away := (pathsByPc moved).map fun p => { p with frozen := g.paths.any (·.frozen) }
  { g with paths := dropLanes g.paths (maskOf (moved.map (·.1))) ++ away }

/-- R371: the `jwait` of a path of a group that has come back completes (R369). -/
def State.finishJwait (s : State) (c slot : Nat) (p : Path) : State :=
  match s.waitInstr c slot p with
  | some (.jwait o) => match execJwait o (s.atPath c slot p) with
    | .next t => { t with focus := s.focus }
    | _ => s
  | _ => s

/-- R371: the fired continuation y, the idx-th of a die, takes the next free slot of its core, and its pages return to the pool. -/
def State.comeBack (s : State) (die idx : Nat) (y : Cont) : State :=
  let c := y.core
  let slots := (s.core c).freeSlots
  let i := slots.headD 0
  let g0 := y.group
  let (zs, bare, s) := s.unswapped y
  let waits (l : Nat) : Bool := g0.paths.any fun p => p.mask.getLsbD l && p.wait.waits
  let g := ((((({ g0 with lastIssue := s.clk, draft := none }).takeLanes (zs ++ bare)).takePcs zs waits).takeS zs).takeAsid zs)
  let s := ((s.moveWatches y.place 0 c i).moveHolder die y.place 0 c i).setGrp c i g
  let s := (lanesOf g.live).foldl (fun s l => s.putLoc die g.asid (g.lane l).ssa 1) s
  let s := y.pages.reverse.foldl (fun s p => s.poolReturn die g.asid 0x10 p) s
  let s := s.modTeam c y.team fun t => { t with contsOut := t.contsOut - 1 }
  (s.modDie die fun x => { x with conts := x.conts.eraseIdx idx }).schedCount die 13 1

/-- R371: a continuation comes back; its `jwait` paths complete, and its other waits are tested again. With a draft the next free slot holds
its copy (R176). -/
def State.resumeCont (s : State) (die idx : Nat) (y : Cont) : State :=
  let c := y.core
  let slots := (s.core c).freeSlots
  let i := slots.headD 0
  let ds := slots.getD 1 0
  let s := s.comeBack die idx y
  let s := ((s.grp c i).paths.filter fun p => p.wait == .jwait && p.trap.isNone).foldl (fun s p => s.finishJwait c i p) s
  if y.group.draft.isNone then s
  else (s.modGrp c i fun g => { g with draft := some ds }).setGrp c ds { (s.grp c i) with draft := none, isDraft := true }

/-- Whether another fired continuation of the same core, of a team of higher priority, comes before (R371). -/
def State.contBehind (s : State) (die : Nat) (y : Cont) : Bool :=
  (s.die die).conts.any fun z => z.core == y.core && s.contFired z && decide ((s.teamAt y.core y.team).eff < (s.teamAt z.core z.team).eff)

/-- Whether a continuation can come back now (R371). -/
def State.contReady (s : State) (die : Nat) (y : Cont) : Bool := s.contFired y && s.contFits y && !s.contBehind die y

/-- CONTINUATION_FIRE (R371). -/
def execContinuationFire (die idx : Nat) (s : State) : Host.Outcome State Fault Refusal :=
  .next (match at? (s.die die).conts idx with
  | none => s
  | some y => if s.contReady die y then s.resumeCont die idx y else s)

end Sys2Proof.Machine
end

