-- ==== Sys2Proof/Machine/Preempt.lean ====
section
/-! DEFINITION. Pre-emption and restore (R127, R244, R252, R280, R375-R378), the scheduler's placement turn (R373) and aging
(R372). -/

namespace Sys2Proof.Machine

/-! Stopping (R127) -/

/-- A path that a pre-emption need not wait for: at a `safept`, waiting, or stopped by a user handler. -/
def Path.stopped (p : Path) : Bool := p.atSafept.isSome || p.wait.counts || p.frozen

/-- A group that is stopped: it is held for a fault, or no path of it can issue. -/
def Group.stopped (g : Group) : Bool :=
  (match g.held with | some h => !h.running | none => false) || g.paths.all Path.stopped

/-- Steps 1 and 2 of R376 are over for a team. -/
def State.teamStopped (s : State) (c t : Nat) : Bool :=
  (s.core c).slots.all (fun (_, g) => !(g.occ && g.team == t && !g.isDraft) || g.stopped) && !s.asyncLeft c t &&
  (s.teamAt c t).pend.isEmpty

/-- The team entries that are pre-empted together: a team, or all of its cluster (R252), with what stays of ended teams. -/
def State.unitOf (s : State) (c t : Nat) : List (Nat × Nat) :=
  let tm := s.teamAt c t
  if tm.cw * tm.ch = 0 then [(c, t)]
  else s.cores.flatMap fun (c, k) => (k.teams.filter fun (_, x) => x.ckey == tm.ckey && x.cw * x.ch != 0).map fun (i, _) => (c, i)

/-- The cassettes that a cluster has declared at the router of its rank-0 core (R255). -/
def State.cassettesOf (s : State) (c : Nat) (key : Word) : Sparse Cassette :=
  (get Router.zero (s.die (dieOfCore c)).routers (regionOf c)).cas.filter fun (_, q) => q.decl && q.owner == key

/-- The ceiling of a quotient. -/
def ceilDiv (a b : Nat) : Nat := (a + b - 1) / b

/-- The bytes of a team's local memory, its slice and its lanes' private segments: a grid's last team may have fewer groups than the others
(R362, R376). -/
def Team.ownBytes (t : Team) : Nat :=
  match t.occ, t.record with
  | true, some p =>
    let h := p.hdr
    recLocal h + recClu h + 32 * recPvt h * recGroupsOf h t.index * (if recDr h then 2 else 1)
  | _, _ => t.locSize

/-- P of R376. -/
def State.pagesNeeded (s : State) (c t : Nat) : Nat :=
  let tm := s.teamAt c t
  let g := ((s.core c).slots.filter fun (_, x) => x.occ && x.team == t).length
  let bytes := tm.ownBytes * (if tm.rb then 2 else 1)
  let cas := if tm.rank = 0 then s.cassettesOf c tm.ckey else []
  1 + (if tm.rb then 3 else 2) * g + ceilDiv (33 * bytes) (32 * 32768) +
    cas.foldl (fun n (_, q) => n + ceilDiv (16 * q.window) 32768 + 1) 0

/-- Takes n pages of the swap pool of a process; none if it holds fewer. -/
def State.takePages (s : State) (d : Nat) (asid : Word) : Nat → Option (List Word × State)
  | 0 => some ([], s)
  | n + 1 => match s.poolTake d asid 0x10 with
    | none => none
    | some (a, s) => (s.takePages d asid n).map fun (ps, s) => (a :: ps, s)

/-! Saving (R376) -/

/-- R127: a lane stopped at a `safept` saves the registers of its mask. -/
def Group.maskStopped (g : Group) : Group :=
  g.paths.foldl (fun g p => match p.atSafept with
    | none => g
    | some m => g.modLanes (lanesOf p.mask) fun _ r => r.maskRegs m) g

/-- R382, R385: strands that are not resident are not counted as blocked on the call ring. -/
def State.leaveRing (s : State) (sids : List Word) : State :=
  { s with dies := s.dies.map fun (d, x) => (d, { x with ringFull := x.ringFull.filter fun i => !sids.contains i }) }

/-- Takes one team entry off its core, whose stores have been published; the pages are those taken for it. A continuation of the team is saved
as it is (log entry 156). -/
def State.saveTeam (s : State) (c t : Nat) (pages : List Word) : SavedTeam × State :=
  let d := dieOfCore c
  let mine (g : Group) : Bool := g.occ && g.team == t
  let s := s.modCore c fun k => { k with slots := k.slots.map fun (i, g) => (i, if mine g then g.maskStopped else g) }
  let own := (s.core c).mxe.owner == some t
  let s := if own then s.restartTeam c t else s
  let k := s.core c
  let tm := k.team t
  let s := (k.slots.filter fun (_, g) => mine g).foldl (fun s (i, g) => (s.cancelDefers c i g.live).leaveRing (g.sids g.live)) s
  let groups := (s.core c).slots.filter fun (_, g) => mine g
  let (base, size) := tm.footprint
  let inside (a : Nat) : Bool := decide (base ≤ a) && decide (a < base + size)
  let cas := if tm.rank = 0 then s.cassettesOf c tm.ckey else []
  let z : SavedTeam := {
    key := 32 * c + t, team := { tm with preempting := false, asked := false, again := 0 }, groups := groups,
    loc := k.loc.filter fun (a, _) => inside a, fe := k.fe.filter fun (a, _) => inside (4 * a),
    chans := k.chans.filter fun (_, h) => h.bound && h.team == t,
    mxe := if own then some k.mxe else none,
    cas := cas.map fun (n, q) => (n, { q with entries := q.entries.map fun (i, e) => (i, { e with start := s.clk - e.start }) }),
    split := k.split, pages := pages, poison := k.poison.filter fun a => inside (16 * a),
    conts := (s.die d).conts.filter fun y => y.core == c && y.team == t }
  let s := s.modDie d fun x => { x with conts := x.conts.filter fun y => !(y.core == c && y.team == t) }
  let s := if cas.isEmpty then s
    else s.modDie d fun x => { x with routers := x.routers.map fun (r, v) =>
      (r, if r = regionOf c then { v with cas := v.cas.filter fun (_, q) => !(q.decl && q.owner == tm.ckey) } else v) }
  let s := s.modCore c fun k =>
    Core.settle (({ k with
      slots := k.slots.filter fun (_, g) => !mine g
      loc := k.loc.filter fun (a, _) => !inside a
      fe := k.fe.filter fun (a, _) => !inside (4 * a)
      poison := k.poison.filter fun a => !inside (16 * a)
      chans := k.chans.filter fun (_, h) => !(h.bound && h.team == t)
      mxe := if own then { Mxe.zero with retry := k.mxe.retry, poisoned := k.mxe.poisoned } else k.mxe }).unpin t tm.heldStores true
      |>.setTeam t Team.empty)
  (z, s)

/-- A resume record. -/
def Work.resumes : Work → Bool
  | .resume _ => true
  | _ => false

/-- A launch record that has placed some of its teams. -/
def Work.begun : Work → Bool
  | .launch _ n => n != 0
  | _ => false

/-- R372, R376: a resume record joins at the head of its level, behind resume records already there and behind a head that has
placed some of its teams. -/
def joinResume (r : SRec) (l : List SRec) : List SRec :=
  let first := l.takeWhile fun x => x.work.begun
  let rest := l.dropWhile fun x => x.work.begun
  first ++ rest.takeWhile (·.work.resumes) ++ r :: rest.dropWhile (·.work.resumes)

/-- Pages for every team of a unit, or none at all (R376). -/
def State.unitPages (s : State) : List (Nat × Nat) → Option (List (List Word) × State)
  | [] => some ([], s)
  | (c, t) :: r =>
    match s.takePages (dieOfCore c) (s.teamAsid c t) (s.pagesNeeded c t) with
    | none => none
    | some (ps, s) => (s.unitPages r).map fun (qs, s) => (ps :: qs, s)

/-- Saves the teams of a unit. -/
def State.saveUnit (s : State) : List ((Nat × Nat) × List Word) → List SavedTeam × State
  | [] => ([], s)
  | ((c, t), ps) :: r =>
    let (z, s) := s.saveTeam c t ps
    let (zs, s) := s.saveUnit r
    (z :: zs, s)

/-- R376: for want of pages the teams of a unit keep running, and the attempt is counted. -/
def State.keepUnit (s : State) (d : Nat) (u : List (Nat × Nat)) : State :=
  let s := u.foldl (fun s (c, t) =>
    let s := s.modTeam c t fun x => { x with preempting := false, again := s.clk + 65536 }
    s.modCore c fun k => { k with slots := k.slots.map fun (i, g) =>
      if g.occ && g.team == t then (i, { g with paths := g.paths.map fun p => { p with atSafept := none } }) else (i, g) }) s
  (s.modDie d fun x => { x with trigAt := s.clk + 65536 }).schedCount d 16 1

/-- TEAM_PREEMPT (R376): once every group of the team, or of its cluster, has stopped. -/
def execTeamPreempt (core team : Nat) (s : State) : Host.Outcome State Fault Refusal :=
  let tm := s.teamAt core team
  let u := s.unitOf core team
  let d := dieOfCore core
  .next (if !tm.occ || !tm.preempting || !(u.all fun (c, t) => s.teamStopped c t) then s
  else match s.unitPages u with
  | none => s.keepUnit d u
  | some (ps, s) =>
    let eff := u.foldl (fun e (c, t) => max e (s.teamAt c t).eff) 0
    let n := (u.filter fun (c, t) => (s.teamAt c t).occ).length
    let (zs, s) := (u.foldl (fun s (c, _) => s.publish .pkg c) s).saveUnit (u.zip ps)
    (s.modDie d fun x => { x with lvl := set [] x.lvl eff (joinResume ⟨.resume zs, s.clk, s.clk⟩ (get [] x.lvl eff)) }).schedCount d 14 n)

/-! Restoring (R377) -/

/-- The free held slots, ascending. -/
def Core.freeHelds (k : Core) : List Nat := [32, 33, 34, 35, 36, 37, 38, 39].filter fun i => !(k.slot i).occ

/-- What a saved team needs of a core (R374, R377). -/
def State.fitsSaved (s : State) (c : Nat) (z : SavedTeam) : Bool :=
  let k := s.core c
  let low := z.groups.filter fun (i, _) => decide (i < 32)
  let regs := low.foldl (fun n (_, g) => if g.isDraft then n else n + z.team.regsOf g) 0
  let any := z.team.migrated
  s.coreFits c (if any then (if k.isEmpty then ⟨4, 4, 20⟩ else k.split) else z.split) low.length regs z.team.share z.team.mxe &&
  decide (z.groups.length - low.length ≤ k.freeHelds.length) && z.chans.all fun (n, _) => !(k.chan n).bound

/-- Whether the router of a core's region has the cassette numbers free (R252). -/
def State.fitsCassettes (s : State) (c : Nat) (z : SavedTeam) : Bool :=
  z.cas.all fun (n, _) => !(get Cassette.zero (get Router.zero (s.die (dieOfCore c)).routers (regionOf c)).cas n).decl

/-- Whether a unit must stay on its die for a `.chip` segment (R377). -/
def chipBound (zs : List SavedTeam) : Bool := zs.any fun z =>
  (z.groups.any fun (_, g) => (g.seg 3).limit != 0) || z.conts.any fun y => (y.group.seg 3).limit != 0

/-- Whether the cores of a list, by rank, take the teams of a unit. -/
def State.fitsUnit (s : State) (zs : List SavedTeam) (cs : List Nat) : Bool :=
  zs.all fun z =>
    match at? cs z.team.rank with
    | none => false
    | some c => s.fitsSaved c z && s.fitsCassettes c z

/-- Where a unit is restored on a die: a core, or a rectangle of the same shape. -/
def State.findRestore (s : State) (d : Nat) (zs : List SavedTeam) : Option (List Nat) :=
  match zs with
  | [] => none
  | z :: _ =>
    if z.team.cw * z.team.ch = 0 then (s.pickCore d fun c => s.fitsUnit zs [c]).map ([·])
    else pickRectangle d z.team.cw z.team.ch z.team.members.length (s.fitsUnit zs)

/-- Where each slot of a saved team goes. -/
def slotMap (k : Core) (z : SavedTeam) : List (Nat × Nat) :=
  ((z.groups.filter fun (i, _) => decide (i < 32)).map (·.1)).zip k.freeSlots ++
  ((z.groups.filter fun (i, _) => !decide (i < 32)).map (·.1)).zip k.freeHelds

/-- A slot's new number. -/
def newSlot (m : List (Nat × Nat)) (i : Nat) : Nat := ((m.find? fun e => e.1 == i).map (·.2)).getD i

/-- A restored group (R377): its slots renamed, its segment BASEs moved, its paths ready to test their waits again; a view read
or a `view.sync` executes afresh (R322, R331). -/
def Group.restored (g : Group) (m : List (Nat × Nat)) (t clk : Nat) (shift : Nat → Nat) : Group :=
  { g with
    team := t, lastIssue := clk,
    segs := g.segs.map fun (n, x) => (n, if n < 2 then { x with base := BitVec.ofNat 32 (shift x.base.toNat) } else x),
    held := g.held.map fun h => { h with orig := newSlot m h.orig },
    draft := g.draft.map (newSlot m),
    paths := g.paths.map fun p => { p with
      atSafept := none, since := clk, tries := 0, again := 0,
      reads := [], wait := match p.wait with | .viewSync _ => .ready | .viewRead => .ready | .publish _ => .ready | w => w } }

/-- R384: strands that wait at a call ring wait at that of die d from now on, where they are counted anew (R382). -/
def State.moveBlocked (s : State) (sids : List Word) (d : Nat) : State :=
  let here := sids.filter fun i => s.dies.any fun x => x.2.blocked.contains i
  (s.unblock here).modDie d fun x => { x with blocked := x.blocked ++ here }

/-- Keys of a map of local bytes, moved. -/
def shiftMap {α : Type} [DecidableEq α] (d : α) (f : Nat → Nat) (m : Sparse α) : Sparse α := m.foldl (fun r (a, v) => set d r (f a) v) []

/-- Restores one team of a unit on core c; the slots' new numbers come back. `keys` are the old and the new keys of the teams of the unit, which
full/empty words may name as takers (R193, R379). -/
def State.restoreTeam (s : State) (z : SavedTeam) (c t : Nat) (members : List (Nat × Nat)) (keys : List (Nat × Nat)) : List (Nat × Nat) × State :=
  let k := s.core c
  let d := dieOfCore c
  let size := z.team.footprint.2
  let old := z.team.locBase
  let base := k.freeLocal size
  let shift (a : Nat) : Nat := if old ≤ a then a - old + base else a
  let m := slotMap k z
  let oldCore := z.key / 32
  let back (v : Nat) : Nat := ((keys.find? fun e => e.1 + 1 == v).map fun e => e.2 + 1).getD v
  let fix (g : Group) : Group := g.restored m t s.clk shift
  let shadow := z.team.shadow.map fun sh => { sh with
    groups := sh.groups.foldl (fun r (i, g) => set Group.empty r (newSlot m i) (fix g)) []
    loc := shiftMap 0 shift sh.loc, fe := shiftMap 0 (fun a => shift (4 * a) / 4) (sh.fe.map fun (a, v) => (a, back v))
    chans := sh.chans.map fun (n, h) => (n, { h with team := t }) }
  let tm := { z.team with members := members, locBase := base, placedAt := s.clk, shadow := shadow }
  let s := s.modCore c fun k => { (k.setTeam t tm) with
    split := if k.isEmpty then (if z.team.migrated then ⟨4, 4, 20⟩ else z.split) else k.split
    loc := z.loc.foldl (fun l (a, b) => set 0 l (shift a) b) k.loc
    fe := z.fe.foldl (fun l (a, v) => set 0 l (shift (4 * a) / 4) (back v)) (k.fillFe base size).fe
    poison := k.poison ++ z.poison.map fun a => shift (16 * a) / 16
    chans := z.chans.foldl (fun l (n, h) => set Channel.zero l n { h with team := t }) k.chans
    acc := if z.mxe.isSome then [] else k.acc
    mxe := match z.mxe with | some e => { e with owner := some t, retry := k.mxe.retry, poisoned := k.mxe.poisoned } | none => k.mxe }
  let s := z.groups.foldl (fun s (i, g) => s.setGrp c (newSlot m i) (fix g)) s
  let s := z.groups.foldl (fun s (_, g) => s.moveBlocked (g.sids g.live) d) s
  let s := s.modDie d fun x => { x with conts := x.conts ++ z.conts.map fun y => { y with core := c, team := t, group := fix y.group } }
  let s := s.discard .pkg c
  let s := z.team.heldStores.foldl (fun s h =>
    let asid := s.teamAsid c t
    let i : LineId := ⟨word (h.va.toNat - h.pa % 128), asid, h.gen, h.chk⟩
    if s.uncached h.pa then s else s.storeSnap c h.pa h.n h.data.toNat i true) s
  let s := z.pages.reverse.foldl (fun s p => s.poolReturn (dieOfCore oldCore) (s.teamAsid c t) 0x10 p) s
  (m, s)

/-- The cassettes of a unit go to the router of the new rank-0 core (R280): holders and the table follow their groups, and the time
that the unit was descheduled does not count. -/
def State.restoreCassettes (s : State) (z : SavedTeam) (c0 : Nat) (at_ : List (Nat × Nat × (Nat × Nat) × List (Nat × Nat))) : State :=
  z.cas.foldl (fun s (n, q) =>
    let tbl := at_.find? fun (oldCore, _, _, _) => oldCore == q.tcore
    let q := { q with
      tcore := (tbl.map fun (_, c, _, _) => c).getD q.tcore
      toff := (tbl.map fun (_, _, (old, base), _) => if old ≤ q.toff then q.toff - old + base else q.toff).getD q.toff
      entries := q.entries.map fun (i, e) =>
        let e := { e with start := s.clk - e.start }
        match at_.find? fun (oldCore, _, _, _) => oldCore == e.core with
        | none => (i, e)
        | some (_, c, _, m) => (i, { e with core := c, slot := newSlot m e.slot }) }
    s.setCas ⟨dieOfCore c0, regionOf c0, n⟩ q) s

/-- Restores a unit on the cores of a list, by rank (R377). A team whose strands were all ended while it was saved ends (R25). -/
def State.restoreUnit (s : State) (zs : List SavedTeam) (cs : List Nat) : State :=
  let core (z : SavedTeam) : Nat := (at? cs z.team.rank).getD 0
  let members := match zs with
    | [] => []
    | z :: _ => if z.team.cw * z.team.ch = 0 then [] else cs.map fun c => (c, (s.core c).freeTeams.headD 0)
  let keys := zs.map fun z => (z.key, 32 * core z + (s.core (core z)).freeTeams.headD 0)
  let (s, at_) := zs.foldl (fun ((s, l) : State × List (Nat × Nat × (Nat × Nat) × List (Nat × Nat))) z =>
    let c := core z
    let t := (s.core c).freeTeams.headD 0
    let s := s.wakeDie (dieOfCore c)
    let base := (s.core c).freeLocal z.team.footprint.2
    let (m, s) := s.restoreTeam z c t members keys
    (s, l ++ [(z.key / 32, c, (z.team.locBase, base), m)])) (s, [])
  let s := zs.foldl (fun s z => s.restoreCassettes z (core z) at_) s
  keys.foldl (fun s (_, n) => s.endTeam (n / 32) (n % 32) (s.teamAsid (n / 32) (n % 32))) s

/-- The dies on which a unit may be restored, its own first. -/
def restoreDies (d : Nat) (zs : List SavedTeam) : List Nat :=
  if chipBound zs then [d] else d :: [0, 1, 2, 3].filter (· != d)

/-- Restores a resume record (R377). -/
def State.placeResume (s : State) (d lvl : Nat) (zs : List SavedTeam) : Option State :=
  ((restoreDies d zs).findSome? fun e => if (s.die e).lost then none else s.findRestore e zs).map fun cs =>
    ((s.restoreUnit zs cs).modDie d fun k => k.setHead lvl s.clk none).schedCount d 15 (zs.filter fun z => z.team.occ).length

/-! The scheduler's turn -/

/-- Places the next team or cluster of the head record of a level, if it fits (R373). -/
def State.placeHead (s : State) (d lvl : Nat) : Option State :=
  match (s.die d).head lvl with
  | none => none
  | some r => match r.work with
    | .launch p next => s.placeLaunch d lvl r p next
    | .resume zs => s.placeResume d lvl zs
    | .packed g => s.placePacked d lvl g

/-- TEAM_PLACEMENT (R373): the levels from 7 down to 0, and within a level the head alone. -/
def execTeamPlacement (die : Nat) (s : State) : Host.Outcome State Fault Refusal :=
  .next (if (s.die die).lost || (s.die die).ps == 3 then s
    else ([7, 6, 5, 4, 3, 2, 1, 0].findSome? fun l => s.placeHead die l).getD s)

/-! Aging (R372) -/

/-- The ASID of a record's process. -/
def Work.asid : Work → Word
  | .launch p _ => p.asid
  | .resume zs => (zs.findSome? fun z => match z.team.record with
      | some p => some p.asid
      | none => (z.groups.head?).map fun (_, g) => g.asid).getD 0
  | .packed g => g.asid

/-- A resume record that ages raises the base priority of its teams with it (R372, R373). -/
def Work.raise (l : Nat) : Work → Work
  | .resume zs => .resume (zs.map fun z => { z with team := { z.team with base := max l z.team.base, eff := max l z.team.eff } })
  | w => w

/-- Whether a record of level l has waited long enough to move up. -/
def State.aged (s : State) (d l : Nat) (r : SRec) : Bool :=
  decide (r.since + 2 ^ 20 ≤ s.clk) && decide (l < 7) && decide (l < s.pmax d (asidOf r.work.asid))

/-- RECORD_AGING (R372): every record that has waited 2^20 clk moves to the tail of the next level, where its wait starts
again. -/
def execRecordAging (die : Nat) (s : State) : Host.Outcome State Fault Refusal :=
  .next ([6, 5, 4, 3, 2, 1, 0].foldl (fun s l =>
    let q := get [] (s.die die).lvl l
    let up := q.filter fun r => s.aged die l r
    if up.isEmpty then s
    else s.modDie die fun x =>
      let stay := q.filter fun r => !s.aged die l r
      let x := { x with lvl := set [] x.lvl l (match stay with
        | [] => []
        | r :: rs => (if q.head? = some r then r else { r with lastPlace := s.clk }) :: rs) }
      { x with lvl := set [] x.lvl (l + 1) (get [] x.lvl (l + 1) ++
        up.map fun r => { r with since := s.clk, lastPlace := s.clk, work := r.work.raise (l + 1) }) }) s)

end Sys2Proof.Machine
end

