-- ==== Sys2Proof/Machine/Trigger.lean ====
section
/-! DEFINITION. Which teams the scheduler pre-empts (R375). -/

namespace Sys2Proof.Machine

/-- The sublists of a list in its order, those that hold the first element before those that do not. -/
def subsets {α : Type} : List α → List (List α)
  | [] => [[]]
  | x :: xs => (subsets xs).map (x :: ·) ++ subsets xs

/-- Lexicographic order of keys. -/
def keyLt : List Nat → List Nat → Bool
  | [], _ => false
  | _, [] => false
  | a :: r, b :: q => decide (a < b) || (a == b && keyLt r q)

/-- The first element with the least key. -/
def leastKey {α : Type} (f : α → List Nat) : List α → Option α
  | [] => none
  | x :: r => match leastKey f r with
    | none => some x
    | some y => if keyLt (f y) (f x) then some y else some x

/-- The places where the next team or cluster of a record could stand on a die: cores, or rectangles by rank. -/
def Work.places (w : Work) (d : Nat) : List (List Nat) :=
  let rects (a b n : Nat) : List (List Nat) := ((List.range 256).map fun i => (rectangle d i a b).take n).filter fun cs => !cs.isEmpty
  match w with
  | .launch p n =>
    if recCw p.hdr * recCh p.hdr = 0 then (coresOf d).map ([·]) else rects (recCw p.hdr) (recCh p.hdr) (nextTeams p.hdr n)
  | .resume (z :: _) =>
    if z.team.cw * z.team.ch = 0 then (coresOf d).map ([·]) else rects z.team.cw z.team.ch z.team.members.length
  | .resume [] => []
  | .packed _ => (coresOf d).map ([·])

/-- Whether the next team or cluster of a record fits at a place. -/
def State.fitsAt (s : State) (w : Work) (cs : List Nat) : Bool :=
  match w with
  | .launch p _ => cs.all fun c => s.fitsRecord c p.hdr
  | .resume zs => s.fitsUnit zs cs
  | .packed _ => cs.all s.fitsPacked

/-- The teams of a unit leave their cores, as far as fitting goes. -/
def State.withoutUnit (s : State) (u : List (Nat × Nat)) : State :=
  u.foldl (fun s (c, t) =>
    let s := s.freeCassettes (dieOfCore c) (s.teamAt c t).ckey
    let s := s.modDie (dieOfCore c) fun x => { x with conts := x.conts.filter fun y => !(y.core == c && y.team == t) }
    s.modCore c fun k => Core.settle ({ k with
      slots := k.slots.filter fun (_, g) => !(g.occ && g.team == t),
      chans := k.chans.filter fun (_, h) => !(h.bound && h.team == t) }.setTeam t Team.empty)) s

/-- The placed units of a die, each once. -/
def State.unitsOf (s : State) (d : Nat) : List (List (Nat × Nat)) :=
  let all := ((s.cores.filter fun (c, _) => !isLatency c && dieOfCore c == d).flatMap fun (c, k) =>
    (k.teams.filter fun (_, t) => t.occ).map fun (i, _) => s.unitOf c i)
  all.dedup

/-- Whether a unit is being pre-empted. -/
def State.unitStopping (s : State) (u : List (Nat × Nat)) : Bool := u.any fun (c, t) => (s.teamAt c t).preempting

/-- The highest effective priority in a unit, and when the latest of its teams was placed. -/
def State.unitEff (s : State) (u : List (Nat × Nat)) : Nat := u.foldl (fun n (c, t) => max n (s.teamAt c t).eff) 0

/-- When the latest-placed team of a unit was placed. -/
def State.unitPlaced (s : State) (u : List (Nat × Nat)) : Nat := u.foldl (fun n (c, t) => max n (s.teamAt c t).placedAt) 0

/-- The keys of R375 for a choice of units at a place: how many teams, the highest effective priority, how long ago the latest
was placed, and the place. -/
def State.planKey (s : State) (cs : List Nat) (us : List (List (Nat × Nat))) : List Nat :=
  [ (us.map fun u => (u.filter fun (c, t) => (s.teamAt c t).occ).length).foldl (· + ·) 0, us.foldl (fun n u => max n (s.unitEff u)) 0,
    s.clk - us.foldl (fun n u => max n (s.unitPlaced u)) 0, cs.headD 0 ]

/-- Orders candidates: the lowest effective level first, and within it the latest placed. -/
def State.sortUnits (s : State) (us : List (List (Nat × Nat))) : List (List (Nat × Nat)) :=
  us.insertionSort fun a b => !keyLt [s.unitEff b, s.clk - s.unitPlaced b] [s.unitEff a, s.clk - s.unitPlaced a]

/-- R375: the units to pre-empt for the head record of level `lvl`; none where no choice would let it place. -/
def State.plan (s : State) (d lvl : Nat) (w : Work) : Option (List (List (Nat × Nat))) :=
  let going := (s.unitsOf d).filter s.unitStopping
  let s' := going.foldl (fun s u => s.withoutUnit u) s
  if (w.places d).any fun cs => s'.fitsAt w cs then none
  else
    let cands := s.sortUnits ((s.unitsOf d).filter fun u => !s.unitStopping u && decide (s.unitEff u < lvl))
    let plans := (w.places d).flatMap fun cs =>
      ((subsets (cands.filter fun u => u.any fun (c, _) => cs.contains c)).filter fun us =>
        (us.foldl (fun s u => s.withoutUnit u) s').fitsAt w cs).map fun us => (cs, us)
    (leastKey (fun (cs, us) => s.planKey cs us) plans).map (·.2)

/-- Whether the head of a level is blocked (R375). -/
def State.blockedHead (s : State) (d lvl : Nat) : Option Work :=
  match (s.die d).head lvl with
  | none => none
  | some r =>
    if r.lastPlace + 65536 ≤ s.clk ∧ (s.die d).trigAt ≤ s.clk ∧ (s.placeHead d lvl).isNone then some r.work else none

/-- Pre-emption of a unit begins (R376). -/
def State.beginPreempt (s : State) (u : List (Nat × Nat)) : State :=
  u.foldl (fun s (c, t) => s.modTeam c t fun x => if x.occ then { x with preempting := true } else x) s

/-- Requests of system software whose earlier attempt found too few pages are tried again (R376). -/
def State.retryAsked (s : State) (d : Nat) : State :=
  ((s.unitsOf d).filter fun u => u.any fun (c, t) =>
    let x := s.teamAt c t
    x.asked && !x.preempting && decide (x.again ≤ s.clk)).foldl (fun s u => s.beginPreempt u) s

/-- PREEMPT_TRIGGER (R375): the first level with a blocked head, from 7 downward, for which some choice of teams frees a place. -/
def execPreemptTrigger (die : Nat) (s : State) : Host.Outcome State Fault Refusal :=
  let s := s.retryAsked die
  .next (match [7, 6, 5, 4, 3, 2, 1, 0].findSome? fun l => (s.blockedHead die l).bind (s.plan die l) with
  | none => s
  | some us => us.foldl (fun s u => s.beginPreempt u) s)

end Sys2Proof.Machine
end

