-- ==== Sys2Proof/Machine/Waits.lean ====
section
/-! DEFINITION. What waiting paths wait for: the wait-for graph and its examination (R380, R381) and priority lending (R379). -/

namespace Sys2Proof.Machine

/-- A waiting path: the core of its group, its slot, the group, the path, whether it belongs to a continuation, its team, and the saved unit
that it belongs to, if its team is not placed. -/
structure Waiter where
  core : Nat
  slot : Nat
  group : Group
  path : Path
  out : Bool
  team : Team
  saved : List SavedTeam
deriving DecidableEq, Repr

/-- A node of the wait-for graph (R380). -/
inductive Node
  | path (w : Waiter)
  | record (p : PendRec)
deriving DecidableEq, Repr

/-- The waiting paths of a group (R166). -/
def waitersOf (c slot : Nat) (g : Group) (out : Bool) (t : Team) (zs : List SavedTeam) : List Waiter :=
  if g.isDraft then [] else (g.paths.filter fun p => p.wait.group).map fun p => ⟨c, slot, g, p, out, t, zs⟩

/-- The saved units of a die. -/
def Die.units (x : Die) : List (List SavedTeam) :=
  x.lvl.flatMap fun (_, rs) => rs.filterMap fun r => match r.work with | .resume zs => some zs | _ => none

/-- The waiting paths of the continuations of saved units. -/
def savedConts (us : List (List SavedTeam)) : List Waiter :=
  us.flatMap fun zs => zs.flatMap fun z => z.conts.flatMap fun y => waitersOf (z.key / 32) 0 y.group true z.team zs

/-- The waiting paths of the SIMT cores of a die: resident groups, held groups and continuations. -/
def State.waiters (s : State) (d : Nat) : List Waiter :=
  ((s.cores.filter fun (c, _) => !isLatency c && dieOfCore c == d).flatMap fun (c, k) =>
    (k.slots.filter fun (_, g) => g.occ).flatMap fun (i, g) => waitersOf c i g false (k.team g.team) []) ++
  ((s.die d).conts.flatMap fun y => waitersOf y.core 0 y.group true (s.teamAt y.core y.team) []) ++ savedConts (s.die d).units

/-- The state as a saved unit knew it: its teams, local bytes and channels where they stood. -/
def State.withSaved (s : State) (zs : List SavedTeam) : State :=
  zs.foldl (fun s z => s.modCore (z.key / 32) fun k =>
    { (k.setTeam (z.key % 32) z.team) with slots := z.groups, loc := z.loc, fe := z.fe, chans := z.chans }) s

/-- The nodes of the graph of a die. -/
def State.nodes (s : State) (d : Nat) : List Node := (s.waiters d).map .path ++ (s.die d).unfired.map .record

/-- The state in which a waiter's instruction is looked at: its group in a slot of its own. -/
def State.asWaiter (s : State) (w : Waiter) : State :=
  ((s.withSaved w.saved).setGrp w.core 63 { w.group with occ := true }).atPath w.core 63 w.path

/-- The instruction of a waiter and the addresses of its acting lanes that have not performed. -/
def State.waitLanes (s : State) (w : Waiter) : Option (Instr × List (Nat × Word)) :=
  let s := s.asWaiter w
  match s.fetch.1 with
  | .ok i =>
    let ((ta, a), (tb, b), _) := i.sources
    let ls := (s.acting i.operands.g).filter fun l => !w.path.done.getLsbD l
    match (s.constant ta a).1, (s.constant tb b).1 with
    | .data ka, .data kb => some (i, s.addrs i ls (word ka) (word kb))
    | _, _ => none
  | _ => none

/-- The group in which a waiter's lanes meet (R117). -/
def Waiter.orig (w : Waiter) : Nat := match w.group.held with | some h => h.orig | none => w.slot

/-- The nodes of a team. -/
def isOfTeam (id : Word) : Node → Bool
  | .path w => w.team.id == id
  | .record _ => false

/-- The nodes of the teams of a grid. -/
def isOfGrid (grid : Word) : Node → Bool
  | .path w => w.team.grid == grid
  | .record _ => false

/-- Whether the DONE counter of a record lies at a physical address. -/
def State.doneAt (s : State) (d : Nat) (p : PendRec) (pa : Nat) : Bool :=
  recDone p.hdr != 0 && s.vaPa d p.asid (recDone p.hdr) == some pa

/-- The nodes whose end would decrement the counter at a physical address (R380). -/
def State.decrementers (s : State) (d pa : Nat) : Node → Bool
  | .record p => s.doneAt d p pa
  | .path w => s.dies.any fun (_, x) => x.grids.any fun g => s.doneAt d g.p pa && isOfGrid g.id (.path w)

/-- Whether a group of a core and team binds a queue register to a channel, with the direction asked. -/
def binds (ch : Nat) (push : Bool) (g : Group) : Bool :=
  g.qbind.any fun (_, b) => bindKind b == 1 && fld b 0 16 == ch && (if push then bindPushes b else bindPops b)

/-- The physical address of a counter or word. -/
def State.waitPa (s : State) (w : Waiter) (va : Word) : Option Nat := s.vaPa (dieOfCore w.core) w.group.asid va

/-- The team whose entry a full/empty word of a local share records as its taker (R193). -/
def State.localTaker (s : State) (c off : Nat) : Option Word :=
  let v := (s.core c).feAt off
  if v = 0 then none else some (s.teamAt ((v - 1) / 32) ((v - 1) % 32)).id

/-- The taker of the word that a lane of an `ldf` or `ldfe` awaits (R193): a team id. -/
def State.takerOf (s : State) (w : Waiter) (sp : Space) (l : Nat) (va : Word) : Option Word :=
  let s := s.asWaiter w
  match s.placeOf sp l l va 1 with
  | some (.loc c off) => s.localTaker c off
  | some (.clu c off) => s.localTaker c off
  | some (.glb a) => (s.waitPa w a).bind fun pa => (get FutWord.zero s.futs (pa / 8)).taker.map (·.2)
  | _ => none

/-- The teams that would fill the words that an `ldf` or `ldfe` awaits (R379, R380). -/
def State.takers (s : State) (w : Waiter) : List Word :=
  match s.waitLanes w with
  | some (.ldf _ m, as) => as.filterMap fun (l, va) => s.takerOf w m.space l va
  | some (.ldfe _ m, as) => as.filterMap fun (l, va) => s.takerOf w m.space l va
  | _ => []

/-- The lanes of a waiter's group that have not arrived at a rendezvous: those in `want` and not in a path that `at_` accepts. -/
def State.notArrived (s : State) (w : Waiter) (want : Mask) (at_ : Path → Bool) : Mask :=
  want &&& ~~~(if w.out then (w.group.paths.filter at_).foldl (fun m p => m ||| p.mask) 0 else s.arrivedAt w.core w.orig at_)

/-- The live lanes of a waiter's group that a meeting address names. -/
def State.meetLanes (s : State) (w : Waiter) : Mask :=
  let o := if w.out then w.group else s.grp w.core w.orig
  maskOf ((lanesOf o.live).filter fun l => (if w.out then o.lane l else s.laneOf w.core w.orig l).meet == w.path.pc)

/-- The state word of the barrier that a path awaits, and which nodes have not arrived (R380). -/
def State.barWait (s : State) (w : Waiter) (clu : Bool) (n : Nat) : Word × (Node → Bool) :=
  let tm := w.team
  let home := if clu then (at? tm.members 0).getD (w.core, w.group.team) else (w.core, w.group.team)
  let ht := (s.withSaved w.saved).teamAt home.1 home.2
  let b := get Barrier.zero (if clu then ht.cbars else ht.bars) n
  let who (v : Waiter) : Nat := if clu then 32 * v.team.rank + v.group.gidx else v.group.gidx
  let mine (v : Waiter) : Bool := if clu then v.team.ckey == tm.ckey else v.team.id == tm.id
  (if clu then b.cluWord else b.word, fun
    | .path v => mine v && who v != who w && !b.who.contains (who v) && (b.members == 0 || b.members.getLsbD v.group.gidx)
    | .record _ => false)

/-- Whether the queue register that a path awaits is popped by its instruction (R85). -/
def State.popsQueue (s : State) (w : Waiter) (q : Nat) : Bool :=
  match s.waitLanes w with
  | some (i, _) => i.operands.pops.contains q
  | none => true

/-- R380: whether there is an edge from a waiting path to a node. -/
def State.edge (s : State) (w : Waiter) (n : Node) : Bool :=
  let here (v : Waiter) : Bool := v.core == w.core && v.orig == w.orig && v.out == w.out && v.team.id == w.team.id &&
    (!w.out || v.group == w.group)
  let holds (m : Mask) : Bool := match n with
    | .path v => here v && (v.path.mask &&& m != 0)
    | .record _ => false
  match w.path.wait with
  | .queue q =>
    let b := w.group.q q
    let ch := fld b 0 16
    if bindKind b ≠ 1 then false
    else match n with
    | .record _ => false
    | .path v =>
      v.team.id == w.team.id &&
        (if s.popsQueue w q then binds ch true v.group else (s.withSaved w.saved).nonExtendable w.core ch && binds ch false v.group)
  | .word => (s.takers w).any fun id => isOfTeam id n
  | .jwait =>
    match s.waitLanes w with
    | some (_, as) => as.any fun (_, va) => match s.waitPa w va with
      | some pa => decide (0 < sint (s.rd64 pa)) && s.decrementers (dieOfCore w.core) pa n
      | none => false
    | none => false
  | .meeting => holds (s.notArrived w (s.meetLanes w) fun p => p.wait == .meeting && p.pc == w.path.pc)
  | .join k =>
    let o := if w.out then w.group else s.grp w.core w.orig
    holds (s.notArrived w (o.live &&& o.j k) fun p => p.pc == w.path.pc && (match p.wait with | .join _ => true | _ => false))
  | .waitj k =>
    match n with
    | .record _ => false
    | .path v => v.core == w.core && !w.out && !v.out && v.group.held.isSome && v.orig == w.orig &&
        (v.group.live &&& (s.grp w.core w.orig).j k != 0)
  | .barrier clu b _ _ => (s.barWait w clu b).2 n
  | .barBusy clu b _ => (s.barWait w clu b).2 n
  | _ => false

/-- The edges of a node. -/
def State.edges (s : State) (d : Nat) (n m : Node) : Bool :=
  match n with
  | .path w => s.edge w m
  | .record p =>
    match s.vaPa d p.asid (recInput p.hdr) with
    | some pa => s.decrementers d pa m
    | none => false

/-- Whether the wait of a node began before a time (R381). -/
def Node.before (t : Nat) : Node → Bool
  | .path w => decide (w.path.since < t)
  | .record p => decide (p.since < t)

/-- A shortest cycle through a node: paths are grown one edge at a time, each holding its nodes newest first. -/
def growCycle (edge : Node → Node → Bool) (ns : List Node) (start : Node) : List (List Node) → List Node → Nat → Option (List Node)
  | _, _, 0 => none
  | front, seen, fuel + 1 =>
    match front.find? fun p => match p with | x :: _ => edge x start | [] => false with
    | some p => some p.reverse
    | none =>
      let (front, seen) := front.foldl (fun ((f, seen) : List (List Node) × List Node) p =>
        match p with
        | [] => (f, seen)
        | x :: _ =>
          let next := ns.filter fun y => edge x y && !seen.contains y
          (f ++ next.map fun y => y :: p, seen ++ next)) ([], seen)
      if front.isEmpty then none else growCycle edge ns start front seen fuel

/-- The first cycle found among nodes, in their order. -/
def findCycle (edge : Node → Node → Bool) (ns : List Node) : Option (List Node) :=
  ns.findSome? fun n => growCycle edge ns n [[n]] [n] (ns.length + 1)

/-- R378, R381: whether the wait of a path of a slot still lies on a cycle of waits that began before the last examination: a deadlock trap that
was set in a continuation is not delivered once another wait of its cycle has ended. -/
def State.stillDeadlocked (s : State) (c slot : Nat) (p : Path) : Bool :=
  let d := dieOfCore c
  let ns := (s.nodes d).filter fun n => n.before (s.die d).lastExam
  ns.any fun n => match n with
    | .path w => w.core == c && w.slot == slot && !w.out && w.path.mask == p.mask &&
      (growCycle (s.edges d) ns n [[n]] [n] (ns.length + 1)).isSome
    | .record _ => false

/-- The keys of R381, least first: the lowest effective priority, the latest placed, the highest slot, the highest core. -/
def State.victimKey (s : State) (w : Waiter) : List Nat :=
  let t := w.team
  [t.eff, s.clk - t.placedAt, if w.out then 64 else 63 - w.slot, 2048 - w.core]

/-- KIND of R381. -/
def State.waitKind (s : State) (w : Waiter) : Nat :=
  match w.path.wait with
  | .queue q => if s.popsQueue w q then 1 else 2
  | .word => 3
  | .jwait => 4
  | .barrier _ _ _ _ => 6
  | .barBusy _ _ _ => 6
  | _ => 5

/-- `cr.tval` of R381. -/
def State.waitTval (s : State) (w : Waiter) : Word :=
  match w.path.wait with
  | .queue q => word (0xFFFFFFFFFFFFFF00 + q)
  | .word => ((s.waitLanes w).bind fun (_, as) => as.head?.map (·.2)).getD 0
  | .jwait => ((s.waitLanes w).bind fun (_, as) => as.head?.map (·.2)).getD 0
  | .barrier clu b _ _ => (s.barWait w clu b).1
  | .barBusy clu b _ => (s.barWait w clu b).1
  | _ => w.path.pc

/-- Sets a deadlock trap in one path of a group. -/
def Group.setTrap (g : Group) (p : Path) (tval : Word) (detail : Mask) : Group :=
  { g with paths := g.paths.map fun q => if q = p then { q with trap := some (tval, detail) } else q }

/-- The same in the continuations of a list that are the group of a waiter. -/
def trapConts (ys : List Cont) (w : Waiter) (tval : Word) (detail : Mask) : List Cont :=
  ys.map fun (y : Cont) => if y.group = w.group then { y with group := y.group.setTrap w.path tval detail } else y

/-- R381: the deadlock trap in a waiting path. A path of a continuation takes it when its group has returned, if its wait still stands
then (R378). -/
def State.deadlockTrap (s : State) (d : Nat) (w : Waiter) (len : Nat) : State :=
  let tval := s.waitTval w
  let detail := BitVec.ofNat 32 (min len 255 * 256 + s.waitKind w)
  if w.saved.isEmpty && w.out then s.modDie d fun x => { x with conts := trapConts x.conts w tval detail }
  else if w.out then s.modDie d fun x => { x with lvl := x.lvl.map fun (l, rs) => (l, rs.map fun r => match r.work with
    | .resume zs => { r with work := .resume (zs.map fun z => { z with conts := trapConts z.conts w tval detail }) }
    | _ => r) }
  else (s.atPath w.core w.slot w.path).takeDeadlock tval detail

/-- The cycles of a graph are reported one by one; a node of a reported cycle is in no later one. -/
def State.reportCycles (s : State) (d : Nat) (edge : Node → Node → Bool) : List Node → Nat → State
  | _, 0 => s
  | ns, fuel + 1 =>
    match findCycle edge ns with
    | none => s
    | some cyc =>
      match leastKey s.victimKey (cyc.filterMap fun n => match n with | .path w => some w | .record _ => none) with
      | none => (s.schedCount d 20 1).reportCycles d edge (ns.filter fun n => !cyc.contains n) fuel
      | some w => ((s.deadlockTrap d w cyc.length).schedCount d 19 1).reportCycles d edge (ns.filter (· != .path w)) fuel

/-- DEADLOCK_EXAMINATION (R380, R381): at every multiple of 65,536 clk. -/
def execDeadlockExamination (die : Nat) (s : State) : Host.Outcome State Fault Refusal :=
  let old := (s.nodes die).filter fun n => n.before (s.die die).lastExam
  let t := s.reportCycles die (s.edges die) old old.length
  .next ((t.schedCount die 18 1).modDie die fun x => { x with lastExam := s.clk / 65536 * 65536 })

/-! Lending (R379) -/

/-- A team wherever it is: die, team id and base priority. -/
def State.allTeams (s : State) : List (Nat × Word × Nat) :=
  ((s.cores.filter fun (c, _) => !isLatency c).flatMap fun (c, k) =>
    (k.teams.filter fun (_, t) => t.occ).map fun (_, t) => (dieOfCore c, t.id, t.base)) ++
  s.dies.flatMap fun (d, x) => x.lvl.flatMap fun (_, rs) => rs.flatMap fun r => match r.work with
    | .resume zs => (zs.filter fun z => z.team.occ).map fun z => (d, z.team.id, z.team.base)
    | _ => []

/-- The waiting paths of saved teams. -/
def State.savedWaiters (s : State) : List Waiter :=
  s.dies.flatMap fun (_, x) => x.units.flatMap fun zs => zs.flatMap fun z =>
    z.groups.flatMap fun (i, g) => waitersOf (z.key / 32) i g false z.team zs

/-- Who lends to whom, by team ids: those that await a word in `ldf` or `ldfe` to its taker (R193). -/
def State.lends (s : State) : List (Word × Word) :=
  ((([0, 1, 2, 3].flatMap s.waiters) ++ s.savedWaiters).filter fun w => w.path.wait == .word).flatMap fun w =>
    (s.takers w).map fun id => (w.team.id, id)

/-- Effective priorities after n steps of lending. -/
def effSteps (teams : List (Nat × Word × Nat)) (lends : List (Word × Word)) : Nat → Word → Nat
  | 0, id => ((teams.find? fun t => t.2.1 == id).map (·.2.2)).getD 0
  | n + 1, id => (lends.filter fun e => e.2 == id).foldl (fun m e => max m (effSteps teams lends n e.1))
      (((teams.find? fun t => t.2.1 == id).map (·.2.2)).getD 0)

/-- The effective priority of a team, along chains of up to 8 steps. -/
def State.effOf (s : State) (lends : List (Word × Word)) (id : Word) : Nat := effSteps s.allTeams lends 8 id

/-- The resume records of a level whose effective level is another leave it. -/
def State.moveLent (s : State) (d : Nat) (eff : Word → Nat) : State :=
  let level (r : SRec) : Option Nat := match r.work with
    | .resume zs => some (zs.foldl (fun n z => if z.team.occ then max n (eff z.team.id) else n) 0)
    | _ => none
  let set_ (r : SRec) : SRec := match r.work with
    | .resume zs => { r with work := .resume (zs.map fun z => { z with team := { z.team with eff := eff z.team.id } }) }
    | _ => r
  let moved := [7, 6, 5, 4, 3, 2, 1, 0].flatMap fun l =>
    (get [] (s.die d).lvl l).filterMap fun r => match level r with
      | some e => if e = l then none else some (e, set_ { r with lastPlace := s.clk, since := s.clk })
      | none => none
  let s := s.modDie d fun x => { x with lvl := [0, 1, 2, 3, 4, 5, 6, 7].foldl (fun m l =>
    set [] m l (((get [] m l).filter fun r => match level r with | some e => e == l | none => true).map set_)) x.lvl }
  moved.foldl (fun s (e, r) => s.modDie d fun x => { x with lvl := set [] x.lvl e (joinResume r (get [] x.lvl e)) }) s

/-- LEND_RECOMPUTE (R379): the effective priorities of a die's teams, placed and saved; a resume record moves to the head of its
effective level. -/
def execLendRecompute (die : Nat) (s : State) : Host.Outcome State Fault Refusal :=
  let lends := s.lends
  let eff := s.effOf lends
  let s' : State := { s with cores := s.cores.map fun (c, k) =>
    if (!isLatency c && dieOfCore c == die) then
      (c, { k with teams := k.teams.map fun (i, t) => if t.occ then (i, { t with eff := eff t.id }) else (i, t) })
    else (c, k) }
  .next (s'.moveLent die eff)

end Sys2Proof.Machine
end

