-- ==== Sys2Proof/Machine/CoreEvents.lean ====
section
/-! DEFINITION. What a core does of its own accord: safe-point overdue (R126), channel growth (R159, R160), deferred holds (R149),
freewheel (R167), interrupts (R140) and the sampler (R170-R173). -/

namespace Sys2Proof.Machine

/-- SAFE_POINT_OVERDUE (R126, R131): cause 0x11 in the current path of a group of a SIMT core that has issued 4,096 instructions, before its
next one. -/
def execSafePointOverdue (core slot : Nat) (s : State) : Host.Outcome State Fault Refusal :=
  .next (if !(s.grp core slot).occ || isLatency core || decide ((s.grp core slot).count < 4096) then s
  else
    let s := { s with focus := (core, slot) }
    s.takeTrap 0x11 s.pc 0)

/-! Channels -/

/-- The waiting pushes to a channel of a core whose lanes need more entries than are free, with the time since when (R159). -/
def State.fullPushes (s : State) (c ch : Nat) : List Waiter :=
  let k := s.core c
  (k.slots.filter fun (_, g) => g.occ && g.team == (k.chan ch).team).flatMap fun (i, g) =>
    (waitersOf c i g false (k.team g.team) []).filter fun w => match w.path.wait with
      | .queue q =>
        bindKind (g.q q) == 1 && fld (g.q q) 0 16 == ch &&
          (match s.waitLanes w with
            | some (j, as) =>
              let v := s.asWaiter w
              j.operands.pushes == some q && !v.canPush q as.length (as.length * v.sharers j.operands.pops q)
            | none => false)
      | _ => false

/-- Whether a push has waited for 1,024 clk on a full channel (R159). -/
def State.extendDue (s : State) (c ch : Nat) : Bool :=
  ((s.core c).chan ch).bound && (s.fullPushes c ch).any fun w => decide (w.path.since + 1024 ≤ s.clk)

/-- CHANNEL_EXTEND (R159, R160): a page of the process's channel-overflow pool joins the channel's chain, and the pushes that waited are
tried; without one the channel is non-extendable until a page frees. -/
def execChannelExtend (core chan : Nat) (s : State) : Host.Outcome State Fault Refusal :=
  let h := (s.core core).chan chan
  .next (if !s.extendDue core chan then s
  else match s.poolTake (dieOfCore core) (s.teamAsid core h.team) 0x18 with
  | none => s.modCore core fun k => k.setChan chan { h with noext := true }
  | some (page, t) =>
    let t := t.modCore core fun k =>
      k.setChan chan { h with noext := false, exts := min 65535 (h.exts + 1), pages := h.pages ++ [page] }
    { t with agenda := ((s.fullPushes core chan).map fun w => .issue core w.slot) ++ t.agenda })

/-! Held slots -/

/-- The first path of a group that awaits a held slot. -/
def Group.splitPath (g : Group) : Option Path :=
  g.paths.find? fun p => match p.wait with | .split _ _ _ _ => true | _ => false

/-- Whether an outstanding record is that of a save area (R428). -/
def State.isSaveRec (s : State) (tag : Option Nat) : Bool :=
  match tag with
  | none => false
  | some q => (s.die (q / 2 ^ 32)).faults.any fun r => r.seq == q % 2 ^ 32 && (match r.target with | .save _ _ => true | _ => false)

/-- The save areas of a group that has moved into a held slot are written (R19); where the record it brought is that of a save area, it
stands for that lane's (R428). -/
def State.saveSplit (s : State) (c h : Nat) (m : Mask) (tag : Option Nat) : State :=
  match s.isSaveRec tag, tag with
  | true, some q => s.modGrp c h fun g => { g with held := g.held.map fun (x : Held) => { x with tag := none, stags := [(lowest m, q)] } }
  | _, _ => s.saveHeld c h

/-- HELD_SLOT_SPLIT (R149): a path that awaited a held slot moves into one; with the last of them the lanes that completed the
instruction go on. Without room for the records of save areas that cannot be written it waits on (R354). -/
def execHeldSlotSplit (core slot : Nat) (s : State) : Host.Outcome State Fault Refusal :=
  let g := s.grp core slot
  .next (match g.splitPath, (s.core core).freeHeld with
  | some p, some h =>
    if !s.recordRoom (dieOfCore core) ((lanesOf p.mask).filter (s.saveFails core g)).length then s
    else match p.wait with
    | .split cause tval detail tag =>
      let leave := cause / 256 = 1 ∧ (cause % 256 = 0x14 ∨ cause % 256 = 0x16)
      let s := (s.atPath core slot p).makeHeld core slot h p.mask (if leave then cause else cause % 256)
        (word (detail.toNat * 2 ^ 32 + (if leave then cause % 256 else cause))) tval tag
      let s := s.saveSplit core h p.mask tag
      s.modGrp core slot fun g =>
        if g.splitPath.isSome then g
        else { g with paths := g.paths.map fun p => if p.wait = .splitOthers then { p with wait := .ready } else p }
    | _ => s
  | _, _ => s)

/-! Freewheel -/

/-- Whether every occupied slot of a core holds only waiting paths (R167). -/
def Core.allWait (k : Core) : Bool :=
  let occ := k.slots.filter fun (_, g) => g.occ && !g.isDraft
  !occ.isEmpty && occ.all fun (_, g) => !g.paths.isEmpty && g.paths.all fun p => p.wait.group

/-- FREEWHEEL_RESTART (R8, R167): the woken path issues 24 clk of the core's clock after the event. -/
def execFreewheelRestart (core : Nat) (s : State) : Host.Outcome State Fault Refusal :=
  .next (if (s.core core).fw then s.modCore core fun k => { k with fw := false, fwUntil := s.clk + ceilDiv (24 * 2100) (s.die (dieOfCore core)).mhz } else s)

/-! Latency cores -/

/-- The kernel signals that are pending and enabled (R140). -/
def Group.signals (g : Group) : Word := g.ipend &&& g.ienable

/-- Whether a hardware strand stands at an instruction boundary: the instruction at its pc has performed nothing (R140). -/
def Group.atBoundary (g : Group) : Bool := g.path.done == 0 && g.path.got == 0

/-- INTERRUPT (R140): cause 0x1B at an instruction boundary while KT = 0. -/
def execInterrupt (core strand : Nat) (s : State) : Host.Outcome State Fault Refusal :=
  let g := s.grp core strand
  .next (if !isLatency core || !g.occ || g.halted || g.wfi || g.kt || g.signals == 0 || !g.atBoundary then s
  else ({ s with focus := (core, strand) }).takeTrap 0x1B 0 (low32 g.signals))

/-- WFI_WAKE (R140): a strand stopped by `wfi` goes on at pc + 8. -/
def execWfiWake (core strand : Nat) (s : State) : Host.Outcome State Fault Refusal :=
  let g := s.grp core strand
  .next (if !g.occ || !g.wfi || g.signals == 0 then s
  else (({ s with focus := (core, strand) }).modCur fun g => { g with wfi := false }).advance 8)

/-! The sampler -/

/-- PERIOD of `cr.sample`. -/
def Core.period (k : Core) : Nat := fld k.sample 16 16

/-- Whether a sample is due (R170, R172). -/
def State.sampleDue (s : State) (c : Nat) : Bool :=
  let k := s.core c
  k.sample.getLsbD 0 && !k.sample.getLsbD 1 && decide (0 < k.period) && decide (k.sampledAt + k.period ≤ s.dieCycles (dieOfCore c))

/-- The next occupied slot after the one last sampled, from 0 to 39 and round. -/
def Core.nextSample (k : Core) : Option Nat :=
  ((List.range 40).map fun i => (k.lastSlot + 1 + i) % 40).find? fun i => (k.slot i).occ

/-- The record of R173. -/
def State.sampleWords (s : State) (c slot : Nat) : List Word :=
  let g := s.grp c slot
  let (reason, detail) := s.reason c g
  [ s.cycle c, g.path.pc, word ((s.teamAt c g.team).id.toNat % 2 ^ 32 + g.path.mask.toNat * 2 ^ 32),
    word (slot + reason * 2 ^ 8 + detail * 2 ^ 16 + c * 2 ^ 32) ]

/-- Stores of the sampler in order, until one faults; whether all were made. -/
def State.agentStores (s : State) (d : Nat) (asid : Word) : List (Word × Word) → Bool × State
  | [] => (true, s)
  | (va, v) :: r => match s.agentStore d asid va 8 v.toNat with
    | (0, s) => s.agentStores d asid r
    | (_, s) => (false, s)

/-- Loads of the sampler in order, until one faults. -/
def State.agentLoads (s : State) (d : Nat) (asid : Word) : List Word → Option (List Nat) × State
  | [] => (some [], s)
  | va :: r => match s.agentLoad d asid va 8 with
    | (0, v, s) =>
      let (vs, s) := s.agentLoads d asid r
      (vs.map (v :: ·), s)
    | (_, _, s) => (none, s)

/-- R172: the sampler stops after a fault, of a read of the ring's header too (log entry 155). -/
def State.samplerFault (s : State) (c : Nat) : State := s.modCore c fun k => { k with sample := k.sample ||| 2 }

/-- What follows the sampler's stores: a change of the core, or the end of sampling. -/
def State.sampled (r : Bool × State) (c : Nat) (f : Core → Core) : State := if r.1 then r.2.modCore c f else r.2.samplerFault c

/-- SAMPLE (R172): one record of the next occupied slot, or one more dropped record where the ring is full. -/
def execSample (core : Nat) (s : State) : Host.Outcome State Fault Refusal :=
  .next (if !s.sampleDue core then s
  else
    let s := s.modCore core fun k => { k with sampledAt := s.dieCycles (dieOfCore core) }
    let k := s.core core
    let d := dieOfCore core
    match k.nextSample with
    | none => s
    | some slot =>
      let s := s.modCore core fun k => { k with lastSlot := slot }
      let base := k.sbuf
      match s.agentLoads d k.sasid [base, base + 8] with
      | (some [w, r], s) =>
        let cap := 2 ^ (fld k.sample 8 4 + 6)
        if (w + 2 ^ 64 - r) % 2 ^ 64 = cap then
          match s.agentLoad d k.sasid (base + 16) 8 with
          | (0, n, s) => State.sampled (s.agentStores d k.sasid [(base + 16, word (n + 1))]) core fun k => { k with dropped := word (n + 1) }
          | (_, _, s) => s.samplerFault core
        else
          let a := base + word (64 + 32 * (w % cap))
          let ws := s.sampleWords core slot
          State.sampled
            (s.agentStores d k.sasid (((List.range 4).zip ws).map (fun (i, v) => (a + word (8 * i), v)) ++ [(base, word (w + 1))])) core
            fun k => { k with widx := word (w + 1) }
      | (_, s) => s.samplerFault core)

end Sys2Proof.Machine
end

