-- ==== Sys2Proof/Machine/Complete.lean ====
section
/-! DEFINITION. The completion of fault records (R355, R352, R424, R425, R428, R429). -/

namespace Sys2Proof.Machine

/-- Whether a group is held for the record with a key: that of its fault, or that of the save area of a lane (R428). -/
def Group.heldBy (g : Group) (key : Nat) : Bool :=
  g.occ && match g.held with
  | none => false
  | some h => h.tag == some key || h.stags.any fun x => x.2 == key

/-- Where the group stands that is held for a record. -/
def State.heldFor (s : State) (key : Nat) : Option (Nat × Nat) :=
  s.cores.findSome? fun (c, k) => k.slots.findSome? fun (i, g) => if g.heldBy key then some (c, i) else none

/-- The group that is held for a record, placed or saved, with its die. -/
def State.heldGroup (s : State) (key : Nat) : Option (Nat × Group) :=
  match s.heldFor key with
  | some (c, i) => some (dieOfCore c, s.grp c i)
  | none => s.dies.findSome? fun (d, x) => x.lvl.findSome? fun (_, rs) => rs.findSome? fun r => match r.work with
    | .resume zs => zs.findSome? fun z => z.groups.findSome? fun (_, g) => if g.heldBy key then some (d, g) else none
    | _ => none

/-- Changes the group that is held for a record, placed or saved. -/
def State.mapHeld (s : State) (key : Nat) (f : Group → Group) : State :=
  let on (m : Sparse Group) : Sparse Group := m.map fun (i, g) => (i, if g.heldBy key then f g else g)
  { s with
    cores := s.cores.map fun (c, k) => (c, { k with slots := on k.slots })
    dies := s.dies.map fun (d, x) => (d, { x with lvl := x.lvl.map fun (l, rs) => (l, rs.map fun r => match r.work with
      | .resume zs => { r with work := .resume (zs.map fun z => { z with groups := on z.groups }) }
      | _ => r) }) }

/-- A held group as its save areas now say (R19, R413): a lane whose PC software has changed goes on there, and `cr.epc` follows. A lane that a
user handler has stopped stays so (R135). -/
def State.reload (s : State) (d : Nat) (g : Group) : Group × State :=
  let (zs, s) := s.readAreas d g (lanesOf g.live)
  let moved := zs.filter fun z => z.2.pc != g.pcOf z.1
  ({ (((g.takeLanes zs).takePcs zs fun _ => true).takeS zs) with epc := (moved.getLast?.map (·.2.pc)).getD g.epc }, s)

/-- The same group with its record completed and a mark of `Group.toLeave`. -/
def Group.released (g : Group) (mark : Nat) : Group :=
  { g with held := g.held.map fun h => { h with running := true, tag := none, cause := h.cause % 256 + 256 * mark } }

/-- The mark of `Group.toLeave` that a held group carries. -/
def Group.mark (g : Group) : Nat := (g.held.map fun h => h.cause / 256).getD 0

/-- What stands in `Held.stags` for a lane of a saved group whose strand is to end (R428). -/
def endTag : Nat := 2 ^ 40

/-- The lanes of a held group that are to end. -/
def Group.ending (g : Group) : Mask :=
  match g.held with
  | none => 0
  | some h => maskOf ((h.stags.filter fun x => x.2 == endTag).map (·.1))

/-- A held group none of whose records is outstanding runs again, or leaves, if it was to leave (R17, R352, R428). -/
def State.resumed (s : State) (d : Nat) (g : Group) : Group × State :=
  match g.held with
  | none => (g, s)
  | some h =>
    if h.tag.isSome || h.stags.any fun x => x.2 != endTag then (g, s)
    else
      let (g', s) := s.reload d g
      (g'.released (if g.mark = 1 then 2 else 0), s)

/-- The lanes of a path leave for a latency core as under R28, with pc = `cr.epc`; those without a save area are held with cause
0x16 (R355). A lane whose operation has been performed, or whose reply has been delivered, goes on after its instruction (R305). -/
def State.leavePath (s : State) (c slot : Nat) (p : Path) : State :=
  let f := s.focus
  let next := p.pc + word (s.lenAt c slot p)
  let served := s.servedLanes c slot p
  let s := s.atPath c slot p
  let (out, stay) := (lanesOf p.mask).partition fun l => (s.cur.lane l).ssa != 0
  let s := out.foldl (fun s l => s.migrateLane l (if served.getLsbD l then next else p.pc) none none) s
  let s := stay.foldl (fun s l => s.noSaveArea l) s
  { s.markLeave c slot p.mask with focus := f }

/-- A held group whose record was completed with ERROR or END leaves or ends, if there is room for the records that this may take
(R354). -/
def State.settleHeld (s : State) (c slot : Nat) : State :=
  let s := if (s.grp c slot).ending = 0 then s else s.endLanes c slot (s.grp c slot).ending
  let g := s.grp c slot
  match g.held with
  | none => s
  | some h =>
    if !g.occ || !h.running then s
    else match g.mark with
    | 2 => if { s with focus := (c, slot) }.leaveRoom (lanesOf g.live) && { s with focus := (c, slot) }.mayRelease then g.paths.foldl (fun s p => s.leavePath c slot p) s else s
    | 3 => s.endLanes c slot g.live
    | _ => s

/-- The strands of the lanes of a held group that runs again are resident (R18). -/
def State.heldResident (s : State) (d : Nat) (g : Group) : State :=
  if (g.held.map (·.running)).getD false && g.mark == 0 then (lanesOf g.live).foldl (fun s l => s.putLoc d g.asid (g.lane l).ssa 1) s else s

/-- The completion of a held group's record: 0 RETRY, 1 ERROR, 2 END. With RETRY it waits on for the save areas that could not be written
(R428). -/
def State.completeHeld (s : State) (key disp : Nat) : State :=
  match s.heldGroup key with
  | none => s
  | some (d, g) =>
    let place := s.heldFor key
    let (g, s) : Group × State :=
      if disp = 0 then s.resumed d { g with held := g.held.map fun (h : Held) => { h with tag := none } }
      else (g.released (if disp = 2 then 3 else 2), s)
    let s := (s.mapHeld key fun _ => g).heldResident d g
    match place with
    | some (c, i) => s.settleHeld c i
    | none => s

/-- The paths of a slot that await the completion of a record of an instruction kept whole and hold a lane. -/
def Group.faultPath (g : Group) (l : Nat) : Option Path :=
  g.paths.find? fun p => p.mask.getLsbD l && match p.wait with | .fault _ => true | _ => false

/-- The path of a slot that awaits a held slot for a record. -/
def Group.splitFor (g : Group) (key : Nat) : Option Path :=
  g.paths.find? fun p => match p.wait with | .split _ _ _ t => t == some key | _ => false

/-- The lanes that wait beside a path for a held slot go on once no path of the group awaits one (R149). -/
def Group.freeOthers (g : Group) : Group :=
  if g.splitPath.isSome then g
  else { g with paths := g.paths.map fun p => if p.wait = .splitOthers then { p with wait := .ready } else p }

/-- The completion of a record while its path still awaits a held slot. -/
def State.completeSplit (s : State) (c slot : Nat) (p : Path) (disp : Nat) : State :=
  let leaves := match p.wait with
    | .split w _ _ _ => decide (w / 256 = 1) && (w % 256 == 0x14 || w % 256 == 0x16)
    | _ => false
  let s :=
    if disp = 0 ∧ !leaves then s.modGrp c slot fun g => { g with paths := g.paths.map fun q => if q = p then { q with wait := .ready } else q }
    else if disp = 2 then s.endLanes c slot p.mask
    else s.leavePath c slot p
  s.modGrp c slot Group.freeOthers

/-- The instructions of R425 that one record holds for all their acting lanes. -/
def wholePath (i : Instr) : Bool :=
  match i with
  | .vamoRow _ _ => true
  | .stgDecl _ => true
  | .launch _ => true
  | .spawn _ => true
  | .viewReg _ => true
  | .viewDrop _ => true
  | .viewSync _ _ => true
  | .viewTag _ => true
  | .viewPol _ => true
  | .tgen _ => true
  | _ => false

/-- Whether an instruction that waits whole has a record for each faulting lane (R424), or one for all (R425), as for a
constant-bank operand. -/
def State.perLane (s : State) (c slot : Nat) (p : Path) (r : FRec) : Bool :=
  match s.waitInstr c slot p with
  | some i =>
    let t := s.atPath c slot p
    let constant (a : Src) : Bool := match a with | .c _ => r.acc == 0 && t.constAddr a == r.addr | _ => false
    i.operands.queues && !wholePath i && !(constant i.operands.a || constant i.operands.b || constant i.operands.c)
  | none => false

/-- One record of a path that waits is completed. -/
def Path.oneLess (p : Path) : Path :=
  { p with wait := match p.wait with | .fault (n + 2) => .fault (n + 1) | .fault _ => .ready | w => w }

/-- The completion of a record of a path that waits under R424 or R425. -/
def State.completePath (s : State) (c slot l disp : Nat) (p : Path) (r : FRec) : State :=
  let m := if s.perLane c slot p r then laneBit l else
    match s.waitInstr c slot p with
    | some i => maskOf ((s.atPath c slot p).acting i.operands.g)
    | none => p.mask
  let less (s : State) : State := s.modGrp c slot fun g => { g with paths := g.paths.map fun q =>
    if q.mask &&& p.mask ≠ 0 ∧ q.pc = p.pc then q.oneLess else q }
  match disp with
  | 0 => less s
  | 1 =>
    let away : Path := { p with mask := m }
    let s := s.modGrp c slot fun g => { g with paths := (g.paths.flatMap fun q => if q = p then [q.without m, away] else [q]).filter fun q => q.mask != 0 }
    less (s.leavePath c slot away)
  | _ => less (s.endLanes c slot m)

/-- The command of an engine that a record has stalled (R210). -/
def State.stalledCmd (s : State) (key : Nat) : Option (Nat × Nat) :=
  s.cores.findSome? fun (c, k) => ((List.range k.async.length).find? fun i => (at? k.async i).any fun a => a.stalled == some key).map
    fun i => (c, i)

/-- The lane of a held group whose save area a record names. -/
def Group.savedBy (g : Group) (key : Nat) : Option Nat :=
  g.held.bind fun h => (h.stags.find? fun x => x.2 == key).map (·.1)

/-- A held group proceeds if none of its records is outstanding (R428). -/
def State.proceed (s : State) (c slot : Nat) : State :=
  let d := dieOfCore c
  let (g, s) := s.resumed d (s.grp c slot)
  ((s.setGrp c slot g).heldResident d g).settleHeld c slot

/-- A change of a saved group that is held for a record, after which it proceeds. -/
def State.proceedSaved (s : State) (key d : Nat) (g : Group) : State :=
  let (g, s) := s.resumed d g
  (s.mapHeld key fun _ => g).heldResident d g

/-- RETRY of a record of a save area (R428): the area of lane l of the group in a slot, or of a saved group, is written again; if that
succeeds, the transition proceeds. -/
def State.resave (s : State) (key l : Nat) : State :=
  match s.heldFor key, s.heldGroup key with
  | some (c, i), _ => (s.saveHeldLane c i l).proceed c i
  | none, some (d, g) =>
    let (k, s) := s.saveLane (256 * d) g l (g.pcOf l) 4 true
    if k = 0 then s.proceedSaved key d (g.setStag l none)
    else
      let (q, s) := s.faultRecord d { s.saveRec (256 * d) 0 g l k with team := 0 }
      s.mapHeld key fun g => g.setStag l (some q)
  | none, none => s

/-- The completion of a record of a save area (R428), in a held group or in a path that awaits a held slot. -/
def State.completeSave (s : State) (r : FRec) (key disp : Nat) : State :=
  match (s.heldGroup key).bind fun x => x.2.savedBy key with
  | some l =>
    if disp = 0 then s.resave key l
    else match s.heldFor key, s.heldGroup key with
    | some (c, i), _ => (s.endLanes c i (laneBit l)).proceed c i
    | none, some (d, g) => s.proceedSaved key d (g.setStag l (some endTag))
    | none, none => s
  | none =>
    match r.target with
    | .save c slot =>
      match (s.grp c slot).splitFor key with
      | some p => s.completeSplit c slot p (if disp = 0 then 0 else 2)
      | none => s
    | _ => s

/-- The effect of a completion that has been accepted, by what the record awaits. -/
def State.completeRec (s : State) (d : Nat) (r : FRec) (key disp : Nat) : State :=
  match r.target with
  | .none => s
  | .held _ _ => s.completeHeld key disp
  | .path c slot l =>
    match (s.grp c slot).splitFor key, (s.grp c slot).faultPath l with
    | some p, _ => s.completeSplit c slot p disp
    | none, some p => s.completePath c slot l disp p r
    | none, none => s.completeHeld key disp
  | .engine _ _ =>
    match s.stalledCmd key with
    | none => s
    | some (c, i) => if disp = 0 then s.modCmd c i fun a => { a with stalled := none } else s.failCmd c i
  | .view n b =>
    match s.view? d n with
    | none => s
    | some v =>
      if disp = 0 then
        if v.stalled.any fun x => x.block == b then s
        else s.modDie d fun x => { x with vfifo := if x.vfifo.contains (n, b) then x.vfifo else (n, b) :: x.vfifo }
      else (s.poisonBlock d n b v).viewRecord d n b v r.kind r.acc r.addr false
  | .input grid =>
    match (s.die d).unfired.find? fun p => p.grid == grid with
    | none => s
    | some p =>
      if disp = 0 then s.testInput d p
      else s.modDie d fun x => { x with
        unfired := x.unfired.filter fun q => q.grid != grid, slots := x.slots.filter fun y => y != (asidOf p.asid, p.slot) }
  | .done grid =>
    match (s.die d).pendDone.find? fun g => g.id == grid with
    | none => s
    | some g =>
      let s := s.modDie d fun x => { x with pendDone := x.pendDone.filter fun h => h.id != grid }
      if disp = 0 then s.endGrid d g else s.freeGrid g
  | .save _ _ => s.completeSave r key disp

/-- R355: words 0 and 1 of a store to the completion page of die d: the predicate of the `st128`, and the effect. -/
def State.completeFault (s : State) (d : Nat) (tag disp : Word) : Bool × State :=
  match (s.die d).faults.find? fun r => word (d * 2 ^ 61 + r.seq) == tag with
  | none => (false, s)
  | some r =>
    if 2 < disp.toNat then (false, s)
    else
      let key := d * 2 ^ 32 + r.seq
      (true, (s.withdraw (some key)).completeRec d r key disp.toNat)

/-- FAULT_COMPLETION (R355): the kernel instance completes a record of its die. -/
def execFaultCompletion (die : Nat) (tag disp : Word) (s : State) : Host.Outcome State Fault Refusal :=
  .next (s.completeFault die tag disp).2

end Sys2Proof.Machine
end

