-- ==== Sys2Proof/Machine/Coherence.lean ====
section
/-! DEFINITION. The events of the memory system: fills, writes at the home, ownership, notices, refusals, the hardware prefetcher,
the scrubber and the cluster drain (R174, R283, R286-R292, R308, R309, R345, R348). -/

namespace Sys2Proof.Machine

/-- R321: whether a line holds bytes of a shard of a view; no L1 ever holds one. -/
def State.shardLine (s : State) (line : Nat) : Bool :=
  [0, 1, 2, 3].any fun d => !(s.die d).lost && (s.die d).views.any fun (_, v) => (List.range v.shards).any fun i =>
    !(s.offsetsOf d v.asid (fld (v.shard i) 40 24) (128 * line)).isEmpty

/-- Whether core c may hold a copy of a line (R287, R306, R321, R389, R421). -/
def State.mayHold (s : State) (c line : Nat) : Bool :=
  match region (line * 128) with
  | .config _ => false
  | .submit _ => false
  | .nowhere => false
  | .chip d => d == dieOfCore c
  | _ => !s.uncached (line * 128) && !s.shardLine line

/-- The entry of a core's translation cache, or of its region's, that maps a line. -/
def State.lineEntry (s : State) (c line : Nat) : Option TlbEntry :=
  let maps (t : TlbEntry) : Bool := decide (t.frame * 2 ^ 8 ≤ line) && decide (line < (t.frame + 2 ^ t.k) * 2 ^ 8)
  match (s.core c).tlb.find? maps with
  | some t => some t
  | none => (get [] (s.die (dieOfCore c)).rtlb (regionOf c)).find? maps

/-- The identity under which a request of a core for a line goes to its arbiter (R345). Every translated request carries the mapping of a
translation cache; one whose generation is no longer current is refused, and a line that no entry maps is not requested. The chip
scratchpad is not translated. -/
def State.requestId (s : State) (c line : Nat) : Option LineId × State :=
  match region (line * 128) with
  | .chip _ => (some ⟨0, 0, 0, false⟩, s)
  | _ => match s.lineEntry c line with
    | none => (none, s)
    | some t =>
      if !t.inv && !s.current (dieOfCore c) t.asid t.inc t.obj t.gen then (none, (s.dropObject c t.asid t.obj).countRefusal c)
      else
        let va := word (t.obj * 2 ^ 40 + t.voff * 2 ^ 15 + (128 * line - t.frame * 2 ^ 15))
        (some ((t.xl va).lineId (word (t.inc * 2 ^ 16 + t.asid)) va), s)

/-- LINE_FILL (R290): a fill request of a core is served at the line's arbiter, unless it is refused there (R345). -/
def execLineFill (core line : Nat) (s : State) : Host.Outcome State Fault Refusal :=
  .next (if !s.mayHold core line then s
  else match s.requestId core line with
  | (none, s) => s
  | (some i, s) => s.fill core line i false)

/-- WRITE_AT_HOME (R292): the oldest accepted write of a die toward a home enters line order. -/
def execWriteAtHome (die home : Nat) (s : State) : Host.Outcome State Fault Refusal := .next (s.drainOne die home)

/-- R289: the published bytes that a core has read of a line go; its unpublished bytes stay. -/
def L1Line.dropClean (l : L1Line) : L1Line := { l with vm := l.um, stale := false, st := .i }

/-- OWNERSHIP_REQUEST (R289): every other holder gives up ownership or receives a notice, and the core holds the line's published
bytes M or E. A line whose arbiter is always its home (R288, R317, R415) has no owner, and a request under an old generation is
refused (R345). -/
def execOwnershipRequest (core line : Nat) (excl : Bool) (s : State) : Host.Outcome State Fault Refusal :=
  .next (if !s.mayHold core line then s
  else match s.requestId core line with
  | (none, s) => s
  | (some i, s) =>
    if s.homeOnly (dieOfCore core) line i || s.homeLine line then s
    else
      let s := s.modCore core fun k => k.setLine line (k.line line).dropClean
      let s := (s.fill core line i false).notice line (some core)
      s.modCore core fun k => k.setLine line { k.line line with st := if excl then .m else .e })

/-- INVALIDATION_NOTICE (R290): the copy becomes stale and gives up ownership; its bytes stay until the next discard. -/
def execInvalidationNotice (core line : Nat) (s : State) : Host.Outcome State Fault Refusal :=
  .next (s.modCore core fun k => if k.line line = L1Line.zero then k else k.setLine line (k.line line).noticed)

/-- Whether a core holds an entry of an object whose incarnation or generation is no longer current (R345). -/
def State.outdated (s : State) (c : Nat) (asid : Word) (obj : Nat) : Bool :=
  (s.core c).tlb.any fun t => !t.inv && t.asid == asidOf asid && t.obj == obj &&
    !s.current (dieOfCore c) (asidOf asid) t.inc obj t.gen

/-- REFUSAL_RETRANSLATE (R345): the home has refused a request under an old generation; the core drops the object's entries and
walks again. Under inverted tables no request is refused (R350). -/
def execRefusalRetranslate (core : Nat) (asid va : Word) (s : State) : Host.Outcome State Fault Refusal :=
  let obj := fld va 40 24
  .next (if (s.die (dieOfCore core)).trMode || !s.outdated core asid obj then s
  else (((s.dropObject core (asidOf asid) obj).countRefusal core).walk core (asidOf asid) (incOf asid) va .read false true).2.2)

/-- HARDWARE_PREFETCHER (R174, R348): a prefetch of the core's own accord, for a group of its slot. -/
def execHardwarePrefetcher (core slot : Nat) (va : Word) (s : State) : Host.Outcome State Fault Refusal :=
  .next (if (s.grp core slot).occ then ({ s with focus := (core, slot) }).prefetchLine .glb false 0 va else s)

/-- The physical address of line i of a scrubber's memory (R308, R388). -/
def scrubAddr (d k i : Nat) : Nat := (if isCompute d then 2 ^ 37 * d + 2 ^ 36 * k else if d = 4 then 2 ^ 40 else 2 ^ 41) + 128 * i

/-- The scrubber reads a line (R308, R310, R354): an error in it is found and counted at its home slice; an uncorrectable one is
recorded. -/
def State.findError (s : State) (d line : Nat) : State :=
  let s' : State := { s with ecc := set 0 s.ecc line 0 }
  match get 0 s.ecc line with
  | 0 => s
  | 1 => s'.sliceCount d (s.sliceOf line) 4 1
  | _ => ((s'.sliceCount d (s.sliceOf line) 5 1).faultRecord d { FRec.blank with src := 7, addr := word (128 * line) }).2

/-- SCRUB_LINE (R308, R309): the scrubber reads its next line; a pass that completes starts the next at once. A correctable error is
written back, which changes no value and is counted (R310); an uncorrectable line becomes poisoned. Without room for its record the scrubber
waits at that line (R354). -/
def execScrubLine (die stack : Nat) (s : State) : Host.Outcome State Fault Refusal :=
  let x := s.scrubber die stack
  let y : Scrub :=
    if scrubTotal die ≤ x.pos + 1 then { x with pos := 0, start := word s.time, passes := x.passes + 1 } else { x with pos := x.pos + 1 }
  let t := s.findError die (scrubAddr die stack x.pos / 128)
  .next (if (isCompute die ∧ 2 ≤ stack) ∨ (!isCompute die ∧ stack ≠ 0) || (s.withinRoom && !t.withinRoom) then s
  else t.modDie die fun k => { k with scrub := set ⟨0, 0, 0⟩ k.scrub stack y })

/-- The places of the teams of a team's cluster, or of the team alone. -/
def State.clusterOf (s : State) (c t : Nat) : List (Nat × Nat) :=
  let tm := s.teamAt c t
  if tm.cw * tm.ch = 0 then [(c, t)] else tm.members.filter fun (c', i) => (s.teamAt c' i).occ && (s.teamAt c' i).ckey == tm.ckey

/-- What a drain does beyond time (R283): 1 an engine whose sequencer was illegal loses its accumulators and its team starts again at
the restart symbol (R244); 2 an ECC copy is uncorrectable, so that every team of the cluster is killed. -/
def State.drainOutcome (s : State) (c t outcome : Nat) : State :=
  let key := (s.teamAt c t).ckey
  match outcome with
  | 0 => s
  | 1 => if (s.core c).mxe.owner = some t then s.restartTeam c t else s
  | _ =>
    let s := (s.clusterOf c t).foldl (fun (s : State) (x : Nat × Nat) =>
      (s.faultRecord (dieOfCore x.1) { FRec.blank with
        src := 1, cause := 0x17, team := (s.teamAt x.1 x.2).id.toNat, core := x.1, detail := 0x200 }).2) s
    (s.killCluster key).freeCassettes (dieOfCore c) key

/-- The team of a core in which an illegal state was found, and what is illegal; where none is recorded, the core's first team, with
no effect beyond time (log entry 108). -/
def State.illegalTeam (s : State) (c : Nat) : Option (Nat × Nat) :=
  match (s.core c).illegal with
  | some (t, kind) => if (s.teamAt c t).occ then some (t, kind) else none
  | none => ((s.core c).teams.find? fun (_, t) => t.occ).map fun (t, _) => (t, 0)

/-- The drain of a team's cluster (R283): its member cores do not issue until the drain has ended, at most 4,096 clk later; DRAINS counts
it and a record goes to the fault ring. -/
def State.drain (s : State) (c t : Nat) : State :=
  let tm := s.teamAt c t
  let r := regionOf (if tm.cw * tm.ch = 0 then c else ((at? tm.members 0).map (·.1)).getD c)
  let d := dieOfCore c
  let ms := s.clusterOf c t
  let (w, s) := s.freshWord
  let s := ms.foldl (fun (s : State) (x : Nat × Nat) => s.modCore x.1 fun k => { k with drainUntil := s.clk + w.toNat % 4097 }) s
  let s := s.modDie d fun k =>
    let x := get Router.zero k.routers r
    { k with routers := set Router.zero k.routers r { x with drains := min (x.drains + 1) (2 ^ 32 - 1) } }
  (s.faultRecord d { FRec.blank with src := 6, core := c }).2

/-- CLUSTER_DRAIN (R283): the cluster of the team in which an illegal state was found, or that team alone, is drained and rebuilt. Without room
for its records the drain waits (R354). -/
def execClusterDrain (core : Nat) (s : State) : Host.Outcome State Fault Refusal :=
  .next (if isLatency core then s
  else
    let u := s.modCore core fun k => { k with illegal := none }
    match s.illegalTeam core with
    | none => u
    | some (t, kind) =>
      let v := (u.drain core t).drainOutcome core t kind
      if s.withinRoom && !v.withinRoom then s else v)

end Sys2Proof.Machine
end

