-- ==== Sys2Proof/Machine/IntArith.lean ====
section
/-! DEFINITION. Integer and address arithmetic (R89-R95). -/

namespace Sys2Proof.Machine

/-- Wb of R91. -/
def Wb : Width → Nat
  | .d => 64 | .w => 32 | .h => 16 | .b => 8

/-- R89: the operand as its low W bits, unsigned. -/
def uop (m : IntMod) (a : Word) : Nat := a.toNat % 2 ^ Wb m.w

/-- R89: the operand under the S bit. -/
def iop (m : IntMod) (a : Word) : Int := if m.sgn then Fp.sintOf (Wb m.w) a.toNat else (uop m a : Int)

/-- R89: the low W bits of a result, extended under the S bit. -/
def wres (m : IntMod) (v : Nat) : Word := if m.sgn then sext (Wb m.w) v else word (v % 2 ^ Wb m.w)

/-- R90: the smallest value of the type. -/
def imin (m : IntMod) : Int := if m.sgn then -(2 ^ (Wb m.w - 1)) else 0
/-- R90: the largest value of the type. -/
def imax (m : IntMod) : Int := if m.sgn then 2 ^ (Wb m.w - 1) - 1 else 2 ^ Wb m.w - 1

/-- R90: an exact result, wrapped or clamped, extended under R89. -/
def ires (m : IntMod) (v : Int) : Word :=
  let v := if m.sat then max (imin m) (min (imax m) v) else v
  wres m (v % 2 ^ Wb m.w).toNat

/-- R92: the quotient, rounded toward zero. -/
def idiv (m : IntMod) (a b : Int) : Int := if b = 0 then (if m.sgn then -1 else imax m) else Int.tdiv a b

/-- R92: the remainder. -/
def irem (a b : Int) : Int := if b = 0 then a else Int.tmod a b

/-- R91: a >> n, filling with copies of a[Wb - 1]. -/
def sraBits (w a n : Nat) : Nat := ((Fp.sintOf w a) / 2 ^ n % 2 ^ w).toNat

/-- R91: a rotated left. -/
def rotBits (w a n : Nat) : Nat := (a * 2 ^ n + a / 2 ^ (w - n)) % 2 ^ w

/-- R91: leading zeros in w bits. -/
def clzBits (w a : Nat) : Nat := if a = 0 then w else w - 1 - a.log2

/-- R91: trailing zeros in w bits. -/
def ctzBits (w a : Nat) : Nat := ((List.range w).find? fun i => a.testBit i).getD w

/-- R91: number of 1 bits in w bits. -/
def popcBits (w a : Nat) : Nat := ((List.range w).filter fun i => a.testBit i).length

/-- R91: w bits reversed. -/
def brevBits (w a : Nat) : Nat := (List.range w).foldl (fun r i => r + bit (a.testBit i) (w - 1 - i)) 0

/-- Field of R93. -/
def fieldOf (f : Word) (w : Nat) : Nat × Nat :=
  let pos := fld f 0 7
  if w ≤ pos then (pos, 0) else (pos, min (fld f 8 7) (w - pos))

/-- `bfx` of R93. -/
def bfxBits (m : IntMod) (a : Nat) (f : Word) : Word :=
  let (pos, n) := fieldOf f (Wb m.w)
  if n = 0 then 0
  else
    let r := a / 2 ^ pos % 2 ^ n
    if m.sgn then sext n r else word r

/-- `bfi` of R93. -/
def bfiBits (m : IntMod) (a b : Nat) (f : Word) : Word :=
  let (pos, n) := fieldOf f (Wb m.w)
  wres m (b - b / 2 ^ pos % 2 ^ n * 2 ^ pos + a % 2 ^ n * 2 ^ pos)

/-- R94: COND 0 eq, 1 ne, 2 lt, 3 le, 4 gt, 5 ge. -/
def icond (c : BitVec 4) (a b : Int) : Bool :=
  match c.toNat with
  | 0 => a == b
  | 1 => a != b
  | 2 => decide (a < b)
  | 3 => decide (a ≤ b)
  | 4 => decide (b < a)
  | _ => decide (b ≤ a)

/-- `ext` of R95. -/
def extBits (sgn : Bool) (a b : Word) : Word :=
  let k := fld b 0 6
  if sgn then sext (k + 1) a.toNat else word (a.toNat % 2 ^ (k + 1))

/-- `lea` of R95. -/
def leaBits (a b c : Word) : Word :=
  word (a.toNat / 2 ^ 40 * 2 ^ 40 + (a.toNat % 2 ^ 40 + b.toNat * 2 ^ fld c 0 3) % 2 ^ 40)

/-- `add` (R91). -/
def execAdd (o : Operands) (m : IntMod) (s : State) : Host.Outcome State Fault Refusal :=
  .next (s.mapLanes (.add o m) fun a b _ => ires m (iop m a + iop m b))

/-- `sub` (R91). -/
def execSub (o : Operands) (m : IntMod) (s : State) : Host.Outcome State Fault Refusal :=
  .next (s.mapLanes (.sub o m) fun a b _ => ires m (iop m a - iop m b))

/-- `min` (R91). -/
def execMin (o : Operands) (m : IntMod) (s : State) : Host.Outcome State Fault Refusal :=
  .next (s.mapLanes (.min o m) fun a b _ => ires m (min (iop m a) (iop m b)))

/-- `max` (R91). -/
def execMax (o : Operands) (m : IntMod) (s : State) : Host.Outcome State Fault Refusal :=
  .next (s.mapLanes (.max o m) fun a b _ => ires m (max (iop m a) (iop m b)))

/-- `abs` (R91). -/
def execAbs (o : Operands) (m : IntMod) (s : State) : Host.Outcome State Fault Refusal :=
  .next (s.mapLanes (.abs o m) fun a _ _ => ires m (Int.ofNat (iop m a).natAbs))

/-- `and` (R91). -/
def execAnd (o : Operands) (m : IntMod) (s : State) : Host.Outcome State Fault Refusal :=
  .next (s.mapLanes (.and o m) fun a b _ => wres m (Nat.land (uop m a) (uop m b)))

/-- `or` (R91). -/
def execOr (o : Operands) (m : IntMod) (s : State) : Host.Outcome State Fault Refusal :=
  .next (s.mapLanes (.or o m) fun a b _ => wres m (Nat.lor (uop m a) (uop m b)))

/-- `xor` (R91). -/
def execXor (o : Operands) (m : IntMod) (s : State) : Host.Outcome State Fault Refusal :=
  .next (s.mapLanes (.xor o m) fun a b _ => wres m (Nat.xor (uop m a) (uop m b)))

/-- `andn` (R91). -/
def execAndn (o : Operands) (m : IntMod) (s : State) : Host.Outcome State Fault Refusal :=
  .next (s.mapLanes (.andn o m) fun a b _ => wres m (a &&& ~~~b).toNat)

/-- `shl` (R91). -/
def execShl (o : Operands) (m : IntMod) (s : State) : Host.Outcome State Fault Refusal :=
  .next (s.mapLanes (.shl o m) fun a b _ => wres m (uop m a * 2 ^ (uop m b % Wb m.w)))

/-- `shr` (R91). -/
def execShr (o : Operands) (m : IntMod) (s : State) : Host.Outcome State Fault Refusal :=
  .next (s.mapLanes (.shr o m) fun a b _ => wres m (uop m a / 2 ^ (uop m b % Wb m.w)))

/-- `sra` (R91). -/
def execSra (o : Operands) (m : IntMod) (s : State) : Host.Outcome State Fault Refusal :=
  .next (s.mapLanes (.sra o m) fun a b _ => wres m (sraBits (Wb m.w) (uop m a) (uop m b % Wb m.w)))

/-- `rot` (R91). -/
def execRot (o : Operands) (m : IntMod) (s : State) : Host.Outcome State Fault Refusal :=
  .next (s.mapLanes (.rot o m) fun a b _ => wres m (rotBits (Wb m.w) (uop m a) (uop m b % Wb m.w)))

/-- `mul` (R91). -/
def execMul (o : Operands) (m : IntMod) (s : State) : Host.Outcome State Fault Refusal :=
  .next (s.mapLanes (.mul o m) fun a b _ => ires m (iop m a * iop m b))

/-- `mulh` (R91). -/
def execMulh (o : Operands) (m : IntMod) (s : State) : Host.Outcome State Fault Refusal :=
  .next (s.mapLanes (.mulh o m) fun a b _ => wres m ((iop m a * iop m b) / 2 ^ Wb m.w % 2 ^ Wb m.w).toNat)

/-- `mad` (R91). -/
def execMad (o : Operands) (m : IntMod) (s : State) : Host.Outcome State Fault Refusal :=
  .next (s.mapLanes (.mad o m) fun a b c => ires m (iop m a * iop m b + iop m c))

/-- `div` (R92). -/
def execDiv (o : Operands) (m : IntMod) (s : State) : Host.Outcome State Fault Refusal :=
  .next (s.mapLanes (.div o m) fun a b _ => ires m (idiv m (iop m a) (iop m b)))

/-- `rem` (R92). -/
def execRem (o : Operands) (m : IntMod) (s : State) : Host.Outcome State Fault Refusal :=
  .next (s.mapLanes (.rem o m) fun a b _ => ires m (irem (iop m a) (iop m b)))

/-- `clz` (R91). -/
def execClz (o : Operands) (m : IntMod) (s : State) : Host.Outcome State Fault Refusal :=
  .next (s.mapLanes (.clz o m) fun a _ _ => word (clzBits (Wb m.w) (uop m a)))

/-- `ctz` (R91). -/
def execCtz (o : Operands) (m : IntMod) (s : State) : Host.Outcome State Fault Refusal :=
  .next (s.mapLanes (.ctz o m) fun a _ _ => word (ctzBits (Wb m.w) (uop m a)))

/-- `popc` (R91). -/
def execPopc (o : Operands) (m : IntMod) (s : State) : Host.Outcome State Fault Refusal :=
  .next (s.mapLanes (.popc o m) fun a _ _ => word (popcBits (Wb m.w) (uop m a)))

/-- `brev` (R91). -/
def execBrev (o : Operands) (m : IntMod) (s : State) : Host.Outcome State Fault Refusal :=
  .next (s.mapLanes (.brev o m) fun a _ _ => wres m (brevBits (Wb m.w) (uop m a)))

/-- `bfx` (R93). -/
def execBfx (o : Operands) (m : IntMod) (s : State) : Host.Outcome State Fault Refusal :=
  .next (s.mapLanes (.bfx o m) fun a b _ => bfxBits m (uop m a) b)

/-- `bfi` (R93). -/
def execBfi (o : Operands) (m : IntMod) (s : State) : Host.Outcome State Fault Refusal :=
  .next (s.mapLanes (.bfi o m) fun a b c => bfiBits m (uop m a) (uop m b) c)

/-- `cmp` (R94). -/
def execCmp (o : Operands) (m : IntMod) (s : State) : Host.Outcome State Fault Refusal :=
  .next (s.mapLanes (.cmp o m) fun a b _ => word (icond m.cond (iop m a) (iop m b)).toNat)

/-- `sel` (R91). -/
def execSel (o : Operands) (m : IntMod) (s : State) : Host.Outcome State Fault Refusal :=
  .next (s.mapLanes (.sel o m) fun a b c => if c.getLsbD 0 then wres m (uop m a) else wres m (uop m b))

/-- `mov` (R91). -/
def execMov (o : Operands) (m : IntMod) (s : State) : Host.Outcome State Fault Refusal :=
  .next (s.mapLanes (.mov o m) fun a _ _ => wres m (uop m a))

/-- `ext` (R95). -/
def execExt (o : Operands) (m : IntMod) (s : State) : Host.Outcome State Fault Refusal :=
  .next (s.mapLanes (.ext o m) fun a b _ => extBits m.sgn a b)

/-- `lea` (R95). -/
def execLea (o : Operands) (m : IntMod) (s : State) : Host.Outcome State Fault Refusal :=
  .next (s.mapLanes (.lea o m) fun a b c => leaBits a b c)

end Sys2Proof.Machine
end

