-- ==== Sys2Proof/Machine/FpArith.lean ====
section
/-! DEFINITION. Scalar floating-point arithmetic, comparisons, estimates and conversions (R96-R104). -/

namespace Sys2Proof.Machine

/-- R96: the operand of type T in the low bits of a register, subnormals flushed under `.ftz` (R42). -/
def fop (t : FpT) (ftz : Bool) (a : Word) : Fp.Val := (Fp.fmtOf t).operand ftz (a.toNat % 2 ^ (Fp.fmtOf t).width)

/-- R96, R31: a result pattern with the upper bits zero. -/
def fres (r : Nat × Fp.Exc) : Word × Fp.Exc := (word r.1, r.2)

/-- The pattern of an operand. -/
def fpat (t : FpT) (a : Word) : Nat := a.toNat % 2 ^ (Fp.fmtOf t).width

/-- R104: the range of an integer conversion. -/
def cviRange (iw : Width) (sgn : Bool) : Int × Int :=
  if sgn then (-(2 ^ (Wb iw - 1)), 2 ^ (Wb iw - 1) - 1) else (0, 2 ^ Wb iw - 1)

/-- R104: float to integer, extended to 64 bits. -/
def cvtToInt (m : CviMod) (sgn : Bool) (f a : Word) : Word × Fp.Exc :=
  let (lo, hi) := cviRange m.iw sgn
  let (v, e) := Fp.toInt (rmOf m.rm f) lo hi (fop m.t m.ftz a)
  (ofInt v, e)

/-- R104: integer to float. -/
def cvtFromInt (m : CviMod) (sgn : Bool) (f a : Word) : Word × Fp.Exc :=
  let n := a.toNat % 2 ^ Wb m.iw
  let v : Int := if sgn then Fp.sintOf (Wb m.iw) n else (n : Int)
  fres ((Fp.fmtOf m.t).convert (rmOf m.rm f) false (Fp.ofInt v))

/-- `fadd` (R97). -/
def execFadd (o : Operands) (m : FpMod) (s : State) : Host.Outcome State Fault Refusal :=
  .next (s.mapArith (.fadd o m) fun f a b _ => fres ((Fp.fmtOf m.t).add (rmOf m.rm f) m.ftz (fop m.t m.ftz a) (fop m.t m.ftz b)))

/-- `fsub` (R97). -/
def execFsub (o : Operands) (m : FpMod) (s : State) : Host.Outcome State Fault Refusal :=
  .next (s.mapArith (.fsub o m) fun f a b _ => fres ((Fp.fmtOf m.t).sub (rmOf m.rm f) m.ftz (fop m.t m.ftz a) (fop m.t m.ftz b)))

/-- `fmul` (R97). -/
def execFmul (o : Operands) (m : FpMod) (s : State) : Host.Outcome State Fault Refusal :=
  .next (s.mapArith (.fmul o m) fun f a b _ => fres ((Fp.fmtOf m.t).mul (rmOf m.rm f) m.ftz (fop m.t m.ftz a) (fop m.t m.ftz b)))

/-- `fmin` (R98). -/
def execFmin (o : Operands) (m : FpMod) (s : State) : Host.Outcome State Fault Refusal :=
  .next (s.mapArith (.fmin o m) fun _ a b _ => fres ((Fp.fmtOf m.t).minmax false m.ftz (fop m.t m.ftz a) (fop m.t m.ftz b)))

/-- `fmax` (R98). -/
def execFmax (o : Operands) (m : FpMod) (s : State) : Host.Outcome State Fault Refusal :=
  .next (s.mapArith (.fmax o m) fun _ a b _ => fres ((Fp.fmtOf m.t).minmax true m.ftz (fop m.t m.ftz a) (fop m.t m.ftz b)))

/-- `ffma` (R97). -/
def execFfma (o : Operands) (m : FpMod) (s : State) : Host.Outcome State Fault Refusal :=
  .next (s.mapArith (.ffma o m) fun f a b c => fres ((Fp.fmtOf m.t).fma (rmOf m.rm f) m.ftz (fop m.t m.ftz a) (fop m.t m.ftz b) (fop m.t m.ftz c)))

/-- `fdiv` (R97). -/
def execFdiv (o : Operands) (m : FpMod) (s : State) : Host.Outcome State Fault Refusal :=
  .next (s.mapArith (.fdiv o m) fun f a b _ => fres ((Fp.fmtOf m.t).div (rmOf m.rm f) m.ftz (fop m.t m.ftz a) (fop m.t m.ftz b)))

/-- `fsqrt` (R97). -/
def execFsqrt (o : Operands) (m : FpMod) (s : State) : Host.Outcome State Fault Refusal :=
  .next (s.mapArith (.fsqrt o m) fun f a _ _ => fres ((Fp.fmtOf m.t).sqrt (rmOf m.rm f) m.ftz (fop m.t m.ftz a)))

/-- `fneg` (R99). -/
def execFneg (o : Operands) (m : FpMod) (s : State) : Host.Outcome State Fault Refusal :=
  .next (s.mapArith (.fneg o m) fun _ a _ _ => (word ((Fp.fmtOf m.t).negate m.ftz (fpat m.t a)), 0))

/-- `fclass` (R100). -/
def execFclass (o : Operands) (m : FpMod) (s : State) : Host.Outcome State Fault Refusal :=
  .next (s.mapArith (.fclass o m) fun _ a _ _ => (word ((Fp.fmtOf m.t).classMask m.ftz (fpat m.t a)), 0))

/-- `fcmp` (R101). -/
def execFcmp (o : Operands) (m : FpMod) (s : State) : Host.Outcome State Fault Refusal :=
  .next (s.mapArith (.fcmp o m) fun _ a b _ => ((if (Fp.compare m.rm.toNat m.sig (fop m.t m.ftz a) (fop m.t m.ftz b)).1 then 1 else 0), (Fp.compare m.rm.toNat m.sig (fop m.t m.ftz a) (fop m.t m.ftz b)).2))

/-- `frcp` (R103). -/
def execFrcp (o : Operands) (m : FpMod) (s : State) : Host.Outcome State Fault Refusal :=
  .next (s.mapArith (.frcp o m) fun _ a _ _ => fres ((Fp.fmtOf m.t).estimate .rcp m.ftz (fpat m.t a)))

/-- `frsq` (R103). -/
def execFrsq (o : Operands) (m : FpMod) (s : State) : Host.Outcome State Fault Refusal :=
  .next (s.mapArith (.frsq o m) fun _ a _ _ => fres ((Fp.fmtOf m.t).estimate .rsq m.ftz (fpat m.t a)))

/-- `fex2` (R103). -/
def execFex2 (o : Operands) (m : FpMod) (s : State) : Host.Outcome State Fault Refusal :=
  .next (s.mapArith (.fex2 o m) fun _ a _ _ => fres ((Fp.fmtOf m.t).estimate .ex2 m.ftz (fpat m.t a)))

/-- `flg2` (R103). -/
def execFlg2 (o : Operands) (m : FpMod) (s : State) : Host.Outcome State Fault Refusal :=
  .next (s.mapArith (.flg2 o m) fun _ a _ _ => fres ((Fp.fmtOf m.t).estimate .lg2 m.ftz (fpat m.t a)))

/-- `fround` (R102). -/
def execFround (o : Operands) (m : FpMod) (s : State) : Host.Outcome State Fault Refusal :=
  .next (s.mapArith (.fround o m) fun f a _ _ => fres ((Fp.fmtOf m.t).roundInt (rmOf m.rm f) m.ftz (fop m.t m.ftz a)))

/-- `fcvt` (R104). -/
def execFcvt (o : Operands) (m : CvtMod) (s : State) : Host.Outcome State Fault Refusal :=
  .next (s.mapArith (.fcvt o m) fun f a _ _ => fres ((Fp.fmtOf m.td).convert (rmOf m.rm f) m.ftz (fop m.ts m.ftz a)))

/-- `fcvti` (R104). -/
def execFcvti (o : Operands) (m : CviMod) (s : State) : Host.Outcome State Fault Refusal :=
  .next (s.mapArith (.fcvti o m) fun f a _ _ => cvtToInt m true f a)

/-- `fcvtiU` (R104). -/
def execFcvtiU (o : Operands) (m : CviMod) (s : State) : Host.Outcome State Fault Refusal :=
  .next (s.mapArith (.fcvtiU o m) fun f a _ _ => cvtToInt m false f a)

/-- `icvtf` (R104). -/
def execIcvtf (o : Operands) (m : CviMod) (s : State) : Host.Outcome State Fault Refusal :=
  .next (s.mapArith (.icvtf o m) fun f a _ _ => cvtFromInt m true f a)

/-- `icvtfU` (R104). -/
def execIcvtfU (o : Operands) (m : CviMod) (s : State) : Host.Outcome State Fault Refusal :=
  .next (s.mapArith (.icvtfU o m) fun f a _ _ => cvtFromInt m false f a)

end Sys2Proof.Machine
end

