-- ==== Sys2Proof/Machine/Narrow.lean ====
section
/-! DEFINITION. Packed, dot-product and block-scaled lane arithmetic (R105-R108). -/

namespace Sys2Proof.Machine

/-- T of a packed instruction (R105). -/
def PackMod_t (m : PackMod) : FpT := if m.bf then .bf16 else .f16

/-- Element i of width w of a register (R31). -/
def elemAt (w : Nat) (a : Word) (i : Nat) : Nat := a.toNat / 2 ^ (w * i) % 2 ^ w

/-- Packs elements of width w from the low end (R31). -/
def packElems (w : Nat) : List Nat → Nat
  | [] => 0
  | e :: es => e % 2 ^ w + 2 ^ w * packElems w es

/-- Element results with the union of their exceptions. -/
def packRes (w : Nat) (rs : List (Nat × Fp.Exc)) : Word × Fp.Exc :=
  (word (packElems w (rs.map (·.1))), rs.foldl (fun e r => e ||| r.2) 0)

/-- R105, R56: two elements, each computed on its own. -/
def packLanes (m : PackMod) (g : Fp.Fmt → Fp.Val → Fp.Val → Fp.Val → Nat × Fp.Exc) (a b c : Word) : Word × Fp.Exc :=
  let t := PackMod_t m
  packRes 16 ((List.range 2).map fun i =>
    let v (x : Word) : Fp.Val := fop t m.ftz (word (elemAt 16 x i))
    g (Fp.fmtOf t) (v a) (v b) (v c))

/-- `hadd2` (R105). -/
def execHadd2 (o : Operands) (m : PackMod) (s : State) : Host.Outcome State Fault Refusal :=
  .next (s.mapArith (.hadd2 o m) fun f a b _ => packLanes m (fun F x y _ => F.add (rmOf m.rm f) m.ftz x y) a b 0)

/-- `hmul2` (R105). -/
def execHmul2 (o : Operands) (m : PackMod) (s : State) : Host.Outcome State Fault Refusal :=
  .next (s.mapArith (.hmul2 o m) fun f a b _ => packLanes m (fun F x y _ => F.mul (rmOf m.rm f) m.ftz x y) a b 0)

/-- `hfma2` (R105). -/
def execHfma2 (o : Operands) (m : PackMod) (s : State) : Host.Outcome State Fault Refusal :=
  .next (s.mapArith (.hfma2 o m) fun f a b c => packLanes m (fun F x y z => F.fma (rmOf m.rm f) m.ftz x y z) a b c)

/-- The products of `dot2` (R106). -/
def dot2Products (m : NarrowMod) (a b : Word) : List (Fp.Val × Fp.Val) :=
  let t : FpT := if m.nf = 3 then .bf16 else .f16
  (List.range 2).map fun i => (fop t m.ftz (word (elemAt 16 a i)), fop t m.ftz (word (elemAt 16 b i)))

/-- `dot2` (R106). -/
def execDot2 (o : Operands) (m : NarrowMod) (s : State) : Host.Outcome State Fault Refusal :=
  .next (s.mapArith (.dot2 o m) fun f a b c =>
    fres (Fp.f32.dot (rmOf m.rm f) m.ftz (dot2Products m a b) (fop .f32 m.ftz c)))

/-- The products of a floating-point `dot4` (R106). -/
def dot4Products (m : NarrowMod) (a b : Word) : List (Fp.Val × Fp.Val) :=
  let t := Fp.Elem.ofCode m.nf.toNat
  (List.range 4).map fun i => (t.value (elemAt 8 a i), t.value (elemAt 8 b i))

/-- `dot4` of INT8 elements (R106). -/
def dot4Int (a b c : Word) : Word :=
  let t := (List.range 4).foldl (fun t i => t + Fp.sintOf 8 (elemAt 8 a i) * Fp.sintOf 8 (elemAt 8 b i)) (Fp.sintOf 32 c.toNat)
  sext 32 (t % 2 ^ 32).toNat

/-- `dot4` (R106). -/
def execDot4 (o : Operands) (m : NarrowMod) (s : State) : Host.Outcome State Fault Refusal :=
  .next (s.mapArith (.dot4 o m) fun f a b c =>
    if m.nf = 8 then (dot4Int a b c, 0)
    else fres (Fp.f32.dot (rmOf m.rm f) m.ftz (dot4Products m a b) (fop .f32 m.ftz c)))

/-- The x register that begins a register list. -/
def Src_reg : Src → Nat
  | .x n => n.toNat
  | _ => 0

/-- Wide element i of a register list in a lane (R107). -/
def Group.wide (g : Group) (l list : Nat) (bf : Bool) (i : Nat) : Nat :=
  let w := if bf then 16 else 32
  elemAt w (g.x l (list + i / (64 / w))) (i % (64 / w))

/-- The wide format (R107). -/
def wideT (bf : Bool) : FpT := if bf then .bf16 else .f32

/-- R108: eight wide elements of a lane quantised under a scale code. -/
def quantize8 (m : NarrowMod) (bf : Bool) (f b : Word) (wide : Nat → Nat) : Word × Fp.Exc :=
  let t := Fp.Elem.ofCode m.nf.toNat
  packRes t.bits ((List.range 8).map fun i =>
    Fp.quantize t (rmOf m.rm f) (fld b 0 8) (fop (wideT bf) m.ftz (word (wide i))))

/-- `qcvt` and `qcvt.bf16` (R108). -/
def State.quantizeLanes (s : State) (i : Instr) (m : NarrowMod) (bf : Bool) : State :=
  s.gate i fun ls s => s.withOperands i ls fun _ kb _ s =>
    let o := i.operands
    s.finishArith i ls fun l =>
      quantize8 m bf (s.cur.lane l).fcsr (s.src (.int .d) kb ls l o.b) (s.cur.wide l (Src_reg o.a) bf)

/-- `qcvt` (R108). -/
def execQcvt (o : Operands) (m : NarrowMod) (s : State) : Host.Outcome State Fault Refusal :=
  .next (s.quantizeLanes (.qcvt o m) m false)

/-- `qcvt.bf16` (R108). -/
def execQcvtBf16 (o : Operands) (m : NarrowMod) (s : State) : Host.Outcome State Fault Refusal :=
  .next (s.quantizeLanes (.qcvtBf16 o m) m true)

/-- R108: the eight wide elements of a lane and their exceptions. -/
def dequantize8 (m : NarrowMod) (bf : Bool) (f a b : Word) : List (Nat × Fp.Exc) :=
  let t := Fp.Elem.ofCode m.nf.toNat
  (List.range 8).map fun i =>
    Fp.dequantize t (Fp.fmtOf (wideT bf)) (rmOf m.rm f) m.ftz (fld b 0 8) (elemAt t.bits a i)

/-- The registers of a list that hold eight wide elements (R107). -/
def wideRegs (bf : Bool) (es : List Nat) : List Word :=
  if bf then [word (packElems 16 (es.take 4)), word (packElems 16 (es.drop 4))]
  else (List.range 4).map fun i => word (packElems 32 ((es.drop (2 * i)).take 2))

/-- Writes a list of registers of a lane. -/
def Group.setXs (g : Group) (l n : Nat) (ws : List Word) : Group :=
  ((List.range ws.length).zip ws).foldl (fun g (i, w) => g.setX l (n + i) w) g

/-- `dqcvt` and `dqcvt.bf16` (R108). -/
def State.dequantizeLanes (s : State) (i : Instr) (m : NarrowMod) (bf : Bool) : State :=
  s.gate i fun ls s => s.withOperands i ls fun ka kb _ s =>
    let ((ta, a), (tb, b), _) := i.sources
    let r (l : Nat) : List (Nat × Fp.Exc) :=
      dequantize8 m bf (s.cur.lane l).fcsr (s.src ta ka ls l a) (s.src tb kb ls l b)
    let e (l : Nat) : Fp.Exc := (r l).foldl (fun e x => e ||| x.2) 0
    let u := s.trappedUnion ls e
    if u ≠ 0 then s.takeTrap 0x06 (u.setWidth 64) (maskOf (s.trappedLanes ls e))
    else
      let d := match i.operands.d with | .x n => n.toNat | _ => 0
      let s' := (s.addFlags ls e).popSources ls i.operands
      (s'.modCur fun g => ls.foldl (fun g l => g.setXs l d (wideRegs bf ((r l).map (·.1)))) g).advance i.len

/-- `dqcvt` (R108). -/
def execDqcvt (o : Operands) (m : NarrowMod) (s : State) : Host.Outcome State Fault Refusal :=
  .next (s.dequantizeLanes (.dqcvt o m) m false)

/-- `dqcvt.bf16` (R108). -/
def execDqcvtBf16 (o : Operands) (m : NarrowMod) (s : State) : Host.Outcome State Fault Refusal :=
  .next (s.dequantizeLanes (.dqcvtBf16 o m) m true)

/-- `bscale` and `bscale.bf16` (R108). -/
def State.scaleLanes (s : State) (i : Instr) (m : NarrowMod) (bf : Bool) : State :=
  s.gate i fun ls s => s.withOperands i ls fun _ _ _ s =>
    s.finishArith i ls fun l =>
      fres (Fp.scaleOf (Fp.Elem.ofCode m.nf.toNat) ((List.range 32).map fun j =>
        fop (wideT bf) m.ftz (word (s.cur.wide l (Src_reg i.operands.a) bf j))))

/-- `bscale` (R108). -/
def execBscale (o : Operands) (m : NarrowMod) (s : State) : Host.Outcome State Fault Refusal :=
  .next (s.scaleLanes (.bscale o m) m false)

/-- `bscale.bf16` (R108). -/
def execBscaleBf16 (o : Operands) (m : NarrowMod) (s : State) : Host.Outcome State Fault Refusal :=
  .next (s.scaleLanes (.bscaleBf16 o m) m true)

end Sys2Proof.Machine
end

