-- ==== Sys2Proof/Machine/CrossLane.lean ====
section
/-! DEFINITION. Predicate logic, votes, join masks and cross-lane operations (R109-R114). -/

namespace Sys2Proof.Machine

/-- `plog` (R109). -/
def execPlog (o : Operands) (lut : BitVec 8) (s : State) : Host.Outcome State Fault Refusal :=
  .next (s.mapLanes (.plog o lut) fun a b c =>
    if lut.getLsbD (4 * (a.getLsbD 0).toNat + 2 * (b.getLsbD 0).toNat + (c.getLsbD 0).toNat) then 1 else 0)

/-- An instruction that combines operand a over the acting lanes: `f` receives the acting lanes and the operand of each, and
gives the result of each. -/
def State.combine (s : State) (i : Instr) (f : List Nat → (Nat → Word) → (Nat → Word) → Nat → Word) : State :=
  s.gate i fun ls s => s.withOperands i ls fun ka kb _ s =>
    let ((ta, a), (tb, b), _) := i.sources
    s.finish i ls (f ls (fun l => s.src ta ka ls l a) (fun l => s.src tb kb ls l b))

/-- `vote.any` (R110). -/
def execVoteAny (o : Operands) (s : State) : Host.Outcome State Fault Refusal :=
  .next (s.combine (.voteAny o) fun ls a _ _ => if ls.any fun l => (a l).getLsbD 0 then 1 else 0)

/-- `vote.all` (R110). -/
def execVoteAll (o : Operands) (s : State) : Host.Outcome State Fault Refusal :=
  .next (s.combine (.voteAll o) fun ls a _ _ => if ls.all fun l => (a l).getLsbD 0 then 1 else 0)

/-- `vote.uni` (R110). -/
def execVoteUni (o : Operands) (s : State) : Host.Outcome State Fault Refusal :=
  .next (s.combine (.voteUni o) fun ls a _ _ => if ls.all fun l => a l == a (ls.headD 0) then 1 else 0)

/-- `vote.ballot` (R110). -/
def execVoteBallot (o : Operands) (s : State) : Host.Outcome State Fault Refusal :=
  .next (s.combine (.voteBallot o) fun ls a _ _ => ofMask (maskOf (ls.filter fun l => (a l).getLsbD 0)))

/-- The join mask that a `jmask` sets. -/
def jmaskDst : Dst → Nat
  | .j n => n.toNat
  | _ => 0

/-- The join-mask instructions (R111): `f` of the old mask and of the operand of the lowest acting lane. -/
def State.jmaskOp (s : State) (i : Instr) (f : Mask → Mask → Mask) : State :=
  s.gate i fun ls s => s.withOperands i ls fun ka _ _ s =>
    let ((ta, a), _, _) := i.sources
    let m := low32 (s.src ta ka ls (ls.headD 0) a)
    let s' := s.popSources ls i.operands
    (s'.modCur fun g => g.setJ (jmaskDst i.operands.d) (f (g.j (jmaskDst i.operands.d)) m)).advance i.len

/-- `jmask.mov` (R111). -/
def execJmaskMov (o : Operands) (s : State) : Host.Outcome State Fault Refusal := .next (s.jmaskOp (.jmaskMov o) fun _ m => m)

/-- `jmask.and` (R111). -/
def execJmaskAnd (o : Operands) (s : State) : Host.Outcome State Fault Refusal := .next (s.jmaskOp (.jmaskAnd o) fun j m => j &&& m)

/-- `jmask.or` (R111). -/
def execJmaskOr (o : Operands) (s : State) : Host.Outcome State Fault Refusal := .next (s.jmaskOp (.jmaskOr o) fun j m => j ||| m)

/-- `jmask.andn` (R111). -/
def execJmaskAndn (o : Operands) (s : State) : Host.Outcome State Fault Refusal :=
  .next (s.jmaskOp (.jmaskAndn o) fun j m => j &&& ~~~m)

/-- A shuffle (R112): `src` of the segment size, the lane and k. -/
def shuffle (seg : BitVec 3) (src : Nat → Nat → Nat → Nat) (ls : List Nat) (a b : Nat → Word) (l : Nat) : Word :=
  let n := 2 ^ seg.toNat
  let t := src n l ((b l).toNat % n)
  if ls.contains t then a t else a l

/-- `shfl.idx` (R112). -/
def execShflIdx (o : Operands) (seg : BitVec 3) (s : State) : Host.Outcome State Fault Refusal :=
  .next (s.combine (.shflIdx o seg) (shuffle seg fun n l k => l - l % n + k))

/-- `shfl.up` (R112). -/
def execShflUp (o : Operands) (seg : BitVec 3) (s : State) : Host.Outcome State Fault Refusal :=
  .next (s.combine (.shflUp o seg) (shuffle seg fun n l k => if k ≤ l % n then l - k else l))

/-- `shfl.down` (R112). -/
def execShflDown (o : Operands) (seg : BitVec 3) (s : State) : Host.Outcome State Fault Refusal :=
  .next (s.combine (.shflDown o seg) (shuffle seg fun n l k => if l % n + k < n then l + k else l))

/-- `shfl.xor` (R112). -/
def execShflXor (o : Operands) (seg : BitVec 3) (s : State) : Host.Outcome State Fault Refusal :=
  .next (s.combine (.shflXor o seg) (shuffle seg fun n l k => l - l % n + Nat.xor (l % n) k))

/-- `bcast` (R113). -/
def execBcast (o : Operands) (s : State) : Host.Outcome State Fault Refusal :=
  .next (s.combine (.bcast o) fun ls a _ _ => a (ls.headD 0))

/-- R114: an integer reduction over the acting lanes, ascending. -/
def reduceInt (m : IntMod) (f : Int → Int → Int) (ls : List Nat) (a : Nat → Word) : Word :=
  match ls with
  | [] => 0
  | l :: r => ires m (r.foldl (fun t j => f t (iop m (a j))) (iop m (a l)))

/-- An integer combination of unsigned readings. -/
def onNat (m : IntMod) (f : Nat → Nat → Nat) (a b : Int) : Int :=
  (f (a % 2 ^ Wb m.w).toNat (b % 2 ^ Wb m.w).toNat : Nat)

/-- `redux.add` (R114). -/
def execReduxAdd (o : Operands) (m : IntMod) (s : State) : Host.Outcome State Fault Refusal :=
  .next (s.combine (.reduxAdd o m) fun ls a _ _ => reduceInt m (fun a b => a + b) ls a)

/-- `redux.min` (R114). -/
def execReduxMin (o : Operands) (m : IntMod) (s : State) : Host.Outcome State Fault Refusal :=
  .next (s.combine (.reduxMin o m) fun ls a _ _ => reduceInt m (min) ls a)

/-- `redux.max` (R114). -/
def execReduxMax (o : Operands) (m : IntMod) (s : State) : Host.Outcome State Fault Refusal :=
  .next (s.combine (.reduxMax o m) fun ls a _ _ => reduceInt m (max) ls a)

/-- `redux.and` (R114). -/
def execReduxAnd (o : Operands) (m : IntMod) (s : State) : Host.Outcome State Fault Refusal :=
  .next (s.combine (.reduxAnd o m) fun ls a _ _ => reduceInt m (onNat m Nat.land) ls a)

/-- `redux.or` (R114). -/
def execReduxOr (o : Operands) (m : IntMod) (s : State) : Host.Outcome State Fault Refusal :=
  .next (s.combine (.reduxOr o m) fun ls a _ _ => reduceInt m (onNat m Nat.lor) ls a)

/-- `redux.xor` (R114). -/
def execReduxXor (o : Operands) (m : IntMod) (s : State) : Host.Outcome State Fault Refusal :=
  .next (s.combine (.reduxXor o m) fun ls a _ _ => reduceInt m (onNat m Nat.xor) ls a)

/-- Operand_T of R114: a value read as an operand of type T. -/
def operandT (m : FpMod) (a : Word) : Nat × Fp.Exc :=
  match fop m.t m.ftz a with
  | .nan sg => ((Fp.fmtOf m.t).canon, Fp.excIf sg Fp.nv)
  | v => (Fp.fmtOf m.t).round 0 false v

/-- R114: a floating-point reduction in ascending lane order, with the union of the exceptions. -/
def reduceFp (m : FpMod) (f : Fp.Val → Fp.Val → Nat × Fp.Exc) (ls : List Nat) (a : Nat → Word) : Nat × Fp.Exc :=
  match ls with
  | [] => (0, 0)
  | l :: r => r.foldl (fun t j =>
      let x := f ((Fp.fmtOf m.t).operand m.ftz t.1) (fop m.t m.ftz (a j))
      (x.1, t.2 ||| x.2)) (operandT m (a l))

/-- R114: the reductions that signal exceptions, counted in every acting lane. `f` receives the rounding mode of the lowest
acting lane. -/
def State.reduxFp (s : State) (i : Instr) (m : FpMod) (f : Nat → Fp.Val → Fp.Val → Nat × Fp.Exc) : State :=
  s.gate i fun ls s => s.withOperands i ls fun ka _ _ s =>
    let ((ta, a), _, _) := i.sources
    let r := reduceFp m (f (rmOf m.rm (s.cur.lane (ls.headD 0)).fcsr)) ls fun l => s.src ta ka ls l a
    s.finishArith i ls fun _ => fres r

/-- `redux.fadd` (R114). -/
def execReduxFadd (o : Operands) (m : FpMod) (s : State) : Host.Outcome State Fault Refusal :=
  .next (s.reduxFp (.reduxFadd o m) m fun rm x y => (Fp.fmtOf m.t).add rm m.ftz x y)

/-- `redux.fmin` (R114). -/
def execReduxFmin (o : Operands) (m : FpMod) (s : State) : Host.Outcome State Fault Refusal :=
  .next (s.reduxFp (.reduxFmin o m) m fun _ x y => (Fp.fmtOf m.t).minmax false m.ftz x y)

/-- `redux.fmax` (R114). -/
def execReduxFmax (o : Operands) (m : FpMod) (s : State) : Host.Outcome State Fault Refusal :=
  .next (s.reduxFp (.reduxFmax o m) m fun _ x y => (Fp.fmtOf m.t).minmax true m.ftz x y)

end Sys2Proof.Machine
end

