-- ==== Sys2Proof/Machine/Packer.lean ====
section
/-! DEFINITION. The packer of a compute die (R22, R157, R394-R397), recalls (R28, R427), requests of pre-emption (R375) and the
rings that make room (R354, R393). -/

namespace Sys2Proof.Machine

/-- Rotation to the left. -/
def rotl64 (w : Word) (n : Nat) : Word := w.rotateLeft (n % 64)

/-- The digest D of R394. -/
def packDigest (m : Sparse Word) : Word := (List.range 32).foldl (fun d n => d ^^^ rotl64 (get 0 m n) (2 * n + 1)) 0

/-- The group that a window seals (R22, R155, R157, R396): every segment has LIMIT 0. -/
def Win.seal (w : Win) (clk : Nat) : Group :=
  let m := maskOf (List.range w.strands.length)
  { Group.empty with
    occ := true, sregs := w.sregs, jmask := set 0 [] 0 m, asid := w.asid, regs := 64, live := m, paths := [Path.start w.pc m],
    lastIssue := clk
    lanes := ((List.range w.strands.length).zip w.strands).foldl (fun ls (l, z) => set Lane.zero ls l z.lane) [] }

/-- The idx-th window of die d closes (R396): LOC 1 in every strand's save area, and the group joins the tail of its process's level
PMAX. A window that every strand has left forms no group. -/
def State.closeWin (s : State) (d idx : Nat) : State :=
  match at? (s.die d).wins idx with
  | none => s
  | some w =>
    let s := s.modDie d fun x => { x with wins := x.wins.eraseIdx idx }
    if w.strands.isEmpty then s
    else
      let s := w.strands.foldl (fun s z => s.putLoc d z.asid z.ssa 1) s
      let g := w.seal s.clk
      let lvl := s.pmax d (asidOf w.asid)
      s.modDie d fun x => { x with lvl := set [] x.lvl lvl (get [] x.lvl lvl ++ [⟨.packed g, s.clk, s.clk⟩]) }

/-- FCLASS of a save area that the packer reads (R18); its page is that of the area. -/
def State.fclass (s : State) (d : Nat) (asid ssa : Word) : Nat :=
  let (k, v, _) := s.agentLoad d asid (ssa + 0x340) 8
  if k = 0 then fld (word v) 40 8 else 0

/-- Whether a strand joins a window: equal keys and equal s registers (R394). -/
def Win.takes (w : Win) (z : Restored) (fclass : Nat) : Bool :=
  w.asid == z.asid && w.pc == z.pc && w.meet == z.lane.meet && w.digest == packDigest z.sregs && w.fclass == fclass &&
  w.sregs == z.sregs

/-- A strand that the packer has read joins a window of die d or opens one (R395); the 32nd closes its window, and a 65th window
closes the oldest. -/
def State.packStrand (s : State) (d : Nat) (p : Packee) (z : Restored) (fclass : Nat) : State :=
  let p := { p with lane := { z.lane with sid := p.sid } }
  match (List.range (s.die d).wins.length).find? fun i => (at? (s.die d).wins i).any fun w => w.takes z fclass with
  | some i =>
    let s := s.modDie d fun x => { x with wins := match at? x.wins i with
      | some w => setAt x.wins i { w with strands := w.strands ++ [p] }
      | none => x.wins }
    if ((at? (s.die d).wins i).map fun w => w.strands.length) = some 32 then s.closeWin d i else s
  | none =>
    let s := if 64 ≤ (s.die d).wins.length then s.closeWin d 0 else s
    s.modDie d fun x => { x with
      wins := x.wins ++ [⟨z.asid, z.pc, z.lane.meet, packDigest z.sregs, fclass, z.sregs, [p], s.clk⟩] }

/-- Whether the WINDOW clk of a window are over (R395). -/
def State.windowDue (s : State) (d idx : Nat) : Bool :=
  (at? (s.die d).wins idx).any fun w => decide (w.opened + (s.die d).migWindow ≤ s.clk)

/-- R395: the windows whose time is over close, the oldest first, before an arrival is taken. -/
def State.closeDue (s : State) (d : Nat) : Nat → State
  | 0 => s
  | n + 1 => if s.windowDue d 0 then (s.closeWin d 0).closeDue d n else s

/-- PACKER_ARRIVAL (R395): the next strand in the packer's hands. One whose save area cannot be read is handed back. -/
def execPackerArrival (die : Nat) (s : State) : Host.Outcome State Fault Refusal :=
  .next (match (s.die die).packq with
  | [] => s
  | p :: r =>
    let s := (s.closeDue die (s.die die).wins.length).modDie die fun x => { x with packq := r }
    let (z, s) := s.readSave die 64 p.asid p.ssa
    match z with
    | none => s.arrive (s.hostFor none) p.ssa p.sid
    | some z => s.packStrand die p z (s.fclass die p.asid p.ssa))

/-- PACKING_WINDOW_CLOSE (R395, R396). -/
def execPackingWindowClose (die win : Nat) (s : State) : Host.Outcome State Fault Refusal :=
  .next (if s.windowDue die win then s.closeWin die win else s)

/-- R397: the windows of an ASID that is being retired close at once and are sealed under its new incarnation; LOC is written under the
old one. -/
def State.retireWindows (s : State) (asid : Nat) (new : Word) : State :=
  [0, 1, 2, 3].foldl (fun s d =>
    let mine (w : Win) : Bool := asidOf w.asid == asid
    let s := s.modDie d fun x => { x with wins := x.wins.map fun w => if mine w then { w with asid := new } else w }
    (s.die d).wins.foldl (fun s w =>
      if mine w then
        match (List.range (s.die d).wins.length).find? fun i => at? (s.die d).wins i == some w with
        | some i => s.closeWin d i
        | none => s
      else s) s) s

/-! Recall (R427) -/

/-- Whether a strand is in a SIMT lane, resident or held. -/
def State.strandResident (s : State) (sid : Word) : Bool :=
  s.cores.any fun (c, k) => !isLatency c && k.slots.any fun (_, g) => g.occ && (lanesOf g.live).any fun l => (g.lane l).sid == sid

/-- Takes a strand out of the packer, if it is there (R397); a window that it leaves empty stays open (R395). -/
def State.unpack (s : State) (sid : Word) : Option Packee × State :=
  let found := s.dies.findSome? fun (_, x) => (x.packq ++ x.wins.flatMap (·.strands)).find? fun p => p.sid == sid
  let keep (p : Packee) : Bool := p.sid != sid
  (found, { s with dies := s.dies.map fun (d, x) => (d, { x with
    packq := x.packq.filter keep
    wins := x.wins.map fun w => { w with strands := w.strands.filter keep } }) })

/-- The held groups of a process in a saved team. -/
def SavedTeam.heldOf (z : SavedTeam) (asid : Word) : List Group :=
  (z.groups.map (·.2)).filter fun g => g.held.isSome && g.asid == asid

/-- A saved team without the held groups of a process (R25): their lanes are gone from their original groups too, and an original
group that keeps no lane ends, with its draft. -/
def SavedTeam.killHeld (z : SavedTeam) (asid : Word) : SavedTeam :=
  let held := z.heldOf asid
  let gone (i : Nat) : Mask := held.foldl (fun m g => if (g.held.map (·.orig)) = some i then m ||| g.live else m) 0
  let rest := (z.groups.filter fun (_, g) => !(g.held.isSome && g.asid == asid)).map fun (i, g) =>
    (i, if g.held.isSome || g.isDraft then g else { g with live := g.live &&& ~~~gone i })
  let ended := rest.filter fun (_, g) => g.held.isNone && !g.isDraft && g.live == 0
  let drafts := ended.filterMap fun (_, g) => g.draft
  { z with
    groups := rest.filter fun (i, g) => !(ended.any fun e => e.1 == i) && !(g.isDraft && drafts.contains i)
    team := { z.team with groups := z.team.groups - ended.length } }

/-- R25 for the strands that are held in the saved teams of a process: LIVE is cleared, and their fault records are discarded. -/
def State.killSaved (s : State) (asid : Word) : State :=
  let teams := s.dies.flatMap fun (d, x) => x.lvl.flatMap fun (_, rs) => rs.flatMap fun r => match r.work with
    | .resume zs => zs.map fun z => (d, z)
    | _ => []
  let s : State := { s with dies := s.dies.map fun (d, x) => (d, { x with lvl := x.lvl.map fun (l, rs) => (l, rs.map fun r =>
    match r.work with
    | .resume zs => { r with work := .resume (zs.map fun z => z.killHeld asid) }
    | _ => r) }) }
  teams.foldl (fun (s : State) (d, z) => (z.heldOf asid).foldl (fun (s : State) g =>
    let s := (lanesOf g.live).foldl (fun s l => s.clearLive d g.asid (g.lane l).ssa) s
    match g.held with
    | none => s
    | some h => (h.tag :: h.stags.map fun x => some x.2).foldl State.withdraw s) s) s

/-- R25, R397: system software kills a process: its strands that are held for a fault end without running again, and so do those in the
packer's hands. -/
def State.killProcess (s : State) (asid : Word) : State :=
  let s := s.killSaved asid
  let held := s.cores.flatMap fun (c, k) => (k.slots.filter fun (_, g) => g.occ && g.held.isSome && g.asid == asid).map fun (i, _) => (c, i)
  let s := held.foldl (fun (s : State) (x : Nat × Nat) => s.endLanes x.1 x.2 (s.grp x.1 x.2).live) s
  let mine (p : Packee) : Bool := p.asid == asid
  let gone := s.dies.flatMap fun (d, x) => ((x.packq ++ x.wins.flatMap (·.strands)).filter mine).map fun p => (d, p)
  let s : State := { s with dies := s.dies.map fun (d, x) => (d, { x with
    packq := x.packq.filter fun p => !mine p
    wins := x.wins.map fun w => { w with strands := w.strands.filter fun p => !mine p } }) }
  gone.foldl (fun (s : State) (x : Nat × Packee) => s.clearLive x.1 x.2.asid x.2.ssa) s

/-- R427: a write of a strand id to RECALL. A strand of a sealed group that waits for its placement stays recalled until the group runs
(log entry 140). -/
def State.recall (s : State) (sid : Word) : State :=
  if s.strandResident sid || s.strandSaved sid || s.dies.any fun (_, x) => x.lvl.any fun (_, rs) => rs.any fun r => match r.work with
      | .packed g => (lanesOf g.live).any fun l => (g.lane l).sid == sid
      | _ => false
  then { s with recalls := if s.recalls.contains sid then s.recalls else s.recalls ++ [sid] }
  else match s.unpack sid with
  | (some p, s) => s.arrive (s.hostFor none) p.ssa p.sid
  | (none, _) => s

/-- RECALL (R28, R427). -/
def execRecall (sid : Word) (s : State) : Host.Outcome State Fault Refusal := .next (s.recall sid)

/-- R375: system software asks for the pre-emption of a team of a die, with its whole cluster (R252). -/
def State.askPreempt (s : State) (d : Nat) (team : Word) : State :=
  match (s.cores.filter fun (c, _) => !isLatency c && dieOfCore c == d).findSome? fun (c, k) =>
      (k.teams.find? fun (_, t) => t.occ && t.id == team).map fun (i, _) => (c, i) with
  | none => s
  | some (c, i) =>
    let u := s.unitOf c i
    (s.modTeam c i fun t => { t with asked := true }).beginPreempt u

/-- PREEMPT (R375, R390). -/
def execPreempt (die : Nat) (team : Word) (s : State) : Host.Outcome State Fault Refusal := .next (s.askPreempt die team)

/-! Rings that make room -/

/-- ARRIVAL_RING_ROOM (R393): the kernel instance of a host die writes RIDX, and arrivals that waited enter the ring. -/
def execArrivalRingRoom (die : Nat) (ridx : Word) (s : State) : Host.Outcome State Fault Refusal :=
  let s := s.poke (ringBase (s.die die).aring + 8) 8 ridx.toNat none
  .next (s.drainArrivals die (s.die die).arrWait.length)

/-- FAULT_BUFFER_DRAIN (R354): records that wait in the die buffer enter the fault ring. -/
def execFaultBufferDrain (die : Nat) (s : State) : Host.Outcome State Fault Refusal :=
  .next (s.drainFaults die (s.die die).fbuf.length)

end Sys2Proof.Machine
end

