-- ==== Sys2Proof/Machine/Submit.lean ====
section
/-! DEFINITION. The submission pages (R399-R401), the message pages (R398) and the writes of the configuration blocks (R307, R338,
R349, R390, R407, R416). -/

namespace Sys2Proof.Machine

/-! Submission -/

/-- The physical address of the submission page of an ASID (R388). -/
def submitPage (asid : Nat) : Nat := 0xFC0000000000 + 2 ^ 15 * asid

/-- n bytes read by a unit of die d, line by line: the fault kind and the value. -/
def State.agentSpan (s : State) (d : Nat) (asid va : Word) (n : Nat) : Nat → Nat × Nat × State
  | 0 => (0, 0, s)
  | fuel + 1 =>
    let m := min n (128 - va.toNat % 128)
    match s.agentLoad d asid va m with
    | (0, lo, s) =>
      if n ≤ m then (0, lo, s)
      else match s.agentSpan d asid (va + word m) (n - m) fuel with
      | (0, hi, s) => (0, lo + hi * 2 ^ (8 * m), s)
      | r => r
    | r => r

/-- The record of a submission that is discarded (R399). -/
def State.submitFault (s : State) (h kind : Nat) (addr : Word) (asid : Word) : State :=
  (s.faultRecord h { FRec.blank with src := 8, kind := kind, addr := addr, ctx := spaceWord asid 0 }).2

/-- Whether a compute die takes a submission of an ASID (R399). -/
def State.takesSubmission (s : State) (asid d : Nat) : Bool :=
  s.plb d asid != 0 && !(s.die d).lost && (s.freeStoreSlot d asid).isSome && decide ((s.die d).subq.length < 64)

/-- The compute die of a hint (R399, R363); none where no die takes the record. -/
def State.submitDie (s : State) (asid hint : Nat) : Option Nat :=
  if hint < 4 then (if s.takesSubmission asid hint then some hint else none)
  else leastBy (fun d => (s.die d).waiting) ([0, 1, 2, 3].filter (s.takesSubmission asid))

/-- R399: a store of 128 bytes to the submission page of an ASID at offset `off`, received by host die h. `owner` is the ASID and
incarnation under which the page's process runs, or none where the storing process is another. The answer is the status:
accept or retry. -/
def State.submit (s : State) (h asid off : Nat) (owner : Option Word) (bytes : BitVec 1024) : Bool × State :=
  let f := off / 128
  let hint := f % 8
  let hdr := bytes.setWidth 512
  let page := word (submitPage asid)
  let w := owner.getD (word asid)
  if f / 16 ≠ 0 ∨ (4 ≤ hint ∧ hint ≤ 6) ∨ owner = none ∨ recMalformed hdr then (true, s.submitFault h 5 page w)
  else
    let (k, u, s) := if recUnif hdr = 0 then (0, 0, s) else s.agentSpan h w (recUnif hdr) 256 4
    if k ≠ 0 then (true, s.submitFault h k (recUnif hdr) w)
    else match s.submitDie asid hint with
    | none => (false, s)
    | some d =>
      let note := if f.testBit 3 then some (word (bytes.toNat / 2 ^ (8 * 0x78) % 2 ^ 64)) else none
      match s.pushRecord ⟨0, d, bytes, BitVec.ofNat 2048 u⟩ ⟨w, min (recPrio hdr) (s.pmax d asid), 0, false, note⟩ with
      | (none, s) => (false, s)
      | (some p, s) => (true, (s.modDie d fun x => { x with subq := x.subq ++ [p] }).logEvent h 6 0 page (word off))

/-- SUBMISSION (R399): a Deferrable Memory Write of 128 bytes from the external host of a die to the page of an ASID. Its completion is
Successful Completion or Request Retry. One at an offset that is no multiple of 128 is discarded and counted. The submission waits while its
address space is being flushed (R338) and while a record that it needs finds no room (R354). -/
def execSubmission (die asid off : Nat) (bytes : BitVec 1024) (s : State) : Host.Outcome State Fault Refusal :=
  let inc := fld (s.rd64 (s.astAddr die asid)) 32 16
  let w := word (asid + inc * 2 ^ 16)
  .next (if off % 128 ≠ 0 then s.modDie die fun x => { x with subDropped := x.subDropped + 1 }
  else if s.flushing w then s
  else
    let (ok, t) := s.submit die asid (off % 2 ^ 15) (some w) bytes
    if s.withinRoom && !t.withinRoom then s else t.modDie die fun x => { x with subAns := some ok })

/-- The submitted records of die d reach its scheduler (R399, R367), but those of an address space that is being flushed (R338). -/
def State.drainSubmissions (s : State) (d : Nat) : State :=
  let waits (p : PendRec) : Bool := s.flushing p.asid
  let q := (s.die d).subq
  if q.isEmpty then s
  else (q.filter fun p => !waits p).foldl (fun s p => s.arriveRecord p) (s.modDie d fun x => { x with subq := q.filter waits })

/-! Messages -/

/-- The eight-byte words of 128 bytes. -/
def lineWords (b : BitVec 1024) : List Word := (List.range 16).map fun i => word (b.toNat / 2 ^ (64 * i) % 2 ^ 64)

/-- R398: a message of a die to the instance of another: whether its ring took it. `src` is 7 for the hardware itself. -/
def State.message (s : State) (src dst : Nat) (bytes : BitVec 1024) : Bool × State :=
  if bytes.toNat % 8 ≠ src ∨ !s.ringRoom (s.die dst).mring then (false, s)
  else (true, (s.ringPut (s.die dst).mring 128 (lineWords bytes)).signal dst 3)

/-- MESSAGE_SEND (R398). -/
def execMessageSend (src dst : Nat) (bytes : BitVec 1024) (s : State) : Host.Outcome State Fault Refusal :=
  .next (s.message src dst bytes).2

/-! Translation control (R338, R349) -/

/-- Every translation-cache and walk-cache entry of a die goes, or those of one ASID. -/
def State.flushDie (s : State) (d : Nat) (asid : Option Nat) : State :=
  let keep (t : TlbEntry) : Bool := match asid with | none => false | some a => t.asid != a
  let s := s.modDie d fun x => { x with
    rtlb := x.rtlb.map fun (r, ts) => (r, ts.filter keep)
    dcache := x.dcache.map fun (r, ts) => (r, ts.filter fun (e : CachedDesc) => match asid with | none => false | some b => e.asid != b)
    acache := x.acache.map fun (r, ts) => (r, ts.filter fun (e : CachedAst) => match asid with | none => false | some b => e.asid != b) }
  { s with cores := s.cores.map fun (c, k) => if dieOfCore c = d then (c, { k with tlb := k.tlb.filter keep }) else (c, k) }

/-- R338: a write of ASIDRET. At the wrap BUSY stands until every die has acknowledged its flush. -/
def State.retireAsid (s : State) (d asid : Nat) : State :=
  if (s.die d).trBusy then s.modDie d fun x => { x with trErr := true }
  else
    let a := s.astAddr d asid
    let inc := (fld (s.rd64 a) 32 16 + 1) % 2 ^ 16
    let s := (s.retireWindows asid (word (asid + inc * 2 ^ 16))).poke (a + 4) 2 inc none
    if inc ≠ 0 then s
    else
      let s := s.modDie d fun x => { x with trBusy := true, flushPend := some asid }
      [0, 1, 2, 3, 4, 5].foldl (fun s e => s.flushDie e (some asid)) s

/-- ASIDRET (R338). -/
def execAsidret (die : Nat) (asid : BitVec 16) (s : State) : Host.Outcome State Fault Refusal := .next (s.retireAsid die asid.toNat)

/-- ASID_FLUSH_DONE (R338): every die has acknowledged, and BUSY clears. -/
def execAsidFlushDone (die : Nat) (s : State) : Host.Outcome State Fault Refusal :=
  .next (s.modDie die fun x => { x with trBusy := false, flushPend := none })

/-- R349: a write of MODE. -/
def State.setMode (s : State) (d : Nat) (mode : Bool) : State :=
  (s.flushDie d none).modDie d fun x => { x with trMode := mode }

/-- TRCTL_MODE_WRITE (R349). -/
def execTrctlModeWrite (die : Nat) (mode : Bool) (s : State) : Host.Outcome State Fault Refusal := .next (s.setMode die mode)

/-! Chip scratchpad (R307) -/

/-- Whether a group or held group of a die holds a `.chip` segment. -/
def State.chipHeld (s : State) (d : Nat) : Bool :=
  s.cores.any fun (c, k) => dieOfCore c == d && k.slots.any fun (_, g) => g.occ && (g.seg 3).limit != 0

/-- R307: a write of CFG. Bits 3:0 are CSPAD. -/
def State.setCspad (s : State) (d : Nat) (v : Word) : State :=
  let n := fld v 0 4
  if !isCompute d then s
  else if 8 < n ∨ s.chipHeld d then s.modDie d fun x => { x with cfgErr := true }
  else
    let mine (a : Nat) : Bool := decide (chipAddr d 0 ≤ a) && decide (a < chipAddr d (2 ^ 25))
    let s := s.modDie d fun x => { x with cspad := n, cfgErr := false }
    { s with
      mem := s.mem.filter fun (a, _) => !mine a
      poison := s.poison.filter fun l => !mine (128 * l)
      cores := s.cores.map fun (c, k) => (c, { k with l1 := k.l1.filter fun (l, _) => !mine (128 * l) }) }

/-- CFG_CSPAD_WRITE (R307). -/
def execCfgCspadWrite (die : Nat) (v : Word) (s : State) : Host.Outcome State Fault Refusal := .next (s.setCspad die v)

/-! The other words -/

/-- R416: a write of PKGID. -/
def State.setPkgid (s : State) (d : Nat) (v : Word) : State :=
  if isCompute d ∨ (s.die d).pkgSet ∨ 786432 ≤ fld v 0 20 then s
  else s.modDie d fun x => { x with pkgSet := true, pkgId := fld v 0 20 }

/-- PKGID_WRITE (R416). -/
def execPkgidWrite (die : Nat) (v : Word) (s : State) : Host.Outcome State Fault Refusal := .next (s.setPkgid die v)

/-- Bits hi - 1 .. lo of a written word; the others are reserved. -/
def kept (v : Word) (lo n : Nat) : Word := word (fld v lo n * 2 ^ lo)

/-- A ring word (R390): bits 47:12 and 4:0. -/
def ringWord (v : Word) : Word := word (fld v 12 36 * 2 ^ 12 + fld v 0 5)

/-- R407: a write of RECCTL. -/
def recctlWrite (old v : Word) : Word :=
  let m := if 10 ≤ fld v 3 5 ∧ fld v 3 5 ≤ 24 then fld v 3 5 else fld old 3 5
  let mode := if fld v 0 2 = 3 then fld old 0 2 else fld v 0 2
  word (fld v 12 52 * 2 ^ 12 + m * 2 ^ 3 + bit (old.getLsbD 2 && !v.getLsbD 2) 2 + mode)

/-- R390: one deadline of SCRUB; values outside 1-168 are ignored. -/
def scrubWrite (m : Sparse Nat) (k v : Nat) : Sparse Nat := if 1 ≤ v ∧ v ≤ 168 then set 0 m k v else m

/-- R422: a write of PORTERR clears a field by a 1 in any of its bits. -/
def Port.clear (p : Port) (v : Word) : Port :=
  { p with rplay := if fld v 32 32 = 0 then p.rplay else 0, fail := if fld v 0 32 = 0 then p.fail else 0 }

/-- R390, R416: a privileged write of eight bytes at an offset of a configuration block. Words that a die does not have, read-only
words and every other offset ignore it. -/
def State.writeConfig (s : State) (d off : Nat) (v : Word) : State :=
  let c := isCompute d
  let put (f : Die → Die) : State := s.modDie d f
  if off = 0 then s.setCspad d v
  else if off = 8 then
    (s.modDie d fun x => { x with trErr := x.trErr && !v.getLsbD 2 }).setMode d (v.getLsbD 0)
  else if off = 0x10 then put fun x => { x with astBase := kept v 20 28 }
  else if off = 0x18 then s.retireAsid d (fld v 0 16)
  else if 0x20 ≤ off ∧ off < 0x70 ∧ off % 8 = 0 then put fun x => { x with invs := set 0 x.invs ((off - 0x20) / 8) (kept v 20 28) }
  else if off = 0x70 then (if c then put fun x => { x with ptBase := kept v 19 29 } else s)
  else if off = 0x78 then put fun x => { x with fring := ringWord v }
  else if off = 0x80 then (if c then put fun x => { x with cring := ringWord v } else s)
  else if off = 0x88 then (if c then put fun x => { x with reply := kept v 17 31 } else s)
  else if off = 0x90 then (if c then s.askPreempt d v else s)
  else if off = 0x98 then s.recall v
  else if off = 0xA0 then (if c ∧ 64 ≤ fld v 0 16 then put fun x => { x with migWindow := fld v 0 16 } else s)
  else if off = 0xA8 then (if c then s else put fun x => { x with aring := ringWord v })
  else if off = 0xB0 then put fun x => { x with mring := ringWord v }
  else if off = 0xB8 then put fun x => { x with
    recctl := recctlWrite x.recctl v, consumedLog := if fld x.recctl 12 52 = fld v 12 52 then x.consumedLog else [] }
  else if off = 0xC0 then put fun x => { x with
    scrubD := if c then scrubWrite (scrubWrite x.scrubD 0 (fld v 0 8)) 1 (fld v 8 8) else scrubWrite x.scrubD 0 (fld v 0 8) }
  else if off = 0xE0 then put fun x => { x with sigtgt := v &&& 0x8FFF8FFF8FFF8FFF }
  else if c then s
  else if off = 0xC8 then s.setPkgid d v
  else if off = 0xD0 then put fun x => { x with leaseLen := fld v 0 8 }
  else if 0x100 ≤ off ∧ off < 0x180 ∧ off % 16 = 8 then put fun x => { x with
    ports := set Port.zero x.ports ((off - 0x100) / 16) ((get Port.zero x.ports ((off - 0x100) / 16)).clear v) }
  else s

/-- CONFIG_WORD_WRITE (R390): a privileged store of eight bytes to a word of a configuration block takes effect. -/
def execConfigWordWrite (die off : Nat) (v : Word) (s : State) : Host.Outcome State Fault Refusal := .next (s.writeConfig die off v)

end Sys2Proof.Machine
end

