-- ==== Sys2Proof/Machine/Loss.lean ====
section
/-! DEFINITION. Writes that come from outside the package's cores (R404, R408, R419) and the loss of a die (R405, R406). -/

namespace Sys2Proof.Machine

/-! External writes -/

/-- The records of TYPE 3 and 4 for a write of n bytes (R408). -/
def State.logWrite (s : State) (d pa n v : Nat) : State :=
  let s := s.logEvent d 3 0 (word pa) (word n)
  (List.range ((n + 23) / 24)).foldl (fun s i =>
    let at_ (j : Nat) : Word := word (v / 2 ^ (64 * (3 * i + j)))
    s.logData d (at_ 0) (at_ 1) (at_ 2)) s

/-- The physical address that the HDM decoders of a host die give for a host address (R404); none outside all of them. -/
def Die.hdmPa (x : Die) (a : Nat) : Option Nat :=
  (x.hdm.find? fun m => decide (m.1 ≤ a) && decide (a < m.1 + m.2.1)).map fun m => m.2.2 + (a - m.1)

/-- Bytes of one line that come from outside (R404): only package memory takes them. -/
def State.externalLine (s : State) (pa n v : Nat) : State :=
  match region pa with
  | .dram _ => (s.markPhysical pa n).commit pa n v ⟨0, 0, 0, false⟩ none
  | _ => s

/-- A write of n ≤ 128 bytes from outside that reaches its home: views are marked, then each line is written (R404). -/
def State.externalWrite (s : State) (h pa n : Nat) (v : BitVec 1024) : State :=
  let n := min n 128
  let val := v.toNat % 2 ^ (8 * n)
  let m := min n (128 - pa % 128)
  match region pa with
  | .submit _ => s.discardSubmit pa
  | .dram _ =>
    let s := (s.logWrite h pa n val).externalLine pa m (val % 2 ^ (8 * m))
    if n ≤ m then s else s.externalLine (pa + m) (n - m) (val / 2 ^ (8 * m))
  | _ => s

/-- A read of n ≤ 128 bytes from outside (R404): each line's bytes at its arbiter, with poison if a line is poisoned; none outside package
memory. A read of a submission page is discarded and counted, and returns 0 (R399). -/
def State.externalRead (s : State) (pa n : Nat) : Option (BitVec 1024 × Bool) × State :=
  let n := min n 128
  match region pa, region (pa + n - 1) with
  | .submit _, _ => (some (0, false), s.discardSubmit pa)
  | .dram _, .dram _ => (some (BitVec.ofNat 1024 (s.rd pa n), s.poisoned pa n), s)
  | _, _ => (none, s)

/-- CXL_MEM_READ (R404): the external host of a die reads n bytes at a host address; the die's port answers. An address that no decoder maps
is not the package's. -/
def execCxlMemRead (die addr n : Nat) (s : State) : Host.Outcome State Fault Refusal :=
  .next (match (s.die die).hdmPa addr with
  | none => s.modDie die fun x => { x with cxlAns := none }
  | some pa =>
    let (v, s) := s.externalRead pa n
    s.modDie die fun x => { x with cxlAns := v })

/-- CXL_MEM_WRITE (R404, R408): the external host of a die writes n bytes at a host address. -/
def execCxlMemWrite (die addr n : Nat) (v : BitVec 1024) (s : State) : Host.Outcome State Fault Refusal :=
  .next (match (s.die die).hdmPa addr with
  | none => s
  | some pa => s.externalWrite die pa n v)

/-! Die loss -/

/-- The host die whose rescue area is used (R405). -/
def State.rescueDie (s : State) (lost : Nat) : Nat := if lost = 4 ∨ (s.die 4).lost then 5 else 4

/-- The rescue area of a host die: the top 64 MiB of its LPDDR-6 (R388). -/
def rescueBase (d : Nat) : Nat := (if d = 4 then 2 ^ 40 else 2 ^ 41) + 2 ^ 40 - 2 ^ 26

/-- The strands that a die has, with what finds their save areas: those of its cores, of its continuations and pre-empted teams, of its
sealed groups that wait, and of its packer. -/
def State.dieStrands (s : State) (d : Nat) : List (Word × Word) :=
  let ofGroup (g : Group) : List (Word × Word) := (lanesOf g.live).map fun l => (g.asid, (g.lane l).ssa)
  let x := s.die d
  (s.cores.filter fun (c, _) => dieOfCore c == d).flatMap (fun (_, k) => (k.slots.filter fun (_, g) => g.occ).flatMap fun (_, g) => ofGroup g) ++
  x.conts.flatMap (fun y => ofGroup y.group) ++
  x.lvl.flatMap (fun (_, rs) => rs.flatMap fun r => match r.work with
    | .launch _ _ => []
    | .resume zs => zs.flatMap fun z => z.groups.flatMap fun (_, g) => ofGroup g
    | .packed g => ofGroup g) ++
  (x.packq ++ x.wins.flatMap (·.strands)).map fun p => (p.asid, p.ssa)

/-- R405: the strands of a lost die keep their last saved state, with LOC 3, where the save area lies on another die. -/
def State.leaveSaved (s : State) (d : Nat) : State :=
  (s.dieStrands d).foldl (fun (s : State) (z : Word × Word) =>
    if z.2 = 0 then s
    else match s.agentWalk d z.1 (z.2 + 0x340) .write with
    | (0, x, s) => if homeOf s x.pa = d then s else s.putLoc d z.1 z.2 3
    | (_, _, s) => s) s

/-- R405: the teams placed on a lost die end without running again. No save area is written after `leaveSaved`. -/
def State.endDieTeams (s : State) (d : Nat) : State :=
  let s := s.leaveSaved d
  let s : State := { s with cores := s.cores.map fun (c, k) =>
    if (dieOfCore c = d) then (c, { k with
      l1 := [], cluHeld := [], teams := k.teams.map fun (i, t) => (i, { t with pend := [] })
      slots := k.slots.map fun (j, g) => (j, g.modLanes (lanesOf g.live) fun _ r => { r with ssa := 0 }) })
    else (c, k) }
  (s.cores.filter fun (c, _) => dieOfCore c == d && !isLatency c).foldl (fun (s : State) (x : Nat × Core) =>
    x.2.teams.foldl (fun (s : State) (t : Nat × Team) => if t.2.occ then s.killTeam x.1 t.1 else s) s) s

/-- The bytes of a copy that are rescued (R405): all that it holds where it is M or O, otherwise its unpublished bytes. -/
def L1Line.rescued (l : L1Line) : BitVec 128 := if l.st = .m ∨ l.st = .o then l.vm ||| l.um else l.um

/-- An entry of the rescue area (R406): PA, source core, mask and data; clear bytes are zero. -/
def rescueEntry (line c : Nat) (l : L1Line) : List Word :=
  let m := l.rescued
  let data := mergeLine m l.data 0
  [word (line * 128), word c, word (m.toNat % 2 ^ 64), word (m.toNat / 2 ^ 64)] ++
  ((List.range 16).map fun i => word (data.toNat / 2 ^ (64 * i) % 2 ^ 64)) ++ List.replicate 12 0

/-- The lines of a die that surviving cores hold with changes: core, line and copy. -/
def State.rescues (s : State) (d : Nat) : List (Nat × Nat × L1Line) :=
  (s.cores.filter fun (c, _) => dieOfCore c != d).flatMap fun (c, k) =>
    (k.l1.filter fun (a, l) => homeOf s (a * 128) == d && l.rescued != 0).map fun (a, l) => (c, a, l)

/-- R405, R406: entries are written until the area is full; how many there are in all, and how many were dropped. -/
def State.writeRescues (s : State) (base : Nat) : Nat → Nat → List (Nat × Nat × L1Line) → Nat × Nat × State
  | n, m, [] => (n, m, s)
  | n, m, (c, a, l) :: r =>
    if 262143 ≤ n then s.writeRescues base n (m + 1) r
    else (s.pokeWords (base + 64 + 256 * n) (rescueEntry a c l)).writeRescues base (n + 1) m r

/-- The mask of the dies that are lost. -/
def State.lostMask (s : State) : Nat := [0, 1, 2, 3, 4, 5].foldl (fun n d => n + bit (s.die d).lost d) 0

/-- R326: the views of a lost die are dropped as by `view.drop`. -/
def State.dropViews (s : State) (d : Nat) : State :=
  (s.die d).views.foldl (fun (s : State) (x : Nat × View) => s.dropView d x.1 x.2) s

/-- The copies that surviving cores hold of a lost die's lines go, and so does what travels toward it or belongs to it. Of its views, only
which objects were their shards is known (R326). -/
def State.dropDie (s : State) (d : Nat) : State :=
  let views := (s.die d).views
  let s := s.dropViews d
  let s : State := { s with
    cores := s.cores.map fun (c, k) =>
      if (dieOfCore c = d) then (c, Core.empty) else (c, { k with l1 := k.l1.filter fun (a, _) => homeOf s (a * 128) != d })
    dies := s.dies.map fun (e, x) => (e, { x with egress := x.egress.filter fun w => w.home != d && !(4 ≤ d && w.home == d + 4) })
    delayed := s.delayed.filter fun w => homeOf s w.pa != d
    watches := s.watches.filter fun w => dieOfCore w.core != d }
  s.setDie d { Die.init d with trMode := false, lost := true, views := views }

/-- DIE_LOSS (R405, R406): if both host dies are lost, the package stops. The rescue area of a die counts from its first use. -/
def execDieLoss (die : Nat) (s : State) : Host.Outcome State Fault Refusal :=
  if (s.die die).lost || decide (6 ≤ die) then .next s
  else if (die = 4 ∧ (s.die 5).lost) ∨ (die = 5 ∧ (s.die 4).lost) then .fault .packageStopped
  else
    let first := die = 4 ∨ s.lostMask = 0
    let s := s.endDieTeams die
    let base := rescueBase (s.rescueDie die)
    let (n, m, s) := s.writeRescues base (if first then 0 else s.rd base 8) (if first then 0 else s.rd (base + 8) 8) (s.rescues die)
    let s := s.dropDie die
    let s := s.pokeWords base [word n, word m, word s.lostMask, word s.time, 0, 0, 0, 0]
    let msg : BitVec 1024 := BitVec.ofNat 1024 (7 + die * 2 ^ 64 + n * 2 ^ 128)
    .next (([0, 1, 2, 3, 4, 5].filter fun e => !(s.die e).lost).foldl (fun s e => (s.message 7 e msg).2) s)

end Sys2Proof.Machine
end

