-- ==== Sys2Proof/Machine/Fabric.lean ====
section
/-! DEFINITION. The fabric between packages as one package sees it: leases held and granted (R417, R418), inbound writes (R419), time
and its loss (R420), and the spoke-link ports (R422). -/

namespace Sys2Proof.Machine

/-! Leases -/

/-- Whether a write to a line waits for its leases: one of another package, or one of a path of this one (R418). -/
def State.writeWaits (s : State) (line : Nat) : Bool :=
  (s.delayed.any fun w => w.line == line) ||
  s.cores.any fun (_, k) => k.slots.any fun (_, g) => g.occ && g.paths.any fun p => match p.wait with
    | .publish ls => ls.contains line
    | _ => false

/-- R417, R418, R420: the home's side of a fill by package `pkg`: a lease with the home's BOUND is granted unless a write to the line
waits or LOCK is 0. -/
def State.homeGrant (s : State) (d pkg line : Nat) : State :=
  let x := s.die d
  if !s.locked d || !s.inDomain pkg || s.writeWaits line then s
  else
    let len := (x.leaseLen + 1) * 1000
    s.modDie d fun x => { x with
      grants := (x.grants.filter fun g => !(g.pkg == pkg && g.line == line)) ++ [⟨pkg, line, s.time + len, s.clk, len, x.bound⟩] }

/-- LEASE_FILL (R417): a fill of a line that another package is home to, or a fill by another package of a line that is homed
here. -/
def execLeaseFill (die pkg line : Nat) (data : BitVec 1024) (expiry bound : Nat) (s : State) : Host.Outcome State Fault Refusal :=
  .next (if die ≠ 4 ∧ die ≠ 5 then s
  else match region (line * 128) with
  | .package p => if s.inDomain p then s.holderFill die p (line % 2 ^ 45) data expiry bound else s
  | .dram _ => s.homeGrant die pkg line
  | _ => s)

/-- RETURN_REQUEST (R418): the holder's agent drops its copy of a line of another package and returns the lease. -/
def execReturnRequest (die pkg line : Nat) (s : State) : Host.Outcome State Fault Refusal :=
  .next (s.modDie die fun x => { x with leases := x.leases.filter fun l => !(l.pkg == pkg && l.line == line) })

/-- Of the delayed requests, in the order of their arrival, those enter line order on whose line no lease is left and that stand behind
no other on the same line (R418) or of the same stream (R298); `lines` and `srcs` are those of the requests that stay. -/
def State.releaseDelayed (s : State) (lines srcs : List Nat) : List Delayed → State
  | [] => s
  | w :: r =>
    if s.leased w.line || lines.contains w.line || srcs.contains w.src then
      ({ s with delayed := s.delayed ++ [w] } : State).releaseDelayed (w.line :: lines) (w.src :: srcs) r
    else (s.performDelayed w).releaseDelayed lines srcs r

/-- What the end of a lease lets happen (R418). -/
def State.afterLeases (s : State) : State := ({ s with delayed := [] } : State).releaseDelayed [] [] s.delayed

/-- LEASE_EXPIRY (R418, R420): leases on a line that have ended at the home. -/
def execLeaseExpiry (die line : Nat) (s : State) : Host.Outcome State Fault Refusal :=
  .next ((s.modDie die fun x => { x with
    grants := x.grants.filter fun g => !(g.line == line && decide (s.grantEnd die g ≤ s.clk)) }).afterLeases)

/-- LEASE_RETURNED (R418): a lease that its holder returns. -/
def execLeaseReturned (die pkg line : Nat) (s : State) : Host.Outcome State Fault Refusal :=
  .next ((s.modDie die fun x => { x with grants := x.grants.filter fun g => !(g.pkg == pkg && g.line == line) }).afterLeases)

/-- LEASE_VALIDITY_END (R417): a held lease whose validity has ended is dropped without a message. -/
def execLeaseValidityEnd (die idx : Nat) (s : State) : Host.Outcome State Fault Refusal :=
  .next (match at? (s.die die).leases idx with
  | none => s
  | some l => if s.leaseValid die l then s else s.modDie die fun x => { x with leases := x.leases.eraseIdx idx })

/-- VALID_LEASE_DROP (R417): the agent drops a lease that is still valid, and returns it. -/
def execValidLeaseDrop (die idx : Nat) (s : State) : Host.Outcome State Fault Refusal :=
  .next (s.modDie die fun x => { x with leases := x.leases.eraseIdx idx })

/-! Inbound requests -/

/-- A full/empty operation of another package at its word: performed, held in a deferral entry of its slice, or refused there (R303, R304,
R419). The reply goes to that package. -/
def State.inboundFe (s : State) (pa op : Nat) (v : Word) : State :=
  let h := homeOf s pa
  let (asid, obj) := s.futOwner pa
  let r : FeRef := ⟨pa / 8, h, homeSlice pa (s.rowLine (pa / 128)), pa, 8, asid, obj, ⟨0, 0, 0, false⟩⟩
  let e : Defer := ⟨r.slice, r.key, op, 0, 65, 0, .x 0, v, false⟩
  if op = 3 then ((s.feWrite r v.toNat).setFe r true 0 65).feServe r 4096
  else if 4 ≤ op then (s.setFe r (v.getLsbD 0) 0 65).feServe r 4096
  else if s.feServes r op then (s.fePerform r e).feServe r 4096
  else if 64 ≤ s.sliceDefers h r.slice then s.sliceCount h r.slice 1 1
  else s.addDefer h e true

/-- A request of another package to bytes of one line (R298, R418, R419): performed, or delayed at its home behind the leases on the line and the
requests that wait for them, and behind those of its own stream that wait (log entry 141). -/
def State.inboundReq (s : State) (w : Delayed) : State :=
  if s.leased w.line || s.delayed.any fun u => u.line == w.line || u.src == w.src then { s with delayed := s.delayed ++ [w] }
  else match w.how with
  | .fe op => s.inboundFe w.pa op (word w.data.toNat)
  | _ => s.performDelayed w

/-- An atomic or a full/empty operation of another package on n bytes of this one's memory; others are not its to perform. -/
def State.inboundOp (s : State) (pkg pa n : Nat) (how : Inbound) (v : Word) : State :=
  match region pa with
  | .dram _ => s.inboundReq ⟨pa / 128, pa, n, v.setWidth 1024, pkg, how⟩
  | _ => s

/-- INBOUND_WRITE (R408, R419). -/
def execInboundWrite (die pkg pa n : Nat) (v : BitVec 1024) (s : State) : Host.Outcome State Fault Refusal :=
  let n := min n 128
  let val := v.toNat % 2 ^ (8 * n)
  let m := min n (128 - pa % 128)
  let s := s.logWrite die pa n val
  .next (match region pa with
  | .dram _ =>
    let put (s : State) (a k x : Nat) : State := s.inboundReq ⟨a / 128, a, k, BitVec.ofNat 1024 x, pkg, .write⟩
    let s := put s pa m (val % 2 ^ (8 * m))
    if n ≤ m then s else put s (pa + m) (n - m) (val / 2 ^ (8 * m))
  | _ => s)

/-! Time -/

/-- R420: without LOCK the holder returns each lease. -/
def Die.relock (x : Die) (lock : Bool) : Die := { x with lock := lock, leases := if lock then x.leases else [] }

/-- PTP_SYNC (R420): a valid Sync message gives the package time in ns and the bound on its offset. Leases held while LOCK was 0 are gone. -/
def execPtpSync (die time bound : Nat) (s : State) : Host.Outcome State Fault Refusal :=
  let was := s.locked die
  .next (if die ≠ 4 ∧ die ≠ 5 then s
  else ({ s with ptpBase := time, ptpRef := s.clk }).modDie die fun x =>
    Die.relock { (x.relock was) with bound := bound, lastSync := s.clk } (decide (bound ≤ 2000)))

/-- LOCK_LOSS (R420). -/
def execLockLoss (die : Nat) (s : State) : Host.Outcome State Fault Refusal :=
  .next (if s.syncOld die then s.modDie die fun x => x.relock false else s)

/-! Ports (R422) -/

/-- Changes a port of a host die. -/
def State.modPort (s : State) (d p : Nat) (f : Port → Port) : State :=
  s.modDie d fun x => { x with ports := set Port.zero x.ports p (f (get Port.zero x.ports p)) }

/-- R422: a package that no up port reaches any more: its leases go, and a record is written. Writes on their way to it come back to the cores
that sent them, whose publication then faults (log entry 16); a lane whose operation is at its future word translates again at its next test, and
faults. -/
def State.loseReach (s : State) (d pkg : Nat) : State :=
  if s.reaches pkg then s
  else
    let s : State := { s with dies := s.dies.map fun (e, x) => (e, { x with leases := x.leases.filter fun l => l.pkg != pkg }) }
    let s := [0, 1, 2, 3, 4, 5].foldl (fun s e => s.drainEgress e (16 + pkg)) s
    (s.faultRecord d { FRec.blank with src := 8, kind := 11 }).2

/-- R422: a port goes down; its traffic moves to another up port with the same peer, which programs do not see. Where a record that this needs
finds no room it waits (R354). -/
def State.dropPort (s : State) (d p : Nat) : State :=
  let q := get Port.zero (s.die d).ports p
  if !q.up then s
  else
    let t := (s.modPort d p fun q => { q with up := false, downs := min (q.downs + 1) 65535 }).loseReach d q.peer
    if s.withinRoom && !t.withinRoom then s else t

/-- PORT_DOWN (R422). -/
def execPortDown (die port : Nat) (s : State) : Host.Outcome State Fault Refusal :=
  .next (if (die = 4 ∨ die = 5) ∧ port < 8 then s.dropPort die port else s)

/-- A port after one more failure of its flit: `recent` are the clks of the replays of the last millisecond. -/
def Port.replayed (q : Port) (clk : Nat) : Port :=
  { q with
    rplay := min (q.rplay + 1) (2 ^ 32 - 1), fail := min (q.fail + 1) (2 ^ 32 - 1), row := q.row + 1
    recent := ((q.recent.filter fun t => decide (clk < t + 2100000)) ++ [clk]) }

/-- Whether a port goes down (R422): its flit has failed 16 times in a row, or a millisecond has seen more than 1,024 replays. -/
def Port.fails (q : Port) : Bool := decide (16 ≤ q.row) || decide (1024 < q.recent.length)

/-- FLIT_REPLAY (R422): a flit has failed its CRC and is replayed. -/
def execFlitReplay (die port : Nat) (s : State) : Host.Outcome State Fault Refusal :=
  let t := s.modPort die port fun q => q.replayed s.clk
  .next (if (die ≠ 4 ∧ die ≠ 5) ∨ 8 ≤ port then s
  else if (get Port.zero (t.die die).ports port).fails then t.dropPort die port else t)

/-- A flit has passed its CRC (R422). -/
def State.flitPassed (s : State) (d p : Nat) : State := s.modPort d p fun q => { q with row := 0 }

/-- PORT_TRAINED (R422): the port is up toward a package. -/
def execPortTrained (die port peer : Nat) (s : State) : Host.Outcome State Fault Refusal :=
  .next (if (die = 4 ∨ die = 5) ∧ port < 8 then s.modPort die port fun q => { q with up := true, peer := peer % 2 ^ 20, row := 0, recent := [] } else s)

end Sys2Proof.Machine
end

