-- ==== Sys2Proof/Machine/Mgmt.lean ====
section
/-! DEFINITION. Reset, power states, management and attestation (R410-R412). -/

namespace Sys2Proof.Machine

/-- RESET (R410): every die as `Die.init`, every core empty. The spec gives memory no reset value: its bytes stay, and so does
package time. -/
def execReset (s : State) : Host.Outcome State Fault Refusal :=
  .next { State.reset with mem := s.mem, poison := s.poison, ecc := s.ecc, ptpBase := s.time, agenda := s.agenda, free := s.free }

/-- The root of trust that is the primary (R410): that of die 4, or its standby where that one has failed. -/
def State.primary (s : State) : Option Nat :=
  if (s.die 4).trust = 1 ∧ !(s.die 4).lost then some 4
  else if ((s.die 4).trust = 2 ∨ (s.die 4).lost) ∧ (s.die 5).trust = 1 then some 5
  else none

/-- Whether the image of a die is the next to be verified (R410): die 4's first, then that of its standby; those of the compute dies, in
ascending order, once there is a primary. -/
def State.mayVerify (s : State) (d : Nat) : Bool :=
  let done (e : Nat) : Bool := (s.die e).trust != 0 || (s.die e).lost
  !done d && (if d = 4 then true else if d = 5 then done 4 else decide (d < 4) && s.primary.isSome && (List.range d).all done)

/-- R410: the firmware image of a die has been measured and verified, with the result that is given. A die that fails stays held; a
compute die that does is reported as lost (R405). -/
def State.verify (s : State) (d : Nat) (ok : Bool) : State :=
  if !s.mayVerify d then s
  else
    let s := s.modDie d fun x => { x with trust := if ok then 1 else 2 }
    if ok || !isCompute d then s else { s with agenda := .event (.dieLoss d) :: s.agenda }

/-- Whether a team is placed on a die. -/
def State.dieBusy (s : State) (d : Nat) : Bool := s.cores.any fun (c, k) => dieOfCore c == d && k.teams.any fun (_, t) => t.occ

/-- R412: the core clock of a die changes; what it has counted stays. -/
def State.setClock (s : State) (d mhz : Nat) : State :=
  let n := s.dieCycles d
  s.modDie d fun x => { x with mhz := mhz, cycAcc := n, cycRef := s.clk }

/-- POWER_STATE_CHANGE (R412): PS0 running, PS1 with a capped clock, PS2 retention sleep of a compute die with no team placed, PS3
off. A clock is 2,100 MHz lowered by steps of 100 MHz; another value leaves it. -/
def execPowerStateChange (die ps mhz : Nat) (s : State) : Host.Outcome State Fault Refusal :=
  let s' := if isCompute die && decide (0 < mhz) && decide (mhz ≤ 2100) && mhz % 100 == 0 then s.setClock die mhz else s
  .next (match ps with
  | 0 => (s'.wakeDie die).modDie die fun x => { x with ps := 0 }
  | 1 => (s'.wakeDie die).modDie die fun x => { x with ps := 1 }
  | 2 => if isCompute die && !s.dieBusy die then s.modDie die fun x => { x with ps := 2, slept := some x.bumps } else s
  | 3 =>
    let s : State := { s with cores := s.cores.filter fun (c, _) => dieOfCore c != die }
    s.modDie die fun x => { x with ps := 3, rtlb := [], dcache := [], acache := [] }
  | _ => s)

/-- MANAGEMENT_REQUEST (R412): the answer names the command, the power state and the core clock of a die; what else telemetry says is
the implementation's (log entry 11). -/
def execManagementRequest (die cmd : Nat) (s : State) : Host.Outcome State Fault Refusal :=
  .next (s.modDie die fun x => { x with mgmt := [word cmd, word x.ps, word x.mhz, Config.response (100 + cmd) die] })

/-- An answer of the SPDM responder of a host die (R411), as a list of words: the number of the request in R411's list, then its
fields. A compute die and a lost die give none. -/
def State.answer (s : State) (d : Nat) (ws : List Word) : State :=
  if (d = 4 ∨ d = 5) ∧ !(s.die d).lost then s.modDie d fun x => { x with spdm := ws } else s

/-- GET_VERSION (R411): SPDM 1.3. -/
def execGetVersion (die : Nat) (s : State) : Host.Outcome State Fault Refusal := .next (s.answer die [0, 0x13])

/-- GET_CAPABILITIES (R411). -/
def execGetCapabilities (die : Nat) (s : State) : Host.Outcome State Fault Refusal :=
  .next (s.answer die [1, Config.response 1 0])

/-- NEGOTIATE_ALGORITHMS (R411): only RSASSA-4096 and SHA-512, bit 5 and bit 2 of the algorithms asked for, are chosen. -/
def execNegotiateAlgorithms (die asym hash : Nat) (s : State) : Host.Outcome State Fault Refusal :=
  .next (s.answer die [2, word (bit (asym.testBit 5) 5), word (bit (hash.testBit 2) 2)])

/-- GET_DIGESTS (R411). -/
def execGetDigests (die : Nat) (s : State) : Host.Outcome State Fault Refusal :=
  .next (s.answer die [3, Config.response 3 die])

/-- GET_CERTIFICATE (R411). -/
def execGetCertificate (die slot : Nat) (s : State) : Host.Outcome State Fault Refusal :=
  .next (s.answer die [4, word slot, Config.response 4 slot])

/-- CHALLENGE (R411). -/
def execChallenge (die : Nat) (nonce : BitVec 256) (s : State) : Host.Outcome State Fault Refusal :=
  .next (s.answer die [5, Config.response 5 nonce.toNat])

/-- GET_MEASUREMENTS (R411): one block for each die's image and one for the fused configuration; block 0 gives their number and any
other number has no block. -/
def execGetMeasurements (die block : Nat) (s : State) : Host.Outcome State Fault Refusal :=
  .next (s.answer die (if block = 0 then [6, 0, 7] else if block ≤ 7 then [6, word block, Config.response 6 block] else [6, word block]))

end Sys2Proof.Machine
end

