-- ==== Sys2Proof/Machine/Store128.lean ====
section
/-! DEFINITION. The 128-byte store (R203) with the pages it reaches: submission (R399), completion (R355) and messages (R398). -/

namespace Sys2Proof.Machine

/-- The 128 bytes of a lane: register c + k supplies bytes 8k to 8k + 7 (R203). -/
def Group.sixteen (g : Group) (l c : Nat) : BitVec 1024 :=
  BitVec.ofNat 1024 ((List.range 16).foldl (fun n k => n + (g.x l (c + k)).toNat * 2 ^ (64 * k)) 0)

/-- The first register of the list in operand c. -/
def listReg : Src → Nat
  | .x n => n.toNat
  | _ => 0

/-- R390: a `st128` to a configuration block of die d: the completion page, the message page, or nothing. -/
def State.storeBlock (s : State) (d off : Nat) (bytes : BitVec 1024) : Bool × State :=
  if off = 0x8000 then
    if bytes.toNat / 2 ^ 128 ≠ 0 then (false, s)
    else s.completeFault d (word (bytes.toNat % 2 ^ 64)) (word (bytes.toNat / 2 ^ 64 % 2 ^ 64))
  else if off = 0x8080 then s.message s.did d bytes
  else (false, s)

/-- One lane's store after its translation (R203): its predicate. -/
def State.store128 (s : State) (x : Xl) (va : Word) (bytes : BitVec 1024) : Bool × State :=
  match region x.pa with
  | .submit a =>
    s.submit (homeOf s x.pa) a (x.pa % 2 ^ 15) (if asidOf s.cur.asid = a then some s.cur.asid else none) bytes
  | .config d => s.storeBlock d (x.pa % 2 ^ 16) bytes
  | .nowhere => (false, s)
  | _ => (true, s.storeHome s.cid x.pa 128 bytes.toNat (x.lineId s.cur.asid va))

/-- The stores of all lanes in ascending order, with their predicates. -/
def State.stores128 (s : State) (c : Nat) : List (Nat × Place × Xl) → List (Nat × Bool) × State
  | [] => ([], s)
  | (l, p, x) :: r =>
    let (b, s) := s.store128 x p.va (s.cur.sixteen l c)
    let (bs, s) := s.stores128 c r
    ((l, b) :: bs, s)

/-- `st128` (R203). Where a page that it reaches needs a fault record for which there is no room it waits (R354). -/
def execSt128 (o : Operands) (s : State) : Host.Outcome State Fault Refusal :=
  let i := Instr.st128 o
  .next (s.gateStrict i fun ls s => s.withOperands i ls fun ka kb _ s =>
    let (_, _, (_, c)) := i.sources
    let as := s.addrs i ls ka kb
    s.unrec.releaseThen .pkg (ls.headD 0) fun s =>
    let old := s
    s.placed .glb 128 (fun _ => false) as fun ps =>
      let (xs, s) := s.accXls .st128 ps
      s.withXls o 1 xs fun ok s =>
        s.unleased (ok.map fun e => e.2.2.pa / 128) fun s =>
        let (bs, s) := s.stores128 (listReg c) ok
        let got (l : Nat) : Word := if (bs.find? fun b => b.1 == l).any (·.2) then 1 else 0
        if !s.withinRoom then old.await (.fault 0) else
        ((s.popSources ls o).writeDst o.d (ok.map (·.1)) got).advance i.len)

end Sys2Proof.Machine
end

