-- ==== Sys2Proof/Machine/Dispatch.lean ====
section
/-! DEFINITION. The meaning of every instruction. -/

namespace Sys2Proof.Machine

/-- One arm per constructor of `Instr`, each a direct call of its meaning. -/
def exec (i : Instr) (s : State) : Host.Outcome State Fault Refusal :=
  match i with
  | .add o m => Sys2Proof.Machine.execAdd o m s
  | .sub o m => Sys2Proof.Machine.execSub o m s
  | .min o m => Sys2Proof.Machine.execMin o m s
  | .max o m => Sys2Proof.Machine.execMax o m s
  | .abs o m => Sys2Proof.Machine.execAbs o m s
  | .and o m => Sys2Proof.Machine.execAnd o m s
  | .or o m => Sys2Proof.Machine.execOr o m s
  | .xor o m => Sys2Proof.Machine.execXor o m s
  | .andn o m => Sys2Proof.Machine.execAndn o m s
  | .shl o m => Sys2Proof.Machine.execShl o m s
  | .shr o m => Sys2Proof.Machine.execShr o m s
  | .sra o m => Sys2Proof.Machine.execSra o m s
  | .rot o m => Sys2Proof.Machine.execRot o m s
  | .mul o m => Sys2Proof.Machine.execMul o m s
  | .mulh o m => Sys2Proof.Machine.execMulh o m s
  | .mad o m => Sys2Proof.Machine.execMad o m s
  | .div o m => Sys2Proof.Machine.execDiv o m s
  | .rem o m => Sys2Proof.Machine.execRem o m s
  | .clz o m => Sys2Proof.Machine.execClz o m s
  | .ctz o m => Sys2Proof.Machine.execCtz o m s
  | .popc o m => Sys2Proof.Machine.execPopc o m s
  | .brev o m => Sys2Proof.Machine.execBrev o m s
  | .bfx o m => Sys2Proof.Machine.execBfx o m s
  | .bfi o m => Sys2Proof.Machine.execBfi o m s
  | .cmp o m => Sys2Proof.Machine.execCmp o m s
  | .sel o m => Sys2Proof.Machine.execSel o m s
  | .mov o m => Sys2Proof.Machine.execMov o m s
  | .ext o m => Sys2Proof.Machine.execExt o m s
  | .lea o m => Sys2Proof.Machine.execLea o m s
  | .fadd o m => Sys2Proof.Machine.execFadd o m s
  | .fsub o m => Sys2Proof.Machine.execFsub o m s
  | .fmul o m => Sys2Proof.Machine.execFmul o m s
  | .fmin o m => Sys2Proof.Machine.execFmin o m s
  | .fmax o m => Sys2Proof.Machine.execFmax o m s
  | .ffma o m => Sys2Proof.Machine.execFfma o m s
  | .fdiv o m => Sys2Proof.Machine.execFdiv o m s
  | .fsqrt o m => Sys2Proof.Machine.execFsqrt o m s
  | .fneg o m => Sys2Proof.Machine.execFneg o m s
  | .fclass o m => Sys2Proof.Machine.execFclass o m s
  | .fcmp o m => Sys2Proof.Machine.execFcmp o m s
  | .frcp o m => Sys2Proof.Machine.execFrcp o m s
  | .frsq o m => Sys2Proof.Machine.execFrsq o m s
  | .fex2 o m => Sys2Proof.Machine.execFex2 o m s
  | .flg2 o m => Sys2Proof.Machine.execFlg2 o m s
  | .fround o m => Sys2Proof.Machine.execFround o m s
  | .fcvt o m => Sys2Proof.Machine.execFcvt o m s
  | .fcvti o m => Sys2Proof.Machine.execFcvti o m s
  | .fcvtiU o m => Sys2Proof.Machine.execFcvtiU o m s
  | .icvtf o m => Sys2Proof.Machine.execIcvtf o m s
  | .icvtfU o m => Sys2Proof.Machine.execIcvtfU o m s
  | .hadd2 o m => Sys2Proof.Machine.execHadd2 o m s
  | .hmul2 o m => Sys2Proof.Machine.execHmul2 o m s
  | .hfma2 o m => Sys2Proof.Machine.execHfma2 o m s
  | .dot2 o m => Sys2Proof.Machine.execDot2 o m s
  | .dot4 o m => Sys2Proof.Machine.execDot4 o m s
  | .qcvt o m => Sys2Proof.Machine.execQcvt o m s
  | .qcvtBf16 o m => Sys2Proof.Machine.execQcvtBf16 o m s
  | .dqcvt o m => Sys2Proof.Machine.execDqcvt o m s
  | .dqcvtBf16 o m => Sys2Proof.Machine.execDqcvtBf16 o m s
  | .bscale o m => Sys2Proof.Machine.execBscale o m s
  | .bscaleBf16 o m => Sys2Proof.Machine.execBscaleBf16 o m s
  | .plog o lut => Sys2Proof.Machine.execPlog o lut s
  | .voteAny o => Sys2Proof.Machine.execVoteAny o s
  | .voteAll o => Sys2Proof.Machine.execVoteAll o s
  | .voteUni o => Sys2Proof.Machine.execVoteUni o s
  | .voteBallot o => Sys2Proof.Machine.execVoteBallot o s
  | .jmaskMov o => Sys2Proof.Machine.execJmaskMov o s
  | .jmaskAnd o => Sys2Proof.Machine.execJmaskAnd o s
  | .jmaskOr o => Sys2Proof.Machine.execJmaskOr o s
  | .jmaskAndn o => Sys2Proof.Machine.execJmaskAndn o s
  | .shflIdx o seg => Sys2Proof.Machine.execShflIdx o seg s
  | .shflUp o seg => Sys2Proof.Machine.execShflUp o seg s
  | .shflDown o seg => Sys2Proof.Machine.execShflDown o seg s
  | .shflXor o seg => Sys2Proof.Machine.execShflXor o seg s
  | .bcast o => Sys2Proof.Machine.execBcast o s
  | .reduxAdd o m => Sys2Proof.Machine.execReduxAdd o m s
  | .reduxMin o m => Sys2Proof.Machine.execReduxMin o m s
  | .reduxMax o m => Sys2Proof.Machine.execReduxMax o m s
  | .reduxAnd o m => Sys2Proof.Machine.execReduxAnd o m s
  | .reduxOr o m => Sys2Proof.Machine.execReduxOr o m s
  | .reduxXor o m => Sys2Proof.Machine.execReduxXor o m s
  | .reduxFadd o m => Sys2Proof.Machine.execReduxFadd o m s
  | .reduxFmin o m => Sys2Proof.Machine.execReduxFmin o m s
  | .reduxFmax o m => Sys2Proof.Machine.execReduxFmax o m s
  | .br o => Sys2Proof.Machine.execBr o s
  | .jal o => Sys2Proof.Machine.execJal o s
  | .jalr o => Sys2Proof.Machine.execJalr o s
  | .meet o => Sys2Proof.Machine.execMeet o s
  | .join o k => Sys2Proof.Machine.execJoin o k s
  | .waitj o k => Sys2Proof.Machine.execWaitj o k s
  | .exit o => Sys2Proof.Machine.execExit o s
  | .yield o => Sys2Proof.Machine.execYield o s
  | .nop o => Sys2Proof.Machine.execNop o s
  | .safept o => Sys2Proof.Machine.execSafept o s
  | .trap o code => Sys2Proof.Machine.execTrap o code s
  | .syscall o => Sys2Proof.Machine.execSyscall o s
  | .eret o => Sys2Proof.Machine.execEret o s
  | .migrateS o => Sys2Proof.Machine.execMigrateS o s
  | .migrateL o => Sys2Proof.Machine.execMigrateL o s
  | .crr o crn => Sys2Proof.Machine.execCrr o crn s
  | .crw o crn => Sys2Proof.Machine.execCrw o crn s
  | .crs o crn => Sys2Proof.Machine.execCrs o crn s
  | .crc o crn => Sys2Proof.Machine.execCrc o crn s
  | .ld o m => Sys2Proof.Machine.execLd o m s
  | .st o m => Sys2Proof.Machine.execSt o m s
  | .ldf o m => Sys2Proof.Machine.execLdf o m s
  | .ldfe o m => Sys2Proof.Machine.execLdfe o m s
  | .stef o m => Sys2Proof.Machine.execStef o m s
  | .stf o m => Sys2Proof.Machine.execStf o m s
  | .setfe o m => Sys2Proof.Machine.execSetfe o m s
  | .st128 o => Sys2Proof.Machine.execSt128 o s
  | .prefetch o m => Sys2Proof.Machine.execPrefetch o m s
  | .cflush o m => Sys2Proof.Machine.execCflush o m s
  | .phase o sc => Sys2Proof.Machine.execPhase o sc s
  | .amoAdd o m => Sys2Proof.Machine.execAmoAdd o m s
  | .amoOr o m => Sys2Proof.Machine.execAmoOr o m s
  | .amoAnd o m => Sys2Proof.Machine.execAmoAnd o m s
  | .amoXor o m => Sys2Proof.Machine.execAmoXor o m s
  | .amoSmin o m => Sys2Proof.Machine.execAmoSmin o m s
  | .amoSmax o m => Sys2Proof.Machine.execAmoSmax o m s
  | .amoUmin o m => Sys2Proof.Machine.execAmoUmin o m s
  | .amoUmax o m => Sys2Proof.Machine.execAmoUmax o m s
  | .amoXchg o m => Sys2Proof.Machine.execAmoXchg o m s
  | .amoFadd o m => Sys2Proof.Machine.execAmoFadd o m s
  | .amoFAdd o m => Sys2Proof.Machine.execAmoFAdd o m s
  | .amoFOr o m => Sys2Proof.Machine.execAmoFOr o m s
  | .amoFAnd o m => Sys2Proof.Machine.execAmoFAnd o m s
  | .amoFXor o m => Sys2Proof.Machine.execAmoFXor o m s
  | .amoFSmin o m => Sys2Proof.Machine.execAmoFSmin o m s
  | .amoFSmax o m => Sys2Proof.Machine.execAmoFSmax o m s
  | .amoFUmin o m => Sys2Proof.Machine.execAmoFUmin o m s
  | .amoFUmax o m => Sys2Proof.Machine.execAmoFUmax o m s
  | .amoFXchg o m => Sys2Proof.Machine.execAmoFXchg o m s
  | .amoFFadd o m => Sys2Proof.Machine.execAmoFFadd o m s
  | .cas o m => Sys2Proof.Machine.execCas o m s
  | .vamoRow o m => Sys2Proof.Machine.execVamoRow o m s
  | .cpy o m => Sys2Proof.Machine.execCpy o m s
  | .tld o m => Sys2Proof.Machine.execTld o m s
  | .tst o m => Sys2Proof.Machine.execTst o m s
  | .abarInit o m => Sys2Proof.Machine.execAbarInit o m s
  | .abarArrive o m => Sys2Proof.Machine.execAbarArrive o m s
  | .abarWait o m => Sys2Proof.Machine.execAbarWait o m s
  | .ringRsv o m => Sys2Proof.Machine.execRingRsv o m s
  | .ringPub o m => Sys2Proof.Machine.execRingPub o m s
  | .ringGet o m => Sys2Proof.Machine.execRingGet o m s
  | .ringPut o m => Sys2Proof.Machine.execRingPut o m s
  | .qbind o => Sys2Proof.Machine.execQbind o s
  | .qstat o => Sys2Proof.Machine.execQstat o s
  | .barSync o bn => Sys2Proof.Machine.execBarSync o bn s
  | .barArrive o bn => Sys2Proof.Machine.execBarArrive o bn s
  | .barSyncClu o bn => Sys2Proof.Machine.execBarSyncClu o bn s
  | .barArriveClu o bn => Sys2Proof.Machine.execBarArriveClu o bn s
  | .mxgo o => Sys2Proof.Machine.execMxgo o s
  | .mxstat o => Sys2Proof.Machine.execMxstat o s
  | .mxstop o => Sys2Proof.Machine.execMxstop o s
  | .stgDecl o => Sys2Proof.Machine.execStgDecl o s
  | .stgAdmit o => Sys2Proof.Machine.execStgAdmit o s
  | .stgAdmitKeep o => Sys2Proof.Machine.execStgAdmitKeep o s
  | .stgAdmitClose o => Sys2Proof.Machine.execStgAdmitClose o s
  | .stgNext o => Sys2Proof.Machine.execStgNext o s
  | .stgDone o => Sys2Proof.Machine.execStgDone o s
  | .stgTail o => Sys2Proof.Machine.execStgTail o s
  | .stgStat o => Sys2Proof.Machine.execStgStat o s
  | .viewReg o => Sys2Proof.Machine.execViewReg o s
  | .viewDrop o => Sys2Proof.Machine.execViewDrop o s
  | .viewSync o sc => Sys2Proof.Machine.execViewSync o sc s
  | .viewTag o => Sys2Proof.Machine.execViewTag o s
  | .viewPol o => Sys2Proof.Machine.execViewPol o s
  | .launch o => Sys2Proof.Machine.execLaunch o s
  | .spawn o => Sys2Proof.Machine.execSpawn o s
  | .jwait o => Sys2Proof.Machine.execJwait o s
  | .setseg o => Sys2Proof.Machine.execSetseg o s
  | .tgen o => Sys2Proof.Machine.execTgen o s
  | .ifence o => Sys2Proof.Machine.execIfence o s
  | .wfi o => Sys2Proof.Machine.execWfi o s
  | .inspect o => Sys2Proof.Machine.execInspect o s
  | .udf w => Sys2Proof.Machine.execUdf w s
  | .emulationMajor w len => Sys2Proof.Machine.execEmulationMajor w len s
  | .illegalInstruction w reason => Sys2Proof.Machine.execIllegalInstruction w reason s
  | .mxZero t => Sys2Proof.Machine.execMxZero t s
  | .mxFmt fw => Sys2Proof.Machine.execMxFmt fw s
  | .mxMma t mc nc ku ra rb rs => Sys2Proof.Machine.execMxMma t mc nc ku ra rb rs s
  | .mxWaitGet ring sc acq => Sys2Proof.Machine.execMxWaitGet ring sc acq s
  | .mxWaitFree ring => Sys2Proof.Machine.execMxWaitFree ring s
  | .mxRel ring sc rel => Sys2Proof.Machine.execMxRel ring sc rel s
  | .mxSigRing ring sc rel => Sys2Proof.Machine.execMxSigRing ring sc rel s
  | .mxSigAbar obj wt sc rel => Sys2Proof.Machine.execMxSigAbar obj wt sc rel s
  | .mxIf disp woff => Sys2Proof.Machine.execMxIf disp woff s
  | .mxWhile dec disp woff => Sys2Proof.Machine.execMxWhile dec disp woff s
  | .mxEnd disp => Sys2Proof.Machine.execMxEnd disp s
  | .mxJump disp => Sys2Proof.Machine.execMxJump disp s
  | .mxHalt sc rel => Sys2Proof.Machine.execMxHalt sc rel s
  | .continuationFire die idx => Sys2Proof.Machine.execContinuationFire die idx s
  | .swapOut core slot => Sys2Proof.Machine.execSwapOut core slot s
  | .teamPlacement die => Sys2Proof.Machine.execTeamPlacement die s
  | .teamPreempt core team => Sys2Proof.Machine.execTeamPreempt core team s
  | .preemptTrigger die => Sys2Proof.Machine.execPreemptTrigger die s
  | .recordAging die => Sys2Proof.Machine.execRecordAging die s
  | .pendingLaunchMove core team => Sys2Proof.Machine.execPendingLaunchMove core team s
  | .deadlockExamination die => Sys2Proof.Machine.execDeadlockExamination die s
  | .lendRecompute die => Sys2Proof.Machine.execLendRecompute die s
  | .safePointOverdue core slot => Sys2Proof.Machine.execSafePointOverdue core slot s
  | .channelExtend core chan => Sys2Proof.Machine.execChannelExtend core chan s
  | .heldSlotSplit core slot => Sys2Proof.Machine.execHeldSlotSplit core slot s
  | .freewheelRestart core => Sys2Proof.Machine.execFreewheelRestart core s
  | .interrupt core strand => Sys2Proof.Machine.execInterrupt core strand s
  | .wfiWake core strand => Sys2Proof.Machine.execWfiWake core strand s
  | .sample core => Sys2Proof.Machine.execSample core s
  | .asyncCopyComplete core idx => Sys2Proof.Machine.execAsyncCopyComplete core idx s
  | .viewRefresh die => Sys2Proof.Machine.execViewRefresh die s
  | .faultCompletion die tag disp => Sys2Proof.Machine.execFaultCompletion die tag disp s
  | .faultBufferDrain die => Sys2Proof.Machine.execFaultBufferDrain die s
  | .syscallReplyPost die slot result error => Sys2Proof.Machine.execSyscallReplyPost die slot result error s
  | .syscallReissue die slot => Sys2Proof.Machine.execSyscallReissue die slot s
  | .callRingRoom die ridx => Sys2Proof.Machine.execCallRingRoom die ridx s
  | .arrivalRingRoom die ridx => Sys2Proof.Machine.execArrivalRingRoom die ridx s
  | .packerArrival die => Sys2Proof.Machine.execPackerArrival die s
  | .packingWindowClose die win => Sys2Proof.Machine.execPackingWindowClose die win s
  | .recall sid => Sys2Proof.Machine.execRecall sid s
  | .preempt die team => Sys2Proof.Machine.execPreempt die team s
  | .asidret die asid => Sys2Proof.Machine.execAsidret die asid s
  | .asidFlushDone die => Sys2Proof.Machine.execAsidFlushDone die s
  | .trctlModeWrite die mode => Sys2Proof.Machine.execTrctlModeWrite die mode s
  | .cfgCspadWrite die v => Sys2Proof.Machine.execCfgCspadWrite die v s
  | .pkgidWrite die v => Sys2Proof.Machine.execPkgidWrite die v s
  | .configWordWrite die off v => Sys2Proof.Machine.execConfigWordWrite die off v s
  | .messageSend src dst bytes => Sys2Proof.Machine.execMessageSend src dst bytes s
  | .submission die asid off bytes => Sys2Proof.Machine.execSubmission die asid off bytes s
  | .lineFill core line => Sys2Proof.Machine.execLineFill core line s
  | .writeAtHome die home => Sys2Proof.Machine.execWriteAtHome die home s
  | .ownershipRequest core line excl => Sys2Proof.Machine.execOwnershipRequest core line excl s
  | .invalidationNotice core line => Sys2Proof.Machine.execInvalidationNotice core line s
  | .refusalRetranslate core asid va => Sys2Proof.Machine.execRefusalRetranslate core asid va s
  | .deferralRetry core slot => Sys2Proof.Machine.execDeferralRetry core slot s
  | .scrubLine die stack => Sys2Proof.Machine.execScrubLine die stack s
  | .clusterDrain core => Sys2Proof.Machine.execClusterDrain core s
  | .dieLoss die => Sys2Proof.Machine.execDieLoss die s
  | .cxlMemRead die pa n => Sys2Proof.Machine.execCxlMemRead die pa n s
  | .cxlMemWrite die pa n v => Sys2Proof.Machine.execCxlMemWrite die pa n v s
  | .lockLoss die => Sys2Proof.Machine.execLockLoss die s
  | .leaseFill die pkg line data expiry bound => Sys2Proof.Machine.execLeaseFill die pkg line data expiry bound s
  | .returnRequest die pkg line => Sys2Proof.Machine.execReturnRequest die pkg line s
  | .leaseExpiry die line => Sys2Proof.Machine.execLeaseExpiry die line s
  | .leaseValidityEnd die idx => Sys2Proof.Machine.execLeaseValidityEnd die idx s
  | .inboundWrite die pkg pa n v => Sys2Proof.Machine.execInboundWrite die pkg pa n v s
  | .ptpSync die time bound => Sys2Proof.Machine.execPtpSync die time bound s
  | .flitReplay die port => Sys2Proof.Machine.execFlitReplay die port s
  | .portDown die port => Sys2Proof.Machine.execPortDown die port s
  | .reset => Sys2Proof.Machine.execReset s
  | .powerStateChange die ps mhz => Sys2Proof.Machine.execPowerStateChange die ps mhz s
  | .managementRequest die cmd => Sys2Proof.Machine.execManagementRequest die cmd s
  | .getVersion die => Sys2Proof.Machine.execGetVersion die s
  | .getCapabilities die => Sys2Proof.Machine.execGetCapabilities die s
  | .negotiateAlgorithms die asym hash => Sys2Proof.Machine.execNegotiateAlgorithms die asym hash s
  | .getDigests die => Sys2Proof.Machine.execGetDigests die s
  | .getCertificate die slot => Sys2Proof.Machine.execGetCertificate die slot s
  | .challenge die nonce => Sys2Proof.Machine.execChallenge die nonce s
  | .getMeasurements die block => Sys2Proof.Machine.execGetMeasurements die block s
  | .hardwarePrefetcher core slot va => Sys2Proof.Machine.execHardwarePrefetcher core slot va s
  | .portTrained die port peer => Sys2Proof.Machine.execPortTrained die port peer s
  | .validLeaseDrop die idx => Sys2Proof.Machine.execValidLeaseDrop die idx s
  | .leaseReturned die pkg line => Sys2Proof.Machine.execLeaseReturned die pkg line s

end Sys2Proof.Machine
end

