-- ==== Sys2Proof/Machine/Draft.lean ====
section
/-! DEFINITION. Draft mode (R148, R176): a leader and its draft group run in lock-step. -/

namespace Sys2Proof.Machine

/-- What the draft group of a leader holds when it has followed it without an error. -/
def Group.mirror (g : Group) : Group := { g with draft := none, isDraft := true }

/-- Whether the draft group of a slot has followed its leader; true of a group without one. -/
def State.mirrored (s : State) (c slot : Nat) : Bool :=
  match (s.grp c slot).draft with
  | none => true
  | some ds => s.grp c ds == (s.grp c slot).mirror

/-- The leaders of all cores with their draft slots. -/
def State.leaders (s : State) : List (Nat × Nat × Nat) :=
  s.cores.flatMap fun (c, k) => k.slots.filterMap fun (i, g) => g.draft.map fun ds => (c, i, ds)

/-- After a change from `s` to `t`: every draft group that had followed its leader follows it again. -/
def State.follow (s t : State) : State :=
  t.leaders.foldl (fun (t : State) (c, i, ds) =>
    if (s.grp c i).draft = some ds ∧ s.mirrored c i then t.setGrp c ds (t.grp c i).mirror else t) t

/-- A state without the registers of a leader and its draft group: what both must agree on. -/
def State.outputs (s : State) (c slot ds : Nat) : State := (s.setGrp c slot Group.empty).setGrp c ds Group.empty

/-- The control instructions (R118-R125). -/
def Instr.controls : Instr → Bool
  | .br _ => true
  | .jal _ => true
  | .jalr _ => true
  | .meet _ => true
  | .join _ _ => true
  | .waitj _ _ => true
  | .exit _ => true
  | .yield _ => true
  | .nop _ => true
  | .safept _ => true
  | .trap _ _ => true
  | .syscall _ => true
  | .eret _ => true
  | .migrateS _ => true
  | .migrateL _ => true
  | _ => false

/-- Whether the instruction at the current pc is a control instruction. -/
def State.controls (s : State) : Bool := match s.fetch.1 with | .ok i => Instr.controls i | _ => false

/-- The lanes that go to each next pc. -/
def Group.targets (g : Group) : List (Word × Mask) := g.paths.map fun p => (p.pc, p.mask)

/-- What an `mxgo` at the current pc asks of the engine besides the voted word: the header offset and the restart symbol (R245). -/
def State.engineRequest (s : State) : Option (Word × Word) :=
  match s.fetch.1 with
  | .ok (.mxgo o) =>
    let ls := s.acting o.g
    let (_, (tb, b), (tc, c)) := (Instr.mxgo o).sources
    match (s.constant tb b).1, (s.constant tc c).1 with
    | .data kb, .data kc => some (s.src tb (word kb) ls (ls.headD 0) b, s.pc + s.src tc (word kc) ls (ls.headD 0) c * 8)
    | _, _ => none
  | _ => none

/-- R176: an issue turn of a group. Where its draft group has not followed it, the two are run apart, each from its own paths. Outputs that
differ, or an engine request (R245), or, at a control instruction, lanes that go to different targets (R148), raise draft mismatch (0x18)
before either is released. -/
def State.lockStep (s : State) (c slot : Nat) (run : State → Host.Outcome State Fault Refusal) : Host.Outcome State Fault Refusal :=
  match (s.grp c slot).draft with
  | none => run s
  | some ds =>
    if s.mirrored c slot then run s
    else
      let s' := s.setGrp c slot { s.grp c ds with draft := some ds, isDraft := false }
      let l := ({ s with focus := (c, slot) }).switched c slot
      let l' := ({ s' with focus := (c, slot) }).switched c slot
      let mismatch : Host.Outcome State Fault Refusal := .next (l.takeTrap 0x18 l.pc l.active)
      match run s, run s' with
      | .next a, .next b =>
        if a.outputs c slot ds = b.outputs c slot ds ∧ l.engineRequest = l'.engineRequest ∧
            ((!l.controls && !l'.controls) || (a.grp c slot).targets == (b.grp c slot).targets) then
          .next (a.setGrp c ds (b.grp c slot).mirror)
        else mismatch
      | _, _ => mismatch

end Sys2Proof.Machine
end

