-- ==== Sys2Proof/Machine/Issue.lean ====
section
/-! DEFINITION. One issue of a group (R60, R61, R116, R126, R140, R166-R168, R28) and one command of a matrix engine (R230). -/

namespace Sys2Proof.Machine

/-- Whether a die's cores run (R405, R412). -/
def State.dieRuns (s : State) (d : Nat) : Bool := !(s.die d).lost && decide ((s.die d).ps < 2)

/-- Whether a core is released: a latency core once its die's firmware has been verified (R410). -/
def State.released (s : State) (c : Nat) : Bool := !isLatency c || (s.die (dieOfCore c)).trust == 1

/-- Whether a group runs at all: it is not stopped for a fault, at `wfi`, for good, by a restart out of freewheel, by a drain or by a
flush of its ASID. -/
def State.runs (s : State) (c slot : Nat) : Bool :=
  let g := s.grp c slot
  g.occ && !g.isDraft && !g.halted && !g.wfi && s.dieRuns (dieOfCore c) && s.released c && !s.flushing g.asid &&
  decide ((s.core c).fwUntil ≤ s.clk) && decide ((s.core c).drainUntil ≤ s.clk) &&
  match g.held with
  | none => true
  | some h => h.running

/-- A waiting path of the group that holds a lane with a pending recall (R28, R127, R427). -/
def State.recallPath (s : State) (c slot : Nat) : Option Path :=
  if s.recalls.isEmpty || isLatency c then none
  else (s.grp c slot).paths.find? fun p => p.wait.counts && (lanesOf p.mask).any fun l => s.recalls.contains ((s.grp c slot).lane l).sid

/-- R28, R305: the recalled lanes of a waiting path leave; one whose operation has been performed, or whose reply has been delivered, with
the pc after the instruction. None where no lane can leave now. -/
def State.takeRecall (s : State) (c slot : Nat) : Option State :=
  match s.recallPath c slot with
  | none => none
  | some p =>
    let next := p.pc + word (s.lenAt c slot p)
    let served := s.servedLanes c slot p
    let t := (s.atPath c slot p).takeRecalls (fun l => if served.getLsbD l then next else p.pc) none
    if t.recalls = s.recalls then none else some t

/-- Whether a held group's lanes are to leave or to end now (R355, R428). -/
def Group.settles (g : Group) : Bool :=
  match g.held with
  | none => false
  | some h => g.ending != 0 || (h.running && decide (2 ≤ g.mark))

/-- Whether a strand of a latency core is to be interrupted (R140). -/
def State.interrupted (s : State) (c slot : Nat) : Bool :=
  let g := s.grp c slot
  isLatency c && !g.kt && g.signals != 0 && g.atBoundary

/-- Whether a slot has something to do at an issue turn. -/
def State.canIssue (s : State) (c slot : Nat) : Bool :=
  let g := s.grp c slot
  (g.occ && g.settles && s.dieRuns (dieOfCore c)) ||
  (s.runs c slot && (g.paths.any (·.tryable s.clk) || (s.recallPath c slot).isSome || s.interrupted c slot))

/-- Whether an active lane of the current path has arrived at its meeting address (R120). -/
def State.atMeeting (s : State) : Bool :=
  let p := s.cur.path
  !isLatency s.cid && (p.wait == .ready || p.wait == .meeting) && p.done == 0 && p.pc != 0 &&
    (lanesOf p.mask).any fun l => (s.cur.lane l).meet == p.pc

/-- The issue of an instruction counts (R126, R168). -/
def Group.issued (g : Group) (clk : Nat) : Group := { g with count := g.count + 1, lastIssue := clk }

/-- The instruction at the pc of the current path is fetched and executed (R60, R61). -/
def State.execute (s : State) : Host.Outcome State Fault Refusal :=
  match s.fetch with
  | (.fault a k h, s) => .next (s.fetchFault a k h)
  | (.poison a n, s) => .next (s.poisonTrap a n)
  | (.held r, s) => .next (s.awaitRead r)
  | (.ok i, s) => exec i (s.modCur fun g => g.issued s.clk)

/-- Safe-point overdue (R126), the meeting of the current path (R120), or its instruction. -/
def State.tryPath (s : State) : Host.Outcome State Fault Refusal :=
  if s.atMeeting then .next (s.tryMeeting s.cid s.sid)
  else if 4096 ≤ s.cur.count ∧ s.cur.path.wait = .ready ∧ !isLatency s.cid then execSafePointOverdue s.cid s.sid s
  else s.execute

/-- Whether the current path of a slot stands where `p` stood and waits. -/
def State.stillWaits (s : State) (c slot : Nat) (p : Path) : Bool :=
  let q := (s.grp c slot).path
  (s.grp c slot).occ && q.pc == p.pc && q.mask == p.mask && q.wait.waits

/-- What the current path does at its turn. A deadlock trap set in it is taken if its wait still stands (R378, R381). -/
def State.runPath (s : State) : Host.Outcome State Fault Refusal :=
  let p := s.cur.path
  match p.trap with
  | none => s.tryPath
  | some (v, m) =>
    let s' := s.modCur fun g => g.modPath fun p => { p with trap := none }
    let stands := s.stillDeadlocked s.cid s.sid p
    match p.wait with
    | .ready => s'.tryPath
    | .barrier _ _ _ _ => .next (if stands then s.takeDeadlock v m else s')
    | _ => match s'.tryPath with
      | .next t => .next (if stands && t.stillWaits s.cid s.sid p then s.takeDeadlock v m else t)
      | r => r

/-- After the turn of a path that was `g`'s current one: where it waits, its instruction has not issued (R126, R168), and the group switches
(R116), as it does where the path has left the list. The count is 0 where a wait that resets it has begun (R126). -/
def State.afterIssue (s : State) (c slot : Nat) (g : Group) : State :=
  let h := s.grp c slot
  if s.stillWaits c slot g.path then
    let w := h.path.wait
    let begun := w.counts && !g.path.wait.counts
    let s := if w.retries then s.modGrp c slot fun h => { h with lastIssue := g.lastIssue, count := if begun then 0 else g.count } else s
    s.switchPath c slot
  else if h.occ && !h.paths.isEmpty && h.path.mask &&& g.path.mask == 0 then s.meetPaths c slot
  else s

/-- A SIMT core whose groups all wait is in freewheel (R167). -/
def State.rest (s : State) (c : Nat) : State :=
  if !isLatency c && (s.core c).allWait && !(s.core c).fw then s.modCore c fun k => { k with fw := true } else s

/-- What the group of a slot does at its turn: recalled lanes leave, or its current path is tried. -/
def State.turn (s : State) (c slot : Nat) : Host.Outcome State Fault Refusal :=
  match s.takeRecall c slot with
  | some t => .next t
  | none =>
    let s' := s.switched c slot
    if !(s'.grp c slot).path.tryable s.clk then .next s
    else match s'.runPath with
      | .next t => .next (t.afterIssue c slot (s'.grp c slot))
      | r => r

/-- One issue turn of a slot. In freewheel the first event that ends a wait starts the restart, after which its path issues
(R167). -/
def State.issue (s : State) (c slot : Nat) : Host.Outcome State Fault Refusal :=
  if !s.canIssue c slot then .next s
  else
    let s := { s with focus := (c, slot) }
    if s.cur.settles then .next (s.settleHeld c slot)
    else if s.interrupted c slot then execInterrupt c slot s
    else if (s.core c).fw && !(s.core c).allWait then execFreewheelRestart c s
    else match s.lockStep c slot fun s => s.turn c slot with
    | .next t => if (s.core c).fw && !(t.core c).allWait then execFreewheelRestart c s else .next (t.rest c)
    | r => r

/-- One command of the matrix engine of a core (R230); a command word that is none stops the engine. It pauses while its cluster is drained
(R283) and while a flush of its team's ASID goes on (R338). -/
def State.engineTurn (s : State) (c : Nat) : Host.Outcome State Fault Refusal :=
  let k := s.core c
  if k.mxe.st ≠ 1 ∨ !s.dieRuns (dieOfCore c) ∨ s.clk < k.drainUntil ∨ s.flushing (s.teamAsid c (k.mxe.owner.getD 0)) then .next s
  else
    let s := { s with focus := (c, 0) }
    match s.mxFetch with
    | .ok i => exec i s
    | .error e => .next (s.mxStop e)

end Sys2Proof.Machine
end

