-- ==== Sys2Proof/Machine/Turns.lean ====
section
/-! DEFINITION. What may move next (log entry 3): the dies' own attention to their rings, the issue turns of the cores (R168), and the
events whose conditions hold. -/

namespace Sys2Proof.Machine

/-- What a die attends to before anything else moves: replies, records, arrivals and submissions that wait, and ended grids and unfired
records that waited for room (R354, R383, R393, R399, R429). -/
def State.attendDie (s : State) (d : Nat) : State :=
  let x := s.die d
  let s := if x.calls.isEmpty then s else s.testReplies d
  let s := if x.fbuf.isEmpty then s else s.drainFaults d x.fbuf.length
  let s := if x.arrWait.isEmpty then s else s.drainArrivals d x.arrWait.length
  let s := if x.pendDone.isEmpty then s else s.retryDone d
  let s := if x.unfired.isEmpty then s else s.retryInputs d
  s.drainSubmissions d

/-- The same for all dies, after the records whose counter a write has made zero or negative have fired (R367). -/
def State.attend (s : State) : State := [0, 1, 2, 3, 4, 5].foldl State.attendDie s.fireWatched

/-! The cores -/

/-- Whether a slot is ready in the sense of R168: it issues an instruction if it is tried now. -/
def State.readySlot (s : State) (c slot : Nat) : Bool :=
  s.canIssue c slot &&
  ((s.grp c slot).paths.any (fun p => p.tryable s.clk && p.wait == .ready) ||
    match ({ s with clk := s.clk + 1 }).issue c slot with
    | .next t => decide ((t.grp c slot).lastIssue = s.clk + 1)
    | _ => true)

/-- R168: the slot of greatest age among some, ties to the lower slot. -/
def State.oldest (s : State) (c : Nat) : List Nat → Option Nat
  | [] => none
  | i :: r => match s.oldest c r with
    | none => some i
    | some j => if (s.grp c j).lastIssue < (s.grp c i).lastIssue then some j else some i

/-- The issue turns of a core: the oldest ready group, and every group that is not ready but whose waits are tested. -/
def State.issueTurns (s : State) (c : Nat) : List Turn :=
  let slots := ((s.core c).slots.map (·.1)).filter (s.canIssue c)
  let ready := slots.filter (s.readySlot c)
  let waiting := slots.filter fun i => !s.readySlot c i
  ((s.oldest c ready).toList ++ waiting).map fun i => .issue c i

/-- An event that may move under a condition. -/
def turnIf (b : Bool) (i : Instr) : List Turn := if b then [.event i] else []

/-- The indices of a list whose elements have a property. -/
def indicesOf {α : Type} (l : List α) (p : α → Bool) : List Nat := (List.range l.length).filter fun i => (at? l i).any p

/-- The turns of a SIMT core besides issue. -/
def State.coreTurns (s : State) (c : Nat) (k : Core) : List Turn :=
  let copies := indicesOf k.async fun a => a.stalled.isNone && !s.flushing a.asid && decide (a.again ≤ s.clk)
  let splits := k.slots.filter fun x => x.2.occ && x.2.splitPath.isSome && k.freeHeld.isSome
  List.flatten [
    if k.mxe.st = 1 then [Turn.engine c] else [],
    turnIf k.illegal.isSome (.clusterDrain c),
    (k.l1.filter fun x => x.2.bad && x.2.um != 0).map fun x => Turn.outside (.l1Error c x.1),
    turnIf (k.fw && !k.allWait) (.freewheelRestart c),
    turnIf (s.sampleDue c && !s.flushing k.sasid) (.sample c),
    (k.chans.filter fun x => s.extendDue c x.1).map fun x => Turn.event (.channelExtend c x.1),
    copies.map fun i => Turn.event (.asyncCopyComplete c i),
    splits.map fun x => Turn.event (.heldSlotSplit c x.1),
    (k.slots.filter fun x => s.maySwap c x.1).map fun x => Turn.event (.swapOut c x.1),
    (k.teams.filter fun x => x.2.mayMove s.clk).map fun x => Turn.event (.pendingLaunchMove c x.1),
    (k.teams.filter fun x => x.2.occ && x.2.preempting).map fun x => Turn.event (.teamPreempt c x.1)]

/-- The turns of a latency core besides issue. -/
def latencyTurns (c : Nat) (k : Core) : List Turn :=
  (k.slots.filter fun (_, g) => g.occ && g.wfi && g.signals != 0).map fun (i, _) => .event (.wfiWake c i)

/-! The dies -/

/-- Whether the effective priority of a team of die d, placed or saved, is no longer what lending makes it (R379). -/
def State.lendDue (s : State) (d : Nat) : Bool :=
  let eff := s.effOf s.lends
  s.cores.any (fun (c, k) => dieOfCore c == d && k.teams.any fun (_, t) => t.occ && t.eff != eff t.id) ||
  (s.die d).lvl.any fun (_, rs) => rs.any fun r => match r.work with
    | .resume zs => zs.any fun z => z.team.occ && z.team.eff != eff z.team.id
    | _ => false

/-- The turns of the scheduler of a compute die. A placement, a restore and the packer wait for the flush of an ASID that they would translate
for (R338). -/
def State.schedTurns (s : State) (d : Nat) (x : Die) : List Turn :=
  let placed := x.lvl.any (fun l => !l.2.isEmpty) && x.lvl.all fun l => l.2.all fun r => !s.flushing r.work.asid
  let asked := s.cores.any fun c => dieOfCore c.1 == d && c.2.teams.any fun t => t.2.occ && t.2.asked && !t.2.preempting
  let late := x.lvl.any fun l => l.2.head?.any fun r => decide (r.lastPlace + 65536 ≤ s.clk)
  let fired := indicesOf x.conts fun y => s.contReady d y && !s.flushing y.group.asid
  List.flatten [
    turnIf placed (.teamPlacement d),
    turnIf (late || asked) (.preemptTrigger d),
    turnIf (x.lvl.any fun l => l.2.any (s.aged d l.1)) (.recordAging d),
    turnIf (decide (x.lastExam < s.clk / 65536 * 65536)) (.deadlockExamination d),
    turnIf (s.lendDue d) (.lendRecompute d),
    fired.map fun i => Turn.event (.continuationFire d i),
    turnIf ((s.nextStalled d).isSome || (s.nextBlock d).isSome) (.viewRefresh d),
    ((List.range x.wins.length).filter (s.windowDue d)).map fun i => Turn.event (.packingWindowClose d i),
    turnIf (!x.packq.isEmpty && x.packq.all fun p => !s.flushing p.asid) (.packerArrival d)]

/-- Whether a scrubber is behind an even pace toward its deadline (R309). -/
def State.scrubDue (s : State) (d k : Nat) : Bool :=
  let x := s.scrubber d k
  decide (x.pos * s.scrubDeadline d k < (s.time - x.start.toNat) * scrubTotal d)

/-- The turns of a die that do not belong to its scheduler. -/
def State.dieTurns (s : State) (d : Nat) (x : Die) : List Turn :=
  let scrubs := (if isCompute d then [0, 1] else [0]).filter (s.scrubDue d)
  let ended := x.grants.filter fun g => decide (s.grantEnd d g ≤ s.clk)
  List.flatten [
    (x.egress.map (·.home)).dedup.map fun h => Turn.event (.writeAtHome d h),
    scrubs.map fun k => Turn.event (.scrubLine d k),
    turnIf x.trBusy (.asidFlushDone d),
    ended.map fun g => Turn.event (.leaseExpiry d g.line),
    (indicesOf x.leases fun l => !s.leaseValid d l).map fun i => Turn.event (.leaseValidityEnd d i),
    turnIf (x.lock && s.syncOld d) (.lockLoss d)]

/-- Everything that may move next. -/
def State.turns (s : State) : List Turn :=
  (s.cores.flatMap fun (c, k) =>
    if !s.dieRuns (dieOfCore c) then []
    else s.issueTurns c ++ (if isLatency c then latencyTurns c k else s.coreTurns c k)) ++
  [0, 1, 2, 3, 4, 5].flatMap fun d =>
    let x := s.die d
    if x.lost || x.ps == 3 then [] else (if isCompute d then s.schedTurns d x else []) ++ s.dieTurns d x

/-- The next turn: what the agenda says, otherwise the next of the turns in rotation. The state comes back as that turn finds it, one
clk later (log entry 3). Irreducible for elaboration only, so that a comparison of terms never starts to run the machine. -/
@[irreducible] def State.nextTurn (s : State) : Option Turn × State :=
  match s.agenda with
  | t :: r => (some t, { s with agenda := r, clk := s.clk + 1 })
  | [] =>
    let ts := s.turns
    (at? ts (s.rr % ts.length), { s with rr := s.rr + 1, clk := s.clk + 1 })

/-! What comes from outside (log entry 128) -/

/-- R17, R145: system software writes `cr.ssa` of a lane that is held, or that awaits a held slot. The save area of a held lane is written
then (R19). -/
def State.writeSsa (s : State) (c slot l : Nat) (v : Word) : State :=
  let g := s.grp c slot
  let waits := g.held.isSome || g.paths.any fun p => p.mask.getLsbD l && match p.wait with | .split _ _ _ _ => true | _ => false
  if g.occ && g.live.getLsbD l && waits then
    let s := s.modGrp c slot fun g => g.modLane l fun r => { r with ssa := v }
    if g.held.isSome then s.saveHeldLane c slot l else s
  else s

/-- An error in a line of memory (R308, R356, R402): one that ECC corrects, or one that makes the line poisoned. -/
def State.memoryError (s : State) (line : Nat) (hard : Bool) : State :=
  match region (128 * line) with
  | .dram _ =>
    if hard then { s with ecc := set 0 s.ecc line 2, poison := if s.poison.contains line then s.poison else line :: s.poison }
    else if get 0 s.ecc line = 0 then { s with ecc := set 0 s.ecc line 1 } else s
  | _ => s

/-- R356: a line of a core's L1 becomes uncorrectable. Where it holds unpublished bytes every team of the core consumes it, and the line
goes; without room for their records that waits (R354). -/
def State.l1Error (s : State) (c line : Nat) : State :=
  let l := (s.core c).line line
  let bad := s.modCore c fun k => k.setLine line { l with bad := true }
  if l = L1Line.zero then s
  else if l.um = 0 ∨ isLatency c then bad
  else
    let ts := ((s.core c).slots.filter fun (i, g) => g.occ && !g.isDraft && decide (i < 32)).foldl
      (fun (ts : List (Nat × Nat)) (x : Nat × Group) => if ts.any fun y => y.1 == x.2.team then ts else ts ++ [(x.2.team, x.1)]) []
    let t := s.modCore c fun k => k.setLine line L1Line.zero
    let t := ts.foldl (fun (s : State) (y : Nat × Nat) => ({ s with focus := (c, y.2) }).contain 0x17 l.va l.va.toNat) t
    if s.withinRoom && !t.withinRoom then bad else t

/-- The run-ahead of an instruction fetcher (R348): the line of an address at most 256 bytes beyond the pc of a lane's path. -/
def State.fetchAhead (s : State) (c slot l k : Nat) : State :=
  let g := s.grp c slot
  let va := g.pcOf l + word k
  if !g.occ || !g.live.getLsbD l || k = 0 || decide (256 < k) then s
  else match s.aheadXl c g.asid va .fetch g.priv with
  | (none, s) => s
  | (some x, s) =>
    if s.aheadRefused c g.asid x then (s.countRefusal c).dropObject c (asidOf g.asid) x.obj
    else if s.mayHold c (x.pa / 128) then s.fill c (x.pa / 128) (x.lineId g.asid va) false
    else s

/-- The look-ahead of an asynchronous engine for one of its commands (R348): it keeps no copy, so that what stays of it is in the translation
caches. -/
def State.lookAhead (s : State) (c tag : Nat) (va : Word) : State :=
  match (s.core c).async.find? fun a => a.tag == tag with
  | none => s
  | some a => match s.aheadXl c a.asid va .read false with
    | (none, s) => s
    | (some x, s) => if s.aheadRefused c a.asid x then (s.countRefusal c).dropObject c (asidOf a.asid) x.obj else s

/-- What an event from outside does. -/
def State.outside (s : State) (o : Outside) : State :=
  match o with
  | .writeSsa c slot l v => s.writeSsa c slot l v
  | .kill asid => s.killProcess asid
  | .memoryError line hard => s.memoryError line hard
  | .l1Error c line => s.l1Error c line
  | .localError c granule => s.modCore c fun k => { k with poison := if k.poison.contains granule then k.poison else granule :: k.poison }
  | .channelError c n place => s.modCore c fun k =>
    let h := k.chan n
    if place < h.hw.length + h.ov.length ∧ !h.bad.contains place then k.setChan n { h with bad := place :: h.bad } else k
  | .registerError c slot l granule => s.modGrp c slot fun g =>
    if g.occ && g.live.getLsbD l && decide (granule < 32) && !g.regPoison.contains (32 * l + granule) then
      { g with regPoison := (32 * l + granule) :: g.regPoison }
    else g
  | .residue c => s.modCore c fun k => { k with mxe := { k.mxe with upset := k.mxe.upset + 1 } }
  | .illegalState c t kind => { s.modCore c (fun k => { k with illegal := some (t, kind) }) with agenda := .event (.clusterDrain c) :: s.agenda }
  | .viewIllegal d n b => if s.recordRoom d 1 then s.viewIllegal d n b else s
  | .fetchAhead c slot l k => s.fetchAhead c slot l k
  | .lookAhead c tag va => s.lookAhead c tag va
  | .verify d ok => s.verify d ok
  | .inbound pkg pa n how v => s.inboundOp pkg pa n how v
  | .serveWord pa => s.serveAt pa
  | .flitPassed d port => s.flitPassed d port
  | .hdm d host size pa => s.modDie d fun x => { x with hdm := x.hdm ++ [(host, size, pa)] }

/-- One turn. -/
def State.runTurn (s : State) (t : Turn) : Host.Outcome State Fault Refusal :=
  match t with
  | .issue c slot => s.issue c slot
  | .engine c => s.engineTurn c
  | .event i => exec i s
  | .outside o => .next (s.outside o)

/-- An error in the registers of one group, which the group that runs with it in draft mode does not share. -/
def Turn.ofOneGroup : Turn → Bool
  | .outside (.registerError _ _ _ _) => true
  | _ => false

/-- Draft groups follow their leaders after a turn. -/
def followed (s : State) (r : Host.Outcome State Fault Refusal) : Host.Outcome State Fault Refusal :=
  match r with
  | .next t => .next (s.follow t)
  | .fault f => .fault f
  | .refused f => .refused f

end Sys2Proof.Machine
end

