-- ==== Sys2Proof/Machine/Start.lean ====
section
/-! DEFINITION. A machine that is about to fetch a given instruction: one group of one lane on core 0, with its code mapped by the
inverted tables that a die uses after reset (R349, R350, R410). -/

namespace Sys2Proof.Machine

/-- The group: one lane, about to execute at the first byte of virtual page 1. -/
def startedGroup (clk : Nat) : Group :=
  { Group.empty with occ := true, live := 1, jmask := set 0 [] 0 1, paths := [Path.start 0x8000 1], lastIssue := clk }

/-- Core 0 with that group, alone, in slot 0 and its team in entry 0. -/
def startedCore (clk : Nat) : Core :=
  { Core.empty with
    slots := [(0, startedGroup clk)], split := ⟨4, 4, 20⟩
    teams := [(0, { Team.empty with occ := true, groups := 1 })] }

/-- Memory with a program of 16 bytes at frame 2,048 of stack 0, mapped at virtual page 1 of ASID 0 with every right: the anchor of
its hash chain, the entry and the bytes (R350). -/
def startedMem (m : Mem) (w : Nat) : Mem :=
  writeBytes (writeBytes (writeBytes m (2 ^ 26) 16 w) (16 * 2048) 16 (0xF000000000000001 + 0xFFFFFFFF * 2 ^ 64)) (2 ^ 25 + 4) 4 2048

/-- The state whose next step executes the instruction of bits `w` in that group. -/
def State.started (s : State) (w : Nat) : State :=
  { (s.setCore 0 (startedCore s.clk)).modDie 0 fun x => { x with trMode := true, invs := set 0 x.invs 0 0, lost := false, ps := 0 } with
    mem := startedMem s.mem (w % 2 ^ 128), poison := s.poison.filter fun l => l != 2 ^ 19, agenda := [.issue 0 0] }

end Sys2Proof.Machine
end

