-- ==== Sys2Proof/Machine/Step.lean ====
section
/-! DEFINITION. One step of the package, and a state that is about to fetch a given instruction. -/

namespace Sys2Proof.Machine

/-- One step: the dies attend to their rings, then one turn is taken (log entry 3). -/
def step (s : State) : Host.Outcome State Fault Refusal :=
  let a := s.follow s.attend
  match a.nextTurn with
  | (none, t) => .next t
  | (some turn, t) => if turn.ofOneGroup then t.runTurn turn else followed a (t.runTurn turn)

/-- `s` with the instruction of bits `w` where the next step fetches: programs come from a launch record, from the packer or from
system software, and this stands for that (log entry 22). -/
def State.withFetchWord (s : State) (_nbits w : Nat) : State := s.started w

end Sys2Proof.Machine
end

