-- ==== Sys2Proof/Safety.lean ====
section
/-! DEFINITION. What counts as a safe state and a safe step of the package, and the terms in which the statements about it are
written: when an instruction is turned away by nothing, and what a step leaves alone. -/

namespace Sys2Proof

/-- The invariant of the memory: every physical byte is listed once, in rising order, and no byte that reads as an unlisted one. -/
def Safe (s : Machine.State) : Prop := Machine.Memory.wf s.mem = true

/-- A step is safe when the package goes on, in a safe state. -/
def SafeStep (s : Machine.State) : Prop := ∃ t, Machine.step s = .next t ∧ Safe t

end Sys2Proof

namespace Sys2Proof.Machine

/-- R70, R84, R131, R356: the lanes `ls` act, in ascending order, and neither privilege nor the kind of core nor a poisoned
register turns the instruction away. -/
structure Enabled (s : State) (i : Instr) (ls : List Nat) : Prop where
  lanes : s.acting i.operands.g = ls
  some_ : ls ≠ []
  priv : i.privileged = true → s.cur.priv = true
  core : i.simtOnly = true → isLatency s.cid = false
  clean : s.readsPoison i ls = false

/-- R85, R184, R189, R356: the constant-bank operands can be read, the group may use every queue register that is named, and each can serve
the instruction now, with no poisoned entry. `ka`, `kb` and `kc` are the constants, for a queue register the entries that the sources before it
take, otherwise 0; `t` is the state after the reads. -/
structure Fed (s : State) (i : Instr) (ls : List Nat) (ka kb kc : Word) (t : State) : Prop where
  consts : ∃ (na nb nc : Nat) (s1 s2 : State),
    s.constant i.sources.1.1 i.sources.1.2 = (.data na, s1) ∧ s1.constant i.sources.2.1.1 i.sources.2.1.2 = (.data nb, s2) ∧
    s2.constant i.sources.2.2.1 i.sources.2.2.2 = (.data nc, t) ∧ ka = word na ∧
    kb = word (nb + t.queueSkip [i.sources.1.2] ls i.sources.2.1.2) ∧
    kc = word (nc + t.queueSkip [i.sources.1.2, i.sources.2.1.2] ls i.sources.2.2.2)
  usable : t.badQueue i.operands = none
  ready : t.slowQueue ls i.operands = none
  sound : t.poppedBad ls i.operands = false

/-- The value of operand a in a lane. -/
def State.opA (s : State) (i : Instr) (k : Word) (ls : List Nat) (l : Nat) : Word := s.src i.sources.1.1 k ls l i.sources.1.2

/-- The value of operand b in a lane. -/
def State.opB (s : State) (i : Instr) (k : Word) (ls : List Nat) (l : Nat) : Word := s.src i.sources.2.1.1 k ls l i.sources.2.1.2

/-- The value of operand c in a lane. -/
def State.opC (s : State) (i : Instr) (k : Word) (ls : List Nat) (l : Nat) : Word := s.src i.sources.2.2.1 k ls l i.sources.2.2.2

/-- Nothing has changed but cores. -/
def OnlyCores (s t : State) : Prop := { t with cores := s.cores } = s

/-- Nothing has changed but dies. -/
def OnlyDies (s t : State) : Prop := { t with dies := s.dies } = s

/-- Nothing has changed but core c. -/
structure OnlyCore (s t : State) (c : Nat) : Prop where
  rest : OnlyCores s t
  cores : ∀ e, e ≠ c → t.core e = s.core e

/-- Nothing has changed but die d. -/
structure OnlyDie (s t : State) (d : Nat) : Prop where
  rest : OnlyDies s t
  dies : ∀ e, e ≠ d → t.die e = s.die e

/-- Nothing has changed but the group in a slot of core c: no memory byte, no other core, no other slot, no team, no die. -/
structure OnlySlot (s t : State) (c slot : Nat) : Prop where
  core : OnlyCore s t c
  parts : { t.core c with slots := (s.core c).slots } = s.core c
  slots : ∀ i, i ≠ slot → t.grp c i = s.grp c i

/-- Nothing of a group has changed but its lanes and its paths. -/
def OnlyLanes (g h : Group) : Prop := { h with lanes := g.lanes, paths := g.paths } = g

/-- Nothing of a group has changed but its paths. -/
def OnlyPaths (g h : Group) : Prop := { h with paths := g.paths } = g

/-- Of a group's paths, the current one goes on at `pc` with its lanes, its instruction ended; the others stay. -/
structure GoesTo (g h : Group) (pc : Word) : Prop where
  pc : h.path.pc = pc
  mask : h.path.mask = g.path.mask
  others : h.paths.drop 1 = g.paths.drop 1
  length : h.paths.length = g.paths.length

end Sys2Proof.Machine
end

