-- ==== Sys2Proof/Certificates/Slice0/Obligations.lean ====
section
/-! DEFINITION. The statements for the provers, with the few terms in which they are written. -/

namespace Sys2Proof.Claims

open Machine

/-! The results of integer instructions (R89-R95), written over bit vectors of the instruction's width -/

/-- R89: the low W bits of an operand. -/
def low (m : IntMod) (a : Word) : BitVec (Wb m.w) := a.setWidth (Wb m.w)

/-- R89: a W-bit result extended to 64 bits under the S bit. -/
def wide (m : IntMod) (r : BitVec (Wb m.w)) : Word := if m.sgn then r.signExtend 64 else r.setWidth 64

/-- R89: an operand read under the S bit. -/
def val (m : IntMod) (a : Word) : Int := if m.sgn then (low m a).toInt else ((low m a).toNat : Int)

/-- R90: the exact result, clamped with SAT, wrapped without. -/
def fit (m : IntMod) (v : Int) : Word :=
  let lo : Int := if m.sgn then -(2 ^ (Wb m.w - 1)) else 0
  let hi : Int := if m.sgn then 2 ^ (Wb m.w - 1) - 1 else 2 ^ Wb m.w - 1
  wide m (BitVec.ofInt (Wb m.w) (if m.sat then (if v < lo then lo else if hi < v then hi else v) else v))

/-- R92: the exact quotient and its two decided cases. -/
def quotient (m : IntMod) (a b : Int) : Int := if b = 0 then (if m.sgn then -1 else 2 ^ Wb m.w - 1) else a.tdiv b

/-- R92: the remainder. -/
def remainder (a b : Int) : Int := if b = 0 then a else a.tmod b

/-- R93: the field of a descriptor in W bits. -/
def field (w : Nat) (f : Word) : Nat × Nat :=
  let pos := (f.extractLsb' 0 7).toNat
  let len := (f.extractLsb' 8 7).toNat
  if w ≤ pos then (pos, 0) else (pos, min len (w - pos))

/-- R94: the condition. -/
def holds (c : BitVec 4) (a b : Int) : Bool :=
  if c = 0 then decide (a = b) else if c = 1 then decide (a ≠ b) else if c = 2 then decide (a < b)
  else if c = 3 then decide (a ≤ b) else if c = 4 then decide (a > b) else decide (a ≥ b)

/-- R91, R92: the arithmetic instructions of two or three operands. -/
def arithmetic : Instr → Option (Operands × IntMod × (Word → Word → Word → Word))
  | .add o m => some (o, m, fun a b _ => fit m (val m a + val m b))
  | .sub o m => some (o, m, fun a b _ => fit m (val m a - val m b))
  | .min o m => some (o, m, fun a b _ => wide m (if val m a ≤ val m b then low m a else low m b))
  | .max o m => some (o, m, fun a b _ => wide m (if val m a ≤ val m b then low m b else low m a))
  | .abs o m => some (o, m, fun a _ _ => fit m |val m a|)
  | .mul o m => some (o, m, fun a b _ => fit m (val m a * val m b))
  | .mulh o m => some (o, m, fun a b _ => wide m (BitVec.ofInt (Wb m.w) (val m a * val m b / 2 ^ Wb m.w)))
  | .mad o m => some (o, m, fun a b c => fit m (val m a * val m b + val m c))
  | .div o m => some (o, m, fun a b _ => fit m (quotient m (val m a) (val m b)))
  | .rem o m => some (o, m, fun a b _ => wide m (BitVec.ofInt (Wb m.w) (remainder (val m a) (val m b))))
  | _ => none

/-- R91: logic, shifts and selection. -/
def bitwise : Instr → Option (Operands × IntMod × (Word → Word → Word → Word))
  | .and o m => some (o, m, fun a b _ => wide m (low m a &&& low m b))
  | .or o m => some (o, m, fun a b _ => wide m (low m a ||| low m b))
  | .xor o m => some (o, m, fun a b _ => wide m (low m a ^^^ low m b))
  | .andn o m => some (o, m, fun a b _ => wide m (low m a &&& ~~~low m b))
  | .shl o m => some (o, m, fun a b _ => wide m (low m a <<< ((low m b).toNat % Wb m.w)))
  | .shr o m => some (o, m, fun a b _ => wide m (low m a >>> ((low m b).toNat % Wb m.w)))
  | .sra o m => some (o, m, fun a b _ => wide m ((low m a).sshiftRight ((low m b).toNat % Wb m.w)))
  | .rot o m => some (o, m, fun a b _ => wide m ((low m a).rotateLeft ((low m b).toNat % Wb m.w)))
  | .mov o m => some (o, m, fun a _ _ => wide m (low m a))
  | .sel o m => some (o, m, fun a b c => wide m (if c.getLsbD 0 then low m a else low m b))
  | _ => none

/-- R91, R93, R94, R95: counts, fields, comparison, extension and addresses. -/
def fields : Instr → Option (Operands × IntMod × (Word → Word → Word → Word))
  | .clz o m => some (o, m, fun a _ _ =>
      BitVec.ofNat 64 ((List.range (Wb m.w)).takeWhile fun j => !(low m a).getLsbD (Wb m.w - 1 - j)).length)
  | .ctz o m => some (o, m, fun a _ _ => BitVec.ofNat 64 ((List.range (Wb m.w)).takeWhile fun j => !(low m a).getLsbD j).length)
  | .popc o m => some (o, m, fun a _ _ => BitVec.ofNat 64 ((List.range (Wb m.w)).countP fun j => (low m a).getLsbD j))
  | .brev o m => some (o, m, fun a _ _ => wide m (low m a).reverse)
  | .bfx o m => some (o, m, fun a b _ =>
      let (pos, n) := field (Wb m.w) b
      if m.sgn then ((low m a).extractLsb' pos n).signExtend 64 else ((low m a).extractLsb' pos n).setWidth 64)
  | .bfi o m => some (o, m, fun a b c =>
      let (pos, n) := field (Wb m.w) c
      let mask := BitVec.ofNat (Wb m.w) (2 ^ n - 1) <<< pos
      wide m ((low m b &&& ~~~mask) ||| ((low m a <<< pos) &&& mask)))
  | .cmp o m => some (o, m, fun a b _ => if holds m.cond (val m a) (val m b) then 1 else 0)
  | .ext o m => some (o, m, fun a b _ =>
      let k := (b.extractLsb' 0 6).toNat + 1
      if m.sgn then (a.setWidth k).signExtend 64 else (a.setWidth k).setWidth 64)
  | .lea o m => some (o, m, fun a b c =>
      a.extractLsb' 40 24 ++ (a.setWidth 40 + (b <<< (c.extractLsb' 0 3).toNat).setWidth 40))
  | _ => none

/-- What a family of integer instructions does: every well-formed one that nothing turns away writes, in each acting lane, the value
that the family's table gives for the lane's operands, and goes on. -/
def Computes (family : Instr → Option (Operands × IntMod × (Word → Word → Word → Word))) : Prop :=
  ∀ i o m f, family i = some (o, m, f) → i.wf = true → ∀ s ls ka kb kc t, Enabled s i ls → Fed s i ls ka kb kc t →
    exec i s = .next (t.finish i ls fun l => f (t.opA i ka ls l) (t.opB i kb ls l) (t.opC i kc ls l))

/-! Floating point (R31-R49, R96-R108) -/

/-- The per-lane function of an arithmetic instruction: `cr.fcsr` and the operands give the result and the exceptions. -/
def floating : Instr → Option (Word → Word → Word → Word → Word × Fp.Exc)
  | .fadd _ m => some fun f a b _ => fres ((Fp.fmtOf m.t).add (rmOf m.rm f) m.ftz (fop m.t m.ftz a) (fop m.t m.ftz b))
  | .fsub _ m => some fun f a b _ => fres ((Fp.fmtOf m.t).sub (rmOf m.rm f) m.ftz (fop m.t m.ftz a) (fop m.t m.ftz b))
  | .fmul _ m => some fun f a b _ => fres ((Fp.fmtOf m.t).mul (rmOf m.rm f) m.ftz (fop m.t m.ftz a) (fop m.t m.ftz b))
  | .ffma _ m => some fun f a b c =>
      fres ((Fp.fmtOf m.t).fma (rmOf m.rm f) m.ftz (fop m.t m.ftz a) (fop m.t m.ftz b) (fop m.t m.ftz c))
  | .fdiv _ m => some fun f a b _ => fres ((Fp.fmtOf m.t).div (rmOf m.rm f) m.ftz (fop m.t m.ftz a) (fop m.t m.ftz b))
  | .fsqrt _ m => some fun f a _ _ => fres ((Fp.fmtOf m.t).sqrt (rmOf m.rm f) m.ftz (fop m.t m.ftz a))
  | .fmin _ m => some fun _ a b _ => fres ((Fp.fmtOf m.t).minmax false m.ftz (fop m.t m.ftz a) (fop m.t m.ftz b))
  | .fmax _ m => some fun _ a b _ => fres ((Fp.fmtOf m.t).minmax true m.ftz (fop m.t m.ftz a) (fop m.t m.ftz b))
  | .fneg _ m => some fun _ a _ _ => (word ((Fp.fmtOf m.t).negate m.ftz (fpat m.t a)), 0)
  | .fclass _ m => some fun _ a _ _ => (word ((Fp.fmtOf m.t).classMask m.ftz (fpat m.t a)), 0)
  | .fcmp _ m => some fun _ a b _ =>
      let r := Fp.compare m.rm.toNat m.sig (fop m.t m.ftz a) (fop m.t m.ftz b)
      (if r.1 then 1 else 0, r.2)
  | .frcp _ m => some fun _ a _ _ => fres ((Fp.fmtOf m.t).estimate .rcp m.ftz (fpat m.t a))
  | .frsq _ m => some fun _ a _ _ => fres ((Fp.fmtOf m.t).estimate .rsq m.ftz (fpat m.t a))
  | .fex2 _ m => some fun _ a _ _ => fres ((Fp.fmtOf m.t).estimate .ex2 m.ftz (fpat m.t a))
  | .flg2 _ m => some fun _ a _ _ => fres ((Fp.fmtOf m.t).estimate .lg2 m.ftz (fpat m.t a))
  | .fround _ m => some fun f a _ _ => fres ((Fp.fmtOf m.t).roundInt (rmOf m.rm f) m.ftz (fop m.t m.ftz a))
  | .fcvt _ m => some fun f a _ _ => fres ((Fp.fmtOf m.td).convert (rmOf m.rm f) m.ftz (fop m.ts m.ftz a))
  | .fcvti _ m => some fun f a _ _ => cvtToInt m true f a
  | .fcvtiU _ m => some fun f a _ _ => cvtToInt m false f a
  | .icvtf _ m => some fun f a _ _ => cvtFromInt m true f a
  | .icvtfU _ m => some fun f a _ _ => cvtFromInt m false f a
  | .hadd2 _ m => some fun f a b _ => packLanes m (fun F x y _ => F.add (rmOf m.rm f) m.ftz x y) a b 0
  | .hmul2 _ m => some fun f a b _ => packLanes m (fun F x y _ => F.mul (rmOf m.rm f) m.ftz x y) a b 0
  | .hfma2 _ m => some fun f a b c => packLanes m (fun F x y z => F.fma (rmOf m.rm f) m.ftz x y z) a b c
  | .dot2 _ m => some fun f a b c => fres (Fp.f32.dot (rmOf m.rm f) m.ftz (dot2Products m a b) (fop .f32 m.ftz c))
  | .dot4 _ m => some fun f a b c =>
      if m.nf = 8 then (dot4Int a b c, 0) else fres (Fp.f32.dot (rmOf m.rm f) m.ftz (dot4Products m a b) (fop .f32 m.ftz c))
  | _ => none

/-- The per-lane function of a block-scaled instruction that writes one register: of the lane's registers and `cr.fcsr`. -/
def scaled : Instr → Option (Group → Nat → Word → Word × Fp.Exc)
  | .qcvt o m => some fun g l b => quantize8 m false (g.lane l).fcsr b (g.wide l (Src_reg o.a) false)
  | .qcvtBf16 o m => some fun g l b => quantize8 m true (g.lane l).fcsr b (g.wide l (Src_reg o.a) true)
  | .bscale o m => some fun g l _ => fres (Fp.scaleOf (Fp.Elem.ofCode m.nf.toNat) ((List.range 32).map fun j =>
      fop .f32 m.ftz (word (g.wide l (Src_reg o.a) false j))))
  | .bscaleBf16 o m => some fun g l _ => fres (Fp.scaleOf (Fp.Elem.ofCode m.nf.toNat) ((List.range 32).map fun j =>
      fop .bf16 m.ftz (word (g.wide l (Src_reg o.a) true j))))
  | _ => none

/-- Whether no exception of any acting lane traps there (R38, R40). -/
def untrapped (s : State) (ls : List Nat) (e : Nat → Fp.Exc) : Prop := ∀ l ∈ ls, e l &&& (s.cur.lane l).fcsr.extractLsb' 8 5 = 0

/-- The rational number that a finite value is. -/
def rat (neg : Bool) (m : Nat) (e : Int) : ℚ := (if neg then -1 else 1) * m * (2 : ℚ) ^ e

/-! Lanes together (R109-R114) -/

/-- The lane that a shuffle takes its value from (R112). -/
def from_ (i : Instr) (l : Nat) (b : Word) : Option Nat :=
  match i with
  | .shflIdx _ g => some (l / 2 ^ g.toNat * 2 ^ g.toNat + b.toNat % 2 ^ g.toNat)
  | .shflUp _ g => some (if b.toNat % 2 ^ g.toNat ≤ l % 2 ^ g.toNat then l - b.toNat % 2 ^ g.toNat else l)
  | .shflDown _ g => some (if l % 2 ^ g.toNat + b.toNat % 2 ^ g.toNat < 2 ^ g.toNat then l + b.toNat % 2 ^ g.toNat else l)
  | .shflXor _ g => some (l / 2 ^ g.toNat * 2 ^ g.toNat + (l % 2 ^ g.toNat ^^^ b.toNat % 2 ^ g.toNat))
  | _ => none

/-- A vote's common result from the operands of the acting lanes (R110). -/
def vote (i : Instr) (ls : List Nat) (a : Nat → Word) : Option Word :=
  match i with
  | .voteAny _ => some (if ∃ l ∈ ls, (a l).getLsbD 0 = true then 1 else 0)
  | .voteAll _ => some (if ∀ l ∈ ls, (a l).getLsbD 0 = true then 1 else 0)
  | .voteUni _ => some (if ∀ l ∈ ls, ∀ m ∈ ls, a l = a m then 1 else 0)
  | .voteBallot _ => some (BitVec.ofNat 64 ((ls.filter fun l => (a l).getLsbD 0).map fun l => 2 ^ l).sum)
  | _ => none

/-- The combination of two values in an integer reduction of W bits (R114). -/
def reduction : Instr → Option (IntMod × (Int → Int → Int))
  | .reduxAdd _ m => some (m, fun a b => a + b)
  | .reduxMin _ m => some (m, fun a b => if a ≤ b then a else b)
  | .reduxMax _ m => some (m, fun a b => if a ≤ b then b else a)
  | .reduxAnd _ m => some (m, fun a b => ((BitVec.ofInt (Wb m.w) a &&& BitVec.ofInt (Wb m.w) b).toNat : Int))
  | .reduxOr _ m => some (m, fun a b => ((BitVec.ofInt (Wb m.w) a ||| BitVec.ofInt (Wb m.w) b).toNat : Int))
  | .reduxXor _ m => some (m, fun a b => ((BitVec.ofInt (Wb m.w) a ^^^ BitVec.ofInt (Wb m.w) b).toNat : Int))
  | _ => none

/-- The step of a floating-point reduction (R114). -/
def reductionFp : Instr → Option (FpMod × (Nat → Fp.Val → Fp.Val → Nat × Fp.Exc))
  | .reduxFadd _ m => some (m, fun rm x y => (Fp.fmtOf m.t).add rm m.ftz x y)
  | .reduxFmin _ m => some (m, fun _ x y => (Fp.fmtOf m.t).minmax false m.ftz x y)
  | .reduxFmax _ m => some (m, fun _ x y => (Fp.fmtOf m.t).minmax true m.ftz x y)
  | _ => none

/-- What a join-mask instruction makes of the old mask and of m (R111). -/
def joinMask : Instr → Option (Mask → Mask → Mask)
  | .jmaskMov _ => some fun _ m => m
  | .jmaskAnd _ => some fun j m => j &&& m
  | .jmaskOr _ => some fun j m => j ||| m
  | .jmaskAndn _ => some fun j m => j &&& ~~~m
  | _ => none

/-! Memory (R181-R203) -/

/-- Every acting lane's address lies at a place: within its segment's limit, aligned, in a space that the team may use, and with a sum that
does not carry into a cluster rank. -/
def Placed (s : State) (sp : Space) (n : Nat) (carried : Nat → Bool) (eas : List (Nat × Word)) (ps : List (Nat × Place)) : Prop :=
  ps.map (·.1) = eas.map (·.1) ∧
  List.Forall₂ (fun e p => s.placeAt sp (eas.headD (0, 0)).1 n carried e = some p.2) eas ps ∧ (sp = .acc → s.ownsEngine = true)

/-- No address is the sum of a base and an offset, so none carries into another field (R182). -/
def noCarry (_ : Nat) : Bool := false

/-- A release of the issuing core at a scope leaves nothing unpublished: no byte waits for a lease or for a new translation (R206, R345,
R418). -/
def Sent (s : State) (sc : Scope) : Prop := sc = .core ∨ (s.publish sc s.cid).leftover (s.publish sc s.cid).cid = []

/-- The scope at which an atomic releases (R198). -/
def relScope (ord : Order) (sc : Scope) : Scope := if ord = .rel ∨ ord = .ar then sc else .core

/-- The addresses a + b of the acting lanes. -/
def sums (s : State) (i : Instr) (ls : List Nat) (ka kb : Word) : List (Nat × Word) :=
  ls.map fun l => (l, s.opA i ka ls l + s.opB i kb ls l)

/-- The operation of an atomic on n bytes of memory m with operand v (R196), and whether a STRICT cassette forbids it (R278). -/
def atomicOp : Instr → Option (AtomMod × Bool × (Nat → Nat → Nat → Nat))
  | .amoAdd _ m | .amoFAdd _ m => some (m, false, fun n x v => (x + v) % 256 ^ n)
  | .amoOr _ m | .amoFOr _ m => some (m, false, fun _ x v => x ||| v)
  | .amoAnd _ m | .amoFAnd _ m => some (m, true, fun _ x v => x &&& v)
  | .amoXor _ m | .amoFXor _ m => some (m, true, fun _ x v => x ^^^ v)
  | .amoSmin _ m | .amoFSmin _ m => some (m, false, fun n x v =>
      if (BitVec.ofNat (8 * n) x).toInt ≤ (BitVec.ofNat (8 * n) v).toInt then x else v)
  | .amoSmax _ m | .amoFSmax _ m => some (m, false, fun n x v =>
      if (BitVec.ofNat (8 * n) v).toInt ≤ (BitVec.ofNat (8 * n) x).toInt then x else v)
  | .amoUmin _ m | .amoFUmin _ m => some (m, false, fun _ x v => if x ≤ v then x else v)
  | .amoUmax _ m | .amoFUmax _ m => some (m, false, fun _ x v => if v ≤ x then x else v)
  | .amoXchg _ m | .amoFXchg _ m => some (m, true, fun _ _ v => v)
  | .amoFadd _ m | .amoFFadd _ m => some (m, true, fun n x v =>
      let f := if n = 2 then Fp.bf16 else if n = 4 then Fp.f32 else Fp.f64
      (f.add 0 false (f.operand false x) (f.operand false v)).1)
  | _ => none

/-- R197-R199: the order flags and the operations of an atomic once its lanes are placed and translated: release, the lanes' operations in
ascending order, acquire, the old values, the next instruction. -/
def atomically (t : State) (i : Instr) (m : AtomMod) (ls : List Nat) (ok : List (Nat × Place × Xl)) (f : Nat → Nat → Nat) : State :=
  let t := t.unrec
  let t := t.publish (relScope m.ord m.scope) t.cid
  let r := t.atomicLanes (MSize.bytes m.size) f ok
  let u := if m.ord = .acq ∨ m.ord = .ar then r.2.discard m.scope r.2.cid else r.2
  ((u.popSources ls i.operands).writeDst i.operands.d (r.1.map (·.1)) fun l =>
    word (((r.1.find? fun e => e.1 == l).map (·.2)).getD 0)).advance i.len

/-- R418: in `.glb` no line of an operation is under a lease of another package. -/
def Unleased (s : State) (sp : Space) (xs : List (Nat × Place × Nat × Xl)) : Prop :=
  sp = .glb → ∀ x ∈ xs, s.leased (x.2.2.2.pa / 128) = false

/-- The operation code and the right that a full/empty instruction needs (R191). -/
def fullEmpty : Instr → Option (MemMod × Acc × Nat)
  | .ldf _ m => some (m, .ldf, 0)
  | .ldfe _ m => some (m, .ldfe, 1)
  | .stef _ m => some (m, .stef, 2)
  | .stf _ m => some (m, .stef, 3)
  | .setfe _ m => some (m, .stef, 4)
  | _ => none

/-! Copies, rings and barriers (R208-R222) -/

/-- The instructions that read their operands and then act, and whether a STRICT cassette forbids them (R85, R278). -/
def operated (i : Instr) : Option Bool :=
  match atomicOp i, fullEmpty i with
  | some (_, strict, _), _ => some strict
  | _, some (_, _, op) => some (op != 0)
  | none, none => if (arithmetic i).isSome || (bitwise i).isSome || (fields i).isSome || (floating i).isSome || (scaled i).isSome ||
      (reduction i).isSome || (reductionFp i).isSome || (joinMask i).isSome then some false else
    match i with
    | .dqcvt _ _ | .dqcvtBf16 _ _ | .plog _ _ | .voteAny _ | .voteAll _ | .voteUni _ | .voteBallot _ | .bcast _
    | .shflIdx _ _ | .shflUp _ _ | .shflDown _ _ | .shflXor _ _ | .br _ | .jal _ | .jalr _ | .meet _ | .crr _ _ | .crw _ _ | .crs _ _
    | .crc _ _ | .setseg _ | .tgen _ | .inspect _ | .ld _ _ | .st _ _ | .prefetch _ _ | .cflush _ _ | .cpy _ _ | .tld _ _ | .tst _ _
    | .abarInit _ _ | .abarArrive _ _ | .abarWait _ _ | .qstat _ | .barSync _ _ | .barArrive _ _ | .barSyncClu _ _ | .barArriveClu _ _
    | .jwait _ | .viewReg _ | .viewDrop _ | .viewSync _ _ | .viewTag _ | .viewPol _ => some false
    | .cas _ _ | .vamoRow _ _ | .st128 _ | .launch _ | .spawn _ => some true
    | _ => none

/-- R208: the commands that a copy instruction forms, one for each acting lane, and the check that they must pass (R209). -/
def copies (s : State) (i : Instr) (ls : List Nat) (ka kb kc : Word) : Option (List AsyncCmd × (State → AsyncCmd → Option Word)) :=
  let shape := fun (a : Word) => match segOffset (s.cur.seg 1) a.toNat 128 none with
    | some off => BitVec.ofNat 1024 (s.locRd s.cid off 128)
    | none => 0
  let coords := fun (o : Operands) (n : Nat) (l : Nat) => (List.range n).map fun k =>
    s.cur.x l ((match o.b with | .x r => r.toNat | _ => 0) + k)
  match i with
  | .cpy _ m => some (ls.map fun l => s.newCmd 0 m l (s.opA i ka ls l) (s.opB i kb ls l) (s.opC i kc ls l) 0 [], State.cpyBad)
  | .tld o m => some (ls.map fun l => s.newCmd 1 m l (s.opA i ka ls l) 0 (s.opC i kc ls l) (shape (s.opA i ka ls l)) (coords o m.aux.toNat l),
      State.tileBad)
  | .tst o m => some (ls.map fun l => s.newCmd 2 m l (s.opA i ka ls l) 0 (s.opC i kc ls l) (shape (s.opA i ka ls l)) (coords o m.aux.toNat l),
      State.tileBad)
  | _ => none

/-- R218: every acting lane that has not been served names a good ring descriptor. -/
def Rings (s : State) (i : Instr) (ls : List Nat) (ka : Word) (rs : List (Nat × RingRef)) : Prop :=
  List.Forall₂ (fun l x => x.1 = l ∧ s.ringAt s.cid s.cur.segs (s.opA i ka ls l).toNat = some x.2)
    (ls.filter fun l => !s.cur.path.done.getLsbD l) rs

/-- R226, R370: every group of the team of the group that issues, held and swapped-out ones among them, has a restart symbol; outside the core
nothing else has changed. -/
structure Restarts (s t : State) (v : Word) : Prop where
  rest : { t with cores := s.cores, dies := s.dies } = s
  cores : ∀ c, c ≠ s.cid → t.core c = s.core c
  dies : ∀ d, { t.die d with conts := (s.die d).conts } = s.die d
  groups : ∀ i, (t.grp s.cid i).occ = true → (t.grp s.cid i).team = s.cur.team → (t.grp s.cid i).restart = v
  conts : ∀ y ∈ (t.die s.did).conts, y.core = s.cid → y.team = s.cur.team → y.group.restart = v

/-- R220: whether a barrier instruction names a barrier of the cluster, whether it waits, and the barrier's number. -/
def barrier : Instr → Option (Bool × Bool × Nat)
  | .barSync _ n => some (false, true, n.toNat)
  | .barArrive _ n => some (false, false, n.toNat)
  | .barSyncClu _ n => some (true, true, n.toNat)
  | .barArriveClu _ n => some (true, false, n.toNat)
  | _ => none

/-! Events -/

/-- R372: the records of a level that stay when the level ages; where the head has gone, the placement clock of the new head starts. -/
def stay (s : State) (die l : Nat) : List SRec :=
  let q := get [] (s.die die).lvl l
  match q.filter fun r => !s.aged die l r with
  | [] => []
  | r :: rs => (if q.head? = some r then r else { r with lastPlace := s.clk }) :: rs

/-- R372: the records of a level that move up, as they arrive in the next. -/
def raised (s : State) (die l : Nat) : List SRec :=
  ((get [] (s.die die).lvl l).filter fun r => s.aged die l r).map fun r =>
    { r with since := s.clk, lastPlace := s.clk, work := r.work.raise (l + 1) }

/-- R427: whether a strand is in a sealed packed group that waits for its placement. -/
def Sealed (s : State) (sid : Word) : Prop :=
  ∃ x ∈ s.dies, ∃ y ∈ x.2.lvl, ∃ r ∈ y.2, ∃ g l, r.work = .packed g ∧ l < 32 ∧ g.live.getLsbD l = true ∧ (g.lane l).sid = sid

/-- R380: each element of a list has an edge to the next, and the last one to the first. -/
def Cycle (edge : Node → Node → Bool) (c : List Node) : Prop :=
  c ≠ [] ∧ (∀ k a b, at? c k = some a → at? c (k + 1) = some b → edge a b = true) ∧
    ∀ a b, c.getLast? = some a → c.head? = some b → edge a b = true

/-- R379: the highest effective priority among the teams of a resume record. -/
def level (eff : Word → Nat) (zs : List SavedTeam) : Nat := zs.foldl (fun n z => if z.team.occ then max n (eff z.team.id) else n) 0

/-- R375: the one placed team of die d with an id: its core and entry. -/
def TheTeam (s : State) (d : Nat) (id : Word) (c i : Nat) : Prop :=
  (∃ x ∈ s.cores, x.1 = c ∧ isLatency c = false ∧ dieOfCore c = d ∧ ∃ y ∈ x.2.teams, y.1 = i ∧ y.2.occ = true ∧ y.2.id = id) ∧
  ∀ x ∈ s.cores, isLatency x.1 = false → dieOfCore x.1 = d → ∀ y ∈ x.2.teams, y.2.occ = true → y.2.id = id → (x.1, y.1) = (c, i)

/-- The bit of R100's table for a pattern of a format with infinities: by its sign, its exponent field and its fraction. -/
def classOf (f : Fp.Fmt) (ftz : Bool) (bits : Nat) : Nat :=
  let n := f.width - 1
  let neg := 2 ^ n ≤ bits
  let m := bits % 2 ^ n
  let inf := (2 ^ f.eb - 1) * 2 ^ f.fb
  if inf < m then (if 2 ^ (f.fb - 1) ≤ m - inf then 9 else 8)
  else if m = inf then (if neg then 0 else 7)
  else if m = 0 ∨ (ftz = true ∧ m < 2 ^ f.fb) then (if neg then 3 else 4)
  else if m < 2 ^ f.fb then (if neg then 2 else 5)
  else if neg then 1 else 6

/-- R411: the answers of the SPDM responder: the die that is asked and the words that it answers. -/
def spdm : Instr → Option (Nat × List Word)
  | .getVersion die => some (die, [0, 0x13])
  | .getCapabilities die => some (die, [1, Config.response 1 0])
  | .negotiateAlgorithms die asym hash => some (die, [2, if asym.testBit 5 then 32 else 0, if hash.testBit 2 then 4 else 0])
  | .getDigests die => some (die, [3, Config.response 3 die])
  | .getCertificate die slot => some (die, [4, word slot, Config.response 4 slot])
  | .challenge die nonce => some (die, [5, Config.response 5 nonce.toNat])
  | .getMeasurements die block => some (die,
      if block = 0 then [6, 0, 7] else if block ≤ 7 then [6, word block, Config.response 6 block] else [6, word block])
  | _ => none

/-- R390: the value that the word RECCTL takes: BASE and a legal CAPACITY and MODE as written, ERR cleared by a 1 (R407). -/
def recctlOf (old v : Word) : Word :=
  v.extractLsb' 12 52 ++ (0 : BitVec 4) ++ (if 10 ≤ v.extractLsb' 3 5 ∧ v.extractLsb' 3 5 ≤ 24 then v.extractLsb' 3 5 else old.extractLsb' 3 5) ++
    (old.extractLsb' 2 1 &&& ~~~v.extractLsb' 2 1) ++ (if v.extractLsb' 0 2 = 3 then old.extractLsb' 0 2 else v.extractLsb' 0 2)

/-- R308, R390: one deadline of SCRUB. -/
def deadline (m : Sparse Nat) (k : Nat) (v : BitVec 8) : Sparse Nat := if 1 ≤ v ∧ v ≤ 168 then set 0 m k v.toNat else m

/-- R390: what a privileged store of eight bytes to a word of the configuration block of a die makes of the die; none for the words whose
effect reaches further, and for those that ignore the store. -/
def configured (die off : Nat) (v : Word) (x : Die) : Option Die :=
  if off = 0x10 then some { x with astBase := v &&& 0xFFFFFFF00000 }
  else if off = 0x78 then some { x with fring := v &&& 0xFFFFFFFFF01F }
  else if off = 0xB0 then some { x with mring := v &&& 0xFFFFFFFFF01F }
  else if off = 0xB8 then some { x with
    recctl := recctlOf x.recctl v, consumedLog := if x.recctl.extractLsb' 12 52 = v.extractLsb' 12 52 then x.consumedLog else [] }
  else if off = 0xE0 then some { x with sigtgt := v &&& 0x8FFF8FFF8FFF8FFF }
  else if isCompute die then
    if off = 0x70 then some { x with ptBase := v &&& 0xFFFFFFF80000 }
    else if off = 0x80 then some { x with cring := v &&& 0xFFFFFFFFF01F }
    else if off = 0x88 then some { x with reply := v &&& 0xFFFFFFFE0000 }
    else if off = 0xA0 then some (if 64 ≤ v.extractLsb' 0 16 then { x with migWindow := (v.extractLsb' 0 16).toNat } else x)
    else if off = 0xC0 then some { x with scrubD := deadline (deadline x.scrubD 0 (v.extractLsb' 0 8)) 1 (v.extractLsb' 8 8) }
    else none
  else
    if off = 0xA8 then some { x with aring := v &&& 0xFFFFFFFFF01F }
    else if off = 0xC0 then some { x with scrubD := deadline x.scrubD 0 (v.extractLsb' 0 8) }
    else if off = 0xD0 then some { x with leaseLen := (v.extractLsb' 0 8).toNat }
    else none

/-- R390, R416: the words of a configuration block that a die of the other kind has, and the read-only ones: a store leaves them. -/
def keepsWord (die off : Nat) : Bool :=
  if isCompute die then off == 0xA8 || off == 0xC8 || off == 0xD0 || decide (0xD8 ≤ off ∧ off ≠ 0xE0)
  else off == 0x70 || off == 0x80 || off == 0x88 || off == 0x90 || off == 0xA0 || off == 0xD8 || off == 0xE8 ||
    decide (0xF0 ≤ off ∧ off < 0x100) || decide (off % 16 ≠ 8 ∧ 0x100 ≤ off)

end Sys2Proof.Claims

open Sys2Proof Sys2Proof.Machine

/-! Encoding -/

/-- R59-R69: every well-formed instruction word, with every operand and modifier that its encoding admits, is decoded from its own
words as itself.
The model's choice in part: log entry 143. -/
def Obligations.DecodeOfEncodeIsTheInstruction : Prop :=
  ∀ i : Instr, i.opcode.isSome = true → i.wf = true →
    decode ((encode i).headD 0) ((encode i).getD 1 0) = i ∧ 8 * (encode i).length = i.len ∧
      wordLen ((encode i).headD 0) = i.len

/-- R228-R230: every well-formed matrix-engine command is decoded from its own command word as itself, and a word that decodes to a
command is that command's word. -/
def Obligations.EngineCommandsRoundTrip : Prop :=
  (∀ i : Instr, (encodeMx i).isSome = true → i.wf = true → (encodeMx i).bind decodeMx = some i) ∧
  (∀ (w : Word) (i : Instr), decodeMx w = some i → encodeMx i = some w ∧ i.wf = true)

/-- R70, R73, R74: what a word decodes to is always well formed; the words of majors 0xF0-0xFE, of major 0xFF and of unassigned
majors are told apart by their major alone.
The model's choice in part: log entry 143. -/
def Obligations.DecodedInstructionIsWellFormed : Prop :=
  (∀ w e : Word, (decode w e).wf = true) ∧
  (∀ w e : Word, 0xF0 ≤ (w.extractLsb' 56 8).toNat → (w.extractLsb' 56 8).toNat ≤ 0xFE → decode w e = .emulationMajor w (wordLen w)) ∧
  (∀ w e : Word, w.extractLsb' 56 8 = 0xFF → decode w e = .udf w) ∧
  (∀ w e : Word, (w.extractLsb' 56 8).toNat < 0xF0 → majorAssigned (w.extractLsb' 56 8) = false →
    decode w e = .illegalInstruction w 1)

/-- The words of worked cases of the spec and words written out from its encodings decode to the instructions they stand for. -/
def Obligations.WorkedWordsDecode : Prop :=
  decode 0x010281406E000040 0x12C = .add ⟨⟨true, 2⟩, .x 5, .x 6, .ext 0x12C, .x 0⟩ ⟨.w, false, false, 0⟩ ∧
  decode 0x8001C3804C00000A 0 = .ld ⟨⟨false, 7⟩, .x 14, .x 4, .lit 0, .x 0⟩ ⟨.glb, .w, true, false⟩ ∧
  decode 0xA101C3004C20054A 0 = .amoFAdd ⟨⟨false, 7⟩, .x 12, .x 4, .lit 8, .x 5⟩ ⟨.glb, .die, .acq, .w⟩ ∧
  decode 0xB501C0304C000003 0 = .barSync ⟨⟨false, 7⟩, .x 0, .lit 4, .lit 0, .x 0⟩ 3 ∧
  decode 0x6201C93060000000 0 = .meet ⟨⟨false, 7⟩, .x 36, .lit 6, .x 0, .x 0⟩ ∧
  decode 0x6309C00000000000 0 = .nop ⟨⟨false, 7⟩, .x 0, .x 0, .x 0, .x 0⟩ ∧
  decode 0xFF00000000000000 0 = .udf 0xFF00000000000000 ∧
  decodeMx 0x3281014000000000 = some (.mxMma 0 2 2 4 0 1 2) ∧
  decodeMx 0x1000000000000000 = some (.mxZero 0) ∧
  decodeMx 0xB000000000000000 = some (.mxHalt .core false)

/-! Reset, the step and its invariant -/

/-- R410 with R177, R241, R309, R310, R349, R390, R416 and R422: what reset leaves where the spec gives a value. -/
def Obligations.ResetLeavesTheStatedValues : Prop :=
  (∀ c i, (State.reset.grp c i).occ = false) ∧
  (∀ c, (State.reset.core c).split = ⟨0, 0, 0⟩ ∧ (State.reset.core c).sample = 0 ∧ (State.reset.core c).sbuf = 0) ∧
  (∀ c, let e := (State.reset.core c).mxe
    e.st = 0 ∧ e.cpc = 0 ∧ e.fmt = 0 ∧ e.rings = 0 ∧ e.entry = 0 ∧ e.err = 0 ∧ e.exc = 0 ∧ e.pois = 0 ∧ e.rst = false) ∧
  (∀ d, (State.reset.die d).trMode = true ∧ (State.reset.die d).trBusy = false ∧ (State.reset.die d).trErr = false ∧
    (State.reset.die d).cspad = 0 ∧ (State.reset.die d).cfgErr = false ∧ (State.reset.die d).recctl = 0 ∧
    (State.reset.die d).migWindow = 4096 ∧ (State.reset.die d).pkgSet = false ∧ (State.reset.die d).leaseLen = 7 ∧
    (State.reset.die d).lock = false) ∧
  (∀ d k, d < 4 → k < 2 → State.reset.scrubDeadline d k = 12 * 3600000000000) ∧
  (∀ d, 4 ≤ d → State.reset.scrubDeadline d 0 = 24 * 3600000000000)

/-- The memory of the package after reset is in canonical form.
The model's choice in part: log entry 1. -/
def Obligations.ResetMemoryIsCanonical : Prop := Safe State.reset

/-- Every step keeps the memory in canonical form: no instruction, no engine command and no event lists a byte twice or out of order.
The model's choice in part: log entry 1. -/
def Obligations.EveryStepKeepsMemoryCanonical : Prop :=
  ∀ s t : State, Safe s → step s = .next t → Safe t

/-- R405: the one step that stops is the loss of the second host die; every other instruction and event answers a next state.
The model's choice in part: log entry 3. -/
def Obligations.OnlyTheLossOfBothHostDiesStops : Prop :=
  ∀ (i : Instr) (s : State),
    ((∃ t, exec i s = .next t) ∨ exec i s = .fault .packageStopped) ∧
    (exec i s = .fault .packageStopped ↔
      (i = .dieLoss 4 ∧ (s.die 5).lost = true) ∨ (i = .dieLoss 5 ∧ (s.die 4).lost = true))

/-- R60, R61: the words at the pc are fetched, the base word first and then any extension word, and decoded. When a group issues, its
path stands at no meeting and nothing else claims the turn, the step executes what they decode to; the count of R126 and the issue
time of R168 are the step's own addition, a path that waits gives way to another (R116), a draft group follows its leader (R176), and a
core whose groups all wait goes to freewheel (R167).
The model's choice in part: log entries 3, 6, 93. -/
def Obligations.StepRunsTheDecodedInstruction : Prop :=
  (∀ (s t : State) (w : Nat), s.fetchWord s.pc = (.data w, t) → wordLen (word w) = 8 → s.fetch = (.ok (decode (word w) 0), t)) ∧
  (∀ (s t u : State) (w e : Nat), s.fetchWord s.pc = (.data w, t) → wordLen (word w) ≠ 8 →
    t.fetchWord (s.pc + 8) = (.data e, u) → s.fetch = (.ok (decode (word w) (word e)), u)) ∧
  (∀ (s a s1 u v : State) (r : List Turn) (c slot : Nat) (i : Instr),
    a = s.follow s.attend → a.agenda = .issue c slot :: r → s1 = { a with agenda := r, clk := a.clk + 1 } →
    s1.canIssue c slot = true → (s1.grp c slot).settles = false → s1.recallPath c slot = none → s1.interrupted c slot = false →
    (s1.core c).fw = false → u = ({ s1 with focus := (c, slot) }).switched c slot → u.cur.path.tryable s1.clk = true →
    u.cur.path.trap = none → u.cur.count < 4096 → u.atMeeting = false →
    u.fetch = (.ok i, v) → (u.grp c slot).draft = none →
    step s = followed a (match exec i (v.modCur fun g => g.issued v.clk) with
      | .next t => .next ((t.afterIssue c slot (u.grp c slot)).rest c)
      | r => r))

/-! Gate, operands and results -/

/-- R70, R84, R131: an instruction of which no lane acts only goes on to the next one, whatever else stands in its word; in particular it
neither traps nor pops a queue. A privileged instruction of which a lane acts in user mode takes cause 0x08 with its base word, and
does nothing else; on a latency core one that only SIMT cores have takes cause 0x10. Privilege is checked first. -/
def Obligations.GateOfEveryInstruction : Prop :=
  (∀ (i : Instr) (s : State), i.opcode.isSome = true → s.acting i.operands.g = [] → exec i s = .next (s.advance i.len)) ∧
  (∀ (i : Instr) (s : State), i.privileged = true → s.acting i.operands.g ≠ [] → s.cur.priv = false →
    exec i s = .next (s.takeTrap 0x08 ((encode i).headD 0) 0)) ∧
  (∀ (i : Instr) (s : State), i.simtOnly = true → isLatency s.cid = true → s.acting i.operands.g ≠ [] →
    (i.privileged = true → s.cur.priv = true) → exec i s = .next (s.takeTrap 0x10 ((encode i).headD 0) 0))

/-- R89-R95: the integer instructions: arithmetic with wrapping or clamping, division and its decided cases, logic, shifts, rotation,
selection, counts, bit fields, comparison, extension and addresses.
The model's choice in part: log entry 143. -/
def Obligations.IntegerResults : Prop :=
  (Claims.Computes Claims.arithmetic) ∧
  (Claims.Computes Claims.bitwise) ∧
  (Claims.Computes Claims.fields)
/-- R12, R63, R83, R151: a result for an x register reaches that register in every acting lane and nothing else of any lane; x0 and
registers beyond the group's allocation discard it. The path goes on after the instruction; every other part of the group, every
other group, every team, every die and every byte of memory stays. -/
def Obligations.ResultInXRegisters : Prop :=
  ∀ (s : State) (i : Instr) (ls : List Nat) (v : Nat → Word) (n : BitVec 6),
    i.operands.d = .x n → i.operands.pops = [] → s.cur.paths ≠ [] →
    let t := s.finish i ls v
    OnlySlot s t s.cid s.sid ∧ OnlyLanes s.cur t.cur ∧ GoesTo s.cur t.cur (s.pc + word i.len) ∧
    (∀ l ∈ ls, n ≠ 0 → n.toNat < s.cur.alloc → t.cur.x l n.toNat = v l) ∧
    (∀ l m, l ∉ ls ∨ m ≠ n.toNat ∨ n = 0 ∨ s.cur.alloc ≤ n.toNat → t.cur.x l m = s.cur.x l m) ∧
    (∀ l, { t.cur.lane l with xs := (s.cur.lane l).xs } = s.cur.lane l)

/-- R12, R30, R63, R83: a result for a predicate reaches it in every acting lane, and p7 stays 1; a result for an s register is that of the
highest acting lane; nothing else of the group but its path changes. -/
def Obligations.ResultInOtherRegisters : Prop :=
  (∀ (s : State) (i : Instr) (ls : List Nat) (v : Nat → Word) (n : BitVec 3),
    i.operands.d = .p n → i.operands.pops = [] → s.cur.paths ≠ [] →
    let t := s.finish i ls v
    OnlySlot s t s.cid s.sid ∧ OnlyLanes s.cur t.cur ∧ GoesTo s.cur t.cur (s.pc + word i.len) ∧
    (∀ l ∈ ls, n ≠ 7 → t.cur.p l n.toNat = (v l).getLsbD 0) ∧
    (∀ l (m : BitVec 3), l ∉ ls ∨ m ≠ n ∨ n = 7 → t.cur.p l m.toNat = s.cur.p l m.toNat) ∧
    (∀ l, { t.cur.lane l with preds := (s.cur.lane l).preds } = s.cur.lane l)) ∧
  (∀ (s : State) (i : Instr) (ls : List Nat) (h : Nat) (v : Nat → Word) (n : BitVec 5),
    i.operands.d = .s n → i.operands.pops = [] → s.cur.paths ≠ [] →
    let t := s.finish i (ls ++ [h]) v
    OnlySlot s t s.cid s.sid ∧ GoesTo s.cur t.cur (s.pc + word i.len) ∧ t.cur.s n.toNat = v h ∧
    (∀ m, m ≠ n.toNat → t.cur.s m = s.cur.s m) ∧
    { t.cur with sregs := s.cur.sregs, paths := s.cur.paths } = s.cur)

/-- R85, R158: the lane that is k-th among the acting lanes reads, for a source that is a queue register bound to a channel, the channel's k-th
entry behind those that the sources before it take. When the instruction finishes, as many entries as lanes act leave the channel at its head
for each such source, and a queue destination receives the lanes' results at its tail in ascending lane order; here with no overflow page.
The model's choice in part: log entries 20, 132. -/
def Obligations.QueueOperandsServeLanesInOrder : Prop :=
  (∀ (s : State) (q k : Nat), bindKind (s.cur.q q) = 1 →
    s.peek q k = (((s.k.chan (fld (s.cur.q q) 0 16)).hw ++ (s.k.chan (fld (s.cur.q q) 0 16)).ov)[k]?).getD 0) ∧
  (∀ (s : State) (ty : OpTy) (k : Word) (ls r : List Nat) (l : Nat) (q : BitVec 4), l ∉ ls →
    s.src ty k (ls ++ l :: r) l (.q q) = s.peek q.toNat (ls.length + k.toNat)) ∧
  (∀ (s : State) (ls : List Nat) (q : BitVec 4), s.queueSkip [] ls (.q q) = 0 ∧ s.queueSkip [.q q] ls (.q q) = ls.length) ∧
  (∀ (s : State) (i : Instr) (ls : List Nat) (v : Nat → Word) (q : Nat), i.operands.pops = [q] → i.operands.pushes = none →
    bindKind (s.cur.q q) = 1 → (s.k.chan (fld (s.cur.q q) 0 16)).ov = [] → (s.k.chan (fld (s.cur.q q) 0 16)).pages = [] →
    ls.length ≤ (s.k.chan (fld (s.cur.q q) 0 16)).hw.length →
    ((s.finish i ls v).k.chan (fld (s.cur.q q) 0 16)).hw = (s.k.chan (fld (s.cur.q q) 0 16)).hw.drop ls.length) ∧
  (∀ (s : State) (i : Instr) (ls : List Nat) (v : Nat → Word) (q : BitVec 4), i.operands.pops = [] → i.operands.d = .q q →
    (s.k.chan (fld (s.cur.q q.toNat) 0 16)).ov = [] → (s.k.chan (fld (s.cur.q q.toNat) 0 16)).pages = [] → bindKind (s.cur.q q.toNat) = 1 →
    ((s.finish i ls v).k.chan (fld (s.cur.q q.toNat) 0 16)).hw = (s.k.chan (fld (s.cur.q q.toNat) 0 16)).hw ++ ls.map v) ∧
  (∀ (s : State) (q n : Nat), bindKind (s.cur.q q) = 1 → (s.k.chan (fld (s.cur.q q) 0 16)).ov = [] →
    (s.k.chan (fld (s.cur.q q) 0 16)).pages = [] → n ≤ (s.k.chan (fld (s.cur.q q) 0 16)).hw.length →
    let t := s.popQueue q n
    OnlyCore s t s.cid ∧ (t.k.chan (fld (s.cur.q q) 0 16)).hw = (s.k.chan (fld (s.cur.q q) 0 16)).hw.drop n ∧
    { t.k with chans := s.k.chans } = s.k ∧
    (∀ m, m ≠ fld (s.cur.q q) 0 16 → t.k.chan m = s.k.chan m)) ∧
  (∀ (s : State) (q : Nat) (ws : List Word), bindKind (s.cur.q q) = 1 → (s.k.chan (fld (s.cur.q q) 0 16)).ov = [] →
    (s.k.chan (fld (s.cur.q q) 0 16)).pages = [] →
    let t := s.pushQueue q ws
    OnlyCore s t s.cid ∧ (t.k.chan (fld (s.cur.q q) 0 16)).hw = (s.k.chan (fld (s.cur.q q) 0 16)).hw ++ ws ∧
    { t.k with chans := s.k.chans } = s.k ∧
    (∀ m, m ≠ fld (s.cur.q q) 0 16 → t.k.chan m = s.k.chan m))

/-- R85, R183, R184, R425: an instruction that names a queue register which the group may not use takes cause 0x05 with the
register's number; one whose queue cannot serve every acting lane waits with nothing popped, pushed or written. So do the integer, floating-point
and block-scaled instructions, those between lanes, the branches, control registers, loads, stores and hints, the full/empty instructions and the
atomics, the copies, barriers and barrier objects, launches, joins and views.
The model's choice in part: log entries 104, 132, 148. -/
def Obligations.QueueOperandsTrapOrWait : Prop :=
  ∀ (i : Instr) (strict : Bool) (s : State) (ls : List Nat), Claims.operated i = some strict → Enabled s i ls →
    (strict = true → s.strictHeld = false) → (∀ n, i.operands.a ≠ .c n) → (∀ n, i.operands.b ≠ .c n) → (∀ n, i.operands.c ≠ .c n) →
    (∀ q, s.badQueue i.operands = some q → exec i s = .next (s.takeTrap 0x05 (word (0xFFFFFFFFFFFFFF00 + q)) (maskOf ls))) ∧
    (∀ q, s.badQueue i.operands = none → s.slowQueue ls i.operands = some q → exec i s = .next (s.await (.queue q)))

/-! Floating point -/

/-- R38-R40, R96-R106: an arithmetic instruction whose exceptions trap in no acting lane ORs them into the flags of the lane that
signals them and writes, in each acting lane, the result that the lane's own operands and `cr.fcsr` give.
The model's choice in part: log entries 9, 12, 27, 154. -/
def Obligations.FloatingResultsAndFlags : Prop :=
  ∀ i f, Claims.floating i = some f → ∀ s ls ka kb kc t, Enabled s i ls → Fed s i ls ka kb kc t →
    let r := fun l => f (t.cur.lane l).fcsr (t.opA i ka ls l) (t.opB i kb ls l) (t.opC i kc ls l)
    Claims.untrapped t ls (fun l => (r l).2) →
    exec i s = .next ((t.modCur fun g => g.modLanes ls fun l x => { x with fcsr := x.fcsr ||| (r l).2.setWidth 64 }).finish i ls
      fun l => (r l).1)

/-- R40: if an acting lane signals an exception whose TE bit is set, no lane's result and no flag is written; the group takes cause
0x06 with the union of the trapped exceptions: in the arithmetic instructions, the block-scaled ones and the floating-point reductions.
The model's choice in part: log entry 31. -/
def Obligations.TrappedExceptionWritesNothing : Prop :=
  (∀ i f, Claims.floating i = some f → ∀ s ls ka kb kc t, Enabled s i ls → Fed s i ls ka kb kc t →
    let r := fun l => f (t.cur.lane l).fcsr (t.opA i ka ls l) (t.opB i kb ls l) (t.opC i kc ls l)
    let trap := fun l => (r l).2 &&& (t.cur.lane l).fcsr.extractLsb' 8 5
    (∃ l ∈ ls, trap l ≠ 0) →
    exec i s = .next (t.takeTrap 0x06 ((ls.map trap).foldl (· ||| ·) 0 |>.setWidth 64) (maskOf (ls.filter fun l => trap l != 0)))) ∧
  (∀ i f, Claims.scaled i = some f → ∀ s ls ka kb kc t, Enabled s i ls → Fed s i ls ka kb kc t →
    let trap := fun l => (f t.cur l (t.src (.int .d) kb ls l i.operands.b)).2 &&& (t.cur.lane l).fcsr.extractLsb' 8 5
    (∃ l ∈ ls, trap l ≠ 0) →
    exec i s = .next (t.takeTrap 0x06 ((ls.map trap).foldl (· ||| ·) 0 |>.setWidth 64) (maskOf (ls.filter fun l => trap l != 0)))) ∧
  (∀ (i : Instr) (o : Operands) (m : NarrowMod) (bf : Bool), (i = .dqcvt o m ∧ bf = false ∨ i = .dqcvtBf16 o m ∧ bf = true) →
    ∀ s ls ka kb kc t, Enabled s i ls → Fed s i ls ka kb kc t →
    let e := fun l => (dequantize8 m bf (t.cur.lane l).fcsr (t.opA i ka ls l) (t.opB i kb ls l)).foldl (fun e x => e ||| x.2) (0 : Fp.Exc)
    let trap := fun l => e l &&& (t.cur.lane l).fcsr.extractLsb' 8 5
    (∃ l ∈ ls, trap l ≠ 0) →
    exec i s = .next (t.takeTrap 0x06 ((ls.map trap).foldl (· ||| ·) 0 |>.setWidth 64) (maskOf (ls.filter fun l => trap l != 0)))) ∧
  (∀ i m f s ls ka kb kc t, Claims.reductionFp i = some (m, f) → Enabled s i ls → Fed s i ls ka kb kc t →
    let e := (reduceFp m (f (rmOf m.rm (t.cur.lane (ls.headD 0)).fcsr)) ls (t.opA i ka ls)).2
    let trap := fun l => e &&& (t.cur.lane l).fcsr.extractLsb' 8 5
    (∃ l ∈ ls, trap l ≠ 0) →
    exec i s = .next (t.takeTrap 0x06 ((ls.map trap).foldl (· ||| ·) 0 |>.setWidth 64) (maskOf (ls.filter fun l => trap l != 0))))

/-- R39: a rounded finite result lies on the side that a directed mode asks for, no finite value of the format is nearer under the
two nearest modes, ties go to the even pattern or away from zero, and a result without NX is exact. -/
def Obligations.RoundingIsCorrect : Prop :=
  ∀ (t : FpT) (rm : Nat) (neg : Bool) (m : Nat) (e : Int), rm ≤ 4 →
    let f := Fp.fmtOf t
    let r := f.round rm false (.fin neg m e)
    let x := Claims.rat neg m e
    ∀ n' m' e', f.value r.1 = .fin n' m' e' →
      let y := Claims.rat n' m' e'
      (rm = 1 → |y| ≤ |x|) ∧ (rm = 2 → y ≤ x) ∧ (rm = 3 → x ≤ y) ∧ (r.2.getLsbD 0 = false → y = x) ∧
      (∀ bits n2 m2 e2, bits < 2 ^ f.width → f.value bits = .fin n2 m2 e2 →
        let z := Claims.rat n2 m2 e2
        (rm = 0 ∨ rm = 4 → |y - x| ≤ |z - x|) ∧
        (z ≠ y → |z - x| = |y - x| → (rm = 0 → r.1 % 2 = 0) ∧ (rm = 4 → |z| ≤ |y|)))

/-- R43: with a NaN operand, sum, difference, product, quotient, root and fused multiply-add write the canonical NaN of the format;
NV is signalled when an operand is signalling, and by sum, difference, product, quotient and root only then. -/
def Obligations.NanOperandsGiveTheCanonicalNan : Prop :=
  ∀ (t : FpT) (rm : Nat) (ftz : Bool) (a b c : Fp.Val),
    let f := Fp.fmtOf t
    let nan : Nat × Fp.Exc := (f.canon, if a.sig || b.sig then Fp.nv else 0)
    (a.isNan = true ∨ b.isNan = true → f.add rm ftz a b = nan ∧ f.sub rm ftz a b = nan ∧ f.mul rm ftz a b = nan ∧ f.div rm ftz a b = nan) ∧
    (a.isNan = true → f.sqrt rm ftz a = (f.canon, if a.sig then Fp.nv else 0)) ∧
    (a.isNan = true ∨ b.isNan = true ∨ c.isNan = true → (f.fma rm ftz a b c).1 = f.canon) ∧
    (a.sig = true ∨ b.sig = true ∨ c.sig = true → (f.fma rm ftz a b c).2 = Fp.nv)

/-- R99, R100: `fneg` inverts the sign bit and passes every other bit through, where under `.ftz` a subnormal counts as the zero of its sign;
`fclass` sets the one bit of its class, under `.ftz` with a subnormal as the zero of its sign. Neither signals: every acting lane gets its result,
and no lane's flags or other registers change. -/
def Obligations.NegateAndClassify : Prop :=
  (∀ (t : FpT) (ftz : Bool) (bits : Nat), let f := Fp.fmtOf t
    let n := f.width - 1
    bits < 2 ^ f.width → f.negate ftz bits =
      if ftz = true ∧ 0 < bits % 2 ^ n ∧ bits % 2 ^ n < 2 ^ f.fb then (if bits < 2 ^ n then 2 ^ n else 0) else bits ^^^ 2 ^ n) ∧
  (∀ (t : FpT) (ftz : Bool) (bits : Nat), bits < 2 ^ (Fp.fmtOf t).width →
    (Fp.fmtOf t).classMask ftz bits = 2 ^ Claims.classOf (Fp.fmtOf t) ftz bits) ∧
  (∀ o m s ls ka kb kc t, Enabled s (.fneg o m) ls → Fed s (.fneg o m) ls ka kb kc t → ∃ u, OnlySlot t u t.cid t.sid ∧ OnlyLanes t.cur u.cur ∧
    (∀ l, u.cur.lane l = t.cur.lane l) ∧ u.cur.paths = t.cur.paths ∧ exec (.fneg o m) s = .next (u.finish (.fneg o m) ls fun l =>
      word ((Fp.fmtOf m.t).negate m.ftz (fpat m.t (t.opA (.fneg o m) ka ls l))))) ∧
  (∀ o m s ls ka kb kc t, Enabled s (.fclass o m) ls → Fed s (.fclass o m) ls ka kb kc t → ∃ u, OnlySlot t u t.cid t.sid ∧ OnlyLanes t.cur u.cur ∧
    (∀ l, u.cur.lane l = t.cur.lane l) ∧ u.cur.paths = t.cur.paths ∧ exec (.fclass o m) s = .next (u.finish (.fclass o m) ls fun l =>
      word ((Fp.fmtOf m.t).classMask m.ftz (fpat m.t (t.opA (.fclass o m) ka ls l)))))

/-- R107, R108: the block-scaled instructions with one destination register quantise the register list of each acting lane under the
scale code of operand b, or form the block's scale code; flags are ORed in. `dqcvt` writes, in each acting lane, the eight dequantised elements to the register list at the destination, and only
there; flags are ORed in.
The model's choice in part: log entries 13, 29, 142. -/
def Obligations.BlockScaledResults : Prop :=
  (∀ i f, Claims.scaled i = some f → ∀ s ls ka kb kc t, Enabled s i ls → Fed s i ls ka kb kc t →
    let r := fun l => f t.cur l (t.src (.int .d) kb ls l i.operands.b)
    Claims.untrapped t ls (fun l => (r l).2) →
    exec i s = .next ((t.modCur fun g => g.modLanes ls fun l x => { x with fcsr := x.fcsr ||| (r l).2.setWidth 64 }).finish i ls
      fun l => (r l).1)) ∧
  (∀ (i : Instr) (o : Operands) (m : NarrowMod) (bf : Bool), (i = .dqcvt o m ∧ bf = false ∨ i = .dqcvtBf16 o m ∧ bf = true) →
    ∀ s ls ka kb kc t (n : BitVec 6), o.d = .x n → Enabled s i ls → Fed s i ls ka kb kc t →
    let r := fun l => dequantize8 m bf (t.cur.lane l).fcsr (t.opA i ka ls l) (t.opB i kb ls l)
    let e := fun l => (r l).foldl (fun e x => e ||| x.2) (0 : Fp.Exc)
    Claims.untrapped t ls e →
    exec i s = .next (((((t.modCur fun g => g.modLanes ls fun l x => { x with fcsr := x.fcsr ||| (e l).setWidth 64 }).popSources ls o).modCur
      fun g => ls.foldl (fun g l => g.setXs l n.toNat (wideRegs bf ((r l).map (·.1)))) g)).advance i.len))

/-! Lanes together -/

/-- R109: `plog` writes bit 4a + 2b + c of its table. R110, R111, R113: a vote gives every acting lane one result, formed from the operands of the acting lanes; a join-mask
instruction combines its mask with bits 31:0 of the lowest acting lane's operand and changes nothing else but the path's pc; `bcast` gives every
acting lane the value of the lowest. -/
def Obligations.PredicateLogicVotesMasksAndBroadcast : Prop :=
  (∀ (o : Operands) (lut : BitVec 8) s ls ka kb kc t, Enabled s (.plog o lut) ls → Fed s (.plog o lut) ls ka kb kc t →
    exec (.plog o lut) s = .next (t.finish (.plog o lut) ls fun l =>
      if lut.getLsbD ((if (t.opA (.plog o lut) ka ls l).getLsbD 0 then 4 else 0) +
          (if (t.opB (.plog o lut) kb ls l).getLsbD 0 then 2 else 0) +
          (if (t.opC (.plog o lut) kc ls l).getLsbD 0 then 1 else 0)) then 1 else 0)) ∧
  ((∀ i s ls ka kb kc t v, Enabled s i ls → Fed s i ls ka kb kc t → Claims.vote i ls (t.opA i ka ls) = some v →
    exec i s = .next (t.finish i ls fun _ => v)) ∧
  (∀ i f s ls ka kb kc t (n : BitVec 3), Claims.joinMask i = some f → i.operands.d = .j n → Enabled s i ls → Fed s i ls ka kb kc t →
    exec i s = .next (((t.popSources ls i.operands).modCur fun g =>
      g.setJ n.toNat (f (g.j n.toNat) ((t.opA i ka ls (ls.headD 0)).setWidth 32))).advance i.len)) ∧
  (∀ o s ls ka kb kc t, Enabled s (.bcast o) ls → Fed s (.bcast o) ls ka kb kc t →
    exec (.bcast o) s = .next (t.finish (.bcast o) ls fun _ => t.opA (.bcast o) ka ls (ls.headD 0))))

/-- R112: a shuffle gives each acting lane the operand a of its source lane within the segment, or its own where the source lane does
not act. -/
def Obligations.ShuffleResults : Prop :=
  ∀ (i : Instr) s ls ka kb kc t, i.wf = true → Enabled s i ls → Fed s i ls ka kb kc t → (∀ l ∈ ls, (Claims.from_ i l (t.opB i kb ls l)).isSome) →
    exec i s = .next (t.finish i ls fun l =>
      let src := (Claims.from_ i l (t.opB i kb ls l)).getD l
      if src ∈ ls then t.opA i ka ls src else t.opA i ka ls l)

/-- R114: a reduction starts from the lowest acting lane, combines the operands in ascending lane order and gives every acting lane
the result: an integer one as a W-bit value under R89 and R90, a floating-point one with the rounding mode of the lowest acting lane and
the exceptions of every step in every acting lane. -/
def Obligations.ReductionResults : Prop :=
  (∀ (i : Instr) m f s l ls ka kb kc t, Claims.reduction i = some (m, f) → i.wf = true → Enabled s i (l :: ls) → Fed s i (l :: ls) ka kb kc t →
    exec i s = .next (t.finish i (l :: ls) fun _ =>
      Claims.fit m (ls.foldl (fun r j => f r (Claims.val m (t.opA i ka (l :: ls) j))) (Claims.val m (t.opA i ka (l :: ls) l))))) ∧
  (∀ i m f s ls ka kb kc t, Claims.reductionFp i = some (m, f) → Enabled s i ls → Fed s i ls ka kb kc t →
    let r := reduceFp m (f (rmOf m.rm (t.cur.lane (ls.headD 0)).fcsr)) ls (t.opA i ka ls)
    Claims.untrapped t ls (fun _ => r.2) →
    exec i s = .next ((t.modCur fun g => g.modLanes ls fun _ x => { x with fcsr := x.fcsr ||| r.2.setWidth 64 }).finish i ls
      fun _ => word r.1))

/-! Control -/

/-- R118: the branches. Every source is read before the link is written; the link is the address after the instruction; a
displacement counts doublewords from the instruction itself, and `jalr` goes to the sum of its operands with bits 2:0 clear. -/
def Obligations.BranchTargetsAndLinks : Prop :=
  (∀ o s ls ka kb kc t, Enabled s (.br o) ls → Fed s (.br o) ls ka kb kc t →
    exec (.br o) s = .next (t.branch (Instr.br o).len (ls.map fun l => (l, t.pc + 8 * t.opA (.br o) ka ls l)))) ∧
  (∀ o s ls ka kb kc t, Enabled s (.jal o) ls → Fed s (.jal o) ls ka kb kc t →
    exec (.jal o) s = .next ((t.writeDst o.d ls fun _ => t.pc + word (Instr.jal o).len).branch (Instr.jal o).len
      (ls.map fun l => (l, t.pc + 8 * t.opA (.jal o) ka ls l)))) ∧
  (∀ o s ls ka kb kc t, Enabled s (.jalr o) ls → Fed s (.jalr o) ls ka kb kc t →
    exec (.jalr o) s = .next (((t.popSources ls o).writeDst o.d ls fun _ => t.pc + word (Instr.jalr o).len).branch (Instr.jalr o).len
      (ls.map fun l => (l, (t.opA (.jalr o) ka ls l + t.opB (.jalr o) kb ls l) &&& ~~~7#64))))

/-- R115, R116, R118: a branch sends every lane that takes it to its target and every other active lane to the next instruction; lanes
of other paths, the registers, memory and every other group stay. -/
def Obligations.BranchMovesEachLane : Prop :=
  ∀ (s : State) (len : Nat) (targets : List (Nat × Word)),
    (targets.map (·.1)).Nodup → (∀ x ∈ targets, s.active.getLsbD x.1 = true) → s.cur.paths ≠ [] →
    (∀ p ∈ s.cur.paths.drop 1, p.mask &&& s.active = 0) →
    let t := s.branch len targets
    OnlySlot s t s.cid s.sid ∧ OnlyPaths s.cur t.cur ∧
    (∀ x ∈ targets, t.cur.pcOf x.1 = x.2) ∧
    (∀ l, s.active.getLsbD l = true → l ∉ targets.map (·.1) → t.cur.pcOf l = s.pc + word len) ∧
    (∀ l, s.active.getLsbD l = false → t.cur.pcOf l = s.cur.pcOf l)

/-- R119: `meet` gives each acting lane's old meeting register to the destination and sets the register to a displacement from the
instruction, or to a register's value with bits 2:0 clear. R120, R121, R122: in a group that is one path with no lane held, `join jk` is passed at once, and so is `waitj jk`; a path at its
meeting address goes on there with the meeting registers of its lanes cleared. R122: `waitj jk` waits while a lane of the mask is held, and changes nothing but the path's wait and the group's count. With several paths a
`join jk` completes where every live lane that jk names has arrived, and a meeting where every live lane that names the address has: the lanes that
have arrived go on as one path, lanes of a held group among them, which leave it; otherwise the path waits.
The model's choice in part: log entries 21, 144, 150, 153. -/
def Obligations.MeetJoinAndWaitj : Prop :=
  (∀ o s ls ka kb kc t, Enabled s (.meet o) ls → Fed s (.meet o) ls ka kb kc t →
    let v := t.opA (.meet o) ka ls
    let new := fun l => match o.a with
      | .lit _ => t.pc + 8 * v l
      | .ext _ => t.pc + 8 * v l
      | _ => v l &&& ~~~7#64
    exec (.meet o) s = .next ((t.modCur fun g => g.modLanes ls fun l r => { r with meet := new l }).finish (.meet o) ls
      fun l => (t.cur.lane l).meet)) ∧
  ((∀ o (k : BitVec 3) s ls p, Enabled s (.join o k) ls → s.cur.paths = [p] → p.frozen = false → s.cur.held = none →
    s.heldSlots s.cid s.sid = [] → p.mask = s.cur.live → ∃ t, exec (.join o k) s = .next t ∧ OnlySlot s t s.cid s.sid ∧ OnlyPaths s.cur t.cur ∧
      t.cur.paths = [Path.start (p.pc + 8) p.mask]) ∧
  (∀ o (k : BitVec 3) s ls, Enabled s (.waitj o k) ls → s.heldLanes s.cid (s.origSlot s.cid s.sid) = 0 →
    exec (.waitj o k) s = .next (s.advance 8)) ∧
  (∀ (s : State) (p : Path), s.cur.paths = [p] → p.frozen = false → s.cur.held = none → s.heldSlots s.cid s.sid = [] → p.mask = s.cur.live → p.mask ≠ 0 →
    (∀ l, p.mask.getLsbD l = true → (s.cur.lane l).meet = p.pc) →
    let t := s.tryMeeting s.cid s.sid
    t.cur.paths = [Path.start p.pc p.mask] ∧ ∀ l, p.mask.getLsbD l = true → (t.cur.lane l).meet = 0)) ∧
  (∀ o (k : BitVec 3) s ls, Enabled s (.waitj o k) ls →
    s.heldLanes s.cid (s.origSlot s.cid s.sid) &&& (s.grp s.cid (s.origSlot s.cid s.sid)).j k.toNat ≠ 0 → s.cur.paths ≠ [] →
    ∃ t, exec (.waitj o k) s = .next t ∧ OnlySlot s t s.cid s.sid ∧ t.cur.path.wait = .waitj k.toNat ∧ t.pc = s.pc ∧
      (s.cur.path.wait = .ready → t.cur.count = 0) ∧ OnlyPaths { s.cur with count := t.cur.count } t.cur) ∧
  (∀ o (k : BitVec 3) s ls p ps, Enabled s (.join o k) ls → s.cur.paths = p :: ps → p.frozen = false → s.cur.held = none →
    s.heldSlots s.cid s.sid = [] →
    let there := fun (l : Nat) => p.mask.getLsbD l = true ∨ ∃ q ∈ ps, q.pc = p.pc ∧ q.frozen = false ∧ (∃ n, q.wait = .join n) ∧ q.mask.getLsbD l = true
    ((∀ l, s.cur.live.getLsbD l = true → (s.cur.j k.toNat).getLsbD l = true → there l) →
      ∃ t, exec (.join o k) s = .next t ∧ OnlySlot s t s.cid s.sid ∧ OnlyPaths s.cur t.cur ∧ t.pc = p.pc + 8 ∧ t.cur.path.wait = .ready ∧
        ∀ l, t.active.getLsbD l = true ↔ there l) ∧
    (∀ l, s.cur.live.getLsbD l = true → (s.cur.j k.toNat).getLsbD l = true → ¬there l →
      ∃ t, exec (.join o k) s = .next t ∧ OnlySlot s t s.cid s.sid ∧ OnlyPaths { s.cur with count := t.cur.count } t.cur ∧
        t.cur.path.wait = .join k.toNat ∧ t.pc = p.pc ∧ t.active = p.mask ∧ t.cur.paths.drop 1 = ps)) ∧
  (∀ (s : State) (p : Path) (ps : List Path), s.cur.paths = p :: ps → p.frozen = false → s.cur.held = none → s.heldSlots s.cid s.sid = [] →
    let named := fun (l : Nat) => s.cur.live.getLsbD l = true ∧ (s.cur.lane l).meet = p.pc
    (∀ l, named l → p.mask.getLsbD l = true ∨ ∃ q ∈ ps, q.wait = .meeting ∧ q.pc = p.pc ∧ q.frozen = false ∧ q.mask.getLsbD l = true) →
    let t := s.tryMeeting s.cid s.sid
    OnlySlot s t s.cid s.sid ∧ t.pc = p.pc ∧ t.cur.path.wait = .ready ∧ (∀ l, t.active.getLsbD l = true ↔ named l) ∧
      ∀ l, (t.cur.lane l).meet = if s.cur.live.getLsbD l = true ∧ (s.cur.lane l).meet = p.pc then 0 else (s.cur.lane l).meet) ∧
  (∀ (s : State) (p : Path) (ps : List Path) (l : Nat), s.cur.paths = p :: ps → s.cur.held = none → s.cur.live.getLsbD l = true →
    (s.laneOf s.cid s.sid l).meet = p.pc → p.mask.getLsbD l = false →
    (∀ i ∈ s.sid :: s.heldSlots s.cid s.sid, ∀ q ∈ (s.grp s.cid i).paths, q.mask.getLsbD l = false ∨ q.wait ≠ .meeting ∨ q.pc ≠ p.pc) →
    let t := s.tryMeeting s.cid s.sid
    OnlySlot s t s.cid s.sid ∧ OnlyPaths { s.cur with count := t.cur.count } t.cur ∧ t.cur.path.wait = .meeting ∧ t.pc = p.pc ∧
      t.active = p.mask ∧ t.cur.paths.drop 1 = ps) ∧
  (∀ o (k : BitVec 3) s ls p q h, Enabled s (.join o k) ls → s.cur.paths = [p] → p.frozen = false → s.cur.held = none →
    s.heldSlots s.cid s.sid = [h] → (s.grp s.cid h).paths = [q] → (s.grp s.cid h).live = q.mask → q.mask ≠ 0 →
    (s.grp s.cid h).ut = s.cur.ut → q.pc = p.pc → q.frozen = false → (∃ n, q.wait = .join n) →
    s.cur.live &&& s.cur.j k.toNat &&& ~~~(p.mask ||| q.mask) = 0 →
    ∃ t, exec (.join o k) s = .next t ∧ t.cur.paths = [Path.start (p.pc + 8) (p.mask ||| q.mask)] ∧ t.grp s.cid h = Group.empty ∧
      ∀ l, t.cur.lane l = if q.mask.getLsbD l then (s.grp s.cid h).lane l else s.cur.lane l)
/-- R116, R124-R127, R146: `nop` and `ifence` only go on; `yield` goes on and gives way to another path that can run; `safept` also starts
the count of R126 again, where no recall waits and no pre-emption stops it.
The model's choice in part: log entry 44. -/
def Obligations.InstructionsThatOnlyGoOn : Prop :=
  (∀ o s ls, Enabled s (.nop o) ls → exec (.nop o) s = .next (s.advance 8)) ∧
  (∀ o s ls, Enabled s (.ifence o) ls → exec (.ifence o) s = .next (s.advance 8)) ∧
  (∀ o s ls, Enabled s (.yield o) ls → isLatency s.cid = true → exec (.yield o) s = .next (s.advance 8)) ∧
  (∀ o s ls, Enabled s (.yield o) ls → isLatency s.cid = false → (s.cur.paths.drop 1).any (·.tryable s.clk) = false →
    exec (.yield o) s = .next (s.advance 8)) ∧
  (∀ o s ls, Enabled s (.yield o) ls → isLatency s.cid = false → exec (.yield o) s = .next ((s.advance 8).switchPath s.cid s.sid)) ∧
  (∀ (s : State) (p : Path), (s.cur.paths.drop 1).find? (·.tryable s.clk) = some p → s.heldSlots s.cid s.sid = [] →
    let t := s.switchPath s.cid s.sid
    OnlySlot s t s.cid s.sid ∧ OnlyPaths s.cur t.cur ∧ t.pc = p.pc ∧ p.mask &&& ~~~t.active = 0) ∧
  (∀ o s ls, Enabled s (.safept o) ls → s.recalls = [] → s.team.preempting = false →
    (s.cur.paths.drop 1).any (·.tryable s.clk) = false →
    ∃ t, exec (.safept o) s = .next t ∧ OnlySlot s t s.cid s.sid ∧ t.cur.count = 0 ∧
      GoesTo s.cur t.cur (s.pc + word (Instr.safept o).len))

/-- R25, R124: `exit` ends the acting lanes of a SIMT core's group, whose other lanes go on after it. Where it ends every lane of its path the
other paths stay; where it ends every lane of the group the slot is free and the team has one group less. LIVE of each ended strand's save area
is cleared, which changes bit 0 of one word. On a latency core it clears LIVE of the strand's save area and takes cause 0x1A. -/
def Obligations.ExitEndsTheActingLanes : Prop :=
  (∀ o s ls, Enabled s (.exit o) ls → isLatency s.cid = false → s.cur.held = none → s.cur.occ = true → s.cur.paths ≠ [] →
    s.cur.live &&& ~~~maskOf ls ≠ 0 → s.active &&& ~~~maskOf ls ≠ 0 →
    ∃ t, exec (.exit o) s = .next t ∧ t.cur.live = s.cur.live &&& ~~~maskOf ls ∧ t.active = s.active &&& ~~~maskOf ls ∧
      t.pc = s.pc + 8 ∧ t.cur.lanes = s.cur.lanes ∧ t.cur.sregs = s.cur.sregs) ∧
  (∀ o s ls, Enabled s (.exit o) ls → isLatency s.cid = false → exec (.exit o) s =
    .next ((ls.foldl (fun (v : State) l => v.clearLive s.did s.cur.asid (s.cur.lane l).ssa) (s.advance 8)).leaveLanes s.cid s.sid (maskOf ls))) ∧
  (∀ o s ls, Enabled s (.exit o) ls → isLatency s.cid = false → s.cur.held = none → s.cur.occ = true →
    s.cur.live &&& ~~~maskOf ls ≠ 0 → s.active &&& ~~~maskOf ls = 0 → (∀ p ∈ s.cur.paths.drop 1, p.mask &&& maskOf ls = 0 ∧ p.mask ≠ 0) →
    ∃ t, exec (.exit o) s = .next t ∧ t.cur.live = s.cur.live &&& ~~~maskOf ls ∧ t.cur.lanes = s.cur.lanes ∧ t.cur.sregs = s.cur.sregs ∧
      t.cur.paths.map (fun p => (p.pc, p.mask)) = (s.cur.paths.drop 1).map fun p => (p.pc, p.mask)) ∧
  (∀ o s ls, Enabled s (.exit o) ls → isLatency s.cid = false → s.cur.held = none → s.cur.occ = true → s.cur.draft = none →
    s.cur.live &&& ~~~maskOf ls = 0 → 1 < s.team.groups →
    ∃ t, exec (.exit o) s = .next t ∧ t.grp s.cid s.sid = Group.empty ∧ (t.teamAt s.cid s.cur.team).groups = s.team.groups - 1) ∧
  (∀ (s : State) (d : Nat) (asid : Word), s.clearLive d asid 0 = s) ∧
  (∀ (s u : State) (d : Nat) (asid ssa : Word) (x : Xl), ssa ≠ 0 → s.agentWalk d asid (ssa + 0x340) .write = (0, x, u) → isMemory x.pa = true →
    let v := u.beforeWrite x asid (ssa + 0x340) 8
    let t := s.clearLive d asid ssa
    t.rd x.pa 8 = v.rd x.pa 8 / 2 * 2 ∧ (∀ a, a < x.pa ∨ x.pa + 8 ≤ a → byteAt t.mem a = byteAt v.mem a)) ∧
  (∀ o s ls, Enabled s (.exit o) ls → isLatency s.cid = true → exec (.exit o) s =
    .next ((s.clearLive s.did s.cur.asid (s.cur.lane 0).ssa).takeTrap 0x1A 0 0))

/-! Exceptions -/

/-- R70, R73, R74, R131, R138: the words that are no instruction take cause 0x02 (`udf`) or 0x01 with the reason in DETAIL (9 for an
emulation major), and `trap` cause 0x07 with its code, in the acting lanes alone: the others go on after it as a path of their own. -/
def Obligations.TrappingWordsTakeTheirCause : Prop :=
  (∀ w s, exec (.udf w) s = .next (s.takeTrap 0x02 w 0)) ∧
  (∀ w n s, exec (.emulationMajor w n) s = .next (s.takeTrap 0x01 w 9)) ∧
  (∀ w r s, exec (.illegalInstruction w r) s = .next (s.takeTrap 0x01 w (BitVec.ofNat 32 r))) ∧
  (∀ o (code : BitVec 8) s ls, Enabled s (.trap o code) ls → s.active &&& ~~~maskOf ls = 0 → s.cur.paths ≠ [] →
    exec (.trap o code) s = .next ((s.modCur fun g => g).takeTrap 0x07 (code.setWidth 64) 0)) ∧
  (∀ o (code : BitVec 8) s ls, Enabled s (.trap o code) ls → s.active &&& ~~~maskOf ls ≠ 0 →
    exec (.trap o code) s = .next ((s.modCur fun g => { g with paths := { g.path with mask := maskOf ls } ::
      (g.paths.drop 1 ++ [{ Path.start (g.path.pc + 8) (g.path.mask &&& ~~~maskOf ls) with frozen := g.path.frozen }]) }).takeTrap 0x07
      (code.setWidth 64) 0))

/-- R133-R135: a user cause with a handler, not taken inside a handler, writes the frame, saves cause, pc and value, sets UT and goes to
the handler of the lowest active lane; the other paths of the group stand still; the general registers and flags stay, and memory, every copy of
it and every die are as the writes of the frame leave them. R136: a user cause without a handler, or inside a handler, is taken as cause 0x13 that names the original cause. -/
def Obligations.UserCauseEntersItsHandler : Prop :=
  (∀ (s t : State) (cause : Nat) (tval : Word) (detail : Mask),
    cause < 0x10 → s.cur.ut = false → s.cur.kt = false → s.cur.paths ≠ [] → (s.cur.lane s.low).utvec &&& ~~~7#64 ≠ 0 →
    let g := { s.cur with cause := causeWord cause 0 detail, epc := s.pc, tval := tval }
    (s.setCur g).storeWords s.cid g.team g.asid g.priv (frameWords g ((s.cur.lane s.low).uframe &&& ~~~63#64)
      (s.ownStatus s.cid s.cur s.low) s.active s.pc) = some t →
    let u := s.takeTrap cause tval detail
    u.pc = (s.cur.lane s.low).utvec &&& ~~~7#64 ∧ u.cur.ut = true ∧ u.cur.kt = false ∧ u.cur.priv = s.cur.priv ∧
    u.cur.cause = word (detail.toNat * 2 ^ 32 + cause) ∧ u.cur.epc = s.pc ∧ u.cur.tval = tval ∧ u.active = s.active ∧
    u.mem = t.mem ∧ u.dies = t.dies ∧ (∀ c, { u.core c with slots := (t.core c).slots } = t.core c) ∧
    (∀ p ∈ u.cur.paths.drop 1, p.frozen = true) ∧ u.cur.lanes = s.cur.lanes ∧ u.cur.sregs = s.cur.sregs ∧ u.cur.jmask = s.cur.jmask) ∧
  (∀ (s : State) (cause : Nat) (tval : Word) (detail : Mask), cause < 0x10 →
    ((s.cur.lane s.low).utvec &&& ~~~7#64 = 0 ∨ s.cur.ut = true ∨ s.cur.kt = true) →
    s.takeTrap cause tval detail = s.kernelTrap 0x13 cause tval detail 0 0)

/-- R139, R149: a kernel cause on a SIMT core stops the lanes of the path in a free held slot with cause, pc, value and their registers;
they leave the paths of their group, in which they stay live.
The model's choice in part: log entries 26, 105, 147. -/
def Obligations.KernelCauseHoldsTheLanes : Prop :=
  ∀ (s : State) (cause : Nat) (tval : Word) (detail : Mask) (hs : Nat),
    0x10 ≤ cause → cause ≠ 0x17 → cause ≠ 0x18 → cause < 256 → isLatency s.cid = false → s.cur.held = none → s.sid < 32 → s.cur.paths ≠ [] →
    (s.core s.cid).freeHeld = some hs → s.holdRoom 1 s.active = true →
    let t := s.takeTrap cause tval detail
    (t.grp s.cid hs).live = s.active ∧ (t.grp s.cid hs).epc = s.pc ∧ (t.grp s.cid hs).tval = tval ∧
    (t.grp s.cid hs).cause = word (detail.toNat * 2 ^ 32 + cause) ∧ (t.grp s.cid hs).lanes = s.cur.lanes ∧
    (∃ tag areas, (t.grp s.cid hs).held = some ⟨s.sid, cause, some tag, false, areas⟩) ∧
    t.cur.live = s.cur.live ∧ (∀ p ∈ t.cur.paths, p.mask &&& s.active = 0)

/-- R139, R141: a kernel cause on a latency core whose vector block can be read and whose frame can be written saves cause, pc and
value and enters the handler of word 0 privileged, with KT set.
The model's choice in part: log entries 19, 36. -/
def Obligations.KernelCauseEntersTheVectorOnALatencyCore : Prop :=
  ∀ (s s1 s2 t : State) (cause h f : Nat) (tval : Word) (detail : Mask),
    0x10 ≤ cause → cause < 256 → isLatency s.cid = true → s.cur.paths ≠ [] →
    let s0 := (s.cancelDefers s.cid s.sid 1).modCur fun g => { g with cause := causeWord cause 0 detail, epc := s.pc, tval := tval }
    s0.glbLoad s.cid s0.cur.asid s0.cur.vectors 8 .read true = (0, h, s1) →
    s1.glbLoad s.cid s0.cur.asid (s0.cur.vectors + 8) 8 .read true = (0, f, s2) →
    s2.storeWords s.cid 0 s0.cur.asid true (frameWords s0.cur (word (f / 64 * 64)) (s.ownStatus s.cid s.cur 0) 1 s.pc) = some t →
    let u := s.takeTrap cause tval detail
    u.pc = word (h / 8 * 8) ∧ u.cur.priv = true ∧ u.cur.kt = true ∧ u.cur.cause = word (detail.toNat * 2 ^ 32 + cause) ∧
    u.cur.epc = s.pc ∧ u.cur.tval = tval ∧ u.cur.lanes = s.cur.lanes

/-- R137, R141: `eret` outside a handler takes cause 0x12. In a user handler whose frame can be read it clears UT and puts each live lane of
the frame's mask back at the pc of its record with the record's x registers, predicates and meeting register. In the kernel's it puts the
strand back at the pc of its record with the record's x registers, predicates and meeting register and with the PRIV, UT and KT of the saved
status. A user frame that cannot be read makes it take cause 0x13 with cause 0x12 as the original.
The model's choice in part: log entry 36. -/
def Obligations.ReturnFromException : Prop :=
  (∀ o s ls, Enabled s (.eret o) ls → s.cur.kt = false → s.cur.ut = false →
    exec (.eret o) s = .next (s.takeTrap 0x12 ((encode (.eret o)).headD 0) 0)) ∧
  (∀ o s ls s1 s2 h ws, Enabled s (.eret o) ls → s.cur.kt = false → s.cur.ut = true →
    let f := (s.cur.lane s.low).uframe &&& ~~~63#64
    s.loadWords s.cid s.cur.asid s.cur.priv [f + 24] = some (h, s1) →
    let m := low32 (h.getD 0 0)
    s1.loadWords s.cid s.cur.asid s.cur.priv ((lanesOf m).flatMap fun l => recordAddrs (f + 0x40 + word (0x220 * l))) = some (ws, s2) →
    ∃ t, exec (.eret o) s = .next t ∧
      let old := s2.grp s2.cid s2.handlerSlot
      let new := t.grp s2.cid s2.handlerSlot
      new.ut = false ∧
      ∀ i l, (lanesOf m)[i]? = some l → old.live.getLsbD l = true →
        new.pcOf l = ws.getD (68 * i + 64) 0 &&& ~~~7#64 ∧
        (∀ n, 0 < n → n < 64 → n < old.alloc → new.x l n = ws.getD (68 * i + n) 0) ∧
        (∀ n, n < 7 → new.p l n = (ws.getD (68 * i + 65) 0).getLsbD n) ∧
        (new.lane l).meet = ws.getD (68 * i + 67) 0) ∧
  (∀ o s ls, Enabled s (.eret o) ls → s.cur.kt = false → s.cur.ut = true →
    s.loadWords s.cid s.cur.asid s.cur.priv [((s.cur.lane s.low).uframe &&& ~~~63#64) + 24] = none →
    exec (.eret o) s = .next (s.kernelTrap 0x13 0x12 ((encode (.eret o)).headD 0) 0 0 0)) ∧
  (∀ o s ls s1 s2 f ws, Enabled s (.eret o) ls → s.cur.kt = true →
    s.glbLoad s.cid s.cur.asid (s.cur.vectors + 8) 8 .read true = (0, f, s1) →
    s1.loadWords s.cid s.cur.asid true (recordAddrs (word (f / 64 * 64) + 0x40) ++ [word (f / 64 * 64) + 0x20]) = some (ws, s2) →
    s2.cur.paths ≠ [] →
    ∃ t, exec (.eret o) s = .next t ∧ t.pc = ws.getD 64 0 &&& ~~~7#64 ∧ t.cur.priv = (ws.getD 68 0).getLsbD 0 ∧
      t.cur.ut = (ws.getD 68 0).getLsbD 1 ∧ t.cur.kt = (ws.getD 68 0).getLsbD 6 ∧
      (∀ n, 0 < n → n < 64 → n < s2.cur.alloc → t.cur.x 0 n = ws.getD n 0) ∧
      (∀ n, n < 7 → t.cur.p 0 n = (ws.getD 65 0).getLsbD n) ∧ (t.cur.lane 0).meet = ws.getD 67 0)

/-! Control registers and system instructions -/

/-- R128-R130: `crr` gives each acting lane the register's value and changes nothing else: of `cr.time`, where neither recording nor replay is on,
package time. R10, R128, R129: `crw` writes, `crs` sets bits and `crc` clears bits. A register that each lane holds is changed in every acting lane
from its own old value; one that the group holds takes the value of the highest acting lane; read-only registers stay. `cr.fcsr` keeps its RM where the new one is
reserved, FLT of `cr.sample` is cleared by writing 1, `cr.sbuf` takes the group's address space with it, a 1 written to a bit of `cr.ipend` clears
it, and the kernel registers of hardware strands exist on latency cores alone. The old value goes to the destination.
The model's choice in part: log entries 10, 35, 131, 134. -/
def Obligations.ControlRegisterAccess : Prop :=
  (∀ o (crn : BitVec 8) s ls ka kb kc t, crn ≠ 0x18 → Enabled s (.crr o crn) ls → Fed s (.crr o crn) ls ka kb kc t →
    exec (.crr o crn) s = .next (t.finish (.crr o crn) ls fun l => t.crValue l crn.toNat)) ∧
  (∀ o (crn : BitVec 8) s ls ka kb kc t, crn = 0x18 → Enabled s (.crr o crn) ls → Fed s (.crr o crn) ls ka kb kc t →
    fld (t.die t.did).recctl 0 2 = 0 → exec (.crr o crn) s = .next (t.finish (.crr o crn) ls fun _ => word t.time)) ∧
  (∀ (i : Instr) (o : Operands) (crn : BitVec 8) (f : Word → Word → Word),
    (i = .crw o crn ∧ f = (fun _ a => a) ∨ i = .crs o crn ∧ f = (fun x a => x ||| a) ∨ i = .crc o crn ∧ f = (fun x a => x &&& ~~~a)) →
    ∀ s ls h ka kb kc t, Enabled s i (ls ++ [h]) → Fed s i (ls ++ [h]) ka kb kc t → crn ≠ 0x18 →
    let a := t.opA i ka (ls ++ [h])
    let old := fun l => t.crValue l crn.toNat
    ∃ u, exec i s = .next (u.finish i (ls ++ [h]) old) ∧
    (crn = 0x04 → OnlySlot t u t.cid t.sid ∧ ∀ l ∈ ls ++ [h], (u.cur.lane l).utvec = f (old l) (a l)) ∧
    (crn = 0x05 → OnlySlot t u t.cid t.sid ∧ ∀ l ∈ ls ++ [h], (u.cur.lane l).uframe = f (old l) (a l)) ∧
    (crn = 0x07 → OnlySlot t u t.cid t.sid ∧ ∀ l ∈ ls ++ [h], (u.cur.lane l).cbank = f (old l) (a l)) ∧
    (crn = 0x42 → OnlySlot t u t.cid t.sid ∧ ∀ l ∈ ls ++ [h], (u.cur.lane l).ssa = f (old l) (a l)) ∧
    (crn = 0x02 → u.cur = { t.cur with epc := f (old h) (a h) }) ∧
    (crn = 0x03 → u.cur = { t.cur with tval := f (old h) (a h) }) ∧
    (crn = 0x41 → u.cur = { t.cur with asid := ((f (old h) (a h)).setWidth 32).setWidth 64 }) ∧
    (crn = 0x06 → OnlySlot t u t.cid t.sid ∧ ∀ l ∈ ls ++ [h], let v := f (old l) (a l)
      let r := (u.cur.lane l).fcsr
      r.extractLsb' 0 5 = v.extractLsb' 0 5 ∧ r.extractLsb' 8 5 = v.extractLsb' 8 5 ∧
      r.extractLsb' 13 3 = (if 5 ≤ (v.extractLsb' 13 3).toNat then (old l).extractLsb' 13 3 else v.extractLsb' 13 3) ∧
      r &&& 0xFFFFFFFFFFFF00E0 = 0) ∧
    (∀ k : Nat, k < 8 → crn.toNat = 0x20 + k → OnlySlot t u t.cid t.sid ∧ u.cur.j k = (f (old h) (a h)).setWidth 32 ∧
      (∀ m, m ≠ k → u.cur.j m = t.cur.j m)) ∧
    (crn = 0x30 → OnlyCore t u t.cid ∧ { u.k with sample := t.k.sample } = t.k ∧ let v := f (old h) (a h)
      u.k.sample.getLsbD 0 = v.getLsbD 0 ∧ u.k.sample.getLsbD 1 = (t.k.sample.getLsbD 1 && !v.getLsbD 1) ∧
      u.k.sample.extractLsb' 8 4 = (if v.extractLsb' 8 4 = 15 then t.k.sample.extractLsb' 8 4 else v.extractLsb' 8 4) ∧
      u.k.sample.extractLsb' 16 16 = v.extractLsb' 16 16 ∧ u.k.sample &&& 0xFFFFFFFF0000F0FC = 0) ∧
    (crn = 0x31 → OnlyCore t u t.cid ∧ u.k = { t.k with sbuf := f (old h) (a h) &&& ~~~0xFFF, sasid := t.cur.asid }) ∧
    (crn = 0x40 → isLatency t.cid = true → u.cur = { t.cur with ktvec := f (old h) (a h) }) ∧
    (crn = 0x43 → isLatency t.cid = true → u.cur = { t.cur with ipend := t.cur.ipend &&& ~~~(f (old h) (a h)) }) ∧
    (crn = 0x44 → isLatency t.cid = true → u.cur = { t.cur with ienable := f (old h) (a h) &&& 15 }) ∧
    (crn = 0x40 ∨ crn = 0x43 ∨ crn = 0x44 → isLatency t.cid = false → u = t) ∧
    (crn.toNat < 0x02 ∨ crn = 0x08 ∨ 0x10 ≤ crn.toNat ∧ crn.toNat < 0x20 → u = t))

/-- R146, R153: `setseg` in range loads one segment register with BASE from b and LIMIT from c, and nothing else; a segment number above 3 and a
range beyond the segment's backing store take cause 0x05 with the number and with the base; `wfi` only goes on
on a SIMT core or with an enabled signal pending, and otherwise stops the strand. -/
def Obligations.SegmentAndWaitForInterrupt : Prop :=
  (∀ o s ls ka kb kc t, Enabled s (.setseg o) ls → Fed s (.setseg o) ls ka kb kc t → o.queues = false → t.cur.paths ≠ [] →
    let n := t.opA (.setseg o) ka ls (ls.headD 0)
    let base := t.opB (.setseg o) kb ls (ls.headD 0)
    let limit := t.opC (.setseg o) kc ls (ls.headD 0)
    n.toNat ≤ 3 → base.toNat + (if n = 0 then 32 else 1) * limit.toNat ≤ t.segExtent n.toNat →
    ∃ u, exec (.setseg o) s = .next u ∧ OnlySlot t u t.cid t.sid ∧ u.cur.seg n.toNat = ⟨limit.setWidth 32, base.setWidth 32⟩ ∧
      (∀ k, k ≠ n.toNat → u.cur.seg k = t.cur.seg k) ∧ u.pc = t.pc + word (Instr.setseg o).len) ∧
  (∀ o s ls ka kb kc t, Enabled s (.setseg o) ls → Fed s (.setseg o) ls ka kb kc t →
    let n := t.opA (.setseg o) ka ls (ls.headD 0)
    let base := t.opB (.setseg o) kb ls (ls.headD 0)
    let limit := t.opC (.setseg o) kc ls (ls.headD 0)
    (3 < n.toNat → exec (.setseg o) s = .next (t.takeTrap 0x05 n (maskOf ls))) ∧
    (n.toNat ≤ 3 → t.segExtent n.toNat < base.toNat + (if n = 0 then 32 else 1) * limit.toNat →
      exec (.setseg o) s = .next (t.takeTrap 0x05 base (maskOf ls)))) ∧
  (∀ o s ls, Enabled s (.wfi o) ls → (isLatency s.cid = false ∨ s.cur.ipend &&& s.cur.ienable ≠ 0) →
    exec (.wfi o) s = .next (s.advance 8)) ∧
  (∀ o s ls, Enabled s (.wfi o) ls → isLatency s.cid = true → s.cur.ipend &&& s.cur.ienable = 0 →
    exec (.wfi o) s = .next (s.modCur fun g => { g with wfi := true }))

/-! Memory -/

/-- R181, R186-R190: `ld` whose lanes are placed and whose reads give data writes each lane's bytes, little-endian, zero- or sign-extended
(the pair of registers for `.x`), and goes on. In private and local memory the bytes are those at BASE + offset of the segment (plus the
lane's LIMIT in private memory) and the read changes nothing.
The model's choice in part: log entries 130, 145. -/
def Obligations.LoadsGiveTheBytesAtTheirPlace : Prop :=
  (∀ o m s ls ka kb kc t ps rs u, Enabled s (.ld o m) ls → Fed s (.ld o m) ls ka kb kc t →
    Claims.Placed t m.space (MSize.bytes m.size) (t.carried m.space (.ld o m) ls ka kb) (Claims.sums t (.ld o m) ls ka kb) ps →
    t.readPlaces (MSize.bytes m.size) ps = (rs, u) → (∀ r ∈ rs, ∃ v, r.2.2 = .data v) →
    exec (.ld o m) s = .next (((u.popSources ls o).writeLoaded o.d (MSize.bytes m.size) m.sx ls (readData rs)).advance (Instr.ld o m).len)) ∧
  (∀ (s : State) (c off n l k : Nat) (x : Xl), (s.core c).locPoisoned off n = false →
    s.readPlace l (.loc c off) k x n = (.data (readBytes (s.core c).loc off n), s)) ∧
  (∀ (s : State) (low l n : Nat) (a : Word), a.toNat % n = 0 → a.toNat + n ≤ (s.cur.seg 0).limit.toNat →
    s.placeOf .pvt low l a n = some (.loc s.cid ((s.cur.seg 0).base.toNat + l * (s.cur.seg 0).limit.toNat + a.toNat))) ∧
  (∀ (s : State) (low l n : Nat) (a : Word), a.toNat % n = 0 → a.toNat + n ≤ (s.cur.seg 1).limit.toNat →
    s.placeOf .loc low l a n = some (.loc s.cid ((s.cur.seg 1).base.toNat + a.toNat)))

/-- R154, R181, R182: an access of which a lane lies beyond its segment's limit, is misaligned, or names a cluster rank by a carry, takes cause 0x05 with that lane's address, and
no lane loads or stores. -/
def Obligations.MisplacedAccessTakesSegmentFault : Prop :=
  ∀ (i : Instr) o m s ls ka kb kc t l a r, (i = .ld o m ∨ i = .st o m) → Enabled s i ls → Fed s i ls ka kb kc t →
    (m.space = .acc → t.ownsEngine = true) →
    (Claims.sums t i ls ka kb).filter (fun e =>
      (t.placeAt m.space (ls.headD 0) (MSize.bytes m.size) (t.carried m.space i ls ka kb) e).isNone) = (l, a) :: r →
    exec i s = .next (t.takeTrap 0x05 a (maskOf (l :: r.map (·.1))))

/-- R181, R186-R188: `st` whose lanes are placed and translated stores the low bytes of each lane's operand c (the pair for `.x`) in ascending
lane order, and goes on. A store to local memory changes those bytes of the core's share, little-endian, and no other byte anywhere; a store to
an ordinary `.glb` line outside rollback mode stays in the core's copy: no byte of the package's memory changes, and the core reads it back.
The model's choice in part: log entry 145. -/
def Obligations.StoresReachTheirPlace : Prop :=
  (∀ o m s ls ka kb kc t ps xs u, Enabled s (.st o m) ls → Fed s (.st o m) ls ka kb kc t →
    Claims.Placed t m.space (MSize.bytes m.size) (t.carried m.space (.st o m) ls ka kb) (Claims.sums t (.st o m) ls ka kb) ps →
    t.accXls .write ps = (xs, u) → (∀ x ∈ xs, x.2.2.1 = 0) → (ls.Nodup) →
    exec (.st o m) s = .next (((xs.foldl (fun v x => v.storePlace x.2.1 x.2.2.2 (MSize.bytes m.size)
      (t.storeVal (.st o m) kc ls (MSize.bytes m.size) x.1)) u).popSources ls o).advance (Instr.st o m).len)) ∧
  (∀ (s : State) (c off n v : Nat) (x : Xl), let t := s.storePlace (.loc c off) x n v
    OnlyCore s t c ∧ readBytes (t.core c).loc off n = v % 256 ^ n ∧
    (∀ b, b < off ∨ off + n ≤ b → byteAt (t.core c).loc b = byteAt (s.core c).loc b) ∧ (t.core c).slots = (s.core c).slots) ∧
  (∀ (s : State) (va : Word) (x : Xl) (n v d : Nat), region x.pa = .dram d → s.uncached x.pa = false → x.pa % 128 + n ≤ 128 →
    s.team.holds = false → let t := s.storePlace (.glb va) x n v
    OnlyCore s t s.cid ∧ (t.core s.cid).slots = (s.core s.cid).slots ∧
    ∀ i, (t.readSnap s.cid x.pa n i).1 = v % 256 ^ n)

/-- R287, R292, R418: the publication of a line of the core's own die changes exactly the bytes of memory that are unpublished in the core's copy and
not pinned, to the copy's bytes; afterwards they are unpublished no more. A line under a lease of another package keeps them, and nothing changes.
The model's choice in part: log entries 7, 16. -/
def Obligations.PublicationWritesTheUnpublishedBytes : Prop :=
  ∀ (s : State) (sc : Scope) (c line : Nat), region (line * 128) = .dram (dieOfCore c) →
    let l := (s.core c).line line
    let t := s.publishLine sc c line
    (s.leased line = true → t = s) ∧
    (l.chk = false → (∀ p ∈ l.older, p.chk = false) → s.leased line = false → s.delayed = [] →
    (∀ i, i < 128 → byteAt t.mem (line * 128 + i) =
      if (l.um &&& ~~~l.pin).getLsbD i then l.data.extractLsb' (8 * i) 8 else byteAt s.mem (line * 128 + i)) ∧
    (∀ a, a / 128 ≠ line → byteAt t.mem a = byteAt s.mem a) ∧ ((t.core c).line line).um = l.um &&& l.pin)

/-- R191-R194, R278: the full/empty instructions perform or defer each acting lane's operation. On a word of local memory, one lane: `ldf` of a
full word loads it, `ldfe` also empties it, `stef` of an empty word stores and fills it, `stf` stores and fills whatever the state, `setfe`
sets the state alone; `ldf` and `ldfe` of an empty word and `stef` of a full one wait at the instruction with a deferred request.
The model's choice in part: log entries 37, 38, 39, 83, 151. -/
def Obligations.FullEmptyOperations : Prop :=
  (∀ i m acc op s ls ka kb kc t, Claims.fullEmpty i = some (m, acc, op) → Enabled s i ls → (op ≠ 0 → s.strictHeld = false) →
    Fed s i ls ka kb kc t → exec i s = .next (t.feLanes i m acc op ls ka kb kc)) ∧
  (∀ i m acc op (s : State) l ka kb kc off, Claims.fullEmpty i = some (m, acc, op) → m.space = .loc → m.size = .w →
    i.operands.queues = false → s.cur.path.mask = laneBit l → s.cur.path.done = 0 → l < 32 → s.cur.paths ≠ [] → s.isDeferred l = false →
    s.placeOf .loc l l (s.opA i ka [l] l + s.opB i kb [l] l) 4 = some (.loc s.cid off) → off < 2 ^ 32 →
    (s.core s.cid).locPoisoned off 4 = false → (s.core s.cid).cluHeld = [] → (s.die (dieOfCore s.cid)).defer = [] →
    let t := s.feLanes i m acc op [l] ka kb kc
    let full := (s.core s.cid).feAt off = 0
    let old := readBytes (s.core s.cid).loc off 4
    let v := s.storeVal i kc [l] 4 l
    ((op ≤ 1 ∧ full) ∨ (op = 2 ∧ ¬full) ∨ 3 ≤ op → t.pc = s.pc + word i.len) ∧
    (∀ n : BitVec 6, i.operands.d = .x n → n ≠ 0 → n.toNat < s.cur.alloc → op ≤ 1 → full →
      t.cur.x l n.toNat = if m.sx then (BitVec.ofNat 32 old).signExtend 64 else word old) ∧
    (op = 0 → full → (t.core s.cid).feAt off = 0 ∧ (t.core s.cid).loc = (s.core s.cid).loc) ∧
    (op = 1 → full → (t.core s.cid).feAt off ≠ 0 ∧ (t.core s.cid).loc = (s.core s.cid).loc) ∧
    ((op = 2 ∧ ¬full) ∨ op = 3 → (t.core s.cid).feAt off = 0 ∧ readBytes (t.core s.cid).loc off 4 = v) ∧
    (op = 4 → (t.core s.cid).loc = (s.core s.cid).loc ∧ ((t.core s.cid).feAt off = 0 ↔ (word v).getLsbD 0 = true)) ∧
    ((op ≤ 1 ∧ ¬full) ∨ (op = 2 ∧ full) → t.pc = s.pc ∧ t.cur.path.wait = .word ∧ t.isDeferred l = true ∧
      (t.core s.cid).loc = (s.core s.cid).loc ∧ (t.core s.cid).fe = (s.core s.cid).fe))

/-- R195-R199, R278: an atomic whose words no lease of another package covers and whose release leaves nothing unpublished replaces the bytes at each lane's place by its operation of the old bytes and the lane's operand, lane by lane in
ascending order, publishing before with a release and discarding after with an acquire, and gives each lane the old value. `cas` stores only where
the old value is the expected one. In local memory one operation changes those bytes alone.
The model's choice in part: log entries 42, 151. -/
def Obligations.AtomicOperations : Prop :=
  (∀ i m strict f s ls ka kb kc t ps xs u, Claims.atomicOp i = some (m, strict, f) → Enabled s i ls →
    (strict = true → s.strictHeld = false) → Fed s i ls ka kb kc t →
    Claims.Placed t (AtomSpace.space m.sp) (MSize.bytes m.size) (t.carried (AtomSpace.space m.sp) i ls ka kb) (Claims.sums t i ls ka kb) ps →
    t.accXls .rmw ps = (xs, u) → (∀ x ∈ xs, x.2.2.1 = 0 ∧ u.placePoisoned x.2.1 x.2.2.2 (MSize.bytes m.size) = none) →
    Claims.Unleased u (AtomSpace.space m.sp) xs → Claims.Sent u.unrec (Claims.relScope m.ord m.scope) →
    exec i s = .next (Claims.atomically u i m ls (xs.map fun x => (x.1, x.2.1, x.2.2.2)) fun l old =>
      f (MSize.bytes m.size) old (t.storeVal i kc ls (MSize.bytes m.size) l))) ∧
  (∀ o m s ls ka kb kc t ps xs u, Enabled s (.cas o m) ls → s.strictHeld = false → Fed s (.cas o m) ls ka kb kc t →
    Claims.Placed t (AtomSpace.space m.sp) (MSize.bytes m.size) Claims.noCarry (ls.map fun l => (l, t.opA (.cas o m) ka ls l)) ps →
    t.accXls .rmw ps = (xs, u) → (∀ x ∈ xs, x.2.2.1 = 0 ∧ u.placePoisoned x.2.1 x.2.2.2 (MSize.bytes m.size) = none) →
    Claims.Unleased u (AtomSpace.space m.sp) xs → Claims.Sent u.unrec (Claims.relScope m.ord m.scope) →
    exec (.cas o m) s = .next (Claims.atomically u (.cas o m) m ls (xs.map fun x => (x.1, x.2.1, x.2.2.2)) fun l old =>
      if old = (t.opB (.cas o m) kb ls l).toNat % 256 ^ MSize.bytes m.size then
        t.storeVal (.cas o m) kc ls (MSize.bytes m.size) l else old)) ∧
  (∀ (s : State) (c off n : Nat) (x : Xl) (f : Nat → Nat),
    let r := s.atomicAt (.loc c off) x n f
    r.1 = readBytes (s.core c).loc off n ∧ OnlyCore s r.2 c ∧ readBytes (r.2.core c).loc off n = f r.1 % 256 ^ n ∧
    (∀ b, b < off ∨ off + n ≤ b → byteAt (r.2.core c).loc b = byteAt (s.core c).loc b) ∧ (r.2.core c).slots = (s.core c).slots)

/-- R200-R202: a row atomic at an aligned row that is translated and under no lease publishes with a release, adds at the row's home, lane l to bytes 16l to 16l + 15, eight
BF16 sums each rounded once, discards with an acquire, and goes on. -/
def Obligations.RowAtomicAddsAtTheHome : Prop :=
  ∀ o m s ls ka kb kc t x u (c : BitVec 6), o.c = .x c → Enabled s (.vamoRow o m) ls → s.strictHeld = false → Fed s (.vamoRow o m) ls ka kb kc t →
    let row := ((Claims.sums t (.vamoRow o m) ls ka kb).headD (0, 0)).2
    row.toNat % 512 = 0 → t.translate t.cid (asidOf t.cur.asid) (incOf t.cur.asid) row .row t.cur.priv = (0, x, u) →
    u.poisoned x.pa 512 = false → (∀ j, j < 4 → (u.k.line (x.pa / 128 + j)).bad = false) →
    (∀ j, j < 4 → u.leased (x.pa / 128 + j) = false) → Claims.Sent u.unrec (Claims.relScope m.ord m.scope) →
    let u1 := u.unrec.publish (Claims.relScope m.ord m.scope) u.unrec.cid
    let u2 := [0, 1, 2, 3].foldl (fun v j => v.goFar v.cid (x.pa / 128 + j)) u1
    let u3 := u2.addRow x.pa (x.lineId u2.cur.asid row)
      (ls.map fun l => (l, (u2.cur.x l c.toNat).toNat, (u2.cur.x l (c.toNat + 1)).toNat))
    let u4 := if m.ord = .acq ∨ m.ord = .ar then u3.discard m.scope u3.cid else u3
    exec (.vamoRow o m) s = .next ((u4.popSources ls o).advance (Instr.vamoRow o m).len)

/-- R203-R207, R175, R299: `phase` publishes for its scope and, once nothing of that is left, discards and goes on, in rollback mode with a new
epoch of held stores; while bytes wait at their homes it waits. `prefetch` and `cflush`
treat each line that the lanes name once and go on; `st128` publishes for the package and, once nothing of that is left, stores each lane's
sixteen registers at its translated line, gives the lane its predicate and goes on. A line of its own die that `cflush` writes back leaves
memory with exactly the copy's unpublished bytes changed, and the L1 keeps no byte of it; a line with bytes that rollback mode holds stays.
The model's choice in part: log entries 7, 16, 119, 124. -/
def Obligations.PhaseHintsAndLineStores : Prop :=
  (∀ o sc s ls, Enabled s (.phase o sc) ls → Claims.Sent s sc →
    exec (.phase o sc) s = .next (((s.publish sc s.cid).phaseEnd sc).advance 8)) ∧
  (∀ o sc s ls, Enabled s (.phase o sc) ls → sc ≠ .core → let t := s.publish sc s.cid
    t.leftover t.cid ≠ [] → (∀ e ∈ t.leftover t.cid, t.stuckKind t.cid e.1 e.2.1 e.2.2 = 0) →
    exec (.phase o sc) s = .next (t.await (.publish ((t.leftover t.cid).map (·.1))))) ∧
  (∀ (s : State) sc, let t := s.discard sc s.cid
    (t.team.holds = false → s.phaseEnd sc = t) ∧
    (t.team.holds = true → sc ≠ .core → isLatency s.cid = false →
      s.phaseEnd sc = t.modTeam t.cid t.cur.team fun x => { x with epoch := x.epoch + 1 })) ∧
  (∀ o m s ls ka kb kc t, Enabled s (.prefetch o m) ls → Fed s (.prefetch o m) ls ka kb kc t →
    exec (.prefetch o m) s = .next ((((distinctLines (Claims.sums t (.prefetch o m) ls ka kb)).foldl
      (fun v a => v.prefetchLine m.space m.ev a.1 a.2) t).popSources ls o).advance (Instr.prefetch o m).len)) ∧
  (∀ o m s ls ka kb kc t, Enabled s (.cflush o m) ls → Fed s (.cflush o m) ls ka kb kc t →
    exec (.cflush o m) s = .next ((((distinctLines (Claims.sums t (.cflush o m) ls ka kb)).foldl
      (fun v a =>
        let w := v.translate v.cid (asidOf v.cur.asid) (incOf v.cur.asid) a.2 .flush v.cur.priv
        if w.1 = 0 then w.2.2.flushLine (w.2.1.pa / 128) else w.2.2) t).popSources ls o).advance (Instr.cflush o m).len)) ∧
  (∀ (s : State) (line : Nat), (s.k.line line).pin ≠ 0 → s.flushLine line = s) ∧
  (∀ (s : State) (line : Nat), let l := s.k.line line
    l.pin = 0 → region (line * 128) = .dram s.did → l.chk = false → (∀ p ∈ l.older, p.chk = false) → s.leased line = false → s.delayed = [] →
    let t := s.flushLine line
    (∀ i, i < 128 → byteAt t.mem (line * 128 + i) =
      if l.um.getLsbD i then l.data.extractLsb' (8 * i) 8 else byteAt s.mem (line * 128 + i)) ∧
    (∀ a, a / 128 ≠ line → byteAt t.mem a = byteAt s.mem a) ∧ t.k.line line = L1Line.zero) ∧
  (∀ o s ls ka kb kc t ps xs u (c : BitVec 6), o.c = .x c → Enabled s (.st128 o) ls → s.strictHeld = false → Fed s (.st128 o) ls ka kb kc t →
    let v := t.unrec.publish .pkg t.unrec.cid
    Claims.Sent t.unrec .pkg → Claims.Placed v .glb 128 Claims.noCarry (Claims.sums t (.st128 o) ls ka kb) ps → v.accXls .st128 ps = (xs, u) →
    (∀ x ∈ xs, x.2.2.1 = 0) → Claims.Unleased u .glb xs →
    let r := u.stores128 c.toNat (xs.map fun x => (x.1, x.2.1, x.2.2.2))
    r.2.withinRoom = true → exec (.st128 o) s = .next (((r.2.popSources ls o).writeDst o.d (xs.map (·.1))
      fun l => if (r.1.find? fun b => b.1 == l).any (·.2) then 1 else 0).advance (Instr.st128 o).len))

/-! Copies, barrier objects, rings, queues and barriers -/

/-- R208-R214: `cpy`, `tld` and `tst` whose checks all pass hand one command per acting lane to the core's copy engine, in ascending lane order,
each under a tag of its own, and go on: no byte of memory and no lane changes yet (a `cpy` of no bytes apart, which completes at once). A command that fails a check makes the
instruction take cause 0x05 with the failing word, and none is handed over. The engine's completion of a `cpy` between two stretches of local
memory that do not overlap gives every destination byte its source byte; the completion is signalled once nothing keeps a release that it asks for
from being complete.
The model's choice in part: log entries 47, 48. -/
def Obligations.AsyncCopiesAreQueued : Prop :=
  (∀ i s ls ka kb kc t cmds bad, Enabled s i ls → Fed s i ls ka kb kc t → Claims.copies t i ls ka kb kc = some (cmds, bad) →
    (∀ a ∈ cmds, bad t a = none) → (∀ a ∈ cmds, a.kind = 0 → compLow a.comp ≠ 0) → i.operands.queues = false → t.cur.paths ≠ [] →
    ((∀ a ∈ cmds, a.outward = false) ∨ t.team.holds = false) →
    ∃ u tags, exec i s = .next u ∧ (u.core u.cid).async = (t.core t.cid).async ++ List.zipWith (fun a n => { a with tag := n }) cmds tags ∧
      tags.length = cmds.length ∧ tags.Nodup ∧ (∀ a ∈ (t.core t.cid).async, a.tag ∉ tags) ∧ u.mem = t.mem ∧ (u.core u.cid).loc = (t.core t.cid).loc ∧
      u.cur.lanes = t.cur.lanes ∧ u.cur.sregs = t.cur.sregs ∧ u.pc = t.pc + word i.len) ∧
  (∀ i s ls ka kb kc t cmds bad a, Enabled s i ls → Fed s i ls ka kb kc t → Claims.copies t i ls ka kb kc = some (cmds, bad) →
    cmds.find? (fun a => (bad t a).isSome) = some a →
    exec i s = .next (t.takeTrap 0x05 ((bad t a).getD 0) (maskOf ((cmds.filter fun a => (bad t a).isSome).map (·.lane))))) ∧
  (∀ (s : State) (core idx c p q : Nat) (a : AsyncCmd), at? (s.core core).async idx = some a → a.stalled = none → a.again ≤ s.clk → a.kind = 0 →
    s.enginePlace core a.team a.segs a.src (compLow a.comp) = some (.loc c p) →
    s.enginePlace core a.team a.segs a.dst (compLow a.comp) = some (.loc c q) → compLow a.comp % 16 = 0 →
    (p + compLow a.comp ≤ q ∨ q + compLow a.comp ≤ p) →
    ∃ u, (u.relWaits core a = none → exec (.asyncCopyComplete core idx) s = .next ((u.dropCmd core idx).endCmd core a false)) ∧
      (a.rel = false ∨ a.scope = .core → u.relWaits core a = none) ∧ OnlyCore s u c ∧
      (∀ k, k < compLow a.comp → byteAt (u.core c).loc (q + k) = byteAt (s.core c).loc (p + k)) ∧
      (∀ b, b < q ∨ q + compLow a.comp ≤ b → byteAt (u.core c).loc b = byteAt (s.core c).loc b))

/-- R215, R216: a signal adds its amount to COUNT modulo 2^64 and one to SIG modulo 2^32, sets ERR where a command ended in error, and
changes no other byte. `abar.init` sets COUNT to the lowest acting lane's value, clears the second word
and takes the object's poison away; `abar.arrive` signals each acting
lane's object in ascending order, after a release where it asks for one; `abar.wait` goes on once every lane's count has reached its target, after
an acquire where it asks for one, and otherwise waits. -/
def Obligations.AsyncBarrierObjects : Prop :=
  (∀ (s : State) (c off : Nat) (amount : Word) (err : Bool),
    let t := s.abarSignal c off amount err
    OnlyCore s t c ∧ t.locRd c off 8 = (s.locRd c off 8 + amount.toNat) % 2 ^ 64 ∧
    t.locRd c (off + 8) 8 / 2 ^ 32 = (s.locRd c (off + 8) 8 / 2 ^ 32 + 1) % 2 ^ 32 ∧
    t.locRd c (off + 8) 8 % 2 ^ 32 = (if err then (s.locRd c (off + 8) 8 % 2 ^ 32) ||| 1 else s.locRd c (off + 8) 8 % 2 ^ 32) ∧
    (∀ b, b < off ∨ off + 16 ≤ b → byteAt (t.core c).loc b = byteAt (s.core c).loc b)) ∧
  (∀ o m s ls ka kb kc t c off, Enabled s (.abarInit o m) ls → Fed s (.abarInit o m) ls ka kb kc t →
    Claims.Placed t .loc 16 Claims.noCarry [(ls.headD 0, t.opA (.abarInit o m) ka ls (ls.headD 0))] [(ls.headD 0, .loc c off)] →
    exec (.abarInit o m) s = .next (((((t.locWr t.cid off 8 (t.opB (.abarInit o m) kb ls (ls.headD 0)).toNat).locWr t.cid (off + 8) 8 0).locUnpoison
      t.cid off 16).popSources ls o).advance (Instr.abarInit o m).len)) ∧
  (∀ o m s ls ka kb kc t ps, Enabled s (.abarArrive o m) ls → Fed s (.abarArrive o m) ls ka kb kc t → ls.Nodup →
    Claims.Placed t .loc 16 Claims.noCarry (ls.map fun l => (l, t.opA (.abarArrive o m) ka ls l)) ps →
    let sc := if m.rel then m.scope else .core
    Claims.Sent t sc →
    exec (.abarArrive o m) s = .next (((ps.foldl (fun v x => v.abarSignal v.cid x.2.share (t.opB (.abarArrive o m) kb ls x.1) false)
      (t.publish sc t.cid)).popSources ls o).advance (Instr.abarArrive o m).len)) ∧
  (∀ o m s ls ka kb kc t ps, Enabled s (.abarWait o m) ls → Fed s (.abarWait o m) ls ka kb kc t → ls.Nodup →
    Claims.Placed t .loc 16 Claims.noCarry (ls.map fun l => (l, t.opA (.abarWait o m) ka ls l)) ps →
    ((∀ x ∈ ps, (word (t.locRd t.cid x.2.share 8) - t.opB (.abarWait o m) kb ls x.1).toNat < 2 ^ 63) →
      exec (.abarWait o m) s = .next (((if m.acq then t.acquire m.scope t.cid else t).popSources ls o).advance (Instr.abarWait o m).len)) ∧
    ((∃ x ∈ ps, 2 ^ 63 ≤ (word (t.locRd t.cid x.2.share 8) - t.opB (.abarWait o m) kb ls x.1).toNat) →
      exec (.abarWait o m) s = .next (t.await .abar)))

/-- R217, R218: reserving takes the slot that RSV names from free to reserved and steps RSV; getting takes the slot that GET names
from published to taken and steps GET; publishing and putting move a named slot from reserved to published and from taken to free, and any other
request sets ERR; no other slot and no byte outside the descriptor changes. `ring.rsv` and `ring.get` serve their lanes in ascending order,
each lane getting its slot number, and wait at the first ring that has no such slot, where a lane once served is not served again; `ring.pub` and `ring.put` move each lane's slot in ascending order, after a release where they ask
for one. -/
def Obligations.RingsMoveTheirSlots : Prop :=
  (∀ (s : State) (r : RingRef), 0 < s.ringN r → s.ringN r ≤ 256 →
    let i := s.ringRsv r % s.ringN r
    (s.slotState r i ≠ 0 → s.reserveSlot r = none) ∧
    (s.slotState r i = 0 → ∃ t, s.reserveSlot r = some (i, t) ∧ OnlyCore s t r.core ∧ t.slotState r i = 1 ∧
      t.ringRsv r = (s.ringRsv r + 1) % 2 ^ 32 ∧ (∀ j, j < 256 → j ≠ i → t.slotState r j = s.slotState r j) ∧ t.ringGet r = s.ringGet r ∧
      (∀ b, b < r.off + 0x10 ∨ r.off + 96 ≤ b → byteAt (t.core r.core).loc b = byteAt (s.core r.core).loc b))) ∧
  (∀ (s : State) (r : RingRef), 0 < s.ringN r → s.ringN r ≤ 256 →
    let i := s.ringGet r % s.ringN r
    (s.slotState r i ≠ 2 → s.takeSlot r = none) ∧
    (s.slotState r i = 2 → ∃ t, s.takeSlot r = some (i, t) ∧ OnlyCore s t r.core ∧ t.slotState r i = 3 ∧
      t.ringGet r = (s.ringGet r + 1) % 2 ^ 32 ∧ (∀ j, j < 256 → j ≠ i → t.slotState r j = s.slotState r j) ∧ t.ringRsv r = s.ringRsv r)) ∧
  (∀ (s : State) (r : RingRef) (i src v : Nat), s.ringN r ≤ 256 → v < 4 →
    (i < s.ringN r → s.slotState r i = src → (s.moveSlot r i src v).slotState r i = v ∧
      (∀ j, j < 256 → j ≠ i → (s.moveSlot r i src v).slotState r j = s.slotState r j) ∧
      (s.moveSlot r i src v).ringFlags r = s.ringFlags r) ∧
    ((s.ringN r ≤ i ∨ s.slotState r i ≠ src) → (s.moveSlot r i src v).ringFlags r = s.ringFlags r ||| 1 ∧
      (∀ j, j < 256 → (s.moveSlot r i src v).slotState r j = s.slotState r j))) ∧
  (∀ i m take s ls ka kb kc t rs u, (i = .ringRsv i.operands m ∧ take = State.reserveSlot ∨ i = .ringGet i.operands m ∧ take = State.takeSlot) →
    Enabled s i ls → Fed s i ls ka kb kc t → Claims.Rings t i ls ka rs →
    (t.ringLanes take i.operands.d m.acq m.scope rs = (true, u) →
      exec i s = .next (((u.popSources ls i.operands).writeLatch i.operands.d).advance i.len)) ∧
    (t.ringLanes take i.operands.d m.acq m.scope rs = (false, u) → exec i s = .next (u.await .ring))) ∧
  (∀ i m src v s ls ka kb kc t rs, (i = .ringPub i.operands m ∧ src = 1 ∧ v = 2 ∨ i = .ringPut i.operands m ∧ src = 3 ∧ v = 0) → ls.Nodup →
    Enabled s i ls → Fed s i ls ka kb kc t → Claims.Rings t i ls ka rs →
    let sc := if m.rel then m.scope else .core
    Claims.Sent t sc →
    exec i s = .next (((rs.foldl (fun w x => w.moveSlot x.2 (t.opB i kb ls x.1).toNat src v) (t.publish sc t.cid)).popSources
      ls i.operands).advance i.len)) ∧
  (∀ i m s ls ka kb kc t l, (i = .ringRsv i.operands m ∨ i = .ringGet i.operands m ∨ i = .ringPub i.operands m ∨ i = .ringPut i.operands m) →
    Enabled s i ls → Fed s i ls ka kb kc t →
    (ls.filter fun l => !t.cur.path.done.getLsbD l).find? (fun l => (t.ringAt t.cid t.cur.segs (t.opA i ka ls l).toNat).isNone) = some l →
    exec i s = .next (t.takeTrap 0x05 (t.opA i ka ls l) (maskOf ls)))

/-- R183, R185, R261: `qbind` of a word that the group may bind gives it to the queue register alone, and a free channel that it names to
the group's team; any other word makes it take cause 0x05 with that word. `qstat` gives each acting lane the status word of the queue register that
bits 3:0 of its operand name, and changes nothing else. -/
def Obligations.QueueBindingsAndStatus : Prop :=
  (∀ (o : Operands) (n : BitVec 4) s ls ka kb kc t, o.d = .q n → o.a.queue = none → o.b.queue = none → o.c.queue = none →
    let i := Instr.qbind { o with d := .x 0 }
    Enabled s i ls → Fed s i ls ka kb kc t → t.cur.paths ≠ [] →
    let w := t.opA i ka ls (ls.headD 0)
    (t.bindOk w = true → ∃ u, exec (.qbind o) s = .next u ∧ OnlyCore t u t.cid ∧ u.cur.q n.toNat = w ∧
      (∀ m, m ≠ n.toNat → u.cur.q m = t.cur.q m) ∧ u.cur.lanes = t.cur.lanes ∧ u.pc = t.pc + word i.len ∧
      (bindKind w = 1 → (u.k.chan (fld w 0 16)).bound = true ∧ ((t.k.chan (fld w 0 16)).bound = false →
        (u.k.chan (fld w 0 16)).team = t.cur.team)) ∧
      (∀ m, bindKind w ≠ 1 ∨ m ≠ fld w 0 16 → u.k.chan m = t.k.chan m)) ∧
    (t.bindOk w = false → exec (.qbind o) s = .next (t.takeTrap 0x05 w (maskOf ls)))) ∧
  (∀ o s ls ka kb kc t, Enabled s (.qstat o) ls → Fed s (.qstat o) ls ka kb kc t →
    exec (.qstat o) s = .next (t.finish (.qstat o) ls fun l => t.queueWord ((t.opA (.qstat o) ka ls l).toNat % 16))) ∧
  (∀ (s : State) (n : Nat), bindKind (s.cur.q n) = 0 → s.queueWord n = word (fld (s.cur.q n) 60 4 * 2 ^ 60)) ∧
  (∀ (s : State) (n : Nat), bindKind (s.cur.q n) = 1 → (s.k.chan (fld (s.cur.q n) 0 16)).count < 2 ^ 32 →
    (s.queueWord n).extractLsb' 0 32 = BitVec.ofNat 32 (s.k.chan (fld (s.cur.q n) 0 16)).count ∧
    (s.queueWord n).extractLsb' 60 4 = (s.cur.q n).extractLsb' 60 4)

/-- R163, R164, R220-R222: an arrival of a group that has arrived in the open generation already waits. An accepted arrival at a team barrier that does not complete the generation adds one to ARRIVED; `bar.sync` then waits and
`bar.arrive` goes on. The arrival that completes it begins the next generation with nothing arrived, goes on, and lets every path of the
team that waits for that generation go on. An arrival that R222 turns away takes cause 0x04 with the state word and the reason. Cluster barriers
publish for the cluster first, and arrive once nothing of that is left, by the same operation.
The model's choice in part: log entries 45, 46, 152. -/
def Obligations.BarriersCollectTheirGroups : Prop :=
  (∀ i clu sync bn s ls ka kb kc t, Claims.barrier i = some (clu, sync, bn) → Enabled s i ls → Fed s i ls ka kb kc t →
    let cnt := (t.opA i ka ls (ls.headD 0)).toNat % 2 ^ 32
    let msk := (t.opB i kb ls (ls.headD 0)).setWidth 32
    let b := t.bar clu bn
    (t.barWhy clu b cnt msk ≠ 0 →
      exec i s = .next (t.takeTrap 0x04 (if t.barWhy clu b cnt msk = 5 then 0 else if clu then b.cluWord else b.word)
        (BitVec.ofNat 32 (t.barWhy clu b cnt msk * 32 + (if clu then 16 else 0) + bn)))) ∧
    (t.barWhy clu b cnt msk = 0 → b.count ≠ 0 → b.who.contains (t.barGroup clu) = true → exec i s = .next (t.await (.barBusy clu bn b.gen))) ∧
    (t.barWhy clu b cnt msk = 0 → (b.count = 0 ∨ b.who.contains (t.barGroup clu) = false) → t.team.rb = false →
      let sc := if clu then Scope.clu else .core
      Claims.Sent t sc → exec i s = .next ((t.publish sc t.cid).barArrive i ls clu sync bn cnt msk))) ∧
  (∀ i sync bn (s : State) ls cnt msk, Claims.barrier i = some (false, sync, bn) → i.operands.queues = false → s.cur.paths ≠ [] →
    s.cur.path.wait = .ready → s.team.rb = false →
    let b := s.bar false bn
    let n := if b.count = 0 then cnt else b.count
    let a := if b.count = 0 then 0 else b.arrived
    let u := s.barArrive i ls false sync bn cnt msk
    u.cur.lanes = s.cur.lanes ∧ u.mem = s.mem ∧
    (a + 1 ≠ n → (u.bar false bn).arrived = a + 1 ∧ (u.bar false bn).gen = b.gen ∧ (u.bar false bn).count = n ∧
      (if sync then u.cur.path.wait = .barrier false bn b.gen i.len ∧ u.pc = s.pc else u.pc = s.pc + word i.len)) ∧
    (a + 1 = n → (u.bar false bn).gen = b.gen + 1 ∧ (u.bar false bn).count = 0 ∧ (u.bar false bn).arrived = 0 ∧ u.pc = s.pc + word i.len ∧
      (∀ j p len, j ≠ s.sid → (s.grp s.cid j).occ = true → (s.grp s.cid j).team = s.cur.team → p ∈ (s.grp s.cid j).paths →
        p.wait = .barrier false bn b.gen len → ∃ q ∈ (u.grp s.cid j).paths, q.wait = .ready ∧ q.pc = p.pc + word len ∧ q.mask = p.mask)) ∧
    (∀ m, m ≠ bn → u.bar false m = s.bar false m))

/-! The matrix engine -/

/-- R224-R226, R241, R242: `mxgo` by a team that owns a stopped engine, with one valid format and a good header, starts the engine at the header's
entry with that format and its ring table, clears what an earlier run left, and sets the restart symbol of every group of the team, those swapped out among them; other formats, a running engine and a bad
header take causes 0x03, 0x01 and 0x05. `mxstat` gives the words of R241; `mxstop` stops the engine and clears the restart symbol. A team without
the engine takes cause 0x05.
The model's choice in part: log entries 52, 55. -/
def Obligations.EngineStartsReportsStops : Prop :=
  (∀ o s ls ka kb kc t (f : Mask) off, Enabled s (.mxgo o) ls → s.ownsEngine = true → Fed s (.mxgo o) ls ka kb kc t → o.queues = false →
    (∀ l ∈ ls, (t.opA (.mxgo o) ka ls l).setWidth 32 = f) → fmtValid f = true → t.mxe.st ≠ 1 →
    t.mxHeader (t.opB (.mxgo o) kb ls (ls.headD 0)) = some off → t.cur.occ = true → t.cur.paths ≠ [] →
    let restart := t.pc + 8 * t.opC (.mxgo o) kc ls (ls.headD 0)
    ∃ u, exec (.mxgo o) s = .next u ∧ Claims.Restarts t u restart ∧ u.mxe.st = 1 ∧ u.mxe.fmt = f ∧ u.mxe.cpc = t.locRd t.cid (off + 16) 4 ∧
      u.mxe.entry = t.locRd t.cid (off + 16) 4 ∧ u.mxe.rings = BitVec.ofNat 128 (t.locRd t.cid off 16) ∧ u.mxe.held = [] ∧ u.mxe.err = 0 ∧
      u.mxe.exc = 0 ∧ u.mxe.rst = false ∧ u.mxe.pois = t.mxe.pois ∧ u.k.acc = t.k.acc ∧ u.k.loc = t.k.loc ∧
      u.cur.restart = restart ∧ u.cur.lanes = t.cur.lanes ∧ u.pc = t.pc + word (Instr.mxgo o).len) ∧
  (∀ o s ls ka kb kc t, Enabled s (.mxgo o) ls → s.ownsEngine = true → Fed s (.mxgo o) ls ka kb kc t →
    let f := fun l => (t.opA (.mxgo o) ka ls l).setWidth 32
    let h := t.opB (.mxgo o) kb ls (ls.headD 0)
    ((∃ l ∈ ls, f l ≠ f (ls.headD 0)) →
      exec (.mxgo o) s = .next (t.takeTrap 0x03 ((f (ls.headD 0)).setWidth 64) (maskOf (ls.filter fun l => f l != f (ls.headD 0))))) ∧
    ((∀ l ∈ ls, f l = f (ls.headD 0)) →
      (fmtValid (f (ls.headD 0)) = false → exec (.mxgo o) s = .next (t.takeTrap 0x01 ((f (ls.headD 0)).setWidth 64) 10)) ∧
      (fmtValid (f (ls.headD 0)) = true → t.mxe.st = 1 → exec (.mxgo o) s = .next (t.takeTrap 0x05 0xFFFFFFFFFFFFFFFE (maskOf ls))) ∧
      (fmtValid (f (ls.headD 0)) = true → t.mxe.st ≠ 1 → t.mxHeader h = none → exec (.mxgo o) s = .next (t.takeTrap 0x05 h (maskOf ls))))) ∧
  (∀ o s ls ka kb kc t, Enabled s (.mxstat o) ls → s.ownsEngine = true → Fed s (.mxstat o) ls ka kb kc t →
    exec (.mxstat o) s = .next (t.finish (.mxstat o) ls fun l =>
      let n := ((t.opA (.mxstat o) ka ls l).extractLsb' 0 8).toNat
      if n = 5 then t.cur.restart else mxStatWord t.mxe n)) ∧
  (∀ o s ls, Enabled s (.mxstop o) ls → s.ownsEngine = true → s.cur.occ = true → s.cur.paths ≠ [] →
    ∃ u, exec (.mxstop o) s = .next u ∧ Claims.Restarts s u 0 ∧ u.mxe = { s.mxe with st := 0 } ∧ u.cur.restart = 0 ∧ u.k.acc = s.k.acc ∧
      u.cur.lanes = s.cur.lanes ∧ u.pc = s.pc + word (Instr.mxstop o).len) ∧
  (∀ i o s ls, (i = .mxgo o ∨ i = .mxstat o ∨ i = .mxstop o) → Enabled s i ls → s.ownsEngine = false →
    exec i s = .next (s.takeTrap 0x05 0xFFFFFFFFFFFFFFFF (maskOf ls)))

/-- R228-R236, R238: what each engine command does while the engine runs and its checks pass; then the engine goes to the next command, or to the
target. `mx.zero` clears its tile and the tile's poison and no other byte; `mx.fmt` sets the format; `mx.mma` gives each element of the tile the
chunks' products accumulated in order; the ring commands wait at the command or move their slot; a command that asks for a release acts once it is
complete; the control commands test the condition word.
A format that is not valid stops the engine with ERR 2.
The model's choice in part: log entries 49, 52, 53, 54, 56, 58, 59, 122. -/
def Obligations.EngineCommands : Prop :=
  (∀ (t : BitVec 2) (s : State), s.mxe.st = 1 → tileOk (fmtAcc s.mxe.fmt) t.toNat = true →
    ∃ u, exec (.mxZero t) s = .next u ∧ OnlyCore s u s.cid ∧
      (∀ a, byteAt u.k.acc a = if (physTiles (fmtAcc s.mxe.fmt) t.toNat).getLsbD (a / 16384) then 0 else byteAt s.k.acc a) ∧
      u.mxe = { s.mxe with pois := s.mxe.pois &&& ~~~physTiles (fmtAcc s.mxe.fmt) t.toNat, cpc := (s.mxe.cpc + 8) % 2 ^ 32 }) ∧
  (∀ (fw : BitVec 32) (s : State), s.mxe.st = 1 → fmtValid fw = true →
    ∃ u, exec (.mxFmt fw) s = .next u ∧ OnlyCore s u s.cid ∧ u.mxe = { s.mxe with fmt := fw, cpc := (s.mxe.cpc + 8) % 2 ^ 32 }) ∧
  (∀ (fw : BitVec 32) (s : State), s.mxe.st = 1 → fmtValid fw = false → s.faultRoom 1 = true →
    ∃ u, exec (.mxFmt fw) s = .next u ∧ u.mxe = { s.mxe with st := 3, err := 2 }) ∧
  (∀ (t mc nc : BitVec 2) (ku : BitVec 8) (ra rb rs : BitVec 3) (s : State) (d : Nat → RingRef) (p : Nat → Place),
    let f := s.mxe.fmt
    let rings := if fmtBlk f = 1 then [ra.toNat, rb.toNat, rs.toNat] else [ra.toNat, rb.toNat]
    let m := mxSize mc
    let n := mxSize nc
    let k := 32 * ku.toNat
    s.mxe.st = 1 → tileOk (fmtAcc f) t.toNat = true →
    (∀ r ∈ rings, s.mxRing r = some (d r) ∧ s.mxe.heldSlot r ≠ 0 ∧ s.mxSlot (d r) (s.mxe.heldSlot r - 1) = (0, p r)) →
    m * k * mxBits (fmtA f) / 8 ≤ s.ringSlotSize (d ra.toNat) → n * k * mxBits (fmtB f) / 8 ≤ s.ringSlotSize (d rb.toNat) →
    (fmtBlk f = 1 → (m + n) * k / 32 ≤ s.ringSlotSize (d rs.toNat)) →
    ∃ u sc, exec (.mxMma t mc nc ku ra rb rs) s = .next u ∧ (fmtBlk f = 1 → sc = p rs.toNat) ∧ OnlyCore s u s.cid ∧
      let x : MmaArgs := ⟨f, m, n, k, p ra.toNat, p rb.toNat, sc⟩
      u.k.acc = (s.mmaTile x t.toNat).1 ∧ u.mxe.exc = s.mxe.exc ||| (s.mmaTile x t.toNat).2 ∧ u.mxe.cpc = (s.mxe.cpc + 8) % 2 ^ 32 ∧
      u.k.loc = s.k.loc ∧ u.k.slots = s.k.slots) ∧
  (∀ (s : State) (x : MmaArgs) (t i j : Nat), x.m ≤ 64 → x.n ≤ 64 → tileOk (fmtAcc x.fmt) t = true → i < x.m → j < x.n →
    let v := (mmaElement (fmtAcc x.fmt) (accRead s.k.acc (fmtAcc x.fmt) t i j) 0 (s.mmaChunks x i j)).1
    (accRead (s.mmaTile x t).1 (fmtAcc x.fmt) t i j).c = v.c % (if fmtAcc x.fmt = 2 then 2 ^ 64 else 2 ^ 32) ∧
    (fmtAcc x.fmt = 1 → (accRead (s.mmaTile x t).1 (fmtAcc x.fmt) t i j).comp = v.comp % 2 ^ 32)) ∧
  (∀ (ring : BitVec 3) (sc : Scope) (acq : Bool) (s : State) (r : RingRef), s.mxe.st = 1 → s.mxRing ring.toNat = some r → s.mxe.heldSlot ring.toNat = 0 →
    (s.takeSlot r = none → exec (.mxWaitGet ring sc acq) s = .next s) ∧
    (∀ i t, s.takeSlot r = some (i, t) →
      let u := t.modMxe fun m => { m with held := set 0 m.held ring.toNat (i + 1) }
      exec (.mxWaitGet ring sc acq) s = .next ((if acq then u.acquire sc u.cid else u).modMxe fun m => { m with cpc := (m.cpc + 8) % 2 ^ 32 }))) ∧
  (∀ (ring : BitVec 3) (s : State) (r : RingRef), s.mxe.st = 1 → s.mxRing ring.toNat = some r →
    (s.slotState r (s.ringRsv r % s.ringN r) = 0 →
      exec (.mxWaitFree ring) s = .next (s.modMxe fun m => { m with cpc := (m.cpc + 8) % 2 ^ 32 })) ∧
    (s.slotState r (s.ringRsv r % s.ringN r) ≠ 0 → exec (.mxWaitFree ring) s = .next s)) ∧
  (∀ (ring : BitVec 3) (sc : Scope) (rel : Bool) (s : State) (r : RingRef), s.mxe.st = 1 → s.mxRing ring.toNat = some r → s.mxe.heldSlot ring.toNat ≠ 0 →
    (rel = true → Claims.Sent s sc) → let t := if rel then s.release sc s.cid else s
    let u := t.moveSlot r (t.mxe.heldSlot ring.toNat - 1) 3 0
    exec (.mxRel ring sc rel) s =
      .next ((u.modMxe fun m => { m with held := set 0 m.held ring.toNat 0 }).modMxe fun m => { m with cpc := (m.cpc + 8) % 2 ^ 32 })) ∧
  (∀ (ring : BitVec 3) (sc : Scope) (rel : Bool) (s : State) (r : RingRef), s.mxe.st = 1 → s.mxRing ring.toNat = some r →
    (s.reserveSlot r = none → exec (.mxSigRing ring sc rel) s = .next s) ∧
    (s.reserveSlot r ≠ none → (rel = true → Claims.Sent s sc) → ∀ i t, (if rel then s.release sc s.cid else s).reserveSlot r = some (i, t) →
      exec (.mxSigRing ring sc rel) s = .next ((t.setSlotState r i 2).modMxe fun m => { m with cpc := (m.cpc + 8) % 2 ^ 32 }))) ∧
  (∀ (obj : BitVec 20) (wt : BitVec 16) (sc : Scope) (rel : Bool) (s : State) (off : Nat), s.mxe.st = 1 →
    s.mxOff (16 * obj.toNat) 16 = some off → (rel = true → Claims.Sent s sc) → exec (.mxSigAbar obj wt sc rel) s =
      .next ((let t := if rel then s.release sc s.cid else s
        t.abarSignal t.cid off (if wt = 0 then 1 else wt.setWidth 64) false).modMxe fun m => { m with cpc := (m.cpc + 8) % 2 ^ 32 })) ∧
  (∀ (disp : BitVec 16) (woff : BitVec 20) (dec : Bool) (s : State) (off : Nat), s.mxe.st = 1 → s.mxOff (4 * woff.toNat) 4 = some off →
    s.mxInside (s.mxTarget disp) = true →
    let cond := s.locRd s.cid off 4
    (cond ≠ 0 → exec (.mxIf disp woff) s = .next (s.modMxe fun m => { m with cpc := (m.cpc + 8) % 2 ^ 32 }) ∧
      exec (.mxWhile dec disp woff) s =
        .next ((if dec then s.locWr s.cid off 4 (cond - 1) else s).modMxe fun m => { m with cpc := (m.cpc + 8) % 2 ^ 32 })) ∧
    (cond = 0 → exec (.mxIf disp woff) s = .next (s.mxGoto (s.mxTarget disp)) ∧
      exec (.mxWhile dec disp woff) s = .next (s.mxGoto (s.mxTarget disp)))) ∧
  (∀ (disp : BitVec 16) (s : State), s.mxe.st = 1 →
    (disp = 0 → exec (.mxEnd disp) s = .next (s.modMxe fun m => { m with cpc := (m.cpc + 8) % 2 ^ 32 })) ∧
    (s.mxInside (s.mxTarget disp) = true → exec (.mxJump disp) s = .next (s.mxGoto (s.mxTarget disp)) ∧
      (disp ≠ 0 → s.mxIsWhile (s.mxTarget disp) = true → exec (.mxEnd disp) s = .next (s.mxGoto (s.mxTarget disp))))) ∧
  (∀ (sc : Scope) (rel : Bool) (s : State), s.mxe.st = 1 →
    ((rel = true → Claims.Sent s sc) → exec (.mxHalt sc rel) s =
      .next (((if rel then s.release sc s.cid else s).modMxe fun m => { m with st := 2 }).modMxe fun m => { m with cpc := (m.cpc + 8) % 2 ^ 32 })) ∧
    (rel = true → ¬Claims.Sent s sc → exec (.mxHalt sc rel) s = .next (s.release sc s.cid)))

/-! Stages, views, launches, calls -/

/-- R256, R262, R267-R275: `stg.decl` of a good descriptor declares the lowest free cassette and gives its number; `stg.admit` and
`stg.admit.keep` give each acting lane the handle of its new record, in ascending order, and wait where no entry is free; a closed or unknown
cassette takes cause 0x05; `stg.admit.close` closes; `stg.done`, `stg.next` and `stg.tail`, which like an admission publish for the cluster and go on
once nothing of that is left, act on the records that the lanes' handles name when the group
holds them, and take cause 0x05 with the handle otherwise; `stg.stat` gives the statistics words.
The model's choice in part: log entries 28, 60, 61, 159. -/
def Obligations.StageInstructions : Prop :=
  (∀ o s ls ka kb kc t u v tc off k, Enabled s (.stgDecl o) ls → Fed s (.stgDecl o) ls ka kb kc t →
    let va := t.opA (.stgDecl o) ka ls (ls.headD 0)
    let d := BitVec.ofNat 1024 v
    va.toNat % 64 = 0 → t.readDescriptor va = (.data v, u) → u.cdBad d = false → u.cdTable d = some (tc, off) →
    [0, 1, 2, 3].find? (fun k => !(u.cas (u.routerOf u.cid u.cur.team k)).decl) = some k →
    let w := u.unrec.declare (u.routerOf u.cid u.cur.team k) (newCassette d u.team.ckey u.cur.asid tc off)
    exec (.stgDecl o) s = .next ((w.logEvent w.did 5 0 va (word (cdField d 0x18 4))).finish (.stgDecl o) ls fun _ => word k)) ∧
  (∀ (s : State) (c : CasRef) (q : Cassette), let t := s.declare c q
    t.cas c = q ∧ (∀ e, e ≠ c → t.cas e = s.cas e) ∧ (∀ b, byteAt (t.core q.tcore).loc b =
      if q.toff ≤ b ∧ b < q.toff + 16 * q.window then 0 else byteAt (s.core q.tcore).loc b)) ∧
  (∀ i keep s ls ka kb kc t c u, (i = .stgAdmit i.operands ∧ keep = false ∨ i = .stgAdmitKeep i.operands ∧ keep = true) → Enabled s i ls →
    Fed s i ls ka kb kc t → let x := t.casArg (t.opA i ka ls (ls.headD 0)) i.operands.d
    x.2.myCas x.1.toNat = some c → x.2.cur.path.wait ≠ .ring → x.2.cur.path.done = 0 → (x.2.cas c).closed = false →
    let v := x.2.unrec.publish .clu x.2.unrec.cid
    let vs := ls.map fun l => (l, t.opB i kb ls l)
    Claims.Sent x.2.unrec .clu →
    (v.admitLanes c keep i.operands.d vs = (true, u) → exec i s = .next (((u.popSources ls i.operands).writeLatch i.operands.d).advance i.len)) ∧
    (v.admitLanes c keep i.operands.d vs = (false, u) → exec i s = .next (u.await .ring))) ∧
  (∀ (s : State) (v : Word) (d : Dst), s.cur.path.latch = none → (s.casArg v d).1 = v ∧ OnlySlot s (s.casArg v d).2 s.cid s.sid ∧
    OnlyPaths s.cur (s.casArg v d).2.cur ∧ (s.casArg v d).2.pc = s.pc) ∧
  (∀ (s : State) (c : CasRef) (v : Word) (i : Nat), let q := s.cas c
    (List.range q.window).find? (fun i => (q.entry i).st == 0) = some i →
    ∃ t, s.admitOne c true v = some (handle c.k i q.nextSeq, t) ∧ ((t.cas c).entry i).value = v ∧ ((t.cas c).entry i).seq = q.nextSeq ∧
      ((t.cas c).entry i).st = 6 ∧ (∀ j, j ≠ i → (t.cas c).entry j = q.entry j)) ∧
  (∀ i s ls ka kb kc t, (i = .stgAdmit i.operands ∨ i = .stgAdmitKeep i.operands) → Enabled s i ls → Fed s i ls ka kb kc t →
    let x := t.casArg (t.opA i ka ls (ls.headD 0)) i.operands.d
    (x.2.myCas x.1.toNat = none → exec i s = .next (x.2.takeTrap 0x05 x.1 (maskOf ls))) ∧
    (∀ c, x.2.myCas x.1.toNat = some c → x.2.cur.path.wait ≠ .ring → x.2.cur.path.done = 0 → (x.2.cas c).closed = true →
      exec i s = .next (x.2.takeTrap 0x05 0xFFFFFFFFFFFFFFFC (maskOf ls)))) ∧
  (∀ o s ls ka kb kc t c, Enabled s (.stgAdmitClose o) ls → Fed s (.stgAdmitClose o) ls ka kb kc t →
    t.myCas (t.opA (.stgAdmitClose o) ka ls (ls.headD 0)).toNat = some c →
    exec (.stgAdmitClose o) s = .next (((t.unrec.modCas c fun q => { q with closed := true }).popSources ls o).advance (Instr.stgAdmitClose o).len)) ∧
  (∀ o s ls ka kb kc t, Enabled s (.stgDone o) ls → Fed s (.stgDone o) ls ka kb kc t → ls.Nodup →
    let h := t.opA (.stgDone o) ka ls
    (∀ l ∈ ls, t.holdsIn (h l) 2 = true) → (ls.map fun l => (fld (h l) 0 14, fld (h l) 32 32)).Nodup → Claims.Sent t.unrec .clu →
    exec (.stgDone o) s = .next (((ls.foldl (fun v l => match v.handleOf (h l) with
        | some (c, j) => (v.stageDone c j ((t.opB (.stgDone o) kb ls l).getLsbD 0) none).2
        | none => v) (t.unrec.publish .clu t.unrec.cid)).popSources ls o).advance (Instr.stgDone o).len)) ∧
  (∀ o s ls ka kb kc t vs u, Enabled s (.stgNext o) ls → Fed s (.stgNext o) ls ka kb kc t → ls.Nodup →
    let h := t.opA (.stgNext o) ka ls
    let b := t.opB (.stgNext o) kb ls
    (∀ l ∈ ls, (b l).toNat ≤ 2 ∧ t.holdsIn (h l) (if b l = 0 then 6 else 2) = true) →
    (ls.map fun l => (fld (h l) 0 14, fld (h l) 32 32)).Nodup →
    Claims.Sent t.unrec .clu → (t.unrec.publish .clu t.unrec.cid).nextLanes (ls.map fun l => (l, h l, b l)) = (vs, u) →
    exec (.stgNext o) s = .next ((if vs.any fun e => decide (e.2.toNat < 8) then u.discard .clu u.cid else u).finish (.stgNext o) ls (valOf vs))) ∧
  (∀ o s ls ka kb kc t, Enabled s (.stgTail o) ls → Fed s (.stgTail o) ls ka kb kc t → ls.Nodup →
    let h := t.opA (.stgTail o) ka ls
    (∀ l ∈ ls, t.holdsIn (h l) 5 = true) → (ls.map fun l => (fld (h l) 0 14, fld (h l) 32 32)).Nodup → Claims.Sent t.unrec .clu →
    exec (.stgTail o) s = .next (((ls.foldl (fun v l => match v.handleOf (h l) with
        | some (c, j) => v.retire c j false
        | none => v) (t.unrec.publish .clu t.unrec.cid)).popSources ls o).advance (Instr.stgTail o).len)) ∧
  (∀ i s ls ka kb kc t l r, (i = .stgDone i.operands ∨ i = .stgTail i.operands) → Enabled s i ls → Fed s i ls ka kb kc t → ls = l :: r →
    t.holdsIn (t.opA i ka ls l) (if i = .stgDone i.operands then 2 else 5) = false →
    ∃ m, exec i s = .next (t.takeTrap 0x05 (t.opA i ka ls l) m)) ∧
  (∀ o s ls ka kb kc t, Enabled s (.stgStat o) ls → Fed s (.stgStat o) ls ka kb kc t →
    exec (.stgStat o) s = .next (t.finish (.stgStat o) ls fun l =>
      match t.myCas (t.opA (.stgStat o) ka ls (ls.headD 0)).toNat with
      | some c => (t.cas c).stat ((t.opB (.stgStat o) kb ls l).extractLsb' 0 8).toNat
      | none => 0))

/-- R327-R333: `view.reg` publishes for the package and registers a view that passes every check, whose handle it gives; a check that fails takes
cause 0x05 with its number. `view.drop`, `view.sync`, `view.tag` and `view.pol` act on the view that the handle names: the first removes it, the
second goes on once every block has its target and gives whether one is poisoned, or 2 where the view has gone meanwhile, the third gives a tag or a
counter, the fourth sets the policy and serves the view's held reads by it; those that publish go on once nothing of that is left. A handle that names no view takes cause 0x05 with number 6.
The model's choice in part: log entries 63, 160, 161, 162, 163. -/
def Obligations.ViewInstructions : Prop :=
  (∀ o s ls ka kb kc t v d u n, Enabled s (.viewReg o) ls → Fed s (.viewReg o) ls ka kb kc t →
    let m := t.opA (.viewReg o) ka ls (ls.headD 0)
    let b := t.opB (.viewReg o) kb ls (ls.headD 0)
    Claims.Sent t.unrec .pkg →
    ((t.unrec.publish .pkg t.unrec.cid).regCheck m b (ls.headD 0) = (.ok v d, u) →
      exec (.viewReg o) s = .next ((u.registerView d v).2.finish (.viewReg o) ls fun _ => (u.registerView d v).1)) ∧
    ((t.unrec.publish .pkg t.unrec.cid).regCheck m b (ls.headD 0) = (.verr n, u) →
      exec (.viewReg o) s = .next (u.takeTrap 0x05 (0xFFFFFFFFFFFFFE00 + word n) (maskOf ls)))) ∧
  (∀ o s ls ka kb kc t d n v, Enabled s (.viewDrop o) ls → Fed s (.viewDrop o) ls ka kb kc t →
    t.viewOf t.cur.asid (t.opA (.viewDrop o) ka ls (ls.headD 0)) = some (d, n, v) →
    Claims.Sent t.unrec .pkg → let u := t.unrec.publish .pkg t.unrec.cid
    exec (.viewDrop o) s = .next (((u.dropView d n ((u.view? d n).getD v)).popSources ls o).advance (Instr.viewDrop o).len)) ∧
  (∀ o sc s ls ka kb kc t d n v, Enabled s (.viewSync o sc) ls → Fed s (.viewSync o sc) ls ka kb kc t →
    t.viewOf t.cur.asid (t.opA (.viewSync o sc) ka ls (ls.headD 0)) = some (d, n, v) → (∀ w, t.cur.path.wait ≠ .viewSync w) →
    Claims.Sent t.unrec sc → let u := t.unrec.publish sc t.unrec.cid
    let targets := (List.range v.nb).map fun b => tagWant (u.tag d v b)
    (u.unmet d v targets = [] → exec (.viewSync o sc) s = .next (u.finish (.viewSync o sc) ls fun _ =>
      if ∃ b, b < v.nb ∧ tagPois (u.tag d v b) = true then 1 else 0)) ∧
    (u.unmet d v targets ≠ [] → exec (.viewSync o sc) s =
      .next (((u.unmet d v targets).foldl (fun w b => w.hasten d n b) u).await (.viewSync targets)))) ∧
  (∀ o sc s ls ka kb kc t targets, Enabled s (.viewSync o sc) ls → Fed s (.viewSync o sc) ls ka kb kc t → t.cur.path.wait = .viewSync targets →
    (t.viewOf t.cur.asid (t.opA (.viewSync o sc) ka ls (ls.headD 0)) = none → exec (.viewSync o sc) s = .next (t.finish (.viewSync o sc) ls fun _ => 2)) ∧
    (∀ d n v, t.viewOf t.cur.asid (t.opA (.viewSync o sc) ka ls (ls.headD 0)) = some (d, n, v) →
      (t.unmet d v targets = [] → exec (.viewSync o sc) s = .next (t.finish (.viewSync o sc) ls fun _ =>
        if ∃ b, b < v.nb ∧ tagPois (t.tag d v b) = true then 1 else 0)) ∧
      (t.unmet d v targets ≠ [] → exec (.viewSync o sc) s =
        .next (((t.unmet d v targets).foldl (fun w b => w.hasten d n b) t).await (.viewSync targets))))) ∧
  (∀ o s ls ka kb kc t ks u, Enabled s (.viewTag o) ls → Fed s (.viewTag o) ls ka kb kc t →
    t.tagChecks (ls.map fun l => (l, t.opA (.viewTag o) ka ls l)) = (ks, u) → (∀ e ∈ ks, e.2.2 = 0) →
    exec (.viewTag o) s = .next (u.finish (.viewTag o) ls fun l => match u.viewOf u.cur.asid (u.opA (.viewTag o) ka ls l) with
      | some (d, _, v) => u.viewWord d v (u.opB (.viewTag o) kb ls l)
      | none => 0)) ∧
  (∀ o s ls ka kb kc t d n v, Enabled s (.viewPol o) ls → Fed s (.viewPol o) ls ka kb kc t →
    t.viewOf t.cur.asid (t.opA (.viewPol o) ka ls (ls.headD 0)) = some (d, n, v) →
    let p := ((t.opB (.viewPol o) kb ls (ls.headD 0)).extractLsb' 0 2).toNat
    (p < 3 → exec (.viewPol o) s =
      .next ((((t.unrec.modView d n fun v => { v with pol := p }).serveHeld d n p).popSources ls o).advance (Instr.viewPol o).len)) ∧
    (p = 3 → exec (.viewPol o) s = .next (t.takeTrap 0x05 0xFFFFFFFFFFFFFE07 (maskOf ls)))) ∧
  (∀ i s ls ka kb kc t, (i = .viewDrop i.operands ∨ i = .viewPol i.operands ∨ ∃ sc, i = .viewSync i.operands sc ∧ ∀ w, t.cur.path.wait ≠ .viewSync w) →
    Enabled s i ls → Fed s i ls ka kb kc t → t.viewOf t.cur.asid (t.opA i ka ls (ls.headD 0)) = none →
    exec i s = .next (t.takeTrap 0x05 0xFFFFFFFFFFFFFE06 (maskOf ls)))

/-- R363, R364, R366, R369: `launch` and `spawn` whose lanes pass every check and whose records can be read publish for the package and push
each acting lane's record in ascending order; each lane receives its grid's id, or 0 where the push is refused. Where the pushes need more fault
records than a die has room for, the path waits for room instead (R354). A check that fails takes cause 0x05 with its
number. `jwait` reads the counters of its lanes; when all are found zero or negative it discards for the package and goes on,
otherwise it waits: a counter found positive is watched.
The model's choice in part: log entries 68, 69. -/
def Obligations.LaunchesAndJoins : Prop :=
  (∀ i spawned s ls ka kb kc t (tgt : Nat → Nat) ps l r a u, (i = .launch i.operands ∧ spawned = false ∨ i = .spawn i.operands ∧ spawned = true) → Enabled s i ls →
    s.strictHeld = false → Fed s i ls ka kb kc t → ls.Nodup →
    (∀ l ∈ ls, (if spawned then some t.did else t.targetDie (asidOf t.cur.asid) (t.opB i kb ls l)) = some (tgt l) ∧
      (t.opA i ka ls l).toNat % 128 = 0 ∧ (t.cur.lane l).nest ≠ 8 ∧ t.plb (tgt l) (asidOf t.cur.asid) ≠ 0) →
    t.readRecords (ls.map fun l => (l, tgt l, t.opA i ka ls l)) [] = ((some ps, l, r, a), u) →
    (∀ p ∈ ps, recMalformed (p.bytes.setWidth 512) = false) → Claims.Sent u.unrec .pkg →
    let v := u.unrec.publish .pkg u.unrec.cid
    let w := v.pushAll spawned ps
    (w.2.withinRoom = true → exec i s = .next (w.2.finish i ls (valOf w.1))) ∧
    (w.2.withinRoom = false → exec i s = .next (v.await (.fault 0)))) ∧
  (∀ i spawned s ls ka kb kc t l d, (i = .launch i.operands ∧ spawned = false ∨ i = .spawn i.operands ∧ spawned = true) → Enabled s i ls →
    s.strictHeld = false → Fed s i ls ka kb kc t → ls = [l] →
    (if spawned then some t.did else t.targetDie (asidOf t.cur.asid) (t.opB i kb ls l)) = some d → t.plb d (asidOf t.cur.asid) ≠ 0 →
    (t.opA i ka ls l).toNat % 128 ≠ 0 → (t.cur.lane l).nest ≠ 8 →
    exec i s = .next (t.takeTrap 0x05 0xFFFFFFFFFFFFFD01 (laneBit l))) ∧
  (∀ o s ls ka kb kc t ps xs u rs v, Enabled s (.jwait o) ls → Fed s (.jwait o) ls ka kb kc t → t.watches = [] → t.cur.path.done = 0 →
    Claims.Placed t .glb 8 Claims.noCarry (Claims.sums t (.jwait o) ls ka kb) ps → t.accXls .counter ps = (xs, u) → (∀ x ∈ xs, x.2.2.1 = 0) →
    u.readCounters xs = (rs, v) → (∀ r ∈ rs, ∃ n, r.2.2 = .data n) →
    let w := xs.foldl (fun (w : State) x => w.testCounter x.1 x.2.2.2.pa (readData rs x.1)) v
    ((∀ l ∈ ls, w.active.getLsbD l = true → w.cur.path.done.getLsbD l = true) →
      exec (.jwait o) s = .next (((w.discard .pkg w.cid).popSources ls o).advance (Instr.jwait o).len)) ∧
    ((∃ l ∈ ls, w.active.getLsbD l = true ∧ w.cur.path.done.getLsbD l = false) → exec (.jwait o) s = .next (w.await .jwait))) ∧
  (∀ (s : State) (l : Nat) (va : Word) (x : Xl), x.vsh = false → s.poisoned x.pa 8 = false →
    let u := (s.drainTo s.did x.pa).askHome x.pa 8
    s.readCounters [(l, .glb va, 0, x)] = ([(l, .glb va, .data (u.rd x.pa 8))], u)) ∧
  (∀ (s : State) (l pa v : Nat), (word v).toInt ≤ 0 → s.testCounter l pa v = s.markDone (laneBit l)) ∧
  (∀ (s : State) (l pa v : Nat), 0 < (word v).toInt → elsewhere pa = false → ∃ t, s.testCounter l pa v = t ∧
    t.watches = s.watches ++ [⟨pa, false, false, s.cid, s.sid, l, 0⟩] ∧ { t with watches := s.watches } = s)

/-- R142-R148, R382: `syscall` on a latency core takes cause 0x19; on a SIMT core it writes the acting lanes' records and
goes on once every lane has its reply, after a discard for the package, and waits until then. `migrate.s` on a SIMT core and `migrate.l` on a latency core only go
on; on the other kind they move the strand. `tgen` of a valid object advances its generation by one and gives it; `inspect` gives the words that exist, with p6 saying which.
The model's choice in part: log entries 18, 34, 43, 44, 50, 66, 67, 133, 157, 158, 163. -/
def Obligations.CallsMigrationAndInspection : Prop :=
  (∀ o s ls, Enabled s (.syscall o) ls → s.strictHeld = false → isLatency s.cid = true → exec (.syscall o) s = .next (s.takeTrap 0x19 0 0)) ∧
  (∀ o s ls u, Enabled s (.syscall o) ls → s.strictHeld = false → isLatency s.cid = false → s.unrec.active ≠ 0 →
    s.unrec.writeCalls ls = (0, u) →
    ((∀ l ∈ ls, u.cur.path.got.getLsbD l = true) → exec (.syscall o) s = .next ((u.discard .pkg u.cid).advance 8)) ∧
    ((∃ l ∈ ls, u.cur.path.got.getLsbD l = false) → exec (.syscall o) s = .next (u.await .reply))) ∧
  (∀ o s ls, Enabled s (.migrateS o) ls → isLatency s.cid = false → exec (.migrateS o) s = .next (s.advance (Instr.migrateS o).len)) ∧
  (∀ o s ls ka kb kc t, Enabled s (.migrateS o) ls → isLatency s.cid = true → Fed s (.migrateS o) ls ka kb kc t →
    exec (.migrateS o) s = .next (t.migrateToSimt (t.pc + word (Instr.migrateS o).len) (hintDie 0 3 (t.opA (.migrateS o) ka ls (ls.headD 0))))) ∧
  (∀ o s ls, Enabled s (.migrateL o) ls → s.strictHeld = false → isLatency s.cid = true →
    exec (.migrateL o) s = .next (s.advance (Instr.migrateL o).len)) ∧
  (∀ o s ls ka kb kc t, Enabled s (.migrateL o) ls → s.strictHeld = false → isLatency s.cid = false → Fed s (.migrateL o) ls ka kb kc t →
    t.leaveRoom ls = true → Claims.Sent t.unrec .pkg →
    let pc := t.pc + word (Instr.migrateL o).len
    let u := ls.foldl (fun v l => v.migrateOrHold l pc (hintDie 4 5 (t.opA (.migrateL o) ka ls l)) none)
      ((t.unrec.publish .pkg t.unrec.cid).popSources ls o)
    exec (.migrateL o) s = .next (if t.active &&& ~~~maskOf ls = 0 then u else u.advance (Instr.migrateL o).len)) ∧
  (∀ o s ls ka kb kc t, Enabled s (.tgen o) ls → Fed s (.tgen o) ls ka kb kc t →
    let obj := ((t.opA (.tgen o) ka ls (ls.headD 0)).extractLsb' 40 24).toNat
    t.objectFault t.did t.cur.asid obj = 0 → Claims.Sent t .pkg →
    let u := t.publish .pkg t.cid
    exec (.tgen o) s = .next ((u.bumpGen u.did u.cur.asid obj).2.finish (.tgen o) ls fun _ => word (u.bumpGen u.did u.cur.asid obj).1)) ∧
  (∀ (s : State) (d : Nat) (asid : Word) (obj : Nat),
    (s.bumpGen d asid obj).1 = (((s.rd64 (s.descAddr d (asidOf asid) obj)).extractLsb' 32 16).toNat + 1) % 2 ^ 16) ∧
  (∀ o s ls ka kb kc t, Enabled s (.inspect o) ls → Fed s (.inspect o) ls ka kb kc t → ls.Nodup →
    let r := fun l => t.inspectWord (t.opA (.inspect o) ka ls l) (t.opB (.inspect o) kb ls l)
    exec (.inspect o) s = .next ((t.finish (.inspect o) ls fun l => (r l).getD 0).modCur fun g =>
      ls.foldl (fun g l => g.setP l 6 (r l).isSome) g))

/-! Events -/

/-- R28, R338, R365-R381, R427: the events of the schedulers: what each does when it is due, and that it does nothing when it is not. A fired
continuation that fits returns to its core. A group that may swap out leaves its slot for a continuation on two pages; without pages it stays,
and a save area that cannot be written holds its lane once the record has room. Placement places the highest level's head that fits.
Pre-emption publishes and saves a unit whose teams have all stopped, or keeps it for want of pages, and its trigger chooses the units for the first blocked
head. Aging raises the records of each level that have waited; a due record leaves its pending-launch queue and fires, or waits for its counter.
An examination reports a cycle that it finds to the victim, and lending moves resume records to their effective levels.
A request marks the team that system software names, a recall waits for its strand or takes it from the packer, and a retirement advances
the incarnation and flushes at its wrap.
The model's choice in part: log entries 76, 77, 78, 79, 80, 81, 82, 83, 85, 96, 138, 139, 140. -/
def Obligations.SchedulerEvents : Prop :=
  (∀ die idx s y, at? (s.die die).conts idx = some y →
    (s.contFired y = true → s.contFits y = true → s.contBehind die y = false →
      exec (.continuationFire die idx) s = .next (s.resumeCont die idx y)) ∧
    (s.contFired y = false ∨ s.contFits y = false ∨ s.contBehind die y = true → exec (.continuationFire die idx) s = .next s)) ∧
  (∀ die idx s, at? (s.die die).conts idx = none → exec (.continuationFire die idx) s = .next s) ∧
  (∀ (s : State) (die idx : Nat) (y : Cont), ((s.comeBack die idx y).die die).conts = (s.die die).conts.eraseIdx idx) ∧
  (∀ core slot s a b t, s.maySwap core slot = true → s.twoPages (dieOfCore core) (s.grp core slot).asid = some (a, b, t) →
    s.badSave core (s.grp core slot) = none → exec (.swapOut core slot) s = .next (t.swapGroup core slot a b)) ∧
  (∀ (s : State) (c slot : Nat) (a b : Word), let t := s.swapGroup c slot a b
    t.grp c slot = Group.empty ∧ (t.die (dieOfCore c)).conts =
      (s.die (dieOfCore c)).conts ++ [⟨c, (s.grp c slot).team, { s.grp c slot with lastIssue := s.clk }, [a, b]⟩]) ∧
  (∀ core slot s, s.maySwap core slot = false ∨ s.twoPages (dieOfCore core) (s.grp core slot).asid = none →
    exec (.swapOut core slot) s = .next s) ∧
  (∀ core slot s l k p, s.maySwap core slot = true → s.twoPages (dieOfCore core) (s.grp core slot).asid ≠ none →
    s.badSave core (s.grp core slot) = some (l, k) → ((s.grp core slot).paths.find? fun p => p.mask.getLsbD l) = some p →
    let v := s.atPath core slot p
    (v.faultRoom 1 = true → exec (.swapOut core slot) s = .next (v.saveFault l ((s.grp core slot).lane l).ssa k)) ∧
    (v.faultRoom 1 = false → exec (.swapOut core slot) s = .next s)) ∧
  (∀ die s l u, (s.die die).lost = false → (s.die die).ps ≠ 3 → l ≤ 7 → s.placeHead die l = some u →
    (∀ k, l < k → k ≤ 7 → s.placeHead die k = none) → exec (.teamPlacement die) s = .next u) ∧
  (∀ die s, (s.die die).lost = true ∨ (s.die die).ps = 3 ∨ (∀ k, k ≤ 7 → s.placeHead die k = none) →
    exec (.teamPlacement die) s = .next s) ∧
  (∀ core team s ps s1 zs s2, let u := s.unitOf core team
    (s.teamAt core team).occ = true → (s.teamAt core team).preempting = true → (∀ x ∈ u, s.teamStopped x.1 x.2 = true) →
    s.unitPages u = some (ps, s1) → (u.foldl (fun (w : State) x => w.publish .pkg x.1) s1).saveUnit (u.zip ps) = (zs, s2) →
    let eff := u.foldl (fun e x => max e (s1.teamAt x.1 x.2).eff) 0
    ∃ v, exec (.teamPreempt core team) s = .next v ∧ v.cores = s2.cores ∧
      get [] (v.die (dieOfCore core)).lvl eff = joinResume ⟨.resume zs, s2.clk, s2.clk⟩ (get [] (s2.die (dieOfCore core)).lvl eff)) ∧
  (∀ core team s, (s.teamAt core team).preempting = true → (s.teamAt core team).occ = true →
    (∀ x ∈ s.unitOf core team, s.teamStopped x.1 x.2 = true) → s.unitPages (s.unitOf core team) = none →
    exec (.teamPreempt core team) s = .next (s.keepUnit (dieOfCore core) (s.unitOf core team))) ∧
  (∀ core team s, (s.teamAt core team).occ = false ∨ (s.teamAt core team).preempting = false ∨
    (∃ x ∈ s.unitOf core team, s.teamStopped x.1 x.2 = false) → exec (.teamPreempt core team) s = .next s) ∧
  (∀ die s us l w, let t := s.retryAsked die
    l ≤ 7 → t.blockedHead die l = some w → t.plan die l w = some us → (∀ k, l < k → k ≤ 7 → (t.blockedHead die k).bind (t.plan die k) = none) →
    exec (.preemptTrigger die) s = .next (us.foldl (fun v u => v.beginPreempt u) t)) ∧
  (∀ die s, let t := s.retryAsked die
    (∀ k, k ≤ 7 → (t.blockedHead die k).bind (t.plan die k) = none) → exec (.preemptTrigger die) s = .next t) ∧
  (∀ (s : State) (u : List (Nat × Nat)) (c t : Nat), (c, t) ∈ u → (s.teamAt c t).occ = true → ((s.beginPreempt u).teamAt c t).preempting = true) ∧
  (∀ (s : State) (die : Nat), ∃ t, exec (.recordAging die) s = .next t ∧ OnlyDie s t die ∧
    (∀ l, 1 ≤ l → l ≤ 7 → get [] (t.die die).lvl l = Claims.stay s die l ++ Claims.raised s die (l - 1)) ∧
    get [] (t.die die).lvl 0 = Claims.stay s die 0) ∧
  (∀ core team s p r, (s.teamAt core team).pend = p :: r → (s.teamAt core team).mayMove s.clk = true →
    exec (.pendingLaunchMove core team) s = .next (((s.modTeam core team fun t => { t with pend := r, lastMove := s.clk, moved := true }).arriveRecord
      p).endTeam core team (s.teamAsid core team))) ∧
  (∀ core team s, (s.teamAt core team).mayMove s.clk = false → exec (.pendingLaunchMove core team) s = .next s) ∧
  (∀ (s : State) (p : PendRec), p.spawned = true ∨ recInput p.hdr = 0 →
    let q := { p with since := s.clk }
    let t := s.arriveRecord p
    get [] (t.die p.tdie).lvl p.prio = get [] (s.die p.tdie).lvl p.prio ++ [⟨.launch q 0, s.clk, s.clk⟩]) ∧
  (∀ (s u : State) (p : PendRec) (pa : Nat) (v : Word), p.spawned = false → recInput p.hdr ≠ 0 →
    let q := { p with since := s.clk }
    s.flushing p.asid = false →
    (s.modDie p.tdie fun x => { x with unfired := x.unfired ++ [q] }).readCounter p.tdie p.asid (recInput p.hdr) = (0, pa, v, u) →
    (0 < v.toInt → s.arriveRecord p = { u with watches := u.watches ++ [⟨pa, false, false, 0, 0, 0, p.grid⟩] }) ∧
    (v.toInt ≤ 0 → get [] ((s.arriveRecord p).die p.tdie).lvl p.prio = get [] (u.die p.tdie).lvl p.prio ++ [⟨.launch q 0, u.clk, u.clk⟩])) ∧
  (∀ die s, let ns := (s.nodes die).filter fun n => n.before (s.die die).lastExam
    let done := fun (t : State) => (t.schedCount die 18 1).modDie die fun x => { x with lastExam := s.clk / 65536 * 65536 }
    (findCycle (s.edges die) ns = none → exec (.deadlockExamination die) s = .next (done s)) ∧
    (∀ c, findCycle (s.edges die) ns = some c → Claims.Cycle (s.edges die) c ∧ (∀ n ∈ c, n ∈ ns) ∧
      ∀ w, leastKey s.victimKey (c.filterMap fun n => match n with | .path w => some w | .record _ => none) = some w →
        exec (.deadlockExamination die) s = .next (done (((s.deadlockTrap die w c.length).schedCount die 19 1).reportCycles die (s.edges die)
          (ns.filter (· != .path w)) (ns.length - 1))))) ∧
  (∀ die s, ∃ t, exec (.lendRecompute die) s = .next t ∧ t.mem = s.mem ∧
    (∀ c i, isLatency c = false → dieOfCore c = die →
      (t.teamAt c i) = if (s.teamAt c i).occ then { s.teamAt c i with eff := s.effOf s.lends (s.teamAt c i).id } else s.teamAt c i) ∧
    ∀ l r zs, l ≤ 7 → r ∈ get [] (t.die die).lvl l → r.work = .resume zs → Claims.level (s.effOf s.lends) zs = l) ∧
  (∀ die id s, exec (.preempt die id) s = .next (s.askPreempt die id)) ∧
  (∀ (s : State) (d : Nat) (id : Word), (∀ x ∈ s.cores, isLatency x.1 = false → dieOfCore x.1 = d → ∀ y ∈ x.2.teams, y.2.occ = true → y.2.id ≠ id) →
    s.askPreempt d id = s) ∧
  (∀ (s : State) (d : Nat) (id : Word) (c i : Nat), Claims.TheTeam s d id c i →
    s.askPreempt d id = (s.modTeam c i fun t => { t with asked := true }).beginPreempt (s.unitOf c i)) ∧
  (∀ sid s, s.strandResident sid = true ∨ s.strandSaved sid = true ∨ Claims.Sealed s sid →
    ∃ t, exec (.recall sid) s = .next t ∧ sid ∈ t.recalls ∧ { t with recalls := s.recalls } = s) ∧
  (∀ sid s, s.strandResident sid = false → s.strandSaved sid = false → ¬Claims.Sealed s sid →
    (∀ p t, s.unpack sid = (some p, t) → exec (.recall sid) s = .next (t.arrive (t.hostFor none) p.ssa p.sid)) ∧
    (∀ t, s.unpack sid = (none, t) → exec (.recall sid) s = .next s)) ∧
  (∀ die (asid : BitVec 16) s, (s.die die).trBusy = true → ∃ t, exec (.asidret die asid) s = .next t ∧ OnlyDie s t die ∧
    t.die die = { s.die die with trErr := true }) ∧
  (∀ die (asid : BitVec 16) s, (s.die die).trBusy = false →
    let a := s.astAddr die asid.toNat
    let inc := (((s.rd64 a).extractLsb' 32 16).toNat + 1) % 2 ^ 16
    let t := (s.retireWindows asid.toNat (word (asid.toNat + inc * 2 ^ 16))).poke (a + 4) 2 inc none
    (inc ≠ 0 → exec (.asidret die asid) s = .next t) ∧
    (inc = 0 → ∃ u, exec (.asidret die asid) s = .next u ∧ u.mem = t.mem ∧ (u.die die).trBusy = true ∧
      (∀ c, dieOfCore c < 6 → ∀ x ∈ (u.core c).tlb, x.asid ≠ asid.toNat)))

/-- R126, R140, R149, R159, R167, R170-R174, R192, R283, R304, R309, R318: what the cores, their samplers and the view engines do of their own
accord when it is due, and that they do nothing when it is not: the overdue trap of a SIMT core's group that has issued 4,096 instructions, the growth of a channel, the split of a path that awaited a held
slot, the restart from freewheel, an interrupt and the end of `wfi`, a sample, a view refresh, a prefetch, the retry of a deferral and the drain
of a cluster, whose cores then stand still for at most 4,096 clk. A view refresh, a split and a drain wait for room for their fault records.
The model's choice in part: log entries 39, 84, 93, 95, 108, 123, 125, 127, 146, 155, 163, 165. -/
def Obligations.CoreEvents : Prop :=
  (∀ core slot s, let u := { s with focus := (core, slot) }
    ((s.grp core slot).occ = true → isLatency core = false → 4096 ≤ (s.grp core slot).count →
      exec (.safePointOverdue core slot) s = .next (u.takeTrap 0x11 u.pc 0)) ∧
    ((s.grp core slot).occ = false ∨ isLatency core = true ∨ (s.grp core slot).count < 4096 →
      exec (.safePointOverdue core slot) s = .next s)) ∧
  (∀ core chan s page t, s.extendDue core chan = true → s.poolTake (dieOfCore core) (s.teamAsid core ((s.core core).chan chan).team) 0x18 = some (page, t) →
    ∃ u, exec (.channelExtend core chan) s = .next u ∧
      OnlyCore { t with agenda := ((s.fullPushes core chan).map fun w => Turn.issue core w.slot) ++ t.agenda } u core ∧
      (u.core core).chan chan = { (s.core core).chan chan with
        noext := false, exts := min 65535 (((s.core core).chan chan).exts + 1), pages := ((s.core core).chan chan).pages ++ [page] }) ∧
  (∀ core chan s, s.extendDue core chan = true → s.poolTake (dieOfCore core) (s.teamAsid core ((s.core core).chan chan).team) 0x18 = none →
    ∃ u, exec (.channelExtend core chan) s = .next u ∧ OnlyCore s u core ∧ (u.core core).chan chan = { (s.core core).chan chan with noext := true }) ∧
  (∀ core chan s, s.extendDue core chan = false → exec (.channelExtend core chan) s = .next s) ∧
  (∀ core slot s p h cause tval detail tag, (s.grp core slot).splitPath = some p → (s.core core).freeHeld = some h →
    p.wait = .split cause tval detail tag → cause < 256 ∨ cause = 0x114 ∨ cause = 0x116 → h ≠ slot →
    let room := s.recordRoom (dieOfCore core) ((lanesOf p.mask).filter (s.saveFails core (s.grp core slot))).length
    let v := ((s.atPath core slot p).makeHeld core slot h p.mask cause (word (detail.toNat * 2 ^ 32 + cause % 256)) tval tag).saveSplit core h
      p.mask tag
    (room = true → ∃ u, exec (.heldSlotSplit core slot) s = .next u ∧ u.grp core h = v.grp core h ∧ u.mem = v.mem ∧
      u.grp core slot = if (v.grp core slot).splitPath.isSome then v.grp core slot else
        { v.grp core slot with paths := (v.grp core slot).paths.map fun p => if p.wait = .splitOthers then { p with wait := .ready } else p }) ∧
    (room = false → exec (.heldSlotSplit core slot) s = .next s)) ∧
  (∀ core slot s, (s.grp core slot).splitPath = none ∨ (s.core core).freeHeld = none → exec (.heldSlotSplit core slot) s = .next s) ∧
  (∀ core s, (s.core core).fw = true → ∃ u, exec (.freewheelRestart core) s = .next u ∧ OnlyCore s u core ∧
    u.core core = { s.core core with fw := false, fwUntil := s.clk + ceilDiv (24 * 2100) (s.die (dieOfCore core)).mhz }) ∧
  (∀ core s, (s.core core).fw = false → exec (.freewheelRestart core) s = .next s) ∧
  (∀ core strand s, let g := s.grp core strand
    (isLatency core = true → g.occ = true → g.halted = false → g.wfi = false → g.kt = false → g.signals ≠ 0 → g.atBoundary = true →
      exec (.interrupt core strand) s = .next (({ s with focus := (core, strand) }).takeTrap 0x1B 0 (g.signals.setWidth 32))) ∧
    (isLatency core = false ∨ g.occ = false ∨ g.halted = true ∨ g.wfi = true ∨ g.kt = true ∨ g.signals = 0 ∨ g.atBoundary = false →
      exec (.interrupt core strand) s = .next s)) ∧
  (∀ core strand s, (s.grp core strand).occ = true → (s.grp core strand).wfi = true → (s.grp core strand).signals ≠ 0 → (s.grp core strand).paths ≠ [] →
    ∃ u, exec (.wfiWake core strand) s = .next u ∧ (u.grp core strand).wfi = false ∧ u.mem = s.mem ∧
      (u.grp core strand).path.pc = (s.grp core strand).path.pc + 8) ∧
  (∀ core strand s, (s.grp core strand).occ = false ∨ (s.grp core strand).wfi = false ∨ (s.grp core strand).signals = 0 →
    exec (.wfiWake core strand) s = .next s) ∧
  (∀ core s slot, let k := s.core core
    let d := dieOfCore core
    let t := (s.modCore core fun k => { k with sampledAt := s.dieCycles d }).modCore core fun k => { k with lastSlot := slot }
    let cap := 2 ^ ((k.sample.extractLsb' 8 4).toNat + 6)
    let failed := fun (x : State) => x.modCore core fun k => { k with sample := k.sample ||| 2 }
    s.sampleDue core = true → k.nextSample = some slot →
    (∀ w r v ok x, t.agentLoads d k.sasid [k.sbuf, k.sbuf + 8] = (some [w, r], v) → (w + 2 ^ 64 - r) % 2 ^ 64 ≠ cap →
      let ws := v.sampleWords core slot
      let at_ := k.sbuf + word (64 + 32 * (w % cap))
      v.agentStores d k.sasid (((List.range 4).zip ws).map (fun x => (at_ + word (8 * x.1), x.2)) ++ [(k.sbuf, word (w + 1))]) = (ok, x) →
      exec (.sample core) s = .next (if ok then x.modCore core fun k => { k with widx := word (w + 1) } else failed x)) ∧
    (∀ w r v n y ok x, t.agentLoads d k.sasid [k.sbuf, k.sbuf + 8] = (some [w, r], v) → (w + 2 ^ 64 - r) % 2 ^ 64 = cap →
      v.agentLoad d k.sasid (k.sbuf + 16) 8 = (0, n, y) → y.agentStores d k.sasid [(k.sbuf + 16, word (n + 1))] = (ok, x) →
      exec (.sample core) s = .next (if ok then x.modCore core fun k => { k with dropped := word (n + 1) } else failed x)) ∧
    (∀ w r v n kind y, t.agentLoads d k.sasid [k.sbuf, k.sbuf + 8] = (some [w, r], v) → (w + 2 ^ 64 - r) % 2 ^ 64 = cap →
      v.agentLoad d k.sasid (k.sbuf + 16) 8 = (kind, n, y) → kind ≠ 0 → exec (.sample core) s = .next (failed y)) ∧
    (∀ v, t.agentLoads d k.sasid [k.sbuf, k.sbuf + 8] = (none, v) → exec (.sample core) s = .next (failed v))) ∧
  (∀ core s, s.sampleDue core = true → (s.core core).nextSample = none →
    exec (.sample core) s = .next (s.modCore core fun k => { k with sampledAt := s.dieCycles (dieOfCore core) })) ∧
  (∀ core s, s.sampleDue core = false → exec (.sample core) s = .next s) ∧
  (∀ die s n v r, s.recordRoom die 1 = true → s.nextStalled die = some (n, v, r) → exec (.viewRefresh die) s = .next (s.finishRefresh die n v r)) ∧
  (∀ die s n b v, s.recordRoom die 1 = true → s.nextStalled die = none → s.nextBlock die = some (n, b, v) →
    exec (.viewRefresh die) s = .next (s.refreshBlock die n b v)) ∧
  (∀ die s, s.recordRoom die 1 = false ∨ (s.nextStalled die = none ∧ s.nextBlock die = none) → exec (.viewRefresh die) s = .next s) ∧
  (∀ core slot va s, (s.grp core slot).occ = true →
    exec (.hardwarePrefetcher core slot va) s = .next (({ s with focus := (core, slot) }).prefetchLine .glb false 0 va)) ∧
  (∀ core slot va s, (s.grp core slot).occ = false → exec (.hardwarePrefetcher core slot va) s = .next s) ∧
  (∀ core slot s, exec (.deferralRetry core slot) s = .next { s with agenda := .issue core slot :: s.agenda }) ∧
  (∀ core team kind s, isLatency core = false → s.illegalTeam core = some (team, kind) →
    let t := s.teamAt core team
    let c := if t.cw * t.ch = 0 then core else ((at? t.members 0).map (·.1)).getD core
    let u := (s.modCore core fun k => { k with illegal := none }).drain core team
    let v := u.drainOutcome core team kind
    (s.withinRoom = false ∨ v.withinRoom = true → exec (.clusterDrain core) s = .next v) ∧
    (s.withinRoom = true → v.withinRoom = false → exec (.clusterDrain core) s = .next s) ∧ (u.core core).illegal = none ∧
      (get Router.zero (u.die (dieOfCore core)).routers (regionOf c)).drains =
        min ((get Router.zero (s.die (dieOfCore core)).routers (regionOf c)).drains + 1) (2 ^ 32 - 1) ∧
      ∀ x ∈ s.clusterOf core team, s.clk ≤ (u.core x.1).drainUntil ∧ (u.core x.1).drainUntil ≤ s.clk + 4096) ∧
  (∀ core s, isLatency core = false → s.illegalTeam core = none →
    exec (.clusterDrain core) s = .next (s.modCore core fun k => { k with illegal := none })) ∧
  (∀ core s, isLatency core = true → exec (.clusterDrain core) s = .next s)

/-- R354, R355, R383, R384, R393, R395, R398, R399: what happens when a kernel instance completes a fault, posts a reply or makes room in a ring,
when the packer takes a strand or closes a window, and when a message or a submission arrives; a submission waits while its address space is
being flushed (R338).
The model's choice in part: log entries 33, 100, 101, 102, 103, 120, 165. -/
def Obligations.KernelInstanceEvents : Prop :=
  (∀ die tag disp s, (∀ r ∈ (s.die die).faults, word (die * 2 ^ 61 + r.seq) ≠ tag) → exec (.faultCompletion die tag disp) s = .next s) ∧
  (∀ die tag (disp : Word) s r, (s.die die).faults.find? (fun r => word (die * 2 ^ 61 + r.seq) == tag) = some r →
    (disp.toNat ≤ 2 → exec (.faultCompletion die tag disp) s =
      .next ((s.withdraw (some (die * 2 ^ 32 + r.seq))).completeRec die r (die * 2 ^ 32 + r.seq) disp.toNat)) ∧
    (2 < disp.toNat → exec (.faultCompletion die tag disp) s = .next s)) ∧
  (∀ die s, exec (.faultBufferDrain die) s = .next (s.drainFaults die (s.die die).fbuf.length)) ∧
  (∀ die slot result error s, let a := replyAddr (s.die die).reply slot
    exec (.syscallReplyPost die slot result error) s =
      .next ((((s.poke (a + 8) 8 result.toNat none).poke (a + 16) 8 error.toNat none).poke (a + 24) 8 2 none).testReplies die)) ∧
  (∀ die slot s, exec (.syscallReissue die slot) s = .next ((s.poke (replyAddr (s.die die).reply slot + 24) 8 3 none).testReplies die)) ∧
  (∀ die ridx s, exec (.callRingRoom die ridx) s = .next ((s.poke (ringBase (s.die die).cring + 8) 8 ridx.toNat none).testReplies die)) ∧
  (∀ die ridx s, let t := s.poke (ringBase (s.die die).aring + 8) 8 ridx.toNat none
    exec (.arrivalRingRoom die ridx) s = .next (t.drainArrivals die (t.die die).arrWait.length)) ∧
  (∀ die s p r, (s.die die).packq = p :: r → let t := (s.closeDue die (s.die die).wins.length).modDie die fun x => { x with packq := r }
    (∀ z u, t.readSave die 64 p.asid p.ssa = (some z, u) → exec (.packerArrival die) s = .next (u.packStrand die p z (u.fclass die p.asid p.ssa))) ∧
    (∀ u, t.readSave die 64 p.asid p.ssa = (none, u) → exec (.packerArrival die) s = .next (u.arrive (u.hostFor none) p.ssa p.sid))) ∧
  (∀ die win s, (s.windowDue die win = true → exec (.packingWindowClose die win) s = .next (s.closeWin die win)) ∧
    (s.windowDue die win = false → exec (.packingWindowClose die win) s = .next s)) ∧
  (∀ src dst (bytes : BitVec 1024) s,
    (bytes.toNat % 8 = src → s.ringRoom (s.die dst).mring = true →
      exec (.messageSend src dst bytes) s = .next ((s.ringPut (s.die dst).mring 128 (lineWords bytes)).signal dst 3)) ∧
    (bytes.toNat % 8 ≠ src ∨ s.ringRoom (s.die dst).mring = false → exec (.messageSend src dst bytes) s = .next s)) ∧
  (∀ die asid off (bytes : BitVec 1024) s d p t, let w := word (asid + ((s.rd64 (s.astAddr die asid)).extractLsb' 32 16).toNat * 2 ^ 16)
    let f := off % 2 ^ 15 / 128
    let hdr := bytes.setWidth 512
    off % 128 = 0 → s.flushing w = false → f < 4 ∨ f = 7 → recMalformed hdr = false → recUnif hdr = 0 → s.submitDie asid f = some d →
    s.pushRecord ⟨0, d, bytes, 0⟩ ⟨w, min (recPrio hdr) (s.pmax d asid), 0, false, none⟩ = (some p, t) →
    let u := (t.modDie d fun x => { x with subq := x.subq ++ [p] }).logEvent die 6 0 (word (submitPage asid)) (word (off % 2 ^ 15))
    s.withinRoom = false ∨ u.withinRoom = true →
    exec (.submission die asid off bytes) s = .next (u.modDie die fun x => { x with subAns := some true })) ∧
  (∀ die asid off (bytes : BitVec 1024) s, let w := word (asid + ((s.rd64 (s.astAddr die asid)).extractLsb' 32 16).toNat * 2 ^ 16)
    let f := off % 2 ^ 15 / 128
    let hdr := bytes.setWidth 512
    (off % 128 ≠ 0 → exec (.submission die asid off bytes) s = .next (s.modDie die fun x => { x with subDropped := x.subDropped + 1 })) ∧
    (off % 128 = 0 → s.flushing w = true → exec (.submission die asid off bytes) s = .next s) ∧
    (off % 128 = 0 → s.flushing w = false → f < 4 ∨ f = 7 → recMalformed hdr = false → recUnif hdr = 0 → s.submitDie asid f = none →
      exec (.submission die asid off bytes) s = .next (s.modDie die fun x => { x with subAns := some false })))

/-- R307, R338, R345, R349, R390, R410-R412, R416: the writes of the configuration blocks, reset, the power states, and the answers of
the management port and of the SPDM responder.
The model's choice in part: log entries 11, 96, 97, 98, 109, 116, 117, 118, 135. -/
def Obligations.ConfigurationEvents : Prop :=
  (∀ die s, ∃ t, exec (.asidFlushDone die) s = .next t ∧ OnlyDie s t die ∧ t.die die = { s.die die with trBusy := false, flushPend := none }) ∧
  (∀ die mode s, ∃ t, exec (.trctlModeWrite die mode) s = .next t ∧ t.mem = s.mem ∧ (t.die die).trMode = mode ∧
    (∀ c, dieOfCore c = die → (t.core c).tlb = []) ∧ (∀ c, dieOfCore c ≠ die → t.core c = s.core c) ∧ (∀ d, d ≠ die → t.die d = s.die d)) ∧
  (∀ die (v : Word) s, isCompute die = true → v.toNat % 16 ≤ 8 → s.chipHeld die = false → ∃ t, exec (.cfgCspadWrite die v) s = .next t ∧
    (t.die die).cspad = v.toNat % 16 ∧ (t.die die).cfgErr = false ∧ (∀ a, byteAt t.mem a =
      if chipAddr die 0 ≤ a ∧ a < chipAddr die (2 ^ 25) then 0 else byteAt s.mem a)) ∧
  (∀ die (v : Word) s, isCompute die = true → (8 < v.toNat % 16 ∨ s.chipHeld die = true) → ∃ t, exec (.cfgCspadWrite die v) s = .next t ∧
    OnlyDie s t die ∧ t.die die = { s.die die with cfgErr := true }) ∧
  (∀ die (v : Word) s, isCompute die = false → (s.die die).pkgSet = false → v.toNat % 2 ^ 20 < 786432 → ∃ t, exec (.pkgidWrite die v) s = .next t ∧
    OnlyDie s t die ∧ t.die die = { s.die die with pkgSet := true, pkgId := v.toNat % 2 ^ 20 }) ∧
  (∀ die (v : Word) s, isCompute die = true ∨ (s.die die).pkgSet = true ∨ 786432 ≤ v.toNat % 2 ^ 20 → exec (.pkgidWrite die v) s = .next s) ∧
  (∀ die off (v : Word) s y, Claims.configured die off v (s.die die) = some y →
    ∃ t, exec (.configWordWrite die off v) s = .next t ∧ OnlyDie s t die ∧ t.die die = y) ∧
  (∀ die k (v : Word) s, k < 10 → ∃ t, exec (.configWordWrite die (0x20 + 8 * k) v) s = .next t ∧ OnlyDie s t die ∧
    t.die die = { s.die die with invs := set 0 (s.die die).invs k (v &&& 0xFFFFFFF00000) }) ∧
  (∀ die k (v : Word) s, isCompute die = false → k < 8 → ∃ t, exec (.configWordWrite die (0x108 + 16 * k) v) s = .next t ∧ OnlyDie s t die ∧
    let q := get Port.zero (s.die die).ports k
    t.die die = { s.die die with ports := set Port.zero (s.die die).ports k { q with
      rplay := if v.extractLsb' 32 32 = 0 then q.rplay else 0, fail := if v.extractLsb' 0 32 = 0 then q.fail else 0 } }) ∧
  (∀ die (v : Word) s, exec (.configWordWrite die 0 v) s = exec (.cfgCspadWrite die v) s ∧
    exec (.configWordWrite die 8 v) s =
      exec (.trctlModeWrite die (v.getLsbD 0)) (s.modDie die fun x => { x with trErr := x.trErr && !v.getLsbD 2 }) ∧
    exec (.configWordWrite die 0x18 v) s = exec (.asidret die (v.setWidth 16)) s ∧
    (isCompute die = true → exec (.configWordWrite die 0x90 v) s = exec (.preempt die v) s) ∧
    exec (.configWordWrite die 0x98 v) s = exec (.recall v) s ∧
    (isCompute die = false → exec (.configWordWrite die 0xC8 v) s = exec (.pkgidWrite die v) s)) ∧
  (∀ die off (v : Word) s, 0x180 ≤ off ∨ off % 8 ≠ 0 ∨ Claims.keepsWord die off = true → exec (.configWordWrite die off v) s = .next s) ∧
  (∀ core asid va s, (s.die (dieOfCore core)).trMode = false → s.outdated core asid (va.extractLsb' 40 24).toNat = true →
    exec (.refusalRetranslate core asid va) s = .next (((s.dropObject core (asidOf asid) (va.extractLsb' 40 24).toNat).countRefusal core).walk core (asidOf asid)
      (incOf asid) va .read false true).2.2) ∧
  (∀ core asid va s, (s.die (dieOfCore core)).trMode = true ∨ s.outdated core asid (va.extractLsb' 40 24).toNat = false →
    exec (.refusalRetranslate core asid va) s = .next s) ∧
  (∀ die ps mhz s, ps < 2 → ∃ t, exec (.powerStateChange die ps mhz) s = .next t ∧ (t.die die).ps = ps ∧ t.mem = s.mem) ∧
  (∀ die mhz s, isCompute die = true → s.dieBusy die = false → ∃ t, exec (.powerStateChange die 2 mhz) s = .next t ∧ OnlyDie s t die ∧
    t.die die = { s.die die with ps := 2, slept := some (s.die die).bumps }) ∧
  (∀ die mhz s, ∃ t, exec (.powerStateChange die 3 mhz) s = .next t ∧ (t.die die).ps = 3 ∧ t.mem = s.mem ∧
    (∀ c, dieOfCore c = die → t.core c = Core.empty) ∧ (∀ c, dieOfCore c ≠ die → t.core c = s.core c)) ∧
  (∀ die cmd s, ∃ t, exec (.managementRequest die cmd) s = .next t ∧ OnlyDie s t die ∧ (t.die die).mgmt =
    [word cmd, word (s.die die).ps, word (s.die die).mhz, Config.response (100 + cmd) die]) ∧
  (∀ (i : Instr) (die : Nat) ws s, Claims.spdm i = some (die, ws) →
    ((die = 4 ∨ die = 5) → (s.die die).lost = false → ∃ t, exec i s = .next t ∧ OnlyDie s t die ∧ t.die die = { s.die die with spdm := ws }) ∧
    (die < 4 ∨ (s.die die).lost = true → exec i s = .next s)) ∧
  (∀ s, ∃ t, exec .reset s = .next t ∧ (∀ c, t.core c = State.reset.core c) ∧ (∀ d, t.die d = State.reset.die d) ∧ t.mem = s.mem)

/-- R286-R292, R308, R404-R406, R417-R422: what fills, notices, the home, the scrubbers, the loss of a die, accesses from outside, leases, time and
the ports do.
The model's choice in part: log entries 15, 17, 91, 106, 107, 110, 111, 112, 113, 114, 128, 136, 141, 151, 165. -/
def Obligations.CoherenceAndFabricEvents : Prop :=
  (∀ core line s i t, s.mayHold core line = true → s.requestId core line = (some i, t) →
    exec (.lineFill core line) s = .next (t.fill core line i false) ∧ (((t.fill core line i false).core core).line line).vm = BitVec.allOnes 128) ∧
  (∀ core line s t, s.mayHold core line = true → s.requestId core line = (none, t) → exec (.lineFill core line) s = .next t) ∧
  (∀ core line s, s.mayHold core line = false → exec (.lineFill core line) s = .next s) ∧
  (∀ core line d (s : State), region (line * 128) = .chip d → s.requestId core line = (some ⟨0, 0, 0, false⟩, s)) ∧
  (∀ core line (s : State), (∀ d, region (line * 128) ≠ .chip d) →
    (s.lineEntry core line = none → s.requestId core line = (none, s)) ∧
    ∀ x, s.lineEntry core line = some x →
      (x.inv = false → s.current (dieOfCore core) x.asid x.inc x.obj x.gen = false →
        s.requestId core line = (none, (s.dropObject core x.asid x.obj).countRefusal core)) ∧
      (x.inv = true ∨ s.current (dieOfCore core) x.asid x.inc x.obj x.gen = true → ∃ i, s.requestId core line = (some i, s) ∧ i.gen = x.gen)) ∧
  (∀ die home s, ((s.die die).egress.find? fun e => e.home == home) = none → exec (.writeAtHome die home) s = .next s) ∧
  (∀ die home s e, ((s.die die).egress.find? fun e => e.home == home) = some e →
    (home < 6 ∨ ∀ f ∈ (s.die die).egress.takeWhile (fun f => f.home != home), f.home < 6 ∨ f.src ≠ e.src) →
    exec (.writeAtHome die home) s = .next ((s.modDie die fun k => { k with egress := k.egress.erase e }).performEgress die e)) ∧
  (∀ die home s e, ((s.die die).egress.find? fun e => e.home == home) = some e →
    ∃ es, exec (.writeAtHome die home) s = .next (s.sendEgress die es) ∧ es.Sublist (s.die die).egress ∧ e ∈ es) ∧
  (∀ core line excl s i t, s.mayHold core line = true → s.requestId core line = (some i, t) →
    t.homeOnly (dieOfCore core) line i = false → t.homeLine line = false → ∃ u, exec (.ownershipRequest core line excl) s = .next u ∧
    ((u.core core).line line).st = (if excl then .m else .e) ∧ ((u.core core).line line).vm = BitVec.allOnes 128 ∧
    ∀ c, c ≠ core → ((u.core c).line line).st ≠ .m ∧ ((u.core c).line line).st ≠ .e ∧ ((u.core c).line line).st ≠ .o) ∧
  (∀ core line excl s i t, s.mayHold core line = true → s.requestId core line = (some i, t) →
    t.homeOnly (dieOfCore core) line i = true ∨ t.homeLine line = true → exec (.ownershipRequest core line excl) s = .next t) ∧
  (∀ core line excl s t, s.mayHold core line = true → s.requestId core line = (none, t) → exec (.ownershipRequest core line excl) s = .next t) ∧
  (∀ core line excl s, s.mayHold core line = false → exec (.ownershipRequest core line excl) s = .next s) ∧
  (∀ core line s, ∃ t, exec (.invalidationNotice core line) s = .next t ∧ OnlyCore s t core ∧
    ((t.core core).line line).data = ((s.core core).line line).data ∧ ((t.core core).line line).vm = ((s.core core).line line).vm ∧
    (((s.core core).line line).vm ≠ 0 → ((t.core core).line line).stale = true ∧ ((t.core core).line line).st = .i)) ∧
  (∀ (s : State) (d line : Nat), let t : State := { s with ecc := set 0 s.ecc line 0 }
    (get 0 s.ecc line = 0 → s.findError d line = s) ∧
    (get 0 s.ecc line = 1 → s.findError d line = t.sliceCount d (s.sliceOf line) 4 1) ∧
    (2 ≤ get 0 s.ecc line →
      s.findError d line = ((t.sliceCount d (s.sliceOf line) 5 1).faultRecord d { FRec.blank with src := 7, addr := word (128 * line) }).2)) ∧
  (∀ die stack s, die < 6 → stack < (if isCompute die then 2 else 1) →
    let t := s.findError die (scrubAddr die stack (s.scrubber die stack).pos / 128)
    (s.withinRoom = false ∨ t.withinRoom = true →
      ∃ y, exec (.scrubLine die stack) s = .next (t.modDie die fun k => { k with scrub := set ⟨0, 0, 0⟩ k.scrub stack y })) ∧
    (s.withinRoom = true → t.withinRoom = false → exec (.scrubLine die stack) s = .next s)) ∧
  (∀ die stack s, die < 6 → stack < (if isCompute die then 2 else 1) → (s.scrubber die stack).pos + 1 < scrubTotal die →
    get 0 s.ecc (scrubAddr die stack (s.scrubber die stack).pos / 128) = 0 →
    ∃ t, exec (.scrubLine die stack) s = .next t ∧ OnlyDie s t die ∧ (t.scrubber die stack).pos = (s.scrubber die stack).pos + 1 ∧
      (t.scrubber die stack).passes = (s.scrubber die stack).passes) ∧
  (∀ die stack s, die < 6 → stack < (if isCompute die then 2 else 1) → scrubTotal die ≤ (s.scrubber die stack).pos + 1 →
    get 0 s.ecc (scrubAddr die stack (s.scrubber die stack).pos / 128) = 0 →
    ∃ t, exec (.scrubLine die stack) s = .next t ∧ OnlyDie s t die ∧ (t.scrubber die stack).pos = 0 ∧
      (t.scrubber die stack).passes = (s.scrubber die stack).passes + 1) ∧
  (∀ die s, die < 6 → (s.die die).lost = false → ¬(die = 4 ∧ (s.die 5).lost = true) → ¬(die = 5 ∧ (s.die 4).lost = true) →
    let first := die = 4 ∨ s.lostMask = 0
    let u := s.endDieTeams die
    let base := rescueBase (u.rescueDie die)
    ∃ n m v, u.writeRescues base (if first then 0 else u.rd base 8) (if first then 0 else u.rd (base + 8) 8) (u.rescues die) = (n, m, v) ∧
      let w := v.dropDie die
      let t := [0, 1, 2, 3, 4, 5].filter (fun e => !(w.die e).lost) |>.foldl
        (fun (x : State) e => (x.message 7 e (BitVec.ofNat 1024 (7 + die * 2 ^ 64 + n * 2 ^ 128))).2)
        (w.pokeWords base [word n, word m, word w.lostMask, word w.time, 0, 0, 0, 0])
      exec (.dieLoss die) s = .next t ∧ (t.die die).lost = true) ∧
  (∀ (s : State) (d : Nat), let t := s.dropDie d
    let u := s.dropViews d
    (∀ c, dieOfCore c = d → t.core c = Core.empty) ∧
    (∀ c line, dieOfCore c ≠ d → ((t.core c).line line) = if homeOf u (line * 128) = d then L1Line.zero else (u.core c).line line) ∧
    (t.die d).lost = true ∧ (t.die d).egress = [] ∧ (t.die d).leases = [] ∧ (t.die d).grants = [] ∧ (t.die d).faults = [] ∧ (t.die d).fbuf = [] ∧
    (t.die d).lvl = [] ∧
    (∀ e, e ≠ d → ∀ w ∈ (t.die e).egress, w.home ≠ d)) ∧
  (∀ die addr n s, (s.die die).hdmPa addr = none → ∃ t, exec (.cxlMemRead die addr n) s = .next t ∧ OnlyDie s t die ∧
    t.die die = { s.die die with cxlAns := none }) ∧
  (∀ die addr n s pa d e, (s.die die).hdmPa addr = some pa → n ≤ 128 → region pa = .dram d → region (pa + n - 1) = .dram e →
    ∃ t, exec (.cxlMemRead die addr n) s = .next t ∧ OnlyDie s t die ∧
      t.die die = { s.die die with cxlAns := some (BitVec.ofNat 1024 (s.rd pa n), s.poisoned pa n) }) ∧
  (∀ die addr n (v : BitVec 1024) s, ((s.die die).hdmPa addr = none → exec (.cxlMemWrite die addr n v) s = .next s) ∧
    ∀ pa, (s.die die).hdmPa addr = some pa → exec (.cxlMemWrite die addr n v) s = .next (s.externalWrite die pa n v)) ∧
  (∀ die s, s.syncOld die = false → exec (.lockLoss die) s = .next s) ∧
  (∀ die s, s.syncOld die = true → ∃ t, exec (.lockLoss die) s = .next t ∧ OnlyDie s t die ∧ t.die die = { s.die die with lock := false, leases := [] }) ∧
  (∀ die pkg line p (data : BitVec 1024) expiry bound s, (die = 4 ∨ die = 5) → region (line * 128) = .package p → s.inDomain p = true →
    ((s.die die).leases.any fun l => (l.pkg == p && l.line == line % 2 ^ 45) && s.leaseValid die l) = false →
    ∃ t, exec (.leaseFill die pkg line data expiry bound) s = .next t ∧
      (∀ i, i < 128 → byteAt t.mem (farLine p (line % 2 ^ 45) * 128 + i) = data.extractLsb' (8 * i) 8) ∧
      (expiry ≠ 0 → s.locked die = true → ⟨p, line % 2 ^ 45, data, expiry, bound⟩ ∈ (t.die die).leases)) ∧
  (∀ die pkg line (data : BitVec 1024) expiry bound s d, (die = 4 ∨ die = 5) → region (line * 128) = .dram d → s.locked die = true →
    s.inDomain pkg = true → s.writeWaits line = false →
    let len := ((s.die die).leaseLen + 1) * 1000
    ∃ t, exec (.leaseFill die pkg line data expiry bound) s = .next t ∧ OnlyDie s t die ∧ ⟨pkg, line, s.time + len, s.clk, len, (s.die die).bound⟩ ∈ (t.die die).grants) ∧
  (∀ die pkg line s, ∃ t, exec (.returnRequest die pkg line) s = .next t ∧ OnlyDie s t die ∧
    ∀ l, l ∈ (t.die die).leases ↔ l ∈ (s.die die).leases ∧ ¬(l.pkg = pkg ∧ l.line = line)) ∧
  (∀ die line s, exec (.leaseExpiry die line) s = .next ((s.modDie die fun x => { x with
    grants := x.grants.filter fun g => !(g.line == line && decide (s.grantEnd die g ≤ s.clk)) }).afterLeases)) ∧
  (∀ die pkg line s, exec (.leaseReturned die pkg line) s =
    .next ((s.modDie die fun x => { x with grants := x.grants.filter fun g => !(g.pkg == pkg && g.line == line) }).afterLeases)) ∧
  (∀ die idx s l, at? (s.die die).leases idx = some l →
    (s.leaseValid die l = true → exec (.leaseValidityEnd die idx) s = .next s) ∧
    (s.leaseValid die l = false → ∃ t, exec (.leaseValidityEnd die idx) s = .next t ∧ OnlyDie s t die ∧ (t.die die).leases = (s.die die).leases.eraseIdx idx)) ∧
  (∀ die idx s, ∃ t, exec (.validLeaseDrop die idx) s = .next t ∧ OnlyDie s t die ∧ (t.die die).leases = (s.die die).leases.eraseIdx idx) ∧
  (∀ die pkg pa n (v : BitVec 1024) s d, region pa = .dram d → pa % 128 + n ≤ 128 → exec (.inboundWrite die pkg pa n v) s =
    .next ((s.logWrite die pa n (v.toNat % 2 ^ (8 * n))).inboundReq
      ⟨pa / 128, pa, n, BitVec.ofNat 1024 (v.toNat % 2 ^ (8 * n)), pkg, .write⟩)) ∧
  (∀ (s : State) (w : Delayed), let waits := s.leased w.line = true ∨ ∃ u ∈ s.delayed, u.line = w.line ∨ u.src = w.src
    (waits → s.inboundReq w = { s with delayed := s.delayed ++ [w] }) ∧ (¬waits → w.how = .write → s.inboundReq w = s.performDelayed w)) ∧
  (∀ (s : State) (w : Delayed), s.leased w.line = true → s.delayed = [w] → s.afterLeases = s) ∧
  (∀ (s : State) (w : Delayed), s.leased w.line = false → s.delayed = [w] → s.afterLeases = ({ s with delayed := [] } : State).performDelayed w) ∧
  (∀ die time bound s, (die = 4 ∨ die = 5) → ∃ t, exec (.ptpSync die time bound) s = .next t ∧ t.ptpBase = time ∧ t.ptpRef = s.clk ∧ t.mem = s.mem ∧
    (t.die die).bound = bound ∧ (t.die die).lastSync = s.clk ∧ ((t.die die).lock = true ↔ bound ≤ 2000) ∧
    (t.die die).leases = (if s.locked die = true ∧ bound ≤ 2000 then (s.die die).leases else [])) ∧
  (∀ die port s, (die = 4 ∨ die = 5) → port < 8 → let q := get Port.zero (s.die die).ports port
    let since := q.recent.filter fun t => decide (s.clk < t + 2100000)
    let u := s.modPort die port fun q => { q with
      rplay := min (q.rplay + 1) (2 ^ 32 - 1), fail := min (q.fail + 1) (2 ^ 32 - 1), row := q.row + 1, recent := since ++ [s.clk] }
    (q.row + 1 < 16 → since.length + 1 ≤ 1024 → exec (.flitReplay die port) s = .next u) ∧
    (16 ≤ q.row + 1 ∨ 1024 < since.length + 1 → exec (.flitReplay die port) s = exec (.portDown die port) u)) ∧
  (∀ die port s, (die = 4 ∨ die = 5) → port < 8 → let q := get Port.zero (s.die die).ports port
    let u := s.modPort die port fun q => { q with up := false, downs := min (q.downs + 1) 65535 }
    let v := u.loseReach die q.peer
    (q.up = false → exec (.portDown die port) s = .next s) ∧
    (q.up = true → u.reaches q.peer = true → exec (.portDown die port) s = .next u) ∧
    (q.up = true → s.withinRoom = false ∨ v.withinRoom = true → exec (.portDown die port) s = .next v) ∧
    (q.up = true → s.withinRoom = true → v.withinRoom = false → exec (.portDown die port) s = .next s) ∧
    (get Port.zero (u.die die).ports port).up = false) ∧
  (∀ die port peer s, (die = 4 ∨ die = 5) → port < 8 → ∃ t, exec (.portTrained die port peer) s = .next t ∧ OnlyDie s t die ∧
    (get Port.zero (t.die die).ports port).up = true ∧ (get Port.zero (t.die die).ports port).peer = peer % 2 ^ 20)
end

