-- ==== Sys2Proof/Laws/Store.lean ====
section
/-! SUPPORT. The laws of the sparse maps: what a read gives after a write, and the canonical form that every write keeps. -/

namespace Sys2Proof.Machine

variable {α : Type} [DecidableEq α]

/-- A read after a write of the same key gives the value written, whatever the map was. -/
@[simp] theorem get_set_same (d : α) (m : Sparse α) (k : Nat) (v : α) : get d (set d m k v) k = v := by
  induction m with
  | nil => by_cases h : v = d <;> simp [set, get, h]
  | cons e r ih =>
    obtain ⟨k', v'⟩ := e
    simp only [set]
    split
    · split
      · exact ih
      · simp [get]
    · split
      · simp [get]
      · rw [get, if_neg (by omega)]; exact ih

/-- A write leaves every other key alone, whatever is read there by default. -/
theorem get_set_ne (e d : α) (m : Sparse α) (k k2 : Nat) (v : α) (h : k2 ≠ k) :
    get e (set d m k v) k2 = get e m k2 := by
  induction m with
  | nil => by_cases hv : v = d <;> simp [set, get, hv]; omega
  | cons x r ih =>
    obtain ⟨k', v'⟩ := x
    simp only [set]
    split
    · rename_i hk
      split
      · rw [ih, get, if_neg (by omega)]
      · rw [get, get, if_neg (by omega), if_neg (by omega)]
    · split
      · rw [get, if_neg (by omega)]
      · simp only [get]; split <;> [rfl; exact ih]

/-- What a read gives after a write. -/
theorem get_set (d : α) (m : Sparse α) (k k2 : Nat) (v : α) : get d (set d m k v) k2 = if k2 = k then v else get d m k2 := by
  split
  · subst k2; simp
  · exact get_set_ne d d m k k2 v ‹_›

/-- A smaller lower bound is easier to keep. -/
theorem canonFrom_mono (d : α) (m : Sparse α) (a b : Nat) (h : a ≤ b) (hm : canonFrom d (some b) m = true) :
    canonFrom d (some a) m = true := by
  cases m with
  | nil => rfl
  | cons e r => simp only [canonFrom, Bool.and_eq_true, decide_eq_true_eq] at *; exact ⟨⟨by omega, hm.1.2⟩, hm.2⟩

/-- A map above a lower bound is canonical. -/
theorem canonFrom_none (d : α) (m : Sparse α) (lo : Option Nat) (hm : canonFrom d lo m = true) : canonFrom d none m = true := by
  cases m with
  | nil => rfl
  | cons e r => simp only [canonFrom, Bool.and_eq_true, Bool.true_and] at *; exact ⟨hm.1.2, hm.2⟩

/-- Clearing a key below every key of a map changes nothing. -/
theorem set_default_above (d : α) (m : Sparse α) (k lo : Nat) (h : k ≤ lo) (hm : canonFrom d (some lo) m = true) :
    set d m k d = m := by
  induction m generalizing lo with
  | nil => simp [set]
  | cons e r ih =>
    obtain ⟨k', v'⟩ := e
    simp only [canonFrom, Bool.and_eq_true, decide_eq_true_eq] at hm
    have h1 : lo < k' := hm.1.1
    rw [set, if_neg (by omega), if_neg (by simp), ih k' (by omega) hm.2]

/-- The bound of `canonFrom` as a condition. -/
theorem above_bound (lo : Option Nat) (x : Nat) : (∀ l, lo = some l → l < x) →
    (match lo with | none => true | some l => decide (l < x)) = true := by
  intro h
  cases lo with
  | none => rfl
  | some l => simpa using h l rfl

/-- The bound of a write's result: whatever lies below both the map and the key. -/
theorem canonFrom_set (d : α) (m : Sparse α) (k : Nat) (v : α) (lo : Option Nat) (hk : ∀ l, lo = some l → l < k)
    (hm : canonFrom d lo m = true) : canonFrom d lo (set d m k v) = true := by
  induction m generalizing lo with
  | nil =>
    by_cases h : v = d
    · simp [set, h, canonFrom]
    · cases lo <;> simp_all [set, canonFrom]
  | cons e r ih =>
    obtain ⟨k', v'⟩ := e
    have hr : canonFrom d (some k') r = true := by
      simp only [canonFrom, Bool.and_eq_true] at hm; exact hm.2
    have hlo : ∀ l, lo = some l → l < k' := by
      intro l hl; subst hl; simp only [canonFrom, Bool.and_eq_true, decide_eq_true_eq] at hm; exact hm.1.1
    have hv' : decide (v' ≠ d) = true := by
      simp only [canonFrom, Bool.and_eq_true] at hm; exact hm.1.2
    simp only [set]
    split
    · rename_i hkk
      subst hkk
      split
      · refine ih lo hk ?_
        cases lo with
        | none => exact canonFrom_none d r _ hr
        | some l => exact canonFrom_mono d r l k (Nat.le_of_lt (hlo l rfl)) hr
      · rename_i hv
        simp only [canonFrom, Bool.and_eq_true]
        exact ⟨⟨above_bound lo k hk, by simpa using hv⟩, hr⟩
    · split
      · rename_i hlt
        simp only [canonFrom, Bool.and_eq_true, decide_eq_true_eq]
        exact ⟨⟨above_bound lo k hk, hlt.2⟩, ⟨hlt.1, by simpa using hv'⟩, hr⟩
      · rename_i hne hlt
        simp only [canonFrom, Bool.and_eq_true]
        refine ⟨⟨above_bound lo k' hlo, hv'⟩, ?_⟩
        by_cases hvd : v = d
        · subst hvd
          by_cases hl : k' < k
          · exact ih (some k') (by intro l h; cases h; exact hl) hr
          · rw [set_default_above v r k k' (by omega) hr]; exact hr
        · exact ih (some k') (by intro l h; cases h; simp_all; omega) hr

/-- Every write keeps the canonical form. -/
theorem canon_set (d : α) (m : Sparse α) (k : Nat) (v : α) (hm : canon d m = true) : canon d (set d m k v) = true :=
  canonFrom_set d m k v none (by simp) hm

/-- A map with some entries left out keeps a lower bound. -/
theorem canonFrom_filter (d : α) (p : Nat × α → Bool) (m : Sparse α) (lo : Option Nat) (hm : canonFrom d lo m = true) :
    canonFrom d lo (m.filter p) = true := by
  induction m generalizing lo with
  | nil => simpa using hm
  | cons e r ih =>
    obtain ⟨k', v'⟩ := e
    have h := hm
    simp only [canonFrom, Bool.and_eq_true] at h
    rw [List.filter_cons]
    split
    · simp only [canonFrom, Bool.and_eq_true]; exact ⟨h.1, ih _ h.2⟩
    · refine ih lo ?_
      cases lo with
      | none => exact canonFrom_none d r _ h.2
      | some l =>
        refine canonFrom_mono d r l k' (Nat.le_of_lt ?_) h.2
        simpa using h.1.1

/-- A map with some entries left out keeps the canonical form. -/
theorem canon_filter (d : α) (p : Nat × α → Bool) (m : Sparse α) (hm : canon d m = true) : canon d (m.filter p) = true :=
  canonFrom_filter d p m none hm

/-- A byte of a memory after a byte was written. -/
theorem byteAt_set (m : Mem) (a b : Nat) (v : Byte) : byteAt (set 0 m a v) b = if b = a then v else byteAt m b :=
  get_set 0 m a b v

/-- A byte outside the bytes written reads as before. -/
theorem byteAt_writeBytes_out (m : Mem) (a n v b : Nat) (h : b < a ∨ a + n ≤ b) : byteAt (writeBytes m a n v) b = byteAt m b := by
  induction n generalizing a v with
  | zero => rfl
  | succ n ih => rw [writeBytes, byteAt_set, if_neg (by omega)]; exact ih _ _ (by omega)

/-- Byte i of the bytes written. -/
theorem byteAt_writeBytes_in (m : Mem) (a n v i : Nat) (h : i < n) :
    byteAt (writeBytes m a n v) (a + i) = BitVec.ofNat 8 (v / 256 ^ i) := by
  induction n generalizing a v i with
  | zero => omega
  | succ n ih =>
    rw [writeBytes, byteAt_set]
    cases i with
    | zero => simp
    | succ i =>
      rw [if_neg (by omega), show a + (i + 1) = a + 1 + i by omega, ih _ _ _ (by omega), Nat.pow_succ, Nat.div_div_eq_div_mul,
        Nat.mul_comm]

/-- Little-endian reading of bytes that a number has (R7). -/
theorem readLE_digits (rd : Nat → Byte) (a n v : Nat) (h : ∀ i, i < n → rd (a + i) = BitVec.ofNat 8 (v / 256 ^ i)) :
    readLE rd a n = v % 256 ^ n := by
  induction n generalizing a v with
  | zero => simp [readLE, Nat.mod_one]
  | succ n ih =>
    have h0 := h 0 (by omega)
    have hr : readLE rd (a + 1) n = v / 256 % 256 ^ n := by
      apply ih
      intro i hi
      have := h (i + 1) (by omega)
      rw [show a + (i + 1) = a + 1 + i by omega] at this
      rw [this, Nat.div_div_eq_div_mul, Nat.pow_succ, Nat.mul_comm]
    have h1 : (rd a).toNat = v % 256 := by simpa using congrArg BitVec.toNat h0
    rw [readLE, hr, h1, Nat.pow_succ, Nat.mul_comm (256 ^ n), Nat.mod_mul]

/-- What was written is read back (R7). -/
theorem readBytes_writeBytes (m : Mem) (a n v : Nat) : readBytes (writeBytes m a n v) a n = v % 256 ^ n :=
  readLE_digits _ _ _ _ fun i hi => byteAt_writeBytes_in m a n v i hi

/-- A write of bytes keeps the canonical form. -/
theorem wf_writeBytes (m : Mem) (a n v : Nat) (h : Memory.wf m = true) : Memory.wf (writeBytes m a n v) = true := by
  induction n generalizing a v with
  | zero => exact h
  | succ n ih => exact canon_set _ _ _ _ (ih _ _)

/-- A write of listed bytes keeps the canonical form. -/
theorem wf_foldl_set {β : Type} (l : List β) (m : Mem) (k : β → Nat) (v : β → Byte) (h : Memory.wf m = true) :
    Memory.wf (l.foldl (fun m b => set 0 m (k b) (v b)) m) = true := by
  induction l generalizing m with
  | nil => exact h
  | cons b r ih => exact ih _ (canon_set _ _ _ _ h)

end Sys2Proof.Machine
end

