-- ==== Sys2Proof/Laws/State.lean ====
section
/-! SUPPORT. One lemma for each field and each update of the state, true by unfolding, and what the accessors read after an
update. -/

namespace Sys2Proof.Machine

/-! Updates of the package -/

@[simp] theorem State.setCore_clk (s : State) (c : Nat) (k : Core) : (s.setCore c k).clk = s.clk := rfl
@[simp] theorem State.setCore_ptpBase (s : State) (c : Nat) (k : Core) : (s.setCore c k).ptpBase = s.ptpBase := rfl
@[simp] theorem State.setCore_ptpRef (s : State) (c : Nat) (k : Core) : (s.setCore c k).ptpRef = s.ptpRef := rfl
@[simp] theorem State.setCore_mem (s : State) (c : Nat) (k : Core) : (s.setCore c k).mem = s.mem := rfl
@[simp] theorem State.setCore_poison (s : State) (c : Nat) (k : Core) : (s.setCore c k).poison = s.poison := rfl
@[simp] theorem State.setCore_ecc (s : State) (c : Nat) (k : Core) : (s.setCore c k).ecc = s.ecc := rfl
@[simp] theorem State.setCore_futs (s : State) (c : Nat) (k : Core) : (s.setCore c k).futs = s.futs := rfl
@[simp] theorem State.setCore_dies (s : State) (c : Nat) (k : Core) : (s.setCore c k).dies = s.dies := rfl
@[simp] theorem State.setCore_recalls (s : State) (c : Nat) (k : Core) : (s.setCore c k).recalls = s.recalls := rfl
@[simp] theorem State.setCore_watches (s : State) (c : Nat) (k : Core) : (s.setCore c k).watches = s.watches := rfl
@[simp] theorem State.setCore_delayed (s : State) (c : Nat) (k : Core) : (s.setCore c k).delayed = s.delayed := rfl
@[simp] theorem State.setCore_focus (s : State) (c : Nat) (k : Core) : (s.setCore c k).focus = s.focus := rfl
@[simp] theorem State.setCore_agenda (s : State) (c : Nat) (k : Core) : (s.setCore c k).agenda = s.agenda := rfl
@[simp] theorem State.setCore_rr (s : State) (c : Nat) (k : Core) : (s.setCore c k).rr = s.rr := rfl
@[simp] theorem State.setCore_free (s : State) (c : Nat) (k : Core) : (s.setCore c k).free = s.free := rfl
@[simp] theorem State.modCore_clk (s : State) (c : Nat) (f : Core → Core) : (s.modCore c f).clk = s.clk := rfl
@[simp] theorem State.modCore_ptpBase (s : State) (c : Nat) (f : Core → Core) : (s.modCore c f).ptpBase = s.ptpBase := rfl
@[simp] theorem State.modCore_ptpRef (s : State) (c : Nat) (f : Core → Core) : (s.modCore c f).ptpRef = s.ptpRef := rfl
@[simp] theorem State.modCore_mem (s : State) (c : Nat) (f : Core → Core) : (s.modCore c f).mem = s.mem := rfl
@[simp] theorem State.modCore_poison (s : State) (c : Nat) (f : Core → Core) : (s.modCore c f).poison = s.poison := rfl
@[simp] theorem State.modCore_ecc (s : State) (c : Nat) (f : Core → Core) : (s.modCore c f).ecc = s.ecc := rfl
@[simp] theorem State.modCore_futs (s : State) (c : Nat) (f : Core → Core) : (s.modCore c f).futs = s.futs := rfl
@[simp] theorem State.modCore_dies (s : State) (c : Nat) (f : Core → Core) : (s.modCore c f).dies = s.dies := rfl
@[simp] theorem State.modCore_recalls (s : State) (c : Nat) (f : Core → Core) : (s.modCore c f).recalls = s.recalls := rfl
@[simp] theorem State.modCore_watches (s : State) (c : Nat) (f : Core → Core) : (s.modCore c f).watches = s.watches := rfl
@[simp] theorem State.modCore_delayed (s : State) (c : Nat) (f : Core → Core) : (s.modCore c f).delayed = s.delayed := rfl
@[simp] theorem State.modCore_focus (s : State) (c : Nat) (f : Core → Core) : (s.modCore c f).focus = s.focus := rfl
@[simp] theorem State.modCore_agenda (s : State) (c : Nat) (f : Core → Core) : (s.modCore c f).agenda = s.agenda := rfl
@[simp] theorem State.modCore_rr (s : State) (c : Nat) (f : Core → Core) : (s.modCore c f).rr = s.rr := rfl
@[simp] theorem State.modCore_free (s : State) (c : Nat) (f : Core → Core) : (s.modCore c f).free = s.free := rfl
@[simp] theorem State.setGrp_clk (s : State) (c i : Nat) (g : Group) : (s.setGrp c i g).clk = s.clk := rfl
@[simp] theorem State.setGrp_ptpBase (s : State) (c i : Nat) (g : Group) : (s.setGrp c i g).ptpBase = s.ptpBase := rfl
@[simp] theorem State.setGrp_ptpRef (s : State) (c i : Nat) (g : Group) : (s.setGrp c i g).ptpRef = s.ptpRef := rfl
@[simp] theorem State.setGrp_mem (s : State) (c i : Nat) (g : Group) : (s.setGrp c i g).mem = s.mem := rfl
@[simp] theorem State.setGrp_poison (s : State) (c i : Nat) (g : Group) : (s.setGrp c i g).poison = s.poison := rfl
@[simp] theorem State.setGrp_ecc (s : State) (c i : Nat) (g : Group) : (s.setGrp c i g).ecc = s.ecc := rfl
@[simp] theorem State.setGrp_futs (s : State) (c i : Nat) (g : Group) : (s.setGrp c i g).futs = s.futs := rfl
@[simp] theorem State.setGrp_dies (s : State) (c i : Nat) (g : Group) : (s.setGrp c i g).dies = s.dies := rfl
@[simp] theorem State.setGrp_recalls (s : State) (c i : Nat) (g : Group) : (s.setGrp c i g).recalls = s.recalls := rfl
@[simp] theorem State.setGrp_watches (s : State) (c i : Nat) (g : Group) : (s.setGrp c i g).watches = s.watches := rfl
@[simp] theorem State.setGrp_delayed (s : State) (c i : Nat) (g : Group) : (s.setGrp c i g).delayed = s.delayed := rfl
@[simp] theorem State.setGrp_focus (s : State) (c i : Nat) (g : Group) : (s.setGrp c i g).focus = s.focus := rfl
@[simp] theorem State.setGrp_agenda (s : State) (c i : Nat) (g : Group) : (s.setGrp c i g).agenda = s.agenda := rfl
@[simp] theorem State.setGrp_rr (s : State) (c i : Nat) (g : Group) : (s.setGrp c i g).rr = s.rr := rfl
@[simp] theorem State.setGrp_free (s : State) (c i : Nat) (g : Group) : (s.setGrp c i g).free = s.free := rfl
@[simp] theorem State.modGrp_clk (s : State) (c i : Nat) (f : Group → Group) : (s.modGrp c i f).clk = s.clk := rfl
@[simp] theorem State.modGrp_ptpBase (s : State) (c i : Nat) (f : Group → Group) : (s.modGrp c i f).ptpBase = s.ptpBase := rfl
@[simp] theorem State.modGrp_ptpRef (s : State) (c i : Nat) (f : Group → Group) : (s.modGrp c i f).ptpRef = s.ptpRef := rfl
@[simp] theorem State.modGrp_mem (s : State) (c i : Nat) (f : Group → Group) : (s.modGrp c i f).mem = s.mem := rfl
@[simp] theorem State.modGrp_poison (s : State) (c i : Nat) (f : Group → Group) : (s.modGrp c i f).poison = s.poison := rfl
@[simp] theorem State.modGrp_ecc (s : State) (c i : Nat) (f : Group → Group) : (s.modGrp c i f).ecc = s.ecc := rfl
@[simp] theorem State.modGrp_futs (s : State) (c i : Nat) (f : Group → Group) : (s.modGrp c i f).futs = s.futs := rfl
@[simp] theorem State.modGrp_dies (s : State) (c i : Nat) (f : Group → Group) : (s.modGrp c i f).dies = s.dies := rfl
@[simp] theorem State.modGrp_recalls (s : State) (c i : Nat) (f : Group → Group) : (s.modGrp c i f).recalls = s.recalls := rfl
@[simp] theorem State.modGrp_watches (s : State) (c i : Nat) (f : Group → Group) : (s.modGrp c i f).watches = s.watches := rfl
@[simp] theorem State.modGrp_delayed (s : State) (c i : Nat) (f : Group → Group) : (s.modGrp c i f).delayed = s.delayed := rfl
@[simp] theorem State.modGrp_focus (s : State) (c i : Nat) (f : Group → Group) : (s.modGrp c i f).focus = s.focus := rfl
@[simp] theorem State.modGrp_agenda (s : State) (c i : Nat) (f : Group → Group) : (s.modGrp c i f).agenda = s.agenda := rfl
@[simp] theorem State.modGrp_rr (s : State) (c i : Nat) (f : Group → Group) : (s.modGrp c i f).rr = s.rr := rfl
@[simp] theorem State.modGrp_free (s : State) (c i : Nat) (f : Group → Group) : (s.modGrp c i f).free = s.free := rfl
@[simp] theorem State.setCur_clk (s : State) (g : Group) : (s.setCur g).clk = s.clk := rfl
@[simp] theorem State.setCur_ptpBase (s : State) (g : Group) : (s.setCur g).ptpBase = s.ptpBase := rfl
@[simp] theorem State.setCur_ptpRef (s : State) (g : Group) : (s.setCur g).ptpRef = s.ptpRef := rfl
@[simp] theorem State.setCur_mem (s : State) (g : Group) : (s.setCur g).mem = s.mem := rfl
@[simp] theorem State.setCur_poison (s : State) (g : Group) : (s.setCur g).poison = s.poison := rfl
@[simp] theorem State.setCur_ecc (s : State) (g : Group) : (s.setCur g).ecc = s.ecc := rfl
@[simp] theorem State.setCur_futs (s : State) (g : Group) : (s.setCur g).futs = s.futs := rfl
@[simp] theorem State.setCur_dies (s : State) (g : Group) : (s.setCur g).dies = s.dies := rfl
@[simp] theorem State.setCur_recalls (s : State) (g : Group) : (s.setCur g).recalls = s.recalls := rfl
@[simp] theorem State.setCur_watches (s : State) (g : Group) : (s.setCur g).watches = s.watches := rfl
@[simp] theorem State.setCur_delayed (s : State) (g : Group) : (s.setCur g).delayed = s.delayed := rfl
@[simp] theorem State.setCur_focus (s : State) (g : Group) : (s.setCur g).focus = s.focus := rfl
@[simp] theorem State.setCur_agenda (s : State) (g : Group) : (s.setCur g).agenda = s.agenda := rfl
@[simp] theorem State.setCur_rr (s : State) (g : Group) : (s.setCur g).rr = s.rr := rfl
@[simp] theorem State.setCur_free (s : State) (g : Group) : (s.setCur g).free = s.free := rfl
@[simp] theorem State.modCur_clk (s : State) (f : Group → Group) : (s.modCur f).clk = s.clk := rfl
@[simp] theorem State.modCur_ptpBase (s : State) (f : Group → Group) : (s.modCur f).ptpBase = s.ptpBase := rfl
@[simp] theorem State.modCur_ptpRef (s : State) (f : Group → Group) : (s.modCur f).ptpRef = s.ptpRef := rfl
@[simp] theorem State.modCur_mem (s : State) (f : Group → Group) : (s.modCur f).mem = s.mem := rfl
@[simp] theorem State.modCur_poison (s : State) (f : Group → Group) : (s.modCur f).poison = s.poison := rfl
@[simp] theorem State.modCur_ecc (s : State) (f : Group → Group) : (s.modCur f).ecc = s.ecc := rfl
@[simp] theorem State.modCur_futs (s : State) (f : Group → Group) : (s.modCur f).futs = s.futs := rfl
@[simp] theorem State.modCur_dies (s : State) (f : Group → Group) : (s.modCur f).dies = s.dies := rfl
@[simp] theorem State.modCur_recalls (s : State) (f : Group → Group) : (s.modCur f).recalls = s.recalls := rfl
@[simp] theorem State.modCur_watches (s : State) (f : Group → Group) : (s.modCur f).watches = s.watches := rfl
@[simp] theorem State.modCur_delayed (s : State) (f : Group → Group) : (s.modCur f).delayed = s.delayed := rfl
@[simp] theorem State.modCur_focus (s : State) (f : Group → Group) : (s.modCur f).focus = s.focus := rfl
@[simp] theorem State.modCur_agenda (s : State) (f : Group → Group) : (s.modCur f).agenda = s.agenda := rfl
@[simp] theorem State.modCur_rr (s : State) (f : Group → Group) : (s.modCur f).rr = s.rr := rfl
@[simp] theorem State.modCur_free (s : State) (f : Group → Group) : (s.modCur f).free = s.free := rfl
@[simp] theorem State.modTeam_clk (s : State) (c t : Nat) (f : Team → Team) : (s.modTeam c t f).clk = s.clk := rfl
@[simp] theorem State.modTeam_ptpBase (s : State) (c t : Nat) (f : Team → Team) : (s.modTeam c t f).ptpBase = s.ptpBase := rfl
@[simp] theorem State.modTeam_ptpRef (s : State) (c t : Nat) (f : Team → Team) : (s.modTeam c t f).ptpRef = s.ptpRef := rfl
@[simp] theorem State.modTeam_mem (s : State) (c t : Nat) (f : Team → Team) : (s.modTeam c t f).mem = s.mem := rfl
@[simp] theorem State.modTeam_poison (s : State) (c t : Nat) (f : Team → Team) : (s.modTeam c t f).poison = s.poison := rfl
@[simp] theorem State.modTeam_ecc (s : State) (c t : Nat) (f : Team → Team) : (s.modTeam c t f).ecc = s.ecc := rfl
@[simp] theorem State.modTeam_futs (s : State) (c t : Nat) (f : Team → Team) : (s.modTeam c t f).futs = s.futs := rfl
@[simp] theorem State.modTeam_dies (s : State) (c t : Nat) (f : Team → Team) : (s.modTeam c t f).dies = s.dies := rfl
@[simp] theorem State.modTeam_recalls (s : State) (c t : Nat) (f : Team → Team) : (s.modTeam c t f).recalls = s.recalls := rfl
@[simp] theorem State.modTeam_watches (s : State) (c t : Nat) (f : Team → Team) : (s.modTeam c t f).watches = s.watches := rfl
@[simp] theorem State.modTeam_delayed (s : State) (c t : Nat) (f : Team → Team) : (s.modTeam c t f).delayed = s.delayed := rfl
@[simp] theorem State.modTeam_focus (s : State) (c t : Nat) (f : Team → Team) : (s.modTeam c t f).focus = s.focus := rfl
@[simp] theorem State.modTeam_agenda (s : State) (c t : Nat) (f : Team → Team) : (s.modTeam c t f).agenda = s.agenda := rfl
@[simp] theorem State.modTeam_rr (s : State) (c t : Nat) (f : Team → Team) : (s.modTeam c t f).rr = s.rr := rfl
@[simp] theorem State.modTeam_free (s : State) (c t : Nat) (f : Team → Team) : (s.modTeam c t f).free = s.free := rfl
@[simp] theorem State.setDie_clk (s : State) (d : Nat) (k : Die) : (s.setDie d k).clk = s.clk := rfl
@[simp] theorem State.setDie_ptpBase (s : State) (d : Nat) (k : Die) : (s.setDie d k).ptpBase = s.ptpBase := rfl
@[simp] theorem State.setDie_ptpRef (s : State) (d : Nat) (k : Die) : (s.setDie d k).ptpRef = s.ptpRef := rfl
@[simp] theorem State.setDie_mem (s : State) (d : Nat) (k : Die) : (s.setDie d k).mem = s.mem := rfl
@[simp] theorem State.setDie_poison (s : State) (d : Nat) (k : Die) : (s.setDie d k).poison = s.poison := rfl
@[simp] theorem State.setDie_ecc (s : State) (d : Nat) (k : Die) : (s.setDie d k).ecc = s.ecc := rfl
@[simp] theorem State.setDie_futs (s : State) (d : Nat) (k : Die) : (s.setDie d k).futs = s.futs := rfl
@[simp] theorem State.setDie_cores (s : State) (d : Nat) (k : Die) : (s.setDie d k).cores = s.cores := rfl
@[simp] theorem State.setDie_recalls (s : State) (d : Nat) (k : Die) : (s.setDie d k).recalls = s.recalls := rfl
@[simp] theorem State.setDie_watches (s : State) (d : Nat) (k : Die) : (s.setDie d k).watches = s.watches := rfl
@[simp] theorem State.setDie_delayed (s : State) (d : Nat) (k : Die) : (s.setDie d k).delayed = s.delayed := rfl
@[simp] theorem State.setDie_focus (s : State) (d : Nat) (k : Die) : (s.setDie d k).focus = s.focus := rfl
@[simp] theorem State.setDie_agenda (s : State) (d : Nat) (k : Die) : (s.setDie d k).agenda = s.agenda := rfl
@[simp] theorem State.setDie_rr (s : State) (d : Nat) (k : Die) : (s.setDie d k).rr = s.rr := rfl
@[simp] theorem State.setDie_free (s : State) (d : Nat) (k : Die) : (s.setDie d k).free = s.free := rfl
@[simp] theorem State.modDie_clk (s : State) (d : Nat) (f : Die → Die) : (s.modDie d f).clk = s.clk := rfl
@[simp] theorem State.modDie_ptpBase (s : State) (d : Nat) (f : Die → Die) : (s.modDie d f).ptpBase = s.ptpBase := rfl
@[simp] theorem State.modDie_ptpRef (s : State) (d : Nat) (f : Die → Die) : (s.modDie d f).ptpRef = s.ptpRef := rfl
@[simp] theorem State.modDie_mem (s : State) (d : Nat) (f : Die → Die) : (s.modDie d f).mem = s.mem := rfl
@[simp] theorem State.modDie_poison (s : State) (d : Nat) (f : Die → Die) : (s.modDie d f).poison = s.poison := rfl
@[simp] theorem State.modDie_ecc (s : State) (d : Nat) (f : Die → Die) : (s.modDie d f).ecc = s.ecc := rfl
@[simp] theorem State.modDie_futs (s : State) (d : Nat) (f : Die → Die) : (s.modDie d f).futs = s.futs := rfl
@[simp] theorem State.modDie_cores (s : State) (d : Nat) (f : Die → Die) : (s.modDie d f).cores = s.cores := rfl
@[simp] theorem State.modDie_recalls (s : State) (d : Nat) (f : Die → Die) : (s.modDie d f).recalls = s.recalls := rfl
@[simp] theorem State.modDie_watches (s : State) (d : Nat) (f : Die → Die) : (s.modDie d f).watches = s.watches := rfl
@[simp] theorem State.modDie_delayed (s : State) (d : Nat) (f : Die → Die) : (s.modDie d f).delayed = s.delayed := rfl
@[simp] theorem State.modDie_focus (s : State) (d : Nat) (f : Die → Die) : (s.modDie d f).focus = s.focus := rfl
@[simp] theorem State.modDie_agenda (s : State) (d : Nat) (f : Die → Die) : (s.modDie d f).agenda = s.agenda := rfl
@[simp] theorem State.modDie_rr (s : State) (d : Nat) (f : Die → Die) : (s.modDie d f).rr = s.rr := rfl
@[simp] theorem State.modDie_free (s : State) (d : Nat) (f : Die → Die) : (s.modDie d f).free = s.free := rfl
@[simp] theorem State.goto_clk (s : State) (pc : Word) : (s.goto pc).clk = s.clk := rfl
@[simp] theorem State.goto_ptpBase (s : State) (pc : Word) : (s.goto pc).ptpBase = s.ptpBase := rfl
@[simp] theorem State.goto_ptpRef (s : State) (pc : Word) : (s.goto pc).ptpRef = s.ptpRef := rfl
@[simp] theorem State.goto_mem (s : State) (pc : Word) : (s.goto pc).mem = s.mem := rfl
@[simp] theorem State.goto_poison (s : State) (pc : Word) : (s.goto pc).poison = s.poison := rfl
@[simp] theorem State.goto_ecc (s : State) (pc : Word) : (s.goto pc).ecc = s.ecc := rfl
@[simp] theorem State.goto_futs (s : State) (pc : Word) : (s.goto pc).futs = s.futs := rfl
@[simp] theorem State.goto_dies (s : State) (pc : Word) : (s.goto pc).dies = s.dies := rfl
@[simp] theorem State.goto_recalls (s : State) (pc : Word) : (s.goto pc).recalls = s.recalls := rfl
@[simp] theorem State.goto_watches (s : State) (pc : Word) : (s.goto pc).watches = s.watches := rfl
@[simp] theorem State.goto_delayed (s : State) (pc : Word) : (s.goto pc).delayed = s.delayed := rfl
@[simp] theorem State.goto_focus (s : State) (pc : Word) : (s.goto pc).focus = s.focus := rfl
@[simp] theorem State.goto_agenda (s : State) (pc : Word) : (s.goto pc).agenda = s.agenda := rfl
@[simp] theorem State.goto_rr (s : State) (pc : Word) : (s.goto pc).rr = s.rr := rfl
@[simp] theorem State.goto_free (s : State) (pc : Word) : (s.goto pc).free = s.free := rfl
@[simp] theorem State.advance_clk (s : State) (n : Nat) : (s.advance n).clk = s.clk := rfl
@[simp] theorem State.advance_ptpBase (s : State) (n : Nat) : (s.advance n).ptpBase = s.ptpBase := rfl
@[simp] theorem State.advance_ptpRef (s : State) (n : Nat) : (s.advance n).ptpRef = s.ptpRef := rfl
@[simp] theorem State.advance_mem (s : State) (n : Nat) : (s.advance n).mem = s.mem := rfl
@[simp] theorem State.advance_poison (s : State) (n : Nat) : (s.advance n).poison = s.poison := rfl
@[simp] theorem State.advance_ecc (s : State) (n : Nat) : (s.advance n).ecc = s.ecc := rfl
@[simp] theorem State.advance_futs (s : State) (n : Nat) : (s.advance n).futs = s.futs := rfl
@[simp] theorem State.advance_dies (s : State) (n : Nat) : (s.advance n).dies = s.dies := rfl
@[simp] theorem State.advance_recalls (s : State) (n : Nat) : (s.advance n).recalls = s.recalls := rfl
@[simp] theorem State.advance_watches (s : State) (n : Nat) : (s.advance n).watches = s.watches := rfl
@[simp] theorem State.advance_delayed (s : State) (n : Nat) : (s.advance n).delayed = s.delayed := rfl
@[simp] theorem State.advance_focus (s : State) (n : Nat) : (s.advance n).focus = s.focus := rfl
@[simp] theorem State.advance_agenda (s : State) (n : Nat) : (s.advance n).agenda = s.agenda := rfl
@[simp] theorem State.advance_rr (s : State) (n : Nat) : (s.advance n).rr = s.rr := rfl
@[simp] theorem State.advance_free (s : State) (n : Nat) : (s.advance n).free = s.free := rfl
@[simp] theorem State.await_clk (s : State) (w : Wait) : (s.await w).clk = s.clk := rfl
@[simp] theorem State.await_ptpBase (s : State) (w : Wait) : (s.await w).ptpBase = s.ptpBase := rfl
@[simp] theorem State.await_ptpRef (s : State) (w : Wait) : (s.await w).ptpRef = s.ptpRef := rfl
@[simp] theorem State.await_mem (s : State) (w : Wait) : (s.await w).mem = s.mem := rfl
@[simp] theorem State.await_poison (s : State) (w : Wait) : (s.await w).poison = s.poison := rfl
@[simp] theorem State.await_ecc (s : State) (w : Wait) : (s.await w).ecc = s.ecc := rfl
@[simp] theorem State.await_futs (s : State) (w : Wait) : (s.await w).futs = s.futs := rfl
@[simp] theorem State.await_dies (s : State) (w : Wait) : (s.await w).dies = s.dies := rfl
@[simp] theorem State.await_recalls (s : State) (w : Wait) : (s.await w).recalls = s.recalls := rfl
@[simp] theorem State.await_watches (s : State) (w : Wait) : (s.await w).watches = s.watches := rfl
@[simp] theorem State.await_delayed (s : State) (w : Wait) : (s.await w).delayed = s.delayed := rfl
@[simp] theorem State.await_focus (s : State) (w : Wait) : (s.await w).focus = s.focus := rfl
@[simp] theorem State.await_agenda (s : State) (w : Wait) : (s.await w).agenda = s.agenda := rfl
@[simp] theorem State.await_rr (s : State) (w : Wait) : (s.await w).rr = s.rr := rfl
@[simp] theorem State.await_free (s : State) (w : Wait) : (s.await w).free = s.free := rfl
@[simp] theorem State.markDone_clk (s : State) (m : Mask) : (s.markDone m).clk = s.clk := rfl
@[simp] theorem State.markDone_ptpBase (s : State) (m : Mask) : (s.markDone m).ptpBase = s.ptpBase := rfl
@[simp] theorem State.markDone_ptpRef (s : State) (m : Mask) : (s.markDone m).ptpRef = s.ptpRef := rfl
@[simp] theorem State.markDone_mem (s : State) (m : Mask) : (s.markDone m).mem = s.mem := rfl
@[simp] theorem State.markDone_poison (s : State) (m : Mask) : (s.markDone m).poison = s.poison := rfl
@[simp] theorem State.markDone_ecc (s : State) (m : Mask) : (s.markDone m).ecc = s.ecc := rfl
@[simp] theorem State.markDone_futs (s : State) (m : Mask) : (s.markDone m).futs = s.futs := rfl
@[simp] theorem State.markDone_dies (s : State) (m : Mask) : (s.markDone m).dies = s.dies := rfl
@[simp] theorem State.markDone_recalls (s : State) (m : Mask) : (s.markDone m).recalls = s.recalls := rfl
@[simp] theorem State.markDone_watches (s : State) (m : Mask) : (s.markDone m).watches = s.watches := rfl
@[simp] theorem State.markDone_delayed (s : State) (m : Mask) : (s.markDone m).delayed = s.delayed := rfl
@[simp] theorem State.markDone_focus (s : State) (m : Mask) : (s.markDone m).focus = s.focus := rfl
@[simp] theorem State.markDone_agenda (s : State) (m : Mask) : (s.markDone m).agenda = s.agenda := rfl
@[simp] theorem State.markDone_rr (s : State) (m : Mask) : (s.markDone m).rr = s.rr := rfl
@[simp] theorem State.markDone_free (s : State) (m : Mask) : (s.markDone m).free = s.free := rfl

/-! Updates of a core -/

@[simp] theorem Core.setSlot_teams (k : Core) (i : Nat) (g : Group) : (k.setSlot i g).teams = k.teams := rfl
@[simp] theorem Core.setSlot_split (k : Core) (i : Nat) (g : Group) : (k.setSlot i g).split = k.split := rfl
@[simp] theorem Core.setSlot_loc (k : Core) (i : Nat) (g : Group) : (k.setSlot i g).loc = k.loc := rfl
@[simp] theorem Core.setSlot_fe (k : Core) (i : Nat) (g : Group) : (k.setSlot i g).fe = k.fe := rfl
@[simp] theorem Core.setSlot_acc (k : Core) (i : Nat) (g : Group) : (k.setSlot i g).acc = k.acc := rfl
@[simp] theorem Core.setSlot_mxe (k : Core) (i : Nat) (g : Group) : (k.setSlot i g).mxe = k.mxe := rfl
@[simp] theorem Core.setSlot_l1 (k : Core) (i : Nat) (g : Group) : (k.setSlot i g).l1 = k.l1 := rfl
@[simp] theorem Core.setSlot_cluHeld (k : Core) (i : Nat) (g : Group) : (k.setSlot i g).cluHeld = k.cluHeld := rfl
@[simp] theorem Core.setSlot_async (k : Core) (i : Nat) (g : Group) : (k.setSlot i g).async = k.async := rfl
@[simp] theorem Core.setSlot_chans (k : Core) (i : Nat) (g : Group) : (k.setSlot i g).chans = k.chans := rfl
@[simp] theorem Core.setSlot_sample (k : Core) (i : Nat) (g : Group) : (k.setSlot i g).sample = k.sample := rfl
@[simp] theorem Core.setSlot_sbuf (k : Core) (i : Nat) (g : Group) : (k.setSlot i g).sbuf = k.sbuf := rfl
@[simp] theorem Core.setSlot_widx (k : Core) (i : Nat) (g : Group) : (k.setSlot i g).widx = k.widx := rfl
@[simp] theorem Core.setSlot_dropped (k : Core) (i : Nat) (g : Group) : (k.setSlot i g).dropped = k.dropped := rfl
@[simp] theorem Core.setSlot_sasid (k : Core) (i : Nat) (g : Group) : (k.setSlot i g).sasid = k.sasid := rfl
@[simp] theorem Core.setSlot_sampledAt (k : Core) (i : Nat) (g : Group) : (k.setSlot i g).sampledAt = k.sampledAt := rfl
@[simp] theorem Core.setSlot_lastSlot (k : Core) (i : Nat) (g : Group) : (k.setSlot i g).lastSlot = k.lastSlot := rfl
@[simp] theorem Core.setSlot_pfi (k : Core) (i : Nat) (g : Group) : (k.setSlot i g).pfi = k.pfi := rfl
@[simp] theorem Core.setSlot_pfu (k : Core) (i : Nat) (g : Group) : (k.setSlot i g).pfu = k.pfu := rfl
@[simp] theorem Core.setSlot_pfl (k : Core) (i : Nat) (g : Group) : (k.setSlot i g).pfl = k.pfl := rfl
@[simp] theorem Core.setSlot_pfn (k : Core) (i : Nat) (g : Group) : (k.setSlot i g).pfn = k.pfn := rfl
@[simp] theorem Core.setSlot_pfs (k : Core) (i : Nat) (g : Group) : (k.setSlot i g).pfs = k.pfs := rfl
@[simp] theorem Core.setSlot_tlb (k : Core) (i : Nat) (g : Group) : (k.setSlot i g).tlb = k.tlb := rfl
@[simp] theorem Core.setSlot_fw (k : Core) (i : Nat) (g : Group) : (k.setSlot i g).fw = k.fw := rfl
@[simp] theorem Core.setSlot_fwUntil (k : Core) (i : Nat) (g : Group) : (k.setSlot i g).fwUntil = k.fwUntil := rfl
@[simp] theorem Core.setSlot_drainUntil (k : Core) (i : Nat) (g : Group) : (k.setSlot i g).drainUntil = k.drainUntil := rfl
@[simp] theorem Core.setSlot_illegal (k : Core) (i : Nat) (g : Group) : (k.setSlot i g).illegal = k.illegal := rfl
@[simp] theorem Core.setSlot_poison (k : Core) (i : Nat) (g : Group) : (k.setSlot i g).poison = k.poison := rfl
@[simp] theorem Core.setTeam_slots (k : Core) (t : Nat) (v : Team) : (k.setTeam t v).slots = k.slots := rfl
@[simp] theorem Core.setTeam_split (k : Core) (t : Nat) (v : Team) : (k.setTeam t v).split = k.split := rfl
@[simp] theorem Core.setTeam_loc (k : Core) (t : Nat) (v : Team) : (k.setTeam t v).loc = k.loc := rfl
@[simp] theorem Core.setTeam_fe (k : Core) (t : Nat) (v : Team) : (k.setTeam t v).fe = k.fe := rfl
@[simp] theorem Core.setTeam_acc (k : Core) (t : Nat) (v : Team) : (k.setTeam t v).acc = k.acc := rfl
@[simp] theorem Core.setTeam_mxe (k : Core) (t : Nat) (v : Team) : (k.setTeam t v).mxe = k.mxe := rfl
@[simp] theorem Core.setTeam_l1 (k : Core) (t : Nat) (v : Team) : (k.setTeam t v).l1 = k.l1 := rfl
@[simp] theorem Core.setTeam_cluHeld (k : Core) (t : Nat) (v : Team) : (k.setTeam t v).cluHeld = k.cluHeld := rfl
@[simp] theorem Core.setTeam_async (k : Core) (t : Nat) (v : Team) : (k.setTeam t v).async = k.async := rfl
@[simp] theorem Core.setTeam_chans (k : Core) (t : Nat) (v : Team) : (k.setTeam t v).chans = k.chans := rfl
@[simp] theorem Core.setTeam_sample (k : Core) (t : Nat) (v : Team) : (k.setTeam t v).sample = k.sample := rfl
@[simp] theorem Core.setTeam_sbuf (k : Core) (t : Nat) (v : Team) : (k.setTeam t v).sbuf = k.sbuf := rfl
@[simp] theorem Core.setTeam_widx (k : Core) (t : Nat) (v : Team) : (k.setTeam t v).widx = k.widx := rfl
@[simp] theorem Core.setTeam_dropped (k : Core) (t : Nat) (v : Team) : (k.setTeam t v).dropped = k.dropped := rfl
@[simp] theorem Core.setTeam_sasid (k : Core) (t : Nat) (v : Team) : (k.setTeam t v).sasid = k.sasid := rfl
@[simp] theorem Core.setTeam_sampledAt (k : Core) (t : Nat) (v : Team) : (k.setTeam t v).sampledAt = k.sampledAt := rfl
@[simp] theorem Core.setTeam_lastSlot (k : Core) (t : Nat) (v : Team) : (k.setTeam t v).lastSlot = k.lastSlot := rfl
@[simp] theorem Core.setTeam_pfi (k : Core) (t : Nat) (v : Team) : (k.setTeam t v).pfi = k.pfi := rfl
@[simp] theorem Core.setTeam_pfu (k : Core) (t : Nat) (v : Team) : (k.setTeam t v).pfu = k.pfu := rfl
@[simp] theorem Core.setTeam_pfl (k : Core) (t : Nat) (v : Team) : (k.setTeam t v).pfl = k.pfl := rfl
@[simp] theorem Core.setTeam_pfn (k : Core) (t : Nat) (v : Team) : (k.setTeam t v).pfn = k.pfn := rfl
@[simp] theorem Core.setTeam_pfs (k : Core) (t : Nat) (v : Team) : (k.setTeam t v).pfs = k.pfs := rfl
@[simp] theorem Core.setTeam_tlb (k : Core) (t : Nat) (v : Team) : (k.setTeam t v).tlb = k.tlb := rfl
@[simp] theorem Core.setTeam_fw (k : Core) (t : Nat) (v : Team) : (k.setTeam t v).fw = k.fw := rfl
@[simp] theorem Core.setTeam_fwUntil (k : Core) (t : Nat) (v : Team) : (k.setTeam t v).fwUntil = k.fwUntil := rfl
@[simp] theorem Core.setTeam_drainUntil (k : Core) (t : Nat) (v : Team) : (k.setTeam t v).drainUntil = k.drainUntil := rfl
@[simp] theorem Core.setTeam_illegal (k : Core) (t : Nat) (v : Team) : (k.setTeam t v).illegal = k.illegal := rfl
@[simp] theorem Core.setTeam_poison (k : Core) (t : Nat) (v : Team) : (k.setTeam t v).poison = k.poison := rfl
@[simp] theorem Core.setChan_slots (k : Core) (n : Nat) (v : Channel) : (k.setChan n v).slots = k.slots := rfl
@[simp] theorem Core.setChan_teams (k : Core) (n : Nat) (v : Channel) : (k.setChan n v).teams = k.teams := rfl
@[simp] theorem Core.setChan_split (k : Core) (n : Nat) (v : Channel) : (k.setChan n v).split = k.split := rfl
@[simp] theorem Core.setChan_loc (k : Core) (n : Nat) (v : Channel) : (k.setChan n v).loc = k.loc := rfl
@[simp] theorem Core.setChan_fe (k : Core) (n : Nat) (v : Channel) : (k.setChan n v).fe = k.fe := rfl
@[simp] theorem Core.setChan_acc (k : Core) (n : Nat) (v : Channel) : (k.setChan n v).acc = k.acc := rfl
@[simp] theorem Core.setChan_mxe (k : Core) (n : Nat) (v : Channel) : (k.setChan n v).mxe = k.mxe := rfl
@[simp] theorem Core.setChan_l1 (k : Core) (n : Nat) (v : Channel) : (k.setChan n v).l1 = k.l1 := rfl
@[simp] theorem Core.setChan_cluHeld (k : Core) (n : Nat) (v : Channel) : (k.setChan n v).cluHeld = k.cluHeld := rfl
@[simp] theorem Core.setChan_async (k : Core) (n : Nat) (v : Channel) : (k.setChan n v).async = k.async := rfl
@[simp] theorem Core.setChan_sample (k : Core) (n : Nat) (v : Channel) : (k.setChan n v).sample = k.sample := rfl
@[simp] theorem Core.setChan_sbuf (k : Core) (n : Nat) (v : Channel) : (k.setChan n v).sbuf = k.sbuf := rfl
@[simp] theorem Core.setChan_widx (k : Core) (n : Nat) (v : Channel) : (k.setChan n v).widx = k.widx := rfl
@[simp] theorem Core.setChan_dropped (k : Core) (n : Nat) (v : Channel) : (k.setChan n v).dropped = k.dropped := rfl
@[simp] theorem Core.setChan_sasid (k : Core) (n : Nat) (v : Channel) : (k.setChan n v).sasid = k.sasid := rfl
@[simp] theorem Core.setChan_sampledAt (k : Core) (n : Nat) (v : Channel) : (k.setChan n v).sampledAt = k.sampledAt := rfl
@[simp] theorem Core.setChan_lastSlot (k : Core) (n : Nat) (v : Channel) : (k.setChan n v).lastSlot = k.lastSlot := rfl
@[simp] theorem Core.setChan_pfi (k : Core) (n : Nat) (v : Channel) : (k.setChan n v).pfi = k.pfi := rfl
@[simp] theorem Core.setChan_pfu (k : Core) (n : Nat) (v : Channel) : (k.setChan n v).pfu = k.pfu := rfl
@[simp] theorem Core.setChan_pfl (k : Core) (n : Nat) (v : Channel) : (k.setChan n v).pfl = k.pfl := rfl
@[simp] theorem Core.setChan_pfn (k : Core) (n : Nat) (v : Channel) : (k.setChan n v).pfn = k.pfn := rfl
@[simp] theorem Core.setChan_pfs (k : Core) (n : Nat) (v : Channel) : (k.setChan n v).pfs = k.pfs := rfl
@[simp] theorem Core.setChan_tlb (k : Core) (n : Nat) (v : Channel) : (k.setChan n v).tlb = k.tlb := rfl
@[simp] theorem Core.setChan_fw (k : Core) (n : Nat) (v : Channel) : (k.setChan n v).fw = k.fw := rfl
@[simp] theorem Core.setChan_fwUntil (k : Core) (n : Nat) (v : Channel) : (k.setChan n v).fwUntil = k.fwUntil := rfl
@[simp] theorem Core.setChan_drainUntil (k : Core) (n : Nat) (v : Channel) : (k.setChan n v).drainUntil = k.drainUntil := rfl
@[simp] theorem Core.setChan_illegal (k : Core) (n : Nat) (v : Channel) : (k.setChan n v).illegal = k.illegal := rfl
@[simp] theorem Core.setChan_poison (k : Core) (n : Nat) (v : Channel) : (k.setChan n v).poison = k.poison := rfl

/-! Updates of a group -/

@[simp] theorem Group.setLane_occ (g : Group) (l : Nat) (v : Lane) : (g.setLane l v).occ = g.occ := rfl
@[simp] theorem Group.setLane_team (g : Group) (l : Nat) (v : Lane) : (g.setLane l v).team = g.team := rfl
@[simp] theorem Group.setLane_gidx (g : Group) (l : Nat) (v : Lane) : (g.setLane l v).gidx = g.gidx := rfl
@[simp] theorem Group.setLane_sregs (g : Group) (l : Nat) (v : Lane) : (g.setLane l v).sregs = g.sregs := rfl
@[simp] theorem Group.setLane_jmask (g : Group) (l : Nat) (v : Lane) : (g.setLane l v).jmask = g.jmask := rfl
@[simp] theorem Group.setLane_qbind (g : Group) (l : Nat) (v : Lane) : (g.setLane l v).qbind = g.qbind := rfl
@[simp] theorem Group.setLane_segs (g : Group) (l : Nat) (v : Lane) : (g.setLane l v).segs = g.segs := rfl
@[simp] theorem Group.setLane_asid (g : Group) (l : Nat) (v : Lane) : (g.setLane l v).asid = g.asid := rfl
@[simp] theorem Group.setLane_cause (g : Group) (l : Nat) (v : Lane) : (g.setLane l v).cause = g.cause := rfl
@[simp] theorem Group.setLane_epc (g : Group) (l : Nat) (v : Lane) : (g.setLane l v).epc = g.epc := rfl
@[simp] theorem Group.setLane_tval (g : Group) (l : Nat) (v : Lane) : (g.setLane l v).tval = g.tval := rfl
@[simp] theorem Group.setLane_priv (g : Group) (l : Nat) (v : Lane) : (g.setLane l v).priv = g.priv := rfl
@[simp] theorem Group.setLane_ut (g : Group) (l : Nat) (v : Lane) : (g.setLane l v).ut = g.ut := rfl
@[simp] theorem Group.setLane_kt (g : Group) (l : Nat) (v : Lane) : (g.setLane l v).kt = g.kt := rfl
@[simp] theorem Group.setLane_ktvec (g : Group) (l : Nat) (v : Lane) : (g.setLane l v).ktvec = g.ktvec := rfl
@[simp] theorem Group.setLane_ipend (g : Group) (l : Nat) (v : Lane) : (g.setLane l v).ipend = g.ipend := rfl
@[simp] theorem Group.setLane_ienable (g : Group) (l : Nat) (v : Lane) : (g.setLane l v).ienable = g.ienable := rfl
@[simp] theorem Group.setLane_wfi (g : Group) (l : Nat) (v : Lane) : (g.setLane l v).wfi = g.wfi := rfl
@[simp] theorem Group.setLane_halted (g : Group) (l : Nat) (v : Lane) : (g.setLane l v).halted = g.halted := rfl
@[simp] theorem Group.setLane_restart (g : Group) (l : Nat) (v : Lane) : (g.setLane l v).restart = g.restart := rfl
@[simp] theorem Group.setLane_count (g : Group) (l : Nat) (v : Lane) : (g.setLane l v).count = g.count := rfl
@[simp] theorem Group.setLane_regs (g : Group) (l : Nat) (v : Lane) : (g.setLane l v).regs = g.regs := rfl
@[simp] theorem Group.setLane_live (g : Group) (l : Nat) (v : Lane) : (g.setLane l v).live = g.live := rfl
@[simp] theorem Group.setLane_paths (g : Group) (l : Nat) (v : Lane) : (g.setLane l v).paths = g.paths := rfl
@[simp] theorem Group.setLane_lastIssue (g : Group) (l : Nat) (v : Lane) : (g.setLane l v).lastIssue = g.lastIssue := rfl
@[simp] theorem Group.setLane_held (g : Group) (l : Nat) (v : Lane) : (g.setLane l v).held = g.held := rfl
@[simp] theorem Group.setLane_draft (g : Group) (l : Nat) (v : Lane) : (g.setLane l v).draft = g.draft := rfl
@[simp] theorem Group.setLane_isDraft (g : Group) (l : Nat) (v : Lane) : (g.setLane l v).isDraft = g.isDraft := rfl
@[simp] theorem Group.setLane_regPoison (g : Group) (l : Nat) (v : Lane) : (g.setLane l v).regPoison = g.regPoison := rfl
@[simp] theorem Group.modLane_occ (g : Group) (l : Nat) (f : Lane → Lane) : (g.modLane l f).occ = g.occ := rfl
@[simp] theorem Group.modLane_team (g : Group) (l : Nat) (f : Lane → Lane) : (g.modLane l f).team = g.team := rfl
@[simp] theorem Group.modLane_gidx (g : Group) (l : Nat) (f : Lane → Lane) : (g.modLane l f).gidx = g.gidx := rfl
@[simp] theorem Group.modLane_sregs (g : Group) (l : Nat) (f : Lane → Lane) : (g.modLane l f).sregs = g.sregs := rfl
@[simp] theorem Group.modLane_jmask (g : Group) (l : Nat) (f : Lane → Lane) : (g.modLane l f).jmask = g.jmask := rfl
@[simp] theorem Group.modLane_qbind (g : Group) (l : Nat) (f : Lane → Lane) : (g.modLane l f).qbind = g.qbind := rfl
@[simp] theorem Group.modLane_segs (g : Group) (l : Nat) (f : Lane → Lane) : (g.modLane l f).segs = g.segs := rfl
@[simp] theorem Group.modLane_asid (g : Group) (l : Nat) (f : Lane → Lane) : (g.modLane l f).asid = g.asid := rfl
@[simp] theorem Group.modLane_cause (g : Group) (l : Nat) (f : Lane → Lane) : (g.modLane l f).cause = g.cause := rfl
@[simp] theorem Group.modLane_epc (g : Group) (l : Nat) (f : Lane → Lane) : (g.modLane l f).epc = g.epc := rfl
@[simp] theorem Group.modLane_tval (g : Group) (l : Nat) (f : Lane → Lane) : (g.modLane l f).tval = g.tval := rfl
@[simp] theorem Group.modLane_priv (g : Group) (l : Nat) (f : Lane → Lane) : (g.modLane l f).priv = g.priv := rfl
@[simp] theorem Group.modLane_ut (g : Group) (l : Nat) (f : Lane → Lane) : (g.modLane l f).ut = g.ut := rfl
@[simp] theorem Group.modLane_kt (g : Group) (l : Nat) (f : Lane → Lane) : (g.modLane l f).kt = g.kt := rfl
@[simp] theorem Group.modLane_ktvec (g : Group) (l : Nat) (f : Lane → Lane) : (g.modLane l f).ktvec = g.ktvec := rfl
@[simp] theorem Group.modLane_ipend (g : Group) (l : Nat) (f : Lane → Lane) : (g.modLane l f).ipend = g.ipend := rfl
@[simp] theorem Group.modLane_ienable (g : Group) (l : Nat) (f : Lane → Lane) : (g.modLane l f).ienable = g.ienable := rfl
@[simp] theorem Group.modLane_wfi (g : Group) (l : Nat) (f : Lane → Lane) : (g.modLane l f).wfi = g.wfi := rfl
@[simp] theorem Group.modLane_halted (g : Group) (l : Nat) (f : Lane → Lane) : (g.modLane l f).halted = g.halted := rfl
@[simp] theorem Group.modLane_restart (g : Group) (l : Nat) (f : Lane → Lane) : (g.modLane l f).restart = g.restart := rfl
@[simp] theorem Group.modLane_count (g : Group) (l : Nat) (f : Lane → Lane) : (g.modLane l f).count = g.count := rfl
@[simp] theorem Group.modLane_regs (g : Group) (l : Nat) (f : Lane → Lane) : (g.modLane l f).regs = g.regs := rfl
@[simp] theorem Group.modLane_live (g : Group) (l : Nat) (f : Lane → Lane) : (g.modLane l f).live = g.live := rfl
@[simp] theorem Group.modLane_paths (g : Group) (l : Nat) (f : Lane → Lane) : (g.modLane l f).paths = g.paths := rfl
@[simp] theorem Group.modLane_lastIssue (g : Group) (l : Nat) (f : Lane → Lane) : (g.modLane l f).lastIssue = g.lastIssue := rfl
@[simp] theorem Group.modLane_held (g : Group) (l : Nat) (f : Lane → Lane) : (g.modLane l f).held = g.held := rfl
@[simp] theorem Group.modLane_draft (g : Group) (l : Nat) (f : Lane → Lane) : (g.modLane l f).draft = g.draft := rfl
@[simp] theorem Group.modLane_isDraft (g : Group) (l : Nat) (f : Lane → Lane) : (g.modLane l f).isDraft = g.isDraft := rfl
@[simp] theorem Group.modLane_regPoison (g : Group) (l : Nat) (f : Lane → Lane) : (g.modLane l f).regPoison = g.regPoison := rfl
@[simp] theorem Group.setP_occ (g : Group) (l n : Nat) (v : Bool) : (g.setP l n v).occ = g.occ := rfl
@[simp] theorem Group.setP_team (g : Group) (l n : Nat) (v : Bool) : (g.setP l n v).team = g.team := rfl
@[simp] theorem Group.setP_gidx (g : Group) (l n : Nat) (v : Bool) : (g.setP l n v).gidx = g.gidx := rfl
@[simp] theorem Group.setP_sregs (g : Group) (l n : Nat) (v : Bool) : (g.setP l n v).sregs = g.sregs := rfl
@[simp] theorem Group.setP_jmask (g : Group) (l n : Nat) (v : Bool) : (g.setP l n v).jmask = g.jmask := rfl
@[simp] theorem Group.setP_qbind (g : Group) (l n : Nat) (v : Bool) : (g.setP l n v).qbind = g.qbind := rfl
@[simp] theorem Group.setP_segs (g : Group) (l n : Nat) (v : Bool) : (g.setP l n v).segs = g.segs := rfl
@[simp] theorem Group.setP_asid (g : Group) (l n : Nat) (v : Bool) : (g.setP l n v).asid = g.asid := rfl
@[simp] theorem Group.setP_cause (g : Group) (l n : Nat) (v : Bool) : (g.setP l n v).cause = g.cause := rfl
@[simp] theorem Group.setP_epc (g : Group) (l n : Nat) (v : Bool) : (g.setP l n v).epc = g.epc := rfl
@[simp] theorem Group.setP_tval (g : Group) (l n : Nat) (v : Bool) : (g.setP l n v).tval = g.tval := rfl
@[simp] theorem Group.setP_priv (g : Group) (l n : Nat) (v : Bool) : (g.setP l n v).priv = g.priv := rfl
@[simp] theorem Group.setP_ut (g : Group) (l n : Nat) (v : Bool) : (g.setP l n v).ut = g.ut := rfl
@[simp] theorem Group.setP_kt (g : Group) (l n : Nat) (v : Bool) : (g.setP l n v).kt = g.kt := rfl
@[simp] theorem Group.setP_ktvec (g : Group) (l n : Nat) (v : Bool) : (g.setP l n v).ktvec = g.ktvec := rfl
@[simp] theorem Group.setP_ipend (g : Group) (l n : Nat) (v : Bool) : (g.setP l n v).ipend = g.ipend := rfl
@[simp] theorem Group.setP_ienable (g : Group) (l n : Nat) (v : Bool) : (g.setP l n v).ienable = g.ienable := rfl
@[simp] theorem Group.setP_wfi (g : Group) (l n : Nat) (v : Bool) : (g.setP l n v).wfi = g.wfi := rfl
@[simp] theorem Group.setP_halted (g : Group) (l n : Nat) (v : Bool) : (g.setP l n v).halted = g.halted := rfl
@[simp] theorem Group.setP_restart (g : Group) (l n : Nat) (v : Bool) : (g.setP l n v).restart = g.restart := rfl
@[simp] theorem Group.setP_count (g : Group) (l n : Nat) (v : Bool) : (g.setP l n v).count = g.count := rfl
@[simp] theorem Group.setP_regs (g : Group) (l n : Nat) (v : Bool) : (g.setP l n v).regs = g.regs := rfl
@[simp] theorem Group.setP_live (g : Group) (l n : Nat) (v : Bool) : (g.setP l n v).live = g.live := rfl
@[simp] theorem Group.setP_paths (g : Group) (l n : Nat) (v : Bool) : (g.setP l n v).paths = g.paths := rfl
@[simp] theorem Group.setP_lastIssue (g : Group) (l n : Nat) (v : Bool) : (g.setP l n v).lastIssue = g.lastIssue := rfl
@[simp] theorem Group.setP_held (g : Group) (l n : Nat) (v : Bool) : (g.setP l n v).held = g.held := rfl
@[simp] theorem Group.setP_draft (g : Group) (l n : Nat) (v : Bool) : (g.setP l n v).draft = g.draft := rfl
@[simp] theorem Group.setP_isDraft (g : Group) (l n : Nat) (v : Bool) : (g.setP l n v).isDraft = g.isDraft := rfl
@[simp] theorem Group.setP_regPoison (g : Group) (l n : Nat) (v : Bool) : (g.setP l n v).regPoison = g.regPoison := rfl
@[simp] theorem Group.setS_occ (g : Group) (n : Nat) (v : Word) : (g.setS n v).occ = g.occ := rfl
@[simp] theorem Group.setS_team (g : Group) (n : Nat) (v : Word) : (g.setS n v).team = g.team := rfl
@[simp] theorem Group.setS_gidx (g : Group) (n : Nat) (v : Word) : (g.setS n v).gidx = g.gidx := rfl
@[simp] theorem Group.setS_jmask (g : Group) (n : Nat) (v : Word) : (g.setS n v).jmask = g.jmask := rfl
@[simp] theorem Group.setS_qbind (g : Group) (n : Nat) (v : Word) : (g.setS n v).qbind = g.qbind := rfl
@[simp] theorem Group.setS_segs (g : Group) (n : Nat) (v : Word) : (g.setS n v).segs = g.segs := rfl
@[simp] theorem Group.setS_asid (g : Group) (n : Nat) (v : Word) : (g.setS n v).asid = g.asid := rfl
@[simp] theorem Group.setS_cause (g : Group) (n : Nat) (v : Word) : (g.setS n v).cause = g.cause := rfl
@[simp] theorem Group.setS_epc (g : Group) (n : Nat) (v : Word) : (g.setS n v).epc = g.epc := rfl
@[simp] theorem Group.setS_tval (g : Group) (n : Nat) (v : Word) : (g.setS n v).tval = g.tval := rfl
@[simp] theorem Group.setS_priv (g : Group) (n : Nat) (v : Word) : (g.setS n v).priv = g.priv := rfl
@[simp] theorem Group.setS_ut (g : Group) (n : Nat) (v : Word) : (g.setS n v).ut = g.ut := rfl
@[simp] theorem Group.setS_kt (g : Group) (n : Nat) (v : Word) : (g.setS n v).kt = g.kt := rfl
@[simp] theorem Group.setS_ktvec (g : Group) (n : Nat) (v : Word) : (g.setS n v).ktvec = g.ktvec := rfl
@[simp] theorem Group.setS_ipend (g : Group) (n : Nat) (v : Word) : (g.setS n v).ipend = g.ipend := rfl
@[simp] theorem Group.setS_ienable (g : Group) (n : Nat) (v : Word) : (g.setS n v).ienable = g.ienable := rfl
@[simp] theorem Group.setS_wfi (g : Group) (n : Nat) (v : Word) : (g.setS n v).wfi = g.wfi := rfl
@[simp] theorem Group.setS_halted (g : Group) (n : Nat) (v : Word) : (g.setS n v).halted = g.halted := rfl
@[simp] theorem Group.setS_restart (g : Group) (n : Nat) (v : Word) : (g.setS n v).restart = g.restart := rfl
@[simp] theorem Group.setS_count (g : Group) (n : Nat) (v : Word) : (g.setS n v).count = g.count := rfl
@[simp] theorem Group.setS_regs (g : Group) (n : Nat) (v : Word) : (g.setS n v).regs = g.regs := rfl
@[simp] theorem Group.setS_live (g : Group) (n : Nat) (v : Word) : (g.setS n v).live = g.live := rfl
@[simp] theorem Group.setS_lanes (g : Group) (n : Nat) (v : Word) : (g.setS n v).lanes = g.lanes := rfl
@[simp] theorem Group.setS_paths (g : Group) (n : Nat) (v : Word) : (g.setS n v).paths = g.paths := rfl
@[simp] theorem Group.setS_lastIssue (g : Group) (n : Nat) (v : Word) : (g.setS n v).lastIssue = g.lastIssue := rfl
@[simp] theorem Group.setS_held (g : Group) (n : Nat) (v : Word) : (g.setS n v).held = g.held := rfl
@[simp] theorem Group.setS_draft (g : Group) (n : Nat) (v : Word) : (g.setS n v).draft = g.draft := rfl
@[simp] theorem Group.setS_isDraft (g : Group) (n : Nat) (v : Word) : (g.setS n v).isDraft = g.isDraft := rfl
@[simp] theorem Group.setS_regPoison (g : Group) (n : Nat) (v : Word) : (g.setS n v).regPoison = g.regPoison := rfl
@[simp] theorem Group.setJ_occ (g : Group) (n : Nat) (v : Mask) : (g.setJ n v).occ = g.occ := rfl
@[simp] theorem Group.setJ_team (g : Group) (n : Nat) (v : Mask) : (g.setJ n v).team = g.team := rfl
@[simp] theorem Group.setJ_gidx (g : Group) (n : Nat) (v : Mask) : (g.setJ n v).gidx = g.gidx := rfl
@[simp] theorem Group.setJ_sregs (g : Group) (n : Nat) (v : Mask) : (g.setJ n v).sregs = g.sregs := rfl
@[simp] theorem Group.setJ_qbind (g : Group) (n : Nat) (v : Mask) : (g.setJ n v).qbind = g.qbind := rfl
@[simp] theorem Group.setJ_segs (g : Group) (n : Nat) (v : Mask) : (g.setJ n v).segs = g.segs := rfl
@[simp] theorem Group.setJ_asid (g : Group) (n : Nat) (v : Mask) : (g.setJ n v).asid = g.asid := rfl
@[simp] theorem Group.setJ_cause (g : Group) (n : Nat) (v : Mask) : (g.setJ n v).cause = g.cause := rfl
@[simp] theorem Group.setJ_epc (g : Group) (n : Nat) (v : Mask) : (g.setJ n v).epc = g.epc := rfl
@[simp] theorem Group.setJ_tval (g : Group) (n : Nat) (v : Mask) : (g.setJ n v).tval = g.tval := rfl
@[simp] theorem Group.setJ_priv (g : Group) (n : Nat) (v : Mask) : (g.setJ n v).priv = g.priv := rfl
@[simp] theorem Group.setJ_ut (g : Group) (n : Nat) (v : Mask) : (g.setJ n v).ut = g.ut := rfl
@[simp] theorem Group.setJ_kt (g : Group) (n : Nat) (v : Mask) : (g.setJ n v).kt = g.kt := rfl
@[simp] theorem Group.setJ_ktvec (g : Group) (n : Nat) (v : Mask) : (g.setJ n v).ktvec = g.ktvec := rfl
@[simp] theorem Group.setJ_ipend (g : Group) (n : Nat) (v : Mask) : (g.setJ n v).ipend = g.ipend := rfl
@[simp] theorem Group.setJ_ienable (g : Group) (n : Nat) (v : Mask) : (g.setJ n v).ienable = g.ienable := rfl
@[simp] theorem Group.setJ_wfi (g : Group) (n : Nat) (v : Mask) : (g.setJ n v).wfi = g.wfi := rfl
@[simp] theorem Group.setJ_halted (g : Group) (n : Nat) (v : Mask) : (g.setJ n v).halted = g.halted := rfl
@[simp] theorem Group.setJ_restart (g : Group) (n : Nat) (v : Mask) : (g.setJ n v).restart = g.restart := rfl
@[simp] theorem Group.setJ_count (g : Group) (n : Nat) (v : Mask) : (g.setJ n v).count = g.count := rfl
@[simp] theorem Group.setJ_regs (g : Group) (n : Nat) (v : Mask) : (g.setJ n v).regs = g.regs := rfl
@[simp] theorem Group.setJ_live (g : Group) (n : Nat) (v : Mask) : (g.setJ n v).live = g.live := rfl
@[simp] theorem Group.setJ_lanes (g : Group) (n : Nat) (v : Mask) : (g.setJ n v).lanes = g.lanes := rfl
@[simp] theorem Group.setJ_paths (g : Group) (n : Nat) (v : Mask) : (g.setJ n v).paths = g.paths := rfl
@[simp] theorem Group.setJ_lastIssue (g : Group) (n : Nat) (v : Mask) : (g.setJ n v).lastIssue = g.lastIssue := rfl
@[simp] theorem Group.setJ_held (g : Group) (n : Nat) (v : Mask) : (g.setJ n v).held = g.held := rfl
@[simp] theorem Group.setJ_draft (g : Group) (n : Nat) (v : Mask) : (g.setJ n v).draft = g.draft := rfl
@[simp] theorem Group.setJ_isDraft (g : Group) (n : Nat) (v : Mask) : (g.setJ n v).isDraft = g.isDraft := rfl
@[simp] theorem Group.setJ_regPoison (g : Group) (n : Nat) (v : Mask) : (g.setJ n v).regPoison = g.regPoison := rfl
@[simp] theorem Group.setX_occ (g : Group) (l n : Nat) (v : Word) : (g.setX l n v).occ = g.occ := by
  unfold Group.setX; split <;> rfl
@[simp] theorem Group.setX_team (g : Group) (l n : Nat) (v : Word) : (g.setX l n v).team = g.team := by
  unfold Group.setX; split <;> rfl
@[simp] theorem Group.setX_gidx (g : Group) (l n : Nat) (v : Word) : (g.setX l n v).gidx = g.gidx := by
  unfold Group.setX; split <;> rfl
@[simp] theorem Group.setX_sregs (g : Group) (l n : Nat) (v : Word) : (g.setX l n v).sregs = g.sregs := by
  unfold Group.setX; split <;> rfl
@[simp] theorem Group.setX_jmask (g : Group) (l n : Nat) (v : Word) : (g.setX l n v).jmask = g.jmask := by
  unfold Group.setX; split <;> rfl
@[simp] theorem Group.setX_qbind (g : Group) (l n : Nat) (v : Word) : (g.setX l n v).qbind = g.qbind := by
  unfold Group.setX; split <;> rfl
@[simp] theorem Group.setX_segs (g : Group) (l n : Nat) (v : Word) : (g.setX l n v).segs = g.segs := by
  unfold Group.setX; split <;> rfl
@[simp] theorem Group.setX_asid (g : Group) (l n : Nat) (v : Word) : (g.setX l n v).asid = g.asid := by
  unfold Group.setX; split <;> rfl
@[simp] theorem Group.setX_cause (g : Group) (l n : Nat) (v : Word) : (g.setX l n v).cause = g.cause := by
  unfold Group.setX; split <;> rfl
@[simp] theorem Group.setX_epc (g : Group) (l n : Nat) (v : Word) : (g.setX l n v).epc = g.epc := by
  unfold Group.setX; split <;> rfl
@[simp] theorem Group.setX_tval (g : Group) (l n : Nat) (v : Word) : (g.setX l n v).tval = g.tval := by
  unfold Group.setX; split <;> rfl
@[simp] theorem Group.setX_priv (g : Group) (l n : Nat) (v : Word) : (g.setX l n v).priv = g.priv := by
  unfold Group.setX; split <;> rfl
@[simp] theorem Group.setX_ut (g : Group) (l n : Nat) (v : Word) : (g.setX l n v).ut = g.ut := by
  unfold Group.setX; split <;> rfl
@[simp] theorem Group.setX_kt (g : Group) (l n : Nat) (v : Word) : (g.setX l n v).kt = g.kt := by
  unfold Group.setX; split <;> rfl
@[simp] theorem Group.setX_ktvec (g : Group) (l n : Nat) (v : Word) : (g.setX l n v).ktvec = g.ktvec := by
  unfold Group.setX; split <;> rfl
@[simp] theorem Group.setX_ipend (g : Group) (l n : Nat) (v : Word) : (g.setX l n v).ipend = g.ipend := by
  unfold Group.setX; split <;> rfl
@[simp] theorem Group.setX_ienable (g : Group) (l n : Nat) (v : Word) : (g.setX l n v).ienable = g.ienable := by
  unfold Group.setX; split <;> rfl
@[simp] theorem Group.setX_wfi (g : Group) (l n : Nat) (v : Word) : (g.setX l n v).wfi = g.wfi := by
  unfold Group.setX; split <;> rfl
@[simp] theorem Group.setX_halted (g : Group) (l n : Nat) (v : Word) : (g.setX l n v).halted = g.halted := by
  unfold Group.setX; split <;> rfl
@[simp] theorem Group.setX_restart (g : Group) (l n : Nat) (v : Word) : (g.setX l n v).restart = g.restart := by
  unfold Group.setX; split <;> rfl
@[simp] theorem Group.setX_count (g : Group) (l n : Nat) (v : Word) : (g.setX l n v).count = g.count := by
  unfold Group.setX; split <;> rfl
@[simp] theorem Group.setX_regs (g : Group) (l n : Nat) (v : Word) : (g.setX l n v).regs = g.regs := by
  unfold Group.setX; split <;> rfl
@[simp] theorem Group.setX_live (g : Group) (l n : Nat) (v : Word) : (g.setX l n v).live = g.live := by
  unfold Group.setX; split <;> rfl
@[simp] theorem Group.setX_paths (g : Group) (l n : Nat) (v : Word) : (g.setX l n v).paths = g.paths := by
  unfold Group.setX; split <;> rfl
@[simp] theorem Group.setX_lastIssue (g : Group) (l n : Nat) (v : Word) : (g.setX l n v).lastIssue = g.lastIssue := by
  unfold Group.setX; split <;> rfl
@[simp] theorem Group.setX_held (g : Group) (l n : Nat) (v : Word) : (g.setX l n v).held = g.held := by
  unfold Group.setX; split <;> rfl
@[simp] theorem Group.setX_draft (g : Group) (l n : Nat) (v : Word) : (g.setX l n v).draft = g.draft := by
  unfold Group.setX; split <;> rfl
@[simp] theorem Group.setX_isDraft (g : Group) (l n : Nat) (v : Word) : (g.setX l n v).isDraft = g.isDraft := by
  unfold Group.setX; split <;> rfl
@[simp] theorem Group.setX_regPoison (g : Group) (l n : Nat) (v : Word) : (g.setX l n v).regPoison = g.regPoison := by
  unfold Group.setX; split <;> rfl
@[simp] theorem Group.setPath_occ (g : Group) (p : Path) : (g.setPath p).occ = g.occ := by
  unfold Group.setPath; split <;> rfl
@[simp] theorem Group.setPath_team (g : Group) (p : Path) : (g.setPath p).team = g.team := by
  unfold Group.setPath; split <;> rfl
@[simp] theorem Group.setPath_gidx (g : Group) (p : Path) : (g.setPath p).gidx = g.gidx := by
  unfold Group.setPath; split <;> rfl
@[simp] theorem Group.setPath_sregs (g : Group) (p : Path) : (g.setPath p).sregs = g.sregs := by
  unfold Group.setPath; split <;> rfl
@[simp] theorem Group.setPath_jmask (g : Group) (p : Path) : (g.setPath p).jmask = g.jmask := by
  unfold Group.setPath; split <;> rfl
@[simp] theorem Group.setPath_qbind (g : Group) (p : Path) : (g.setPath p).qbind = g.qbind := by
  unfold Group.setPath; split <;> rfl
@[simp] theorem Group.setPath_segs (g : Group) (p : Path) : (g.setPath p).segs = g.segs := by
  unfold Group.setPath; split <;> rfl
@[simp] theorem Group.setPath_asid (g : Group) (p : Path) : (g.setPath p).asid = g.asid := by
  unfold Group.setPath; split <;> rfl
@[simp] theorem Group.setPath_cause (g : Group) (p : Path) : (g.setPath p).cause = g.cause := by
  unfold Group.setPath; split <;> rfl
@[simp] theorem Group.setPath_epc (g : Group) (p : Path) : (g.setPath p).epc = g.epc := by
  unfold Group.setPath; split <;> rfl
@[simp] theorem Group.setPath_tval (g : Group) (p : Path) : (g.setPath p).tval = g.tval := by
  unfold Group.setPath; split <;> rfl
@[simp] theorem Group.setPath_priv (g : Group) (p : Path) : (g.setPath p).priv = g.priv := by
  unfold Group.setPath; split <;> rfl
@[simp] theorem Group.setPath_ut (g : Group) (p : Path) : (g.setPath p).ut = g.ut := by
  unfold Group.setPath; split <;> rfl
@[simp] theorem Group.setPath_kt (g : Group) (p : Path) : (g.setPath p).kt = g.kt := by
  unfold Group.setPath; split <;> rfl
@[simp] theorem Group.setPath_ktvec (g : Group) (p : Path) : (g.setPath p).ktvec = g.ktvec := by
  unfold Group.setPath; split <;> rfl
@[simp] theorem Group.setPath_ipend (g : Group) (p : Path) : (g.setPath p).ipend = g.ipend := by
  unfold Group.setPath; split <;> rfl
@[simp] theorem Group.setPath_ienable (g : Group) (p : Path) : (g.setPath p).ienable = g.ienable := by
  unfold Group.setPath; split <;> rfl
@[simp] theorem Group.setPath_wfi (g : Group) (p : Path) : (g.setPath p).wfi = g.wfi := by
  unfold Group.setPath; split <;> rfl
@[simp] theorem Group.setPath_halted (g : Group) (p : Path) : (g.setPath p).halted = g.halted := by
  unfold Group.setPath; split <;> rfl
@[simp] theorem Group.setPath_restart (g : Group) (p : Path) : (g.setPath p).restart = g.restart := by
  unfold Group.setPath; split <;> rfl
@[simp] theorem Group.setPath_count (g : Group) (p : Path) : (g.setPath p).count = g.count := by
  unfold Group.setPath; split <;> rfl
@[simp] theorem Group.setPath_regs (g : Group) (p : Path) : (g.setPath p).regs = g.regs := by
  unfold Group.setPath; split <;> rfl
@[simp] theorem Group.setPath_live (g : Group) (p : Path) : (g.setPath p).live = g.live := by
  unfold Group.setPath; split <;> rfl
@[simp] theorem Group.setPath_lanes (g : Group) (p : Path) : (g.setPath p).lanes = g.lanes := by
  unfold Group.setPath; split <;> rfl
@[simp] theorem Group.setPath_lastIssue (g : Group) (p : Path) : (g.setPath p).lastIssue = g.lastIssue := by
  unfold Group.setPath; split <;> rfl
@[simp] theorem Group.setPath_held (g : Group) (p : Path) : (g.setPath p).held = g.held := by
  unfold Group.setPath; split <;> rfl
@[simp] theorem Group.setPath_draft (g : Group) (p : Path) : (g.setPath p).draft = g.draft := by
  unfold Group.setPath; split <;> rfl
@[simp] theorem Group.setPath_isDraft (g : Group) (p : Path) : (g.setPath p).isDraft = g.isDraft := by
  unfold Group.setPath; split <;> rfl
@[simp] theorem Group.setPath_regPoison (g : Group) (p : Path) : (g.setPath p).regPoison = g.regPoison := by
  unfold Group.setPath; split <;> rfl
@[simp] theorem Group.modPath_occ (g : Group) (h : Path → Path) : (g.modPath h).occ = g.occ := Group.setPath_occ g _
@[simp] theorem Group.modPath_team (g : Group) (h : Path → Path) : (g.modPath h).team = g.team := Group.setPath_team g _
@[simp] theorem Group.modPath_gidx (g : Group) (h : Path → Path) : (g.modPath h).gidx = g.gidx := Group.setPath_gidx g _
@[simp] theorem Group.modPath_sregs (g : Group) (h : Path → Path) : (g.modPath h).sregs = g.sregs := Group.setPath_sregs g _
@[simp] theorem Group.modPath_jmask (g : Group) (h : Path → Path) : (g.modPath h).jmask = g.jmask := Group.setPath_jmask g _
@[simp] theorem Group.modPath_qbind (g : Group) (h : Path → Path) : (g.modPath h).qbind = g.qbind := Group.setPath_qbind g _
@[simp] theorem Group.modPath_segs (g : Group) (h : Path → Path) : (g.modPath h).segs = g.segs := Group.setPath_segs g _
@[simp] theorem Group.modPath_asid (g : Group) (h : Path → Path) : (g.modPath h).asid = g.asid := Group.setPath_asid g _
@[simp] theorem Group.modPath_cause (g : Group) (h : Path → Path) : (g.modPath h).cause = g.cause := Group.setPath_cause g _
@[simp] theorem Group.modPath_epc (g : Group) (h : Path → Path) : (g.modPath h).epc = g.epc := Group.setPath_epc g _
@[simp] theorem Group.modPath_tval (g : Group) (h : Path → Path) : (g.modPath h).tval = g.tval := Group.setPath_tval g _
@[simp] theorem Group.modPath_priv (g : Group) (h : Path → Path) : (g.modPath h).priv = g.priv := Group.setPath_priv g _
@[simp] theorem Group.modPath_ut (g : Group) (h : Path → Path) : (g.modPath h).ut = g.ut := Group.setPath_ut g _
@[simp] theorem Group.modPath_kt (g : Group) (h : Path → Path) : (g.modPath h).kt = g.kt := Group.setPath_kt g _
@[simp] theorem Group.modPath_ktvec (g : Group) (h : Path → Path) : (g.modPath h).ktvec = g.ktvec := Group.setPath_ktvec g _
@[simp] theorem Group.modPath_ipend (g : Group) (h : Path → Path) : (g.modPath h).ipend = g.ipend := Group.setPath_ipend g _
@[simp] theorem Group.modPath_ienable (g : Group) (h : Path → Path) : (g.modPath h).ienable = g.ienable := Group.setPath_ienable g _
@[simp] theorem Group.modPath_wfi (g : Group) (h : Path → Path) : (g.modPath h).wfi = g.wfi := Group.setPath_wfi g _
@[simp] theorem Group.modPath_halted (g : Group) (h : Path → Path) : (g.modPath h).halted = g.halted := Group.setPath_halted g _
@[simp] theorem Group.modPath_restart (g : Group) (h : Path → Path) : (g.modPath h).restart = g.restart := Group.setPath_restart g _
@[simp] theorem Group.modPath_count (g : Group) (h : Path → Path) : (g.modPath h).count = g.count := Group.setPath_count g _
@[simp] theorem Group.modPath_regs (g : Group) (h : Path → Path) : (g.modPath h).regs = g.regs := Group.setPath_regs g _
@[simp] theorem Group.modPath_live (g : Group) (h : Path → Path) : (g.modPath h).live = g.live := Group.setPath_live g _
@[simp] theorem Group.modPath_lanes (g : Group) (h : Path → Path) : (g.modPath h).lanes = g.lanes := Group.setPath_lanes g _
@[simp] theorem Group.modPath_lastIssue (g : Group) (h : Path → Path) : (g.modPath h).lastIssue = g.lastIssue := Group.setPath_lastIssue g _
@[simp] theorem Group.modPath_held (g : Group) (h : Path → Path) : (g.modPath h).held = g.held := Group.setPath_held g _
@[simp] theorem Group.modPath_draft (g : Group) (h : Path → Path) : (g.modPath h).draft = g.draft := Group.setPath_draft g _
@[simp] theorem Group.modPath_isDraft (g : Group) (h : Path → Path) : (g.modPath h).isDraft = g.isDraft := Group.setPath_isDraft g _
@[simp] theorem Group.modPath_regPoison (g : Group) (h : Path → Path) : (g.modPath h).regPoison = g.regPoison := Group.setPath_regPoison g _
@[simp] theorem Group.modLanes_occ (g : Group) (ls : List Nat) (h : Nat → Lane → Lane) : (g.modLanes ls h).occ = g.occ := by
  induction ls generalizing g with
  | nil => rfl
  | cons l r ih => exact (ih (g.modLane l (h l))).trans rfl
@[simp] theorem Group.modLanes_team (g : Group) (ls : List Nat) (h : Nat → Lane → Lane) : (g.modLanes ls h).team = g.team := by
  induction ls generalizing g with
  | nil => rfl
  | cons l r ih => exact (ih (g.modLane l (h l))).trans rfl
@[simp] theorem Group.modLanes_gidx (g : Group) (ls : List Nat) (h : Nat → Lane → Lane) : (g.modLanes ls h).gidx = g.gidx := by
  induction ls generalizing g with
  | nil => rfl
  | cons l r ih => exact (ih (g.modLane l (h l))).trans rfl
@[simp] theorem Group.modLanes_sregs (g : Group) (ls : List Nat) (h : Nat → Lane → Lane) : (g.modLanes ls h).sregs = g.sregs := by
  induction ls generalizing g with
  | nil => rfl
  | cons l r ih => exact (ih (g.modLane l (h l))).trans rfl
@[simp] theorem Group.modLanes_jmask (g : Group) (ls : List Nat) (h : Nat → Lane → Lane) : (g.modLanes ls h).jmask = g.jmask := by
  induction ls generalizing g with
  | nil => rfl
  | cons l r ih => exact (ih (g.modLane l (h l))).trans rfl
@[simp] theorem Group.modLanes_qbind (g : Group) (ls : List Nat) (h : Nat → Lane → Lane) : (g.modLanes ls h).qbind = g.qbind := by
  induction ls generalizing g with
  | nil => rfl
  | cons l r ih => exact (ih (g.modLane l (h l))).trans rfl
@[simp] theorem Group.modLanes_segs (g : Group) (ls : List Nat) (h : Nat → Lane → Lane) : (g.modLanes ls h).segs = g.segs := by
  induction ls generalizing g with
  | nil => rfl
  | cons l r ih => exact (ih (g.modLane l (h l))).trans rfl
@[simp] theorem Group.modLanes_asid (g : Group) (ls : List Nat) (h : Nat → Lane → Lane) : (g.modLanes ls h).asid = g.asid := by
  induction ls generalizing g with
  | nil => rfl
  | cons l r ih => exact (ih (g.modLane l (h l))).trans rfl
@[simp] theorem Group.modLanes_cause (g : Group) (ls : List Nat) (h : Nat → Lane → Lane) : (g.modLanes ls h).cause = g.cause := by
  induction ls generalizing g with
  | nil => rfl
  | cons l r ih => exact (ih (g.modLane l (h l))).trans rfl
@[simp] theorem Group.modLanes_epc (g : Group) (ls : List Nat) (h : Nat → Lane → Lane) : (g.modLanes ls h).epc = g.epc := by
  induction ls generalizing g with
  | nil => rfl
  | cons l r ih => exact (ih (g.modLane l (h l))).trans rfl
@[simp] theorem Group.modLanes_tval (g : Group) (ls : List Nat) (h : Nat → Lane → Lane) : (g.modLanes ls h).tval = g.tval := by
  induction ls generalizing g with
  | nil => rfl
  | cons l r ih => exact (ih (g.modLane l (h l))).trans rfl
@[simp] theorem Group.modLanes_priv (g : Group) (ls : List Nat) (h : Nat → Lane → Lane) : (g.modLanes ls h).priv = g.priv := by
  induction ls generalizing g with
  | nil => rfl
  | cons l r ih => exact (ih (g.modLane l (h l))).trans rfl
@[simp] theorem Group.modLanes_ut (g : Group) (ls : List Nat) (h : Nat → Lane → Lane) : (g.modLanes ls h).ut = g.ut := by
  induction ls generalizing g with
  | nil => rfl
  | cons l r ih => exact (ih (g.modLane l (h l))).trans rfl
@[simp] theorem Group.modLanes_kt (g : Group) (ls : List Nat) (h : Nat → Lane → Lane) : (g.modLanes ls h).kt = g.kt := by
  induction ls generalizing g with
  | nil => rfl
  | cons l r ih => exact (ih (g.modLane l (h l))).trans rfl
@[simp] theorem Group.modLanes_ktvec (g : Group) (ls : List Nat) (h : Nat → Lane → Lane) : (g.modLanes ls h).ktvec = g.ktvec := by
  induction ls generalizing g with
  | nil => rfl
  | cons l r ih => exact (ih (g.modLane l (h l))).trans rfl
@[simp] theorem Group.modLanes_ipend (g : Group) (ls : List Nat) (h : Nat → Lane → Lane) : (g.modLanes ls h).ipend = g.ipend := by
  induction ls generalizing g with
  | nil => rfl
  | cons l r ih => exact (ih (g.modLane l (h l))).trans rfl
@[simp] theorem Group.modLanes_ienable (g : Group) (ls : List Nat) (h : Nat → Lane → Lane) : (g.modLanes ls h).ienable = g.ienable := by
  induction ls generalizing g with
  | nil => rfl
  | cons l r ih => exact (ih (g.modLane l (h l))).trans rfl
@[simp] theorem Group.modLanes_wfi (g : Group) (ls : List Nat) (h : Nat → Lane → Lane) : (g.modLanes ls h).wfi = g.wfi := by
  induction ls generalizing g with
  | nil => rfl
  | cons l r ih => exact (ih (g.modLane l (h l))).trans rfl
@[simp] theorem Group.modLanes_halted (g : Group) (ls : List Nat) (h : Nat → Lane → Lane) : (g.modLanes ls h).halted = g.halted := by
  induction ls generalizing g with
  | nil => rfl
  | cons l r ih => exact (ih (g.modLane l (h l))).trans rfl
@[simp] theorem Group.modLanes_restart (g : Group) (ls : List Nat) (h : Nat → Lane → Lane) : (g.modLanes ls h).restart = g.restart := by
  induction ls generalizing g with
  | nil => rfl
  | cons l r ih => exact (ih (g.modLane l (h l))).trans rfl
@[simp] theorem Group.modLanes_count (g : Group) (ls : List Nat) (h : Nat → Lane → Lane) : (g.modLanes ls h).count = g.count := by
  induction ls generalizing g with
  | nil => rfl
  | cons l r ih => exact (ih (g.modLane l (h l))).trans rfl
@[simp] theorem Group.modLanes_regs (g : Group) (ls : List Nat) (h : Nat → Lane → Lane) : (g.modLanes ls h).regs = g.regs := by
  induction ls generalizing g with
  | nil => rfl
  | cons l r ih => exact (ih (g.modLane l (h l))).trans rfl
@[simp] theorem Group.modLanes_live (g : Group) (ls : List Nat) (h : Nat → Lane → Lane) : (g.modLanes ls h).live = g.live := by
  induction ls generalizing g with
  | nil => rfl
  | cons l r ih => exact (ih (g.modLane l (h l))).trans rfl
@[simp] theorem Group.modLanes_paths (g : Group) (ls : List Nat) (h : Nat → Lane → Lane) : (g.modLanes ls h).paths = g.paths := by
  induction ls generalizing g with
  | nil => rfl
  | cons l r ih => exact (ih (g.modLane l (h l))).trans rfl
@[simp] theorem Group.modLanes_lastIssue (g : Group) (ls : List Nat) (h : Nat → Lane → Lane) : (g.modLanes ls h).lastIssue = g.lastIssue := by
  induction ls generalizing g with
  | nil => rfl
  | cons l r ih => exact (ih (g.modLane l (h l))).trans rfl
@[simp] theorem Group.modLanes_held (g : Group) (ls : List Nat) (h : Nat → Lane → Lane) : (g.modLanes ls h).held = g.held := by
  induction ls generalizing g with
  | nil => rfl
  | cons l r ih => exact (ih (g.modLane l (h l))).trans rfl
@[simp] theorem Group.modLanes_draft (g : Group) (ls : List Nat) (h : Nat → Lane → Lane) : (g.modLanes ls h).draft = g.draft := by
  induction ls generalizing g with
  | nil => rfl
  | cons l r ih => exact (ih (g.modLane l (h l))).trans rfl
@[simp] theorem Group.modLanes_isDraft (g : Group) (ls : List Nat) (h : Nat → Lane → Lane) : (g.modLanes ls h).isDraft = g.isDraft := by
  induction ls generalizing g with
  | nil => rfl
  | cons l r ih => exact (ih (g.modLane l (h l))).trans rfl
@[simp] theorem Group.modLanes_regPoison (g : Group) (ls : List Nat) (h : Nat → Lane → Lane) : (g.modLanes ls h).regPoison = g.regPoison := by
  induction ls generalizing g with
  | nil => rfl
  | cons l r ih => exact (ih (g.modLane l (h l))).trans rfl
theorem Group.setXs_fold_occ (g : Group) (ls : List Nat) (n : Nat) (v : Nat → Word) :
    (ls.foldl (fun g l => g.setX l n (v l)) g).occ = g.occ := by
  induction ls generalizing g with
  | nil => rfl
  | cons l r ih => exact (ih (g.setX l n (v l))).trans (Group.setX_occ g l n _)
theorem Group.setXs_fold_team (g : Group) (ls : List Nat) (n : Nat) (v : Nat → Word) :
    (ls.foldl (fun g l => g.setX l n (v l)) g).team = g.team := by
  induction ls generalizing g with
  | nil => rfl
  | cons l r ih => exact (ih (g.setX l n (v l))).trans (Group.setX_team g l n _)
theorem Group.setXs_fold_gidx (g : Group) (ls : List Nat) (n : Nat) (v : Nat → Word) :
    (ls.foldl (fun g l => g.setX l n (v l)) g).gidx = g.gidx := by
  induction ls generalizing g with
  | nil => rfl
  | cons l r ih => exact (ih (g.setX l n (v l))).trans (Group.setX_gidx g l n _)
theorem Group.setXs_fold_sregs (g : Group) (ls : List Nat) (n : Nat) (v : Nat → Word) :
    (ls.foldl (fun g l => g.setX l n (v l)) g).sregs = g.sregs := by
  induction ls generalizing g with
  | nil => rfl
  | cons l r ih => exact (ih (g.setX l n (v l))).trans (Group.setX_sregs g l n _)
theorem Group.setXs_fold_jmask (g : Group) (ls : List Nat) (n : Nat) (v : Nat → Word) :
    (ls.foldl (fun g l => g.setX l n (v l)) g).jmask = g.jmask := by
  induction ls generalizing g with
  | nil => rfl
  | cons l r ih => exact (ih (g.setX l n (v l))).trans (Group.setX_jmask g l n _)
theorem Group.setXs_fold_qbind (g : Group) (ls : List Nat) (n : Nat) (v : Nat → Word) :
    (ls.foldl (fun g l => g.setX l n (v l)) g).qbind = g.qbind := by
  induction ls generalizing g with
  | nil => rfl
  | cons l r ih => exact (ih (g.setX l n (v l))).trans (Group.setX_qbind g l n _)
theorem Group.setXs_fold_segs (g : Group) (ls : List Nat) (n : Nat) (v : Nat → Word) :
    (ls.foldl (fun g l => g.setX l n (v l)) g).segs = g.segs := by
  induction ls generalizing g with
  | nil => rfl
  | cons l r ih => exact (ih (g.setX l n (v l))).trans (Group.setX_segs g l n _)
theorem Group.setXs_fold_asid (g : Group) (ls : List Nat) (n : Nat) (v : Nat → Word) :
    (ls.foldl (fun g l => g.setX l n (v l)) g).asid = g.asid := by
  induction ls generalizing g with
  | nil => rfl
  | cons l r ih => exact (ih (g.setX l n (v l))).trans (Group.setX_asid g l n _)
theorem Group.setXs_fold_cause (g : Group) (ls : List Nat) (n : Nat) (v : Nat → Word) :
    (ls.foldl (fun g l => g.setX l n (v l)) g).cause = g.cause := by
  induction ls generalizing g with
  | nil => rfl
  | cons l r ih => exact (ih (g.setX l n (v l))).trans (Group.setX_cause g l n _)
theorem Group.setXs_fold_epc (g : Group) (ls : List Nat) (n : Nat) (v : Nat → Word) :
    (ls.foldl (fun g l => g.setX l n (v l)) g).epc = g.epc := by
  induction ls generalizing g with
  | nil => rfl
  | cons l r ih => exact (ih (g.setX l n (v l))).trans (Group.setX_epc g l n _)
theorem Group.setXs_fold_tval (g : Group) (ls : List Nat) (n : Nat) (v : Nat → Word) :
    (ls.foldl (fun g l => g.setX l n (v l)) g).tval = g.tval := by
  induction ls generalizing g with
  | nil => rfl
  | cons l r ih => exact (ih (g.setX l n (v l))).trans (Group.setX_tval g l n _)
theorem Group.setXs_fold_priv (g : Group) (ls : List Nat) (n : Nat) (v : Nat → Word) :
    (ls.foldl (fun g l => g.setX l n (v l)) g).priv = g.priv := by
  induction ls generalizing g with
  | nil => rfl
  | cons l r ih => exact (ih (g.setX l n (v l))).trans (Group.setX_priv g l n _)
theorem Group.setXs_fold_ut (g : Group) (ls : List Nat) (n : Nat) (v : Nat → Word) :
    (ls.foldl (fun g l => g.setX l n (v l)) g).ut = g.ut := by
  induction ls generalizing g with
  | nil => rfl
  | cons l r ih => exact (ih (g.setX l n (v l))).trans (Group.setX_ut g l n _)
theorem Group.setXs_fold_kt (g : Group) (ls : List Nat) (n : Nat) (v : Nat → Word) :
    (ls.foldl (fun g l => g.setX l n (v l)) g).kt = g.kt := by
  induction ls generalizing g with
  | nil => rfl
  | cons l r ih => exact (ih (g.setX l n (v l))).trans (Group.setX_kt g l n _)
theorem Group.setXs_fold_ktvec (g : Group) (ls : List Nat) (n : Nat) (v : Nat → Word) :
    (ls.foldl (fun g l => g.setX l n (v l)) g).ktvec = g.ktvec := by
  induction ls generalizing g with
  | nil => rfl
  | cons l r ih => exact (ih (g.setX l n (v l))).trans (Group.setX_ktvec g l n _)
theorem Group.setXs_fold_ipend (g : Group) (ls : List Nat) (n : Nat) (v : Nat → Word) :
    (ls.foldl (fun g l => g.setX l n (v l)) g).ipend = g.ipend := by
  induction ls generalizing g with
  | nil => rfl
  | cons l r ih => exact (ih (g.setX l n (v l))).trans (Group.setX_ipend g l n _)
theorem Group.setXs_fold_ienable (g : Group) (ls : List Nat) (n : Nat) (v : Nat → Word) :
    (ls.foldl (fun g l => g.setX l n (v l)) g).ienable = g.ienable := by
  induction ls generalizing g with
  | nil => rfl
  | cons l r ih => exact (ih (g.setX l n (v l))).trans (Group.setX_ienable g l n _)
theorem Group.setXs_fold_wfi (g : Group) (ls : List Nat) (n : Nat) (v : Nat → Word) :
    (ls.foldl (fun g l => g.setX l n (v l)) g).wfi = g.wfi := by
  induction ls generalizing g with
  | nil => rfl
  | cons l r ih => exact (ih (g.setX l n (v l))).trans (Group.setX_wfi g l n _)
theorem Group.setXs_fold_halted (g : Group) (ls : List Nat) (n : Nat) (v : Nat → Word) :
    (ls.foldl (fun g l => g.setX l n (v l)) g).halted = g.halted := by
  induction ls generalizing g with
  | nil => rfl
  | cons l r ih => exact (ih (g.setX l n (v l))).trans (Group.setX_halted g l n _)
theorem Group.setXs_fold_restart (g : Group) (ls : List Nat) (n : Nat) (v : Nat → Word) :
    (ls.foldl (fun g l => g.setX l n (v l)) g).restart = g.restart := by
  induction ls generalizing g with
  | nil => rfl
  | cons l r ih => exact (ih (g.setX l n (v l))).trans (Group.setX_restart g l n _)
theorem Group.setXs_fold_count (g : Group) (ls : List Nat) (n : Nat) (v : Nat → Word) :
    (ls.foldl (fun g l => g.setX l n (v l)) g).count = g.count := by
  induction ls generalizing g with
  | nil => rfl
  | cons l r ih => exact (ih (g.setX l n (v l))).trans (Group.setX_count g l n _)
theorem Group.setXs_fold_regs (g : Group) (ls : List Nat) (n : Nat) (v : Nat → Word) :
    (ls.foldl (fun g l => g.setX l n (v l)) g).regs = g.regs := by
  induction ls generalizing g with
  | nil => rfl
  | cons l r ih => exact (ih (g.setX l n (v l))).trans (Group.setX_regs g l n _)
theorem Group.setXs_fold_live (g : Group) (ls : List Nat) (n : Nat) (v : Nat → Word) :
    (ls.foldl (fun g l => g.setX l n (v l)) g).live = g.live := by
  induction ls generalizing g with
  | nil => rfl
  | cons l r ih => exact (ih (g.setX l n (v l))).trans (Group.setX_live g l n _)
theorem Group.setXs_fold_paths (g : Group) (ls : List Nat) (n : Nat) (v : Nat → Word) :
    (ls.foldl (fun g l => g.setX l n (v l)) g).paths = g.paths := by
  induction ls generalizing g with
  | nil => rfl
  | cons l r ih => exact (ih (g.setX l n (v l))).trans (Group.setX_paths g l n _)
theorem Group.setXs_fold_lastIssue (g : Group) (ls : List Nat) (n : Nat) (v : Nat → Word) :
    (ls.foldl (fun g l => g.setX l n (v l)) g).lastIssue = g.lastIssue := by
  induction ls generalizing g with
  | nil => rfl
  | cons l r ih => exact (ih (g.setX l n (v l))).trans (Group.setX_lastIssue g l n _)
theorem Group.setXs_fold_held (g : Group) (ls : List Nat) (n : Nat) (v : Nat → Word) :
    (ls.foldl (fun g l => g.setX l n (v l)) g).held = g.held := by
  induction ls generalizing g with
  | nil => rfl
  | cons l r ih => exact (ih (g.setX l n (v l))).trans (Group.setX_held g l n _)
theorem Group.setXs_fold_draft (g : Group) (ls : List Nat) (n : Nat) (v : Nat → Word) :
    (ls.foldl (fun g l => g.setX l n (v l)) g).draft = g.draft := by
  induction ls generalizing g with
  | nil => rfl
  | cons l r ih => exact (ih (g.setX l n (v l))).trans (Group.setX_draft g l n _)
theorem Group.setXs_fold_isDraft (g : Group) (ls : List Nat) (n : Nat) (v : Nat → Word) :
    (ls.foldl (fun g l => g.setX l n (v l)) g).isDraft = g.isDraft := by
  induction ls generalizing g with
  | nil => rfl
  | cons l r ih => exact (ih (g.setX l n (v l))).trans (Group.setX_isDraft g l n _)
theorem Group.setXs_fold_regPoison (g : Group) (ls : List Nat) (n : Nat) (v : Nat → Word) :
    (ls.foldl (fun g l => g.setX l n (v l)) g).regPoison = g.regPoison := by
  induction ls generalizing g with
  | nil => rfl
  | cons l r ih => exact (ih (g.setX l n (v l))).trans (Group.setX_regPoison g l n _)

/-! Accessors after an update -/

@[simp] theorem State.core_setCore_same (s : State) (c : Nat) (k : Core) : (s.setCore c k).core c = k := by
  simp [State.core, State.setCore]

theorem State.core_setCore_ne (s : State) (c c' : Nat) (k : Core) (h : c' ≠ c) : (s.setCore c k).core c' = s.core c' := by
  simp [State.core, State.setCore, get_set_ne _ _ _ _ _ _ h]

@[simp] theorem State.die_setCore (s : State) (c d : Nat) (k : Core) : (s.setCore c k).die d = s.die d := rfl

@[simp] theorem State.die_setDie_same (s : State) (d : Nat) (k : Die) : (s.setDie d k).die d = k := by
  simp [State.die, State.setDie]

theorem State.die_setDie_ne (s : State) (d e : Nat) (k : Die) (h : e ≠ d) : (s.setDie d k).die e = s.die e := by
  simp [State.die, State.setDie, get_set_ne _ _ _ _ _ _ h]

@[simp] theorem State.core_setDie (s : State) (c d : Nat) (k : Die) : (s.setDie d k).core c = s.core c := rfl

@[simp] theorem State.core_modDie (s : State) (c d : Nat) (f : Die → Die) : (s.modDie d f).core c = s.core c := rfl

@[simp] theorem State.die_modDie_same (s : State) (d : Nat) (f : Die → Die) : (s.modDie d f).die d = f (s.die d) := by
  simp [State.modDie]

@[simp] theorem State.die_modCore (s : State) (c d : Nat) (f : Core → Core) : (s.modCore c f).die d = s.die d := rfl

@[simp] theorem State.core_modCore_same (s : State) (c : Nat) (f : Core → Core) : (s.modCore c f).core c = f (s.core c) := by
  simp [State.modCore]

@[simp] theorem Core.slot_setSlot_same (k : Core) (i : Nat) (g : Group) : (k.setSlot i g).slot i = g := by
  simp [Core.slot, Core.setSlot]

theorem Core.slot_setSlot_ne (k : Core) (i j : Nat) (g : Group) (h : j ≠ i) : (k.setSlot i g).slot j = k.slot j := by
  simp [Core.slot, Core.setSlot, get_set, h]

@[simp] theorem Core.team_setSlot (k : Core) (i t : Nat) (g : Group) : (k.setSlot i g).team t = k.team t := rfl

@[simp] theorem Core.team_setTeam_same (k : Core) (t : Nat) (v : Team) : (k.setTeam t v).team t = v := by
  simp [Core.team, Core.setTeam]

@[simp] theorem Core.slot_setTeam (k : Core) (i t : Nat) (v : Team) : (k.setTeam t v).slot i = k.slot i := rfl

@[simp] theorem Core.chan_setChan_same (k : Core) (n : Nat) (v : Channel) : (k.setChan n v).chan n = v := by
  simp [Core.chan, Core.setChan]

theorem Core.chan_setChan_ne (k : Core) (n m : Nat) (v : Channel) (h : m ≠ n) : (k.setChan n v).chan m = k.chan m := by
  simp [Core.chan, Core.setChan, get_set, h]

@[simp] theorem State.grp_setGrp_same (s : State) (c i : Nat) (g : Group) : (s.setGrp c i g).grp c i = g := by
  simp [State.grp, State.setGrp]

theorem State.grp_setGrp_ne (s : State) (c i c' j : Nat) (g : Group) (h : c' ≠ c ∨ j ≠ i) :
    (s.setGrp c i g).grp c' j = s.grp c' j := by
  by_cases hc : c' = c
  · subst hc
    have hj : j ≠ i := by simpa using h
    simp [State.grp, State.setGrp, Core.slot_setSlot_ne _ _ _ _ hj]
  · simp [State.grp, State.setGrp, State.core_setCore_ne _ _ _ _ hc]

@[simp] theorem State.cid_setCur (s : State) (g : Group) : (s.setCur g).cid = s.cid := rfl
@[simp] theorem State.sid_setCur (s : State) (g : Group) : (s.setCur g).sid = s.sid := rfl
@[simp] theorem State.cid_modCur (s : State) (f : Group → Group) : (s.modCur f).cid = s.cid := rfl
@[simp] theorem State.sid_modCur (s : State) (f : Group → Group) : (s.modCur f).sid = s.sid := rfl

@[simp] theorem State.cur_setCur (s : State) (g : Group) : (s.setCur g).cur = g :=
  State.grp_setGrp_same s s.cid s.sid g

@[simp] theorem State.cur_modCur (s : State) (f : Group → Group) : (s.modCur f).cur = f s.cur := by
  simp [State.modCur]

theorem State.grp_modCur_ne (s : State) (f : Group → Group) (c i : Nat) (h : c ≠ s.cid ∨ i ≠ s.sid) :
    (s.modCur f).grp c i = s.grp c i := State.grp_setGrp_ne _ _ _ _ _ _ h

/-- What an update of the group that issues leaves of its core. -/
@[simp] theorem State.team_modCur (s : State) (f : Group → Group) (c t : Nat) : (s.modCur f).teamAt c t = s.teamAt c t := by
  by_cases hc : c = s.cid
  · subst hc; simp [State.teamAt, State.modCur, State.setCur, State.setGrp]
  · simp [State.teamAt, State.modCur, State.setCur, State.setGrp, State.core_setCore_ne _ _ _ _ hc]

@[simp] theorem Group.lane_setLane_same (g : Group) (l : Nat) (v : Lane) : (g.setLane l v).lane l = v := by
  simp [Group.lane, Group.setLane]

theorem Group.lane_setLane_ne (g : Group) (l m : Nat) (v : Lane) (h : m ≠ l) : (g.setLane l v).lane m = g.lane m := by
  simp [Group.lane, Group.setLane, get_set, h]

@[simp] theorem Group.lane_modLane_same (g : Group) (l : Nat) (f : Lane → Lane) : (g.modLane l f).lane l = f (g.lane l) := by
  simp [Group.modLane]

theorem Group.lane_modLane_ne (g : Group) (l m : Nat) (f : Lane → Lane) (h : m ≠ l) : (g.modLane l f).lane m = g.lane m :=
  Group.lane_setLane_ne _ _ _ _ h

/-- An x register after a write (R12, R151). -/
theorem Group.x_setX (g : Group) (l n l' n' : Nat) (v : Word) :
    (g.setX l n v).x l' n' = if l' = l ∧ n' = n ∧ n ≠ 0 ∧ n < g.alloc then v else g.x l' n' := by
  unfold Group.setX
  by_cases h : n = 0 ∨ g.alloc ≤ n
  · rw [if_pos h, if_neg (by omega)]
  · rw [if_neg h]
    have ha : (g.modLane l fun r => { r with xs := set 0 r.xs n v }).alloc = g.alloc := rfl
    unfold Group.x
    rw [ha]
    generalize g.alloc = al at *
    by_cases hl : l' = l
    · subst hl
      rw [Group.lane_modLane_same]
      dsimp only
      rw [get_set]
      by_cases hn : n' = n
      · subst hn; rw [if_neg h, if_pos rfl, if_pos ⟨rfl, rfl, by omega, by omega⟩]
      · rw [if_neg hn, if_neg (c := l' = l' ∧ _) (fun x => hn x.2.1)]
    · rw [Group.lane_modLane_ne _ _ _ _ hl, if_neg (c := l' = l ∧ _) (fun x => hl x.1)]

@[simp] theorem Group.s_setS_same (g : Group) (n : Nat) (v : Word) : (g.setS n v).s n = v := by simp [Group.s, Group.setS]

theorem Group.s_setS_ne (g : Group) (n m : Nat) (v : Word) (h : m ≠ n) : (g.setS n v).s m = g.s m := by
  simp [Group.s, Group.setS, get_set, h]

@[simp] theorem Group.j_setJ_same (g : Group) (n : Nat) (v : Mask) : (g.setJ n v).j n = v := by simp [Group.j, Group.setJ]

theorem Group.j_setJ_ne (g : Group) (n m : Nat) (v : Mask) (h : m ≠ n) : (g.setJ n v).j m = g.j m := by
  simp [Group.j, Group.setJ, get_set, h]

/-- The current path after a change of it; a group with no path keeps none. -/
theorem Group.path_modPath (g : Group) (f : Path → Path) (h : g.paths ≠ []) : (g.modPath f).path = f g.path := by
  unfold Group.modPath Group.setPath Group.path
  cases hp : g.paths with
  | nil => exact absurd hp h
  | cons p r => rfl

end Sys2Proof.Machine
end

