-- ==== Sys2Proof/Laws/Operands.lean ====
section
/-! SUPPORT. What the gate of an instruction, its operands and the write of its result can do, said once. -/

namespace Sys2Proof.Machine

/-- R84: with no acting lane the instruction only goes on. -/
theorem State.gate_none (s : State) (i : Instr) (body : List Nat → State → State) (h : s.acting i.operands.g = []) :
    s.gate i body = s.advance i.len := by
  unfold State.gate; rw [h]

/-- An instruction that nothing turns away does its body. -/
theorem State.gate_enabled (s : State) (i : Instr) (ls : List Nat) (body : List Nat → State → State) (h : Enabled s i ls) :
    s.gate i body = body ls s := by
  obtain ⟨hl, hn, hp, hc, hr⟩ := h
  unfold State.gate
  rw [hl]
  cases ls with
  | nil => exact absurd rfl hn
  | cons l r =>
    have h1 : (i.privileged && !s.cur.priv) = false := by
      cases hi : i.privileged with
      | false => rfl
      | true => simp [hp hi]
    have h2 : (i.simtOnly && isLatency s.cid) = false := by
      cases hi : i.simtOnly with
      | false => rfl
      | true => simp [hc hi]
    simp [h1, h2, hr]

/-- R131: a privileged instruction in user mode. -/
theorem State.gate_privileged (s : State) (i : Instr) (body : List Nat → State → State) (h : s.acting i.operands.g ≠ [])
    (hp : i.privileged = true) (hu : s.cur.priv = false) : s.gate i body = s.takeTrap 0x08 i.word 0 := by
  unfold State.gate
  cases ha : s.acting i.operands.g with
  | nil => exact absurd ha h
  | cons l r => simp [hp, hu]

/-- R131: an instruction of SIMT cores on a latency core. -/
theorem State.gate_wrongCore (s : State) (i : Instr) (body : List Nat → State → State) (h : s.acting i.operands.g ≠ [])
    (hp : (i.privileged && !s.cur.priv) = false) (hs : i.simtOnly = true) (hl : isLatency s.cid = true) :
    s.gate i body = s.takeTrap 0x10 i.word 0 := by
  unfold State.gate
  cases ha : s.acting i.operands.g with
  | nil => exact absurd ha h
  | cons l r => simp [hp, hs, hl]

/-- Operands that can be read give the body their constants. -/
theorem State.withOperands_fed (s : State) (i : Instr) (ls : List Nat) (ka kb kc : Word) (t : State)
    (body : Word → Word → Word → State → State) (h : Fed s i ls ka kb kc t) : s.withOperands i ls body = body ka kb kc t := by
  obtain ⟨⟨na, nb, nc, s1, s2, h1, h2, h3, rfl, rfl, rfl⟩, hu, hr, hp⟩ := h
  unfold State.withOperands
  rcases hs : i.sources with ⟨⟨ta, a⟩, ⟨tb, b⟩, ⟨tc, c⟩⟩
  rw [hs] at h1 h2 h3
  dsimp only at h1 h2 h3
  simp [h1, h2, h3, hu, hr, hp]

/-- An instruction that computes one value in each lane. -/
theorem State.mapLanes_fed (s : State) (i : Instr) (ls : List Nat) (ka kb kc : Word) (t : State) (f : Word → Word → Word → Word)
    (he : Enabled s i ls) (h : Fed s i ls ka kb kc t) :
    s.mapLanes i f = t.finish i ls fun l => f (t.opA i ka ls l) (t.opB i kb ls l) (t.opC i kc ls l) := by
  unfold State.mapLanes
  rw [State.gate_enabled s i ls _ he, State.withOperands_fed s i ls ka kb kc t _ h]
  rfl

/-- An arithmetic instruction. -/
theorem State.mapArith_fed (s : State) (i : Instr) (ls : List Nat) (ka kb kc : Word) (t : State)
    (f : Word → Word → Word → Word → Word × Fp.Exc) (he : Enabled s i ls) (h : Fed s i ls ka kb kc t) :
    s.mapArith i f = t.finishArith i ls fun l => f (t.cur.lane l).fcsr (t.opA i ka ls l) (t.opB i kb ls l) (t.opC i kc ls l) := by
  unfold State.mapArith
  rw [State.gate_enabled s i ls _ he, State.withOperands_fed s i ls ka kb kc t _ h]
  rfl

/-- An instruction that combines the lanes. -/
theorem State.combine_fed (s : State) (i : Instr) (ls : List Nat) (ka kb kc : Word) (t : State)
    (f : List Nat → (Nat → Word) → (Nat → Word) → Nat → Word) (he : Enabled s i ls) (h : Fed s i ls ka kb kc t) :
    s.combine i f = t.finish i ls (f ls (t.opA i ka ls) (t.opB i kb ls)) := by
  unfold State.combine
  rw [State.gate_enabled s i ls _ he, State.withOperands_fed s i ls ka kb kc t _ h]
  rfl

/-! What a change of the group that issues leaves alone -/

theorem OnlyCore.refl (s : State) (c : Nat) : OnlyCore s s c := ⟨rfl, fun _ _ => rfl⟩

theorem OnlyCore.trans {s t u : State} {c : Nat} (h : OnlyCore s t c) (k : OnlyCore t u c) : OnlyCore s u c := by
  refine ⟨?_, fun e he => (k.cores e he).trans (h.cores e he)⟩
  have h1 : { t with cores := s.cores } = s := h.rest
  have k1 : { u with cores := t.cores } = t := k.rest
  show { u with cores := s.cores } = s
  rw [← k1] at h1
  exact h1

theorem OnlyCore.setCore (s : State) (c : Nat) (k : Core) : OnlyCore s (s.setCore c k) c :=
  ⟨rfl, fun e he => State.core_setCore_ne s c e k he⟩

theorem OnlySlot.refl (s : State) (c i : Nat) : OnlySlot s s c i := ⟨OnlyCore.refl s c, rfl, fun _ _ => rfl⟩

theorem OnlySlot.trans {s t u : State} {c i : Nat} (h : OnlySlot s t c i) (k : OnlySlot t u c i) : OnlySlot s u c i := by
  refine ⟨h.core.trans k.core, ?_, fun j hj => (k.slots j hj).trans (h.slots j hj)⟩
  have h1 := h.parts
  have k1 := k.parts
  rw [← k1] at h1
  rw [← h1]

theorem OnlySlot.setGrp (s : State) (c i : Nat) (g : Group) : OnlySlot s (s.setGrp c i g) c i := by
  refine ⟨OnlyCore.setCore s c _, ?_, fun j hj => State.grp_setGrp_ne s c i c j g (Or.inr hj)⟩
  simp [State.setGrp, Core.setSlot]

theorem OnlySlot.modCur (s : State) (f : Group → Group) : OnlySlot s (s.modCur f) s.cid s.sid := OnlySlot.setGrp s _ _ _

theorem OnlySlot.advance (s : State) (n : Nat) : OnlySlot s (s.advance n) s.cid s.sid := by
  unfold State.advance State.goto
  exact OnlySlot.modCur _ _

/-- Only the group that issues is written by a result that goes to no queue register. -/
theorem OnlySlot.writeDst (s : State) (d : Dst) (ls : List Nat) (v : Nat → Word) (h : ∀ n, d ≠ .q n) :
    OnlySlot s (s.writeDst d ls v) s.cid s.sid := by
  unfold State.writeDst
  split
  · exact OnlySlot.modCur _ _
  · exact OnlySlot.modCur _ _
  · split
    · exact OnlySlot.modCur _ _
    · exact OnlySlot.refl _ _ _
  · split
    · exact OnlySlot.modCur _ _
    · exact OnlySlot.refl _ _ _
  · exact absurd rfl (h _)

end Sys2Proof.Machine
end

