-- ==== Sys2Proof/Laws/LoadStore.lean ====
section
/-! SUPPORT. What the checks of an access do when every lane passes them, and what a misplaced lane makes of the instruction, said once
for loads, stores, atomics and line stores. -/

namespace Sys2Proof.Machine

/-- The lanes whose addresses have a place. -/
theorem State.placeAt_all (s : State) (sp : Space) (low n : Nat) (car : Nat → Bool) (eas : List (Nat × Word)) (ps : List (Nat × Place))
    (h1 : ps.map (·.1) = eas.map (·.1)) (h2 : List.Forall₂ (fun e p => s.placeAt sp low n car e = some p.2) eas ps) :
    (eas.filter fun e => (s.placeAt sp low n car e).isNone) = [] ∧
      (eas.filterMap fun e => (s.placeAt sp low n car e).map fun p => (e.1, p)) = ps := by
  induction h2 with
  | nil => simp
  | @cons a b as bs h _ ih =>
    simp only [List.map_cons, List.cons.injEq] at h1
    obtain ⟨k1, k2⟩ := ih h1.2
    obtain ⟨m, p⟩ := b
    obtain rfl : m = a.1 := h1.1
    simp only at h
    simp [h, k1, k2]

/-- R181: an access all of whose lanes have a place, in a space that the team may use, goes on with the places. -/
theorem State.placed_all (s : State) (sp : Space) (n : Nat) (car : Nat → Bool) (eas : List (Nat × Word)) (ps : List (Nat × Place))
    (body : List (Nat × Place) → State) (h1 : ps.map (·.1) = eas.map (·.1))
    (h2 : List.Forall₂ (fun e p => s.placeAt sp (eas.headD (0, 0)).1 n car e = some p.2) eas ps)
    (h3 : sp = .acc → s.ownsEngine = true) : s.placed sp n car eas body = body ps := by
  obtain ⟨f1, f2⟩ := s.placeAt_all sp _ n car eas ps h1 h2
  unfold State.placed
  rw [if_neg]
  · simp only [f1, f2]
  · rintro ⟨hs, hb⟩; simp [h3 hs] at hb

/-- R154, R181, R182: an access of which a lane has no place takes the segment fault of its lowest such lane. -/
theorem State.placed_none (s : State) (sp : Space) (n : Nat) (car : Nat → Bool) (eas : List (Nat × Word)) (l : Nat) (a : Word)
    (r : List (Nat × Word)) (body : List (Nat × Place) → State)
    (h : (eas.filter fun e => (s.placeAt sp (eas.headD (0, 0)).1 n car e).isNone) = (l, a) :: r)
    (h3 : sp = .acc → s.ownsEngine = true) :
    s.placed sp n car eas body = s.segFault a (maskOf (l :: r.map (·.1))) := by
  unfold State.placed
  rw [if_neg]
  · simp only [h]
  · rintro ⟨hs, hb⟩; simp [h3 hs] at hb

/-- Without a faulting lane the body runs for the whole path. -/
@[simp] theorem State.splitFaults_nil (s : State) (acc : Nat) (body : Mask → State → State) : s.splitFaults acc [] body = body 0 s := rfl

/-- Translations without a fault leave the body every lane. -/
theorem State.withXls_ok (s : State) (o : Operands) (acc : Nat) (xs : List (Nat × Place × Nat × Xl))
    (body : List (Nat × Place × Xl) → State → State) (h : ∀ x ∈ xs, x.2.2.1 = 0) :
    s.withXls o acc xs body = body (xs.map fun x => (x.1, x.2.1, x.2.2.2)) s := by
  have hf : xlFaults xs = [] := by
    unfold xlFaults
    rw [List.filterMap_eq_nil_iff]
    rintro ⟨l, p, k, x⟩ hx
    have hk : k = 0 := h _ hx
    simp [hk]
  have hk : xs.filter (fun e => e.2.2.1 == 0) = xs := List.filter_eq_self.2 fun x hx => by simp [h x hx]
  unfold State.withXls
  rw [hf, hk]
  simp [State.splitFaults]

/-- Reads that all give data leave the body every lane. -/
theorem State.withReads_data (s : State) (o : Operands) (acc : Nat) (eas : List (Nat × Word)) (rs : List (Nat × Place × ReadRes))
    (body : List Nat → State → State) (h : ∀ r ∈ rs, ∃ v, r.2.2 = .data v) :
    s.withReads o acc eas rs body = body (rs.map (·.1)) s := by
  have hf : readFaults rs = [] := by
    unfold readFaults
    rw [List.filterMap_eq_nil_iff]
    rintro ⟨l, p, r⟩ hx
    obtain ⟨v, hv⟩ := h _ hx
    simp only at hv
    simp [hv]
  unfold State.withReads
  simp only [hf]
  split
  · rename_i a o' heq
    obtain ⟨r, hr, hm⟩ := List.exists_of_findSome?_eq_some heq
    obtain ⟨v, hv⟩ := h r hr
    simp [hv] at hm
  · simp only [List.isEmpty_nil, Bool.not_true, Bool.and_false, Bool.false_eq_true, if_false, State.splitFaults_nil]
    split
    · rename_i r' heq
      obtain ⟨r, hr, hm⟩ := List.exists_of_findSome?_eq_some heq
      obtain ⟨v, hv⟩ := h r hr
      simp [hv] at hm
    · simp

end Sys2Proof.Machine
end

