-- ==== Sys2Proof/Laws/Memory.lean ====
section
/-! SUPPORT. Every memory operation keeps the memory's canonical form. -/

namespace Sys2Proof.Machine

/-- A fold keeps the form if each of its steps does. -/
theorem State.foldl_wf {β : Type} (l : List β) (f : State → β → State) (s : State)
    (hf : ∀ s b, Memory.wf s.mem = true → Memory.wf (f s b).mem = true) (h : Memory.wf s.mem = true) :
    Memory.wf (l.foldl f s).mem = true := by
  induction l generalizing s with
  | nil => exact h
  | cons b r ih => exact ih _ (hf _ _ h)

@[simp] theorem State.notice_mem (s : State) (l : Nat) (k : Option Nat) : (s.notice l k).mem = s.mem := rfl

@[simp] theorem State.testWatches_mem (s : State) (pa n : Nat) : (s.testWatches pa n).mem = s.mem := by
  unfold State.testWatches; split <;> rfl

@[simp] theorem State.forgetWords_mem (s : State) (pa n : Nat) : (s.forgetWords pa n).mem = s.mem := by
  unfold State.forgetWords; split <;> rfl

@[simp] theorem State.recode_mem (s : State) (pa n : Nat) : (s.recode pa n).mem = s.mem := by
  unfold State.recode; split <;> rfl

@[simp] theorem State.afterWrite_mem (s : State) (pa n : Nat) : (s.afterWrite pa n).mem = s.mem := by
  unfold State.afterWrite; simp

@[simp] theorem State.unpoison_mem (s : State) (l : Nat) (m : BitVec 128) : (s.unpoison l m).mem = s.mem := by
  unfold State.unpoison; split <;> rfl

@[simp] theorem State.discardSubmit_mem (s : State) (pa : Nat) : (s.discardSubmit pa).mem = s.mem := rfl

@[simp] theorem State.countRefusal_mem (s : State) (c : Nat) : (s.countRefusal c).mem = s.mem := rfl

@[simp] theorem State.countUse_mem (s : State) (c l : Nat) : (s.countUse c l).mem = s.mem := rfl

@[simp] theorem State.downgrade_mem (s : State) (c l : Nat) : (s.downgrade c l).mem = s.mem := rfl

@[simp] theorem State.install_mem (s : State) (c : Nat) (t : TlbEntry) : (s.install c t).mem = s.mem := by
  unfold State.install; split <;> rfl

@[simp] theorem State.installTables_mem (s : State) (c : Nat) (a : CachedAst) (e : CachedDesc) : (s.installTables c a e).mem = s.mem := by
  unfold State.installTables; split <;> rfl

@[simp] theorem State.dropObject_mem (s : State) (c a o : Nat) : (s.dropObject c a o).mem = s.mem := by
  unfold State.dropObject; split <;> rfl

@[simp] theorem State.discard_mem (s : State) (sc : Scope) (c : Nat) : (s.discard sc c).mem = s.mem := by
  unfold State.discard; split <;> rfl

@[simp] theorem State.acquire_mem (s : State) (sc : Scope) (c : Nat) : (s.acquire sc c).mem = s.mem := State.discard_mem s sc c

@[simp] theorem State.cluStore_mem (s : State) (c o f n v : Nat) : (s.cluStore c o f n v).mem = s.mem := by
  unfold State.cluStore; split <;> rfl

@[simp] theorem State.storeSnap_mem (s : State) (c pa n v : Nat) (i : LineId) (p : Bool) : (s.storeSnap c pa n v i p).mem = s.mem := by
  unfold State.storeSnap; split <;> rfl

/-- A fold whose steps leave the memory alone leaves it alone. -/
theorem State.foldl_mem {β : Type} (l : List β) (f : State → β → State) (s : State) (hf : ∀ s b, (f s b).mem = s.mem) :
    (l.foldl f s).mem = s.mem := by
  induction l generalizing s with
  | nil => rfl
  | cons b r ih => exact (ih _).trans (hf s b)

@[simp] theorem State.awaitLeases_mem (s : State) (line : Nat) : (s.awaitLeases line).mem = s.mem := by
  unfold State.awaitLeases
  exact State.foldl_mem _ _ _ fun s b => by dsimp only; split <;> rfl

@[simp] theorem State.dropLeases_mem (s : State) (line : Nat) : (s.dropLeases line).mem = s.mem := by
  unfold State.dropLeases
  split
  · exact State.foldl_mem _ _ _ fun s b => rfl
  · rfl

@[simp] theorem State.publishClu_mem (s : State) (c : Nat) : (s.publishClu c).mem = s.mem := by
  unfold State.publishClu
  try dsimp only
  split
  · rfl
  · refine (State.foldl_mem _ _ _ ?_).trans ?_
    · intro s b; rfl
    · rfl

/-! Writes -/

theorem State.poke_wf (s : State) (pa n v : Nat) (keep : Option Nat) (h : Memory.wf s.mem = true) :
    Memory.wf (s.poke pa n v keep).mem = true := by
  unfold State.poke
  split
  · exact h
  rw [State.afterWrite_mem]
  exact State.foldl_wf _ _ _ (fun _ _ h => h) (wf_writeBytes _ _ _ _ h)

theorem State.rawCommit_wf (s : State) (l : Nat) (m : BitVec 128) (d : BitVec 1024) (k : Option Nat) (h : Memory.wf s.mem = true) :
    Memory.wf (s.rawCommit l m d k).mem = true := by
  unfold State.rawCommit
  simpa using wf_foldl_set (bytesOf m) s.mem (fun b => l * 128 + b) (fun b => lineByte d b) h

/-! Translation sets the A and D bits of an extent (R342) -/

theorem State.setAD_wf (s : State) (ea : Nat) (acc : Acc) (h : Memory.wf s.mem = true) : Memory.wf (s.setAD ea acc).mem = true := by
  unfold State.setAD
  dsimp only
  split
  · exact h
  · exact State.poke_wf _ _ _ _ _ h

theorem State.walk_wf (s : State) (c asid inc : Nat) (va : Word) (acc : Acc) (priv fresh : Bool) (h : Memory.wf s.mem = true) :
    Memory.wf (s.walk c asid inc va acc priv fresh).2.2.mem = true := by
  unfold State.walk
  dsimp only
  (repeat' split) <;> (try simp only [State.install_mem, State.installTables_mem, State.modDie_mem]) <;>
    first | exact h | exact State.setAD_wf _ _ _ h

theorem State.unitWalk_wf (s : State) (d : Nat) (asid va : Word) (w : Bool) (h : Memory.wf s.mem = true) :
    Memory.wf (s.unitWalk d asid va w).2.2.mem = true := by
  unfold State.unitWalk
  dsimp only
  (repeat' split) <;> (try simp only [State.modDie_mem]) <;> first | exact h | exact State.setAD_wf _ _ _ h

/-! Marks of views (R317) -/

theorem State.putTag_wf (s : State) (d : Nat) (v : View) (b : Nat) (t : Word) (h : Memory.wf s.mem = true) :
    Memory.wf (s.putTag d v b t).mem = true := by
  have hw := State.unitWalk_wf s d v.asid (v.shardVa (v.tagPlace b).1 (v.tagPlace b).2) true h
  unfold State.putTag
  dsimp only
  split
  · rename_i heq
    rw [heq] at hw
    exact State.poke_wf _ _ _ _ _ (by rw [State.awaitLeases_mem]; exact hw)
  · rename_i heq
    rw [heq] at hw
    exact hw

theorem State.markBlock_wf (s : State) (d n : Nat) (v : View) (b : Nat) (h : Memory.wf s.mem = true) :
    Memory.wf (s.markBlock d n v b).mem = true := by
  unfold State.markBlock
  try dsimp only
  split
  · exact State.putTag_wf _ _ _ _ _ h
  · exact State.putTag_wf _ _ _ _ _ h

theorem State.mark_wf (s : State) (a : Word) (o : Nat) (offs : List Nat) (h : Memory.wf s.mem = true) :
    Memory.wf (s.mark a o offs).mem = true :=
  State.foldl_wf _ _ _ (fun _ _ h => State.foldl_wf _ _ _ (fun _ _ h =>
    State.foldl_wf _ _ _ (fun _ _ h => State.markBlock_wf _ _ _ _ _ h) h) h) h

theorem State.markPhysical_wf (s : State) (pa n : Nat) (h : Memory.wf s.mem = true) :
    Memory.wf (s.markPhysical pa n).mem = true :=
  State.foldl_wf _ _ _ (fun _ _ h => State.mark_wf _ _ _ _ h) h

/-! Requests of other packages (R418, R419) -/

theorem State.farFe_wf (s : State) (pa op v : Nat) (h : Memory.wf s.mem = true) : Memory.wf (s.farFe pa op v).2.mem = true := by
  unfold State.farFe
  dsimp only
  (repeat' split) <;> first | exact h | exact State.rawCommit_wf _ _ _ _ _ h

theorem State.performDelayed_wf (s : State) (w : Delayed) (h : Memory.wf s.mem = true) :
    Memory.wf (s.performDelayed w).mem = true := by
  have h' : Memory.wf (s.awaitLeases w.line).mem = true := by rw [State.awaitLeases_mem]; exact h
  unfold State.performDelayed
  dsimp only
  split
  · exact State.farFe_wf _ _ _ _ h'
  · exact State.rawCommit_wf _ _ _ _ _ (State.markPhysical_wf _ _ _ h')

theorem State.flushDelayed_wf (s : State) (line : Nat) (h : Memory.wf s.mem = true) :
    Memory.wf (s.flushDelayed line).mem = true :=
  State.foldl_wf _ _ _ (fun _ _ h => State.performDelayed_wf _ _ h) h

/-! Writes of programs and engines -/

theorem State.commitLine_wf (s : State) (line : Nat) (m : BitVec 128) (data : BitVec 1024) (i : LineId) (keep : Option Nat)
    (h : Memory.wf s.mem = true) : Memory.wf (s.commitLine line m data i keep).mem = true := by
  have h2 : Memory.wf (((s.awaitLeases line).flushDelayed line).dropLeases line).mem = true := by
    rw [State.dropLeases_mem]
    exact State.flushDelayed_wf _ _ (by rw [State.awaitLeases_mem]; exact h)
  unfold State.commitLine
  split
  · exact h
  · exact h
  · exact h
  · refine State.rawCommit_wf _ _ _ _ _ ?_
    try dsimp only
    split
    · exact State.mark_wf _ _ _ _ h2
    · exact h2

theorem State.commit_wf (s : State) (pa n v : Nat) (i : LineId) (keep : Option Nat) (h : Memory.wf s.mem = true) :
    Memory.wf (s.commit pa n v i keep).mem = true := State.commitLine_wf _ _ _ _ _ _ h

@[simp] theorem State.keepUm_mem (s : State) (e : Egress) : (s.keepUm e).mem = s.mem := rfl

theorem State.performEgress_wf (s : State) (d : Nat) (e : Egress) (h : Memory.wf s.mem = true) :
    Memory.wf (s.performEgress d e).mem = true := by
  have hw := State.walk_wf ((s.countRefusal e.src).dropObject e.src (asidOf e.asid) (fld e.va 40 24)) e.src (asidOf e.asid) (incOf e.asid)
    e.va .write true true (by simpa using h)
  unfold State.performEgress
  dsimp only
  (repeat' split) <;> (try simp only [State.keepUm_mem, State.dropObject_mem, State.countRefusal_mem]) <;>
    first | exact h | exact hw | exact State.commitLine_wf _ _ _ _ _ _ h | exact State.commitLine_wf _ _ _ _ _ _ hw

theorem State.sendEgress_wf (s : State) (d : Nat) (es : List Egress) (h : Memory.wf s.mem = true) :
    Memory.wf (s.sendEgress d es).mem = true :=
  State.foldl_wf _ _ _ (fun _ _ h => State.performEgress_wf _ _ _ h) h

theorem State.drainEgress_wf (s : State) (d home : Nat) (h : Memory.wf s.mem = true) :
    Memory.wf (s.drainEgress d home).mem = true := State.sendEgress_wf _ _ _ h

theorem State.drainOne_wf (s : State) (d home : Nat) (h : Memory.wf s.mem = true) :
    Memory.wf (s.drainOne d home).mem = true := State.sendEgress_wf _ _ _ h

theorem State.drainTo_wf (s : State) (d pa : Nat) (h : Memory.wf s.mem = true) : Memory.wf (s.drainTo d pa).mem = true :=
  State.drainEgress_wf _ _ _ h

theorem State.drainTables_wf (s : State) (d asid : Nat) (va : Word) (h : Memory.wf s.mem = true) :
    Memory.wf (s.drainTables d asid va).mem = true := by
  have ht : ∀ (u : State) pa, Memory.wf u.mem = true → Memory.wf (u.drainTo d pa).mem = true := fun _ _ hu => State.drainTo_wf _ _ _ hu
  unfold State.drainTables
  generalize State.drainTo = f at ht ⊢
  dsimp only
  split
  · exact h
  · split
    · exact ht _ _ h
    · split
      · exact ht _ _ (ht _ _ h)
      · exact ht _ _ (ht _ _ (ht _ _ (ht _ _ h)))

theorem State.translateNow_wf (s : State) (c asid inc : Nat) (va : Word) (acc : Acc) (priv : Bool) (h : Memory.wf s.mem = true) :
    Memory.wf (s.translateNow c asid inc va acc priv).2.2.mem = true := by
  have hw := State.walk_wf s c asid inc va acc priv false h
  have ha : ∀ (u : State) obj, Memory.wf u.mem = true →
      Memory.wf (((u.dropObject c asid obj).modDie (dieOfCore c) fun k => k.addCount 4 1).walk c asid inc va acc priv true).2.2.mem = true :=
    fun u obj hu => State.walk_wf _ _ _ _ _ _ _ _ (by simpa using hu)
  unfold State.translateNow
  dsimp only
  (repeat' split) <;> first
    | exact h
    | exact hw
    | exact ha _ _ hw
    | exact ha _ _ h

theorem State.translate_wf (s : State) (c asid inc : Nat) (va : Word) (acc : Acc) (priv : Bool) (h : Memory.wf s.mem = true) :
    Memory.wf (s.translate c asid inc va acc priv).2.2.mem = true := by
  unfold State.translate
  dsimp only
  (repeat' split) <;> exact State.translateNow_wf _ _ _ _ _ _ _ (by first | exact h | exact State.drainTables_wf _ _ _ _ h)

theorem State.agentWalkNow_wf (s : State) (d : Nat) (asid va : Word) (acc : Acc) (h : Memory.wf s.mem = true) :
    Memory.wf (s.agentWalkNow d asid va acc).2.2.mem = true := by
  unfold State.agentWalkNow
  dsimp only
  (repeat' split) <;> first | exact h | exact State.setAD_wf _ _ _ h

theorem State.agentWalk_wf (s : State) (d : Nat) (asid va : Word) (acc : Acc) (h : Memory.wf s.mem = true) :
    Memory.wf (s.agentWalk d asid va acc).2.2.mem = true := by
  have hn := State.agentWalkNow_wf (s.drainTables d (asidOf asid) va) d asid va acc (State.drainTables_wf _ _ _ _ h)
  unfold State.agentWalk
  dsimp only
  split
  · exact State.drainTo_wf _ _ _ hn
  · exact hn

/-! Lines and what another package holds (R287, R290, R417) -/

theorem State.freshWords_mem (s : State) (n : Nat) : (s.freshWords n).2.mem = s.mem := by
  induction n generalizing s with
  | zero => rfl
  | succ n ih => exact (ih _).trans rfl

theorem State.askHome_wf (s : State) (pa n : Nat) (h : Memory.wf s.mem = true) : Memory.wf (s.askHome pa n).mem = true := by
  unfold State.askHome
  split
  · exact wf_writeBytes _ _ _ _ (by rw [State.freshWords_mem]; exact h)
  · exact h

theorem State.holderFill_wf (s : State) (d pkg line : Nat) (data : BitVec 1024) (expiry bound : Nat) (h : Memory.wf s.mem = true) :
    Memory.wf (s.holderFill d pkg line data expiry bound).mem = true := by
  unfold State.holderFill
  dsimp only
  split
  · exact h
  · simp only [State.modDie_mem]
    exact wf_writeBytes s.mem (farLine pkg line * 128) 128 data.toNat h

theorem State.askFill_wf (s : State) (d line : Nat) (i : LineId) (h : Memory.wf s.mem = true) :
    Memory.wf (s.askFill d line i).mem = true := by
  unfold State.askFill
  split
  · refine State.holderFill_wf _ _ _ _ _ _ _ ?_
    show Memory.wf (s.freshWords 16).2.mem = true
    rw [State.freshWords_mem]; exact h
  · exact h

theorem State.fill_wf (s : State) (c line : Nat) (i : LineId) (pf : Bool) (h : Memory.wf s.mem = true) :
    Memory.wf (s.fill c line i pf).mem = true := by
  have hf := State.askFill_wf (s.drainEgress (dieOfCore c) (homeOf s (line * 128))) (dieOfCore c) line i (State.drainEgress_wf _ _ _ h)
  unfold State.fill
  simp only [State.modCore_mem, State.downgrade_mem]
  exact hf

theorem State.readSnap_wf (s : State) (c pa n : Nat) (i : LineId) (h : Memory.wf s.mem = true) :
    Memory.wf (s.readSnap c pa n i).2.mem = true := by
  unfold State.readSnap
  try dsimp only
  split
  · exact State.askHome_wf _ _ _ (State.drainTo_wf _ _ _ h)
  · try dsimp only
    split
    · exact h
    · exact State.fill_wf _ _ _ _ _ h

/-! Publication (R206, R292) -/

theorem State.sendLine_wf (s : State) (sc : Scope) (c line : Nat) (m : BitVec 128) (data : BitVec 1024) (i : LineId)
    (h : Memory.wf s.mem = true) : Memory.wf (s.sendLine sc c line m data i).mem = true := by
  unfold State.sendLine
  try dsimp only
  split
  · exact State.performEgress_wf _ _ _ h
  · split
    · exact State.drainEgress_wf _ _ _ h
    · exact h

theorem State.publishLine_wf (s : State) (sc : Scope) (c line : Nat) (h : Memory.wf s.mem = true) :
    Memory.wf (s.publishLine sc c line).mem = true := by
  unfold State.publishLine
  try dsimp only
  split
  · exact h
  · exact State.foldl_wf _ _ _ (fun _ _ h => State.sendLine_wf _ _ _ _ _ _ _ h) h

theorem State.settle_wf (s : State) (sc : Scope) (d : Nat) (h : Memory.wf s.mem = true) :
    Memory.wf (s.settle sc d).mem = true := by
  refine State.foldl_wf _ _ _ (fun _ _ h => ?_) h
  try dsimp only
  split
  · exact State.drainEgress_wf _ _ _ h
  · exact h

theorem State.publish_wf (s : State) (sc : Scope) (c : Nat) (h : Memory.wf s.mem = true) :
    Memory.wf (s.publish sc c).mem = true := by
  unfold State.publish
  split
  · exact h
  · refine State.settle_wf _ _ _ (State.foldl_wf _ _ _ (fun _ _ h => State.publishLine_wf _ _ _ _ h) ?_)
    rw [State.publishClu_mem]; exact h

theorem State.phase_wf (s : State) (sc : Scope) (c : Nat) (h : Memory.wf s.mem = true) :
    Memory.wf (s.phase sc c).mem = true := by
  unfold State.phase; rw [State.discard_mem]; exact State.publish_wf _ _ _ h

/-! Operations at the arbiter (R197, R293, R294) -/

theorem State.sendParts_wf (s : State) (c line : Nat) (l : L1Line) (h : Memory.wf s.mem = true) :
    Memory.wf (s.sendParts c line l).mem = true :=
  State.foldl_wf _ _ _ (fun _ _ h => State.performEgress_wf _ _ _ h) h

theorem State.goFar_wf (s : State) (c line : Nat) (h : Memory.wf s.mem = true) : Memory.wf (s.goFar c line).mem = true :=
  State.sendParts_wf _ _ _ _ (State.drainTo_wf _ _ _ h)

theorem State.atArbiter_wf (s : State) (c pa n : Nat) (i : LineId) (f : Nat → Nat) (h : Memory.wf s.mem = true) :
    Memory.wf (s.atArbiter c pa n i f).2.mem = true := by
  unfold State.atArbiter
  try dsimp only
  split
  · exact State.commit_wf _ _ _ _ _ _ (State.sendParts_wf _ _ _ _ h)
  · exact State.commit_wf _ _ _ _ _ _ (State.askHome_wf _ _ _ (State.goFar_wf _ _ _ h))

theorem State.storeHome_wf (s : State) (c pa n v : Nat) (i : LineId) (h : Memory.wf s.mem = true) :
    Memory.wf (s.storeHome c pa n v i).mem = true := State.commit_wf _ _ _ _ _ _ (State.goFar_wf _ _ _ h)

theorem State.engineWrite_wf (s : State) (pa n v : Nat) (i : LineId) (h : Memory.wf s.mem = true) :
    Memory.wf (s.engineWrite pa n v i).mem = true := State.commit_wf _ _ _ _ _ _ h

/-! Accesses of units -/

theorem State.shardKind_mem (s : State) (asid : Word) (obj off n : Nat) : (s.shardKind asid obj off n).2.mem = s.mem := by
  have hm : ∀ d m f, (s.modView d m f).mem = s.mem := fun d m f => rfl
  have hc : ∀ d m v bs, (s.checkBlocks d m v bs).2.mem = s.mem := by
    intro d m v bs
    unfold State.checkBlocks
    dsimp only
    (repeat' split) <;> rfl
  unfold State.shardKind
  split
  · rfl
  · rename_i d m v i _
    have := hc d m v (v.blocksOf i off n)
    split <;> simp_all

theorem State.agentStore_wf (s : State) (d : Nat) (asid va : Word) (n v : Nat) (h : Memory.wf s.mem = true) :
    Memory.wf (s.agentStore d asid va n v).2.mem = true := by
  have hw := State.agentWalk_wf s d asid va .write h
  unfold State.agentStore
  try dsimp only
  split
  · exact hw
  · exact State.commit_wf _ _ _ _ _ _ hw

theorem State.agentLoad_wf (s : State) (d : Nat) (asid va : Word) (n : Nat) (h : Memory.wf s.mem = true) :
    Memory.wf (s.agentLoad d asid va n).2.2.mem = true := by
  have hw := State.agentWalk_wf s d asid va .read h
  unfold State.agentLoad
  dsimp only
  split
  · exact hw
  · split
    · show Memory.wf (State.shardKind _ _ _ _ _).2.mem = true
      rw [State.shardKind_mem]; exact hw
    · split
      · exact hw
      · exact State.askHome_wf _ _ _ hw

theorem State.beforeWrite_wf (s : State) (x : Xl) (asid va : Word) (n : Nat) (h : Memory.wf s.mem = true) :
    Memory.wf (s.beforeWrite x asid va n).mem = true := by
  have hl : Memory.wf ((linesOf x.pa n).foldl (fun (s : State) l => ((s.awaitLeases l).flushDelayed l).dropLeases l) s).mem = true :=
    State.foldl_wf _ _ _ (fun _ _ h => by
      rw [State.dropLeases_mem]; exact State.flushDelayed_wf _ _ (by rw [State.awaitLeases_mem]; exact h)) h
  unfold State.beforeWrite
  dsimp only
  split
  · exact State.mark_wf _ _ _ _ hl
  · exact hl

theorem State.agentUpdate_wf (s : State) (d : Nat) (asid va : Word) (f : Nat → Nat) (h : Memory.wf s.mem = true) :
    Memory.wf (s.agentUpdate d asid va f).mem = true := by
  have hw := State.agentWalk_wf s d asid va .write h
  unfold State.agentUpdate
  dsimp only
  split
  · rename_i heq
    rw [heq] at hw
    exact State.poke_wf _ _ _ _ _ (State.beforeWrite_wf _ _ _ _ _ hw)
  · rename_i heq
    rw [heq] at hw
    exact hw

end Sys2Proof.Machine
end

