-- ==== Sys2Proof/Laws/PerInstr.lean ====
section
/-! SUPPORT. For every instruction of the opcode map: the map finds a row under the instruction's own major and function, and that row makes
the instruction again from its operands and its modifier byte (R68, R69). Terms that are no word of the map have nothing to show. -/

namespace Sys2Proof.Laws

/-! Modifier bytes -/

theorem int_byte (m : IntMod) : IntMod.ofByte m.byte = m := by
  rcases m with ⟨v, s, t, c⟩; cases v <;> cases s <;> cases t <;> revert c <;> decide
theorem fp_byte (m : FpMod) : FpMod.ofByte m.byte = m := by
  rcases m with ⟨t, f, r, s⟩; cases t <;> cases f <;> cases s <;> revert r <;> decide
theorem cvt_byte (m : CvtMod) : CvtMod.ofByte m.byte = m := by
  rcases m with ⟨t, u, f, r⟩; cases t <;> cases u <;> cases f <;> revert r <;> decide
theorem cvi_byte (m : CviMod) : CviMod.ofByte m.byte = m := by
  rcases m with ⟨t, v, f, r⟩; cases t <;> cases v <;> cases f <;> revert r <;> decide
theorem pack_byte (m : PackMod) : PackMod.ofByte m.byte = m := by
  rcases m with ⟨b, f, r⟩; cases b <;> cases f <;> revert r <;> decide
theorem narrow_byte (m : NarrowMod) : NarrowMod.ofByte m.byte = m := by
  rcases m with ⟨n, f, r⟩; cases f <;> revert n r <;> decide
theorem mem_byte (m : MemMod) : MemMod.ofByte m.byte = m := by
  rcases m with ⟨p, z, s, e⟩; cases p <;> cases z <;> cases s <;> cases e <;> rfl
theorem atom_byte (m : AtomMod) : AtomMod.ofByte m.sp m.byte = m := by
  rcases m with ⟨p, c, r, z⟩; cases p <;> cases c <;> cases r <;> cases z <;> rfl
theorem row_byte (m : RowMod) : RowMod.ofByte m.byte = m := by
  rcases m with ⟨c, r⟩; cases c <;> cases r <;> rfl
theorem async_byte (m : AsyncMod) : AsyncMod.ofByte m.byte = m := by
  rcases m with ⟨c, a, r, x⟩; cases c <;> cases a <;> cases r <;> revert x <;> decide

set_option maxRecDepth 20000

namespace OpcodeRow

/-- The row of the opcode map under the instruction's major and function makes the instruction again. -/
def Statement (i : Instr) : Prop :=
  ∀ major func mod, i.opcode = some (major, func, mod) → ∃ r, findRow opRows major func = some r ∧ r.make i.operands mod = i

/-- A term that is no word of the map. -/
theorem of_none (i : Instr) (h : i.opcode = none) : Statement i := by
  intro a b c hk; rw [h] at hk; cases hk

/-- A word of the map whose row is found. -/
theorem of_row (i : Instr) (a : BitVec 8) (b : BitVec 6) (c : BitVec 8) (r : OpRow) (h : i.opcode = some (a, b, c))
    (hr : findRow opRows a b = some r) (hm : r.make i.operands c = i) : Statement i := by
  intro x y z hk
  rw [h] at hk
  obtain ⟨rfl, rfl, rfl⟩ : a = x ∧ b = y ∧ c = z := by simpa using hk
  exact ⟨r, hr, hm⟩

theorem add (o : Operands) (m : IntMod) : Statement (.add o m) :=
  of_row _ _ _ _ _ rfl rfl (congrArg (Instr.add o) (int_byte m))
theorem sub (o : Operands) (m : IntMod) : Statement (.sub o m) :=
  of_row _ _ _ _ _ rfl rfl (congrArg (Instr.sub o) (int_byte m))
theorem min (o : Operands) (m : IntMod) : Statement (.min o m) :=
  of_row _ _ _ _ _ rfl rfl (congrArg (Instr.min o) (int_byte m))
theorem max (o : Operands) (m : IntMod) : Statement (.max o m) :=
  of_row _ _ _ _ _ rfl rfl (congrArg (Instr.max o) (int_byte m))
theorem abs (o : Operands) (m : IntMod) : Statement (.abs o m) :=
  of_row _ _ _ _ _ rfl rfl (congrArg (Instr.abs o) (int_byte m))
theorem and (o : Operands) (m : IntMod) : Statement (.and o m) :=
  of_row _ _ _ _ _ rfl rfl (congrArg (Instr.and o) (int_byte m))
theorem or (o : Operands) (m : IntMod) : Statement (.or o m) :=
  of_row _ _ _ _ _ rfl rfl (congrArg (Instr.or o) (int_byte m))
theorem xor (o : Operands) (m : IntMod) : Statement (.xor o m) :=
  of_row _ _ _ _ _ rfl rfl (congrArg (Instr.xor o) (int_byte m))
theorem andn (o : Operands) (m : IntMod) : Statement (.andn o m) :=
  of_row _ _ _ _ _ rfl rfl (congrArg (Instr.andn o) (int_byte m))
theorem shl (o : Operands) (m : IntMod) : Statement (.shl o m) :=
  of_row _ _ _ _ _ rfl rfl (congrArg (Instr.shl o) (int_byte m))
theorem shr (o : Operands) (m : IntMod) : Statement (.shr o m) :=
  of_row _ _ _ _ _ rfl rfl (congrArg (Instr.shr o) (int_byte m))
theorem sra (o : Operands) (m : IntMod) : Statement (.sra o m) :=
  of_row _ _ _ _ _ rfl rfl (congrArg (Instr.sra o) (int_byte m))
theorem rot (o : Operands) (m : IntMod) : Statement (.rot o m) :=
  of_row _ _ _ _ _ rfl rfl (congrArg (Instr.rot o) (int_byte m))
theorem mul (o : Operands) (m : IntMod) : Statement (.mul o m) :=
  of_row _ _ _ _ _ rfl rfl (congrArg (Instr.mul o) (int_byte m))
theorem mulh (o : Operands) (m : IntMod) : Statement (.mulh o m) :=
  of_row _ _ _ _ _ rfl rfl (congrArg (Instr.mulh o) (int_byte m))
theorem mad (o : Operands) (m : IntMod) : Statement (.mad o m) :=
  of_row _ _ _ _ _ rfl rfl (congrArg (Instr.mad o) (int_byte m))
theorem div (o : Operands) (m : IntMod) : Statement (.div o m) :=
  of_row _ _ _ _ _ rfl rfl (congrArg (Instr.div o) (int_byte m))
theorem rem (o : Operands) (m : IntMod) : Statement (.rem o m) :=
  of_row _ _ _ _ _ rfl rfl (congrArg (Instr.rem o) (int_byte m))
theorem clz (o : Operands) (m : IntMod) : Statement (.clz o m) :=
  of_row _ _ _ _ _ rfl rfl (congrArg (Instr.clz o) (int_byte m))
theorem ctz (o : Operands) (m : IntMod) : Statement (.ctz o m) :=
  of_row _ _ _ _ _ rfl rfl (congrArg (Instr.ctz o) (int_byte m))
theorem popc (o : Operands) (m : IntMod) : Statement (.popc o m) :=
  of_row _ _ _ _ _ rfl rfl (congrArg (Instr.popc o) (int_byte m))
theorem brev (o : Operands) (m : IntMod) : Statement (.brev o m) :=
  of_row _ _ _ _ _ rfl rfl (congrArg (Instr.brev o) (int_byte m))
theorem bfx (o : Operands) (m : IntMod) : Statement (.bfx o m) :=
  of_row _ _ _ _ _ rfl rfl (congrArg (Instr.bfx o) (int_byte m))
theorem bfi (o : Operands) (m : IntMod) : Statement (.bfi o m) :=
  of_row _ _ _ _ _ rfl rfl (congrArg (Instr.bfi o) (int_byte m))
theorem cmp (o : Operands) (m : IntMod) : Statement (.cmp o m) :=
  of_row _ _ _ _ _ rfl rfl (congrArg (Instr.cmp o) (int_byte m))
theorem sel (o : Operands) (m : IntMod) : Statement (.sel o m) :=
  of_row _ _ _ _ _ rfl rfl (congrArg (Instr.sel o) (int_byte m))
theorem mov (o : Operands) (m : IntMod) : Statement (.mov o m) :=
  of_row _ _ _ _ _ rfl rfl (congrArg (Instr.mov o) (int_byte m))
theorem ext (o : Operands) (m : IntMod) : Statement (.ext o m) :=
  of_row _ _ _ _ _ rfl rfl (congrArg (Instr.ext o) (int_byte m))
theorem lea (o : Operands) (m : IntMod) : Statement (.lea o m) :=
  of_row _ _ _ _ _ rfl rfl (congrArg (Instr.lea o) (int_byte m))
theorem fadd (o : Operands) (m : FpMod) : Statement (.fadd o m) :=
  of_row _ _ _ _ _ rfl rfl (congrArg (Instr.fadd o) (fp_byte m))
theorem fsub (o : Operands) (m : FpMod) : Statement (.fsub o m) :=
  of_row _ _ _ _ _ rfl rfl (congrArg (Instr.fsub o) (fp_byte m))
theorem fmul (o : Operands) (m : FpMod) : Statement (.fmul o m) :=
  of_row _ _ _ _ _ rfl rfl (congrArg (Instr.fmul o) (fp_byte m))
theorem fmin (o : Operands) (m : FpMod) : Statement (.fmin o m) :=
  of_row _ _ _ _ _ rfl rfl (congrArg (Instr.fmin o) (fp_byte m))
theorem fmax (o : Operands) (m : FpMod) : Statement (.fmax o m) :=
  of_row _ _ _ _ _ rfl rfl (congrArg (Instr.fmax o) (fp_byte m))
theorem ffma (o : Operands) (m : FpMod) : Statement (.ffma o m) :=
  of_row _ _ _ _ _ rfl rfl (congrArg (Instr.ffma o) (fp_byte m))
theorem fdiv (o : Operands) (m : FpMod) : Statement (.fdiv o m) :=
  of_row _ _ _ _ _ rfl rfl (congrArg (Instr.fdiv o) (fp_byte m))
theorem fsqrt (o : Operands) (m : FpMod) : Statement (.fsqrt o m) :=
  of_row _ _ _ _ _ rfl rfl (congrArg (Instr.fsqrt o) (fp_byte m))
theorem fneg (o : Operands) (m : FpMod) : Statement (.fneg o m) :=
  of_row _ _ _ _ _ rfl rfl (congrArg (Instr.fneg o) (fp_byte m))
theorem fclass (o : Operands) (m : FpMod) : Statement (.fclass o m) :=
  of_row _ _ _ _ _ rfl rfl (congrArg (Instr.fclass o) (fp_byte m))
theorem fcmp (o : Operands) (m : FpMod) : Statement (.fcmp o m) :=
  of_row _ _ _ _ _ rfl rfl (congrArg (Instr.fcmp o) (fp_byte m))
theorem frcp (o : Operands) (m : FpMod) : Statement (.frcp o m) :=
  of_row _ _ _ _ _ rfl rfl (congrArg (Instr.frcp o) (fp_byte m))
theorem frsq (o : Operands) (m : FpMod) : Statement (.frsq o m) :=
  of_row _ _ _ _ _ rfl rfl (congrArg (Instr.frsq o) (fp_byte m))
theorem fex2 (o : Operands) (m : FpMod) : Statement (.fex2 o m) :=
  of_row _ _ _ _ _ rfl rfl (congrArg (Instr.fex2 o) (fp_byte m))
theorem flg2 (o : Operands) (m : FpMod) : Statement (.flg2 o m) :=
  of_row _ _ _ _ _ rfl rfl (congrArg (Instr.flg2 o) (fp_byte m))
theorem fround (o : Operands) (m : FpMod) : Statement (.fround o m) :=
  of_row _ _ _ _ _ rfl rfl (congrArg (Instr.fround o) (fp_byte m))
theorem fcvt (o : Operands) (m : CvtMod) : Statement (.fcvt o m) :=
  of_row _ _ _ _ _ rfl rfl (congrArg (Instr.fcvt o) (cvt_byte m))
theorem fcvti (o : Operands) (m : CviMod) : Statement (.fcvti o m) :=
  of_row _ _ _ _ _ rfl rfl (congrArg (Instr.fcvti o) (cvi_byte m))
theorem fcvtiU (o : Operands) (m : CviMod) : Statement (.fcvtiU o m) :=
  of_row _ _ _ _ _ rfl rfl (congrArg (Instr.fcvtiU o) (cvi_byte m))
theorem icvtf (o : Operands) (m : CviMod) : Statement (.icvtf o m) :=
  of_row _ _ _ _ _ rfl rfl (congrArg (Instr.icvtf o) (cvi_byte m))
theorem icvtfU (o : Operands) (m : CviMod) : Statement (.icvtfU o m) :=
  of_row _ _ _ _ _ rfl rfl (congrArg (Instr.icvtfU o) (cvi_byte m))
theorem hadd2 (o : Operands) (m : PackMod) : Statement (.hadd2 o m) :=
  of_row _ _ _ _ _ rfl rfl (congrArg (Instr.hadd2 o) (pack_byte m))
theorem hmul2 (o : Operands) (m : PackMod) : Statement (.hmul2 o m) :=
  of_row _ _ _ _ _ rfl rfl (congrArg (Instr.hmul2 o) (pack_byte m))
theorem hfma2 (o : Operands) (m : PackMod) : Statement (.hfma2 o m) :=
  of_row _ _ _ _ _ rfl rfl (congrArg (Instr.hfma2 o) (pack_byte m))
theorem dot2 (o : Operands) (m : NarrowMod) : Statement (.dot2 o m) :=
  of_row _ _ _ _ _ rfl rfl (congrArg (Instr.dot2 o) (narrow_byte m))
theorem dot4 (o : Operands) (m : NarrowMod) : Statement (.dot4 o m) :=
  of_row _ _ _ _ _ rfl rfl (congrArg (Instr.dot4 o) (narrow_byte m))
theorem qcvt (o : Operands) (m : NarrowMod) : Statement (.qcvt o m) :=
  of_row _ _ _ _ _ rfl rfl (congrArg (Instr.qcvt o) (narrow_byte m))
theorem qcvtBf16 (o : Operands) (m : NarrowMod) : Statement (.qcvtBf16 o m) :=
  of_row _ _ _ _ _ rfl rfl (congrArg (Instr.qcvtBf16 o) (narrow_byte m))
theorem dqcvt (o : Operands) (m : NarrowMod) : Statement (.dqcvt o m) :=
  of_row _ _ _ _ _ rfl rfl (congrArg (Instr.dqcvt o) (narrow_byte m))
theorem dqcvtBf16 (o : Operands) (m : NarrowMod) : Statement (.dqcvtBf16 o m) :=
  of_row _ _ _ _ _ rfl rfl (congrArg (Instr.dqcvtBf16 o) (narrow_byte m))
theorem bscale (o : Operands) (m : NarrowMod) : Statement (.bscale o m) :=
  of_row _ _ _ _ _ rfl rfl (congrArg (Instr.bscale o) (narrow_byte m))
theorem bscaleBf16 (o : Operands) (m : NarrowMod) : Statement (.bscaleBf16 o m) :=
  of_row _ _ _ _ _ rfl rfl (congrArg (Instr.bscaleBf16 o) (narrow_byte m))
theorem plog (o : Operands) (lut : BitVec 8) : Statement (.plog o lut) := of_row _ _ _ _ _ rfl rfl rfl
theorem voteAny (o : Operands) : Statement (.voteAny o) := of_row _ _ _ _ _ rfl rfl rfl
theorem voteAll (o : Operands) : Statement (.voteAll o) := of_row _ _ _ _ _ rfl rfl rfl
theorem voteUni (o : Operands) : Statement (.voteUni o) := of_row _ _ _ _ _ rfl rfl rfl
theorem voteBallot (o : Operands) : Statement (.voteBallot o) := of_row _ _ _ _ _ rfl rfl rfl
theorem jmaskMov (o : Operands) : Statement (.jmaskMov o) := of_row _ _ _ _ _ rfl rfl rfl
theorem jmaskAnd (o : Operands) : Statement (.jmaskAnd o) := of_row _ _ _ _ _ rfl rfl rfl
theorem jmaskOr (o : Operands) : Statement (.jmaskOr o) := of_row _ _ _ _ _ rfl rfl rfl
theorem jmaskAndn (o : Operands) : Statement (.jmaskAndn o) := of_row _ _ _ _ _ rfl rfl rfl
theorem shflIdx (o : Operands) (seg : BitVec 3) : Statement (.shflIdx o seg) :=
  of_row _ _ _ _ _ rfl rfl (congrArg (Instr.shflIdx o) ((by decide : ∀ n : BitVec 3, (0#5 ++ n : BitVec 8).extractLsb' 0 3 = n) seg))
theorem shflUp (o : Operands) (seg : BitVec 3) : Statement (.shflUp o seg) :=
  of_row _ _ _ _ _ rfl rfl (congrArg (Instr.shflUp o) ((by decide : ∀ n : BitVec 3, (0#5 ++ n : BitVec 8).extractLsb' 0 3 = n) seg))
theorem shflDown (o : Operands) (seg : BitVec 3) : Statement (.shflDown o seg) :=
  of_row _ _ _ _ _ rfl rfl (congrArg (Instr.shflDown o) ((by decide : ∀ n : BitVec 3, (0#5 ++ n : BitVec 8).extractLsb' 0 3 = n) seg))
theorem shflXor (o : Operands) (seg : BitVec 3) : Statement (.shflXor o seg) :=
  of_row _ _ _ _ _ rfl rfl (congrArg (Instr.shflXor o) ((by decide : ∀ n : BitVec 3, (0#5 ++ n : BitVec 8).extractLsb' 0 3 = n) seg))
theorem bcast (o : Operands) : Statement (.bcast o) := of_row _ _ _ _ _ rfl rfl rfl
theorem reduxAdd (o : Operands) (m : IntMod) : Statement (.reduxAdd o m) :=
  of_row _ _ _ _ _ rfl rfl (congrArg (Instr.reduxAdd o) (int_byte m))
theorem reduxMin (o : Operands) (m : IntMod) : Statement (.reduxMin o m) :=
  of_row _ _ _ _ _ rfl rfl (congrArg (Instr.reduxMin o) (int_byte m))
theorem reduxMax (o : Operands) (m : IntMod) : Statement (.reduxMax o m) :=
  of_row _ _ _ _ _ rfl rfl (congrArg (Instr.reduxMax o) (int_byte m))
theorem reduxAnd (o : Operands) (m : IntMod) : Statement (.reduxAnd o m) :=
  of_row _ _ _ _ _ rfl rfl (congrArg (Instr.reduxAnd o) (int_byte m))
theorem reduxOr (o : Operands) (m : IntMod) : Statement (.reduxOr o m) :=
  of_row _ _ _ _ _ rfl rfl (congrArg (Instr.reduxOr o) (int_byte m))
theorem reduxXor (o : Operands) (m : IntMod) : Statement (.reduxXor o m) :=
  of_row _ _ _ _ _ rfl rfl (congrArg (Instr.reduxXor o) (int_byte m))
theorem reduxFadd (o : Operands) (m : FpMod) : Statement (.reduxFadd o m) :=
  of_row _ _ _ _ _ rfl rfl (congrArg (Instr.reduxFadd o) (fp_byte m))
theorem reduxFmin (o : Operands) (m : FpMod) : Statement (.reduxFmin o m) :=
  of_row _ _ _ _ _ rfl rfl (congrArg (Instr.reduxFmin o) (fp_byte m))
theorem reduxFmax (o : Operands) (m : FpMod) : Statement (.reduxFmax o m) :=
  of_row _ _ _ _ _ rfl rfl (congrArg (Instr.reduxFmax o) (fp_byte m))
theorem br (o : Operands) : Statement (.br o) := of_row _ _ _ _ _ rfl rfl rfl
theorem jal (o : Operands) : Statement (.jal o) := of_row _ _ _ _ _ rfl rfl rfl
theorem jalr (o : Operands) : Statement (.jalr o) := of_row _ _ _ _ _ rfl rfl rfl
theorem meet (o : Operands) : Statement (.meet o) := of_row _ _ _ _ _ rfl rfl rfl
theorem join (o : Operands) (k : BitVec 3) : Statement (.join o k) :=
  of_row _ _ _ _ _ rfl rfl (congrArg (Instr.join o) ((by decide : ∀ n : BitVec 3, (0#5 ++ n : BitVec 8).extractLsb' 0 3 = n) k))
theorem waitj (o : Operands) (k : BitVec 3) : Statement (.waitj o k) :=
  of_row _ _ _ _ _ rfl rfl (congrArg (Instr.waitj o) ((by decide : ∀ n : BitVec 3, (0#5 ++ n : BitVec 8).extractLsb' 0 3 = n) k))
theorem exit (o : Operands) : Statement (.exit o) := of_row _ _ _ _ _ rfl rfl rfl
theorem yield (o : Operands) : Statement (.yield o) := of_row _ _ _ _ _ rfl rfl rfl
theorem nop (o : Operands) : Statement (.nop o) := of_row _ _ _ _ _ rfl rfl rfl
theorem safept (o : Operands) : Statement (.safept o) := of_row _ _ _ _ _ rfl rfl rfl
theorem trap (o : Operands) (code : BitVec 8) : Statement (.trap o code) := of_row _ _ _ _ _ rfl rfl rfl
theorem syscall (o : Operands) : Statement (.syscall o) := of_row _ _ _ _ _ rfl rfl rfl
theorem eret (o : Operands) : Statement (.eret o) := of_row _ _ _ _ _ rfl rfl rfl
theorem migrateS (o : Operands) : Statement (.migrateS o) := of_row _ _ _ _ _ rfl rfl rfl
theorem migrateL (o : Operands) : Statement (.migrateL o) := of_row _ _ _ _ _ rfl rfl rfl
theorem crr (o : Operands) (crn : BitVec 8) : Statement (.crr o crn) := of_row _ _ _ _ _ rfl rfl rfl
theorem crw (o : Operands) (crn : BitVec 8) : Statement (.crw o crn) := of_row _ _ _ _ _ rfl rfl rfl
theorem crs (o : Operands) (crn : BitVec 8) : Statement (.crs o crn) := of_row _ _ _ _ _ rfl rfl rfl
theorem crc (o : Operands) (crn : BitVec 8) : Statement (.crc o crn) := of_row _ _ _ _ _ rfl rfl rfl
theorem ld (o : Operands) (m : MemMod) : Statement (.ld o m) :=
  of_row _ _ _ _ _ rfl rfl (congrArg (Instr.ld o) (mem_byte m))
theorem st (o : Operands) (m : MemMod) : Statement (.st o m) :=
  of_row _ _ _ _ _ rfl rfl (congrArg (Instr.st o) (mem_byte m))
theorem ldf (o : Operands) (m : MemMod) : Statement (.ldf o m) :=
  of_row _ _ _ _ _ rfl rfl (congrArg (Instr.ldf o) (mem_byte m))
theorem ldfe (o : Operands) (m : MemMod) : Statement (.ldfe o m) :=
  of_row _ _ _ _ _ rfl rfl (congrArg (Instr.ldfe o) (mem_byte m))
theorem stef (o : Operands) (m : MemMod) : Statement (.stef o m) :=
  of_row _ _ _ _ _ rfl rfl (congrArg (Instr.stef o) (mem_byte m))
theorem stf (o : Operands) (m : MemMod) : Statement (.stf o m) :=
  of_row _ _ _ _ _ rfl rfl (congrArg (Instr.stf o) (mem_byte m))
theorem setfe (o : Operands) (m : MemMod) : Statement (.setfe o m) :=
  of_row _ _ _ _ _ rfl rfl (congrArg (Instr.setfe o) (mem_byte m))
theorem st128 (o : Operands) : Statement (.st128 o) := of_row _ _ _ _ _ rfl rfl rfl
theorem prefetch (o : Operands) (m : MemMod) : Statement (.prefetch o m) :=
  of_row _ _ _ _ _ rfl rfl (congrArg (Instr.prefetch o) (mem_byte m))
theorem cflush (o : Operands) (m : MemMod) : Statement (.cflush o m) :=
  of_row _ _ _ _ _ rfl rfl (congrArg (Instr.cflush o) (mem_byte m))
theorem phase (o : Operands) (sc : Scope) : Statement (.phase o sc) := by
  cases sc <;> exact of_row _ _ _ _ _ rfl rfl rfl
theorem row_amoAdd (p : AtomSpace) : findRow opRows 0xA0 (0#4 ++ p.code) = some ⟨0xA0, 0#4 ++ p.code, fun o b => .amoAdd o (.ofByte p b)⟩ := by
  cases p <;> rfl
theorem amoAdd (o : Operands) (m : AtomMod) : Statement (.amoAdd o m) :=
  of_row _ 0xA0 (0#4 ++ m.sp.code) _ ⟨0xA0, 0#4 ++ m.sp.code, fun o b => .amoAdd o (.ofByte m.sp b)⟩ rfl (row_amoAdd m.sp) (congrArg (Instr.amoAdd o) (atom_byte m))
theorem row_amoOr (p : AtomSpace) : findRow opRows 0xA0 (1#4 ++ p.code) = some ⟨0xA0, 1#4 ++ p.code, fun o b => .amoOr o (.ofByte p b)⟩ := by
  cases p <;> rfl
theorem amoOr (o : Operands) (m : AtomMod) : Statement (.amoOr o m) :=
  of_row _ 0xA0 (1#4 ++ m.sp.code) _ ⟨0xA0, 1#4 ++ m.sp.code, fun o b => .amoOr o (.ofByte m.sp b)⟩ rfl (row_amoOr m.sp) (congrArg (Instr.amoOr o) (atom_byte m))
theorem row_amoAnd (p : AtomSpace) : findRow opRows 0xA0 (2#4 ++ p.code) = some ⟨0xA0, 2#4 ++ p.code, fun o b => .amoAnd o (.ofByte p b)⟩ := by
  cases p <;> rfl
theorem amoAnd (o : Operands) (m : AtomMod) : Statement (.amoAnd o m) :=
  of_row _ 0xA0 (2#4 ++ m.sp.code) _ ⟨0xA0, 2#4 ++ m.sp.code, fun o b => .amoAnd o (.ofByte m.sp b)⟩ rfl (row_amoAnd m.sp) (congrArg (Instr.amoAnd o) (atom_byte m))
theorem row_amoXor (p : AtomSpace) : findRow opRows 0xA0 (3#4 ++ p.code) = some ⟨0xA0, 3#4 ++ p.code, fun o b => .amoXor o (.ofByte p b)⟩ := by
  cases p <;> rfl
theorem amoXor (o : Operands) (m : AtomMod) : Statement (.amoXor o m) :=
  of_row _ 0xA0 (3#4 ++ m.sp.code) _ ⟨0xA0, 3#4 ++ m.sp.code, fun o b => .amoXor o (.ofByte m.sp b)⟩ rfl (row_amoXor m.sp) (congrArg (Instr.amoXor o) (atom_byte m))
theorem row_amoSmin (p : AtomSpace) : findRow opRows 0xA0 (4#4 ++ p.code) = some ⟨0xA0, 4#4 ++ p.code, fun o b => .amoSmin o (.ofByte p b)⟩ := by
  cases p <;> rfl
theorem amoSmin (o : Operands) (m : AtomMod) : Statement (.amoSmin o m) :=
  of_row _ 0xA0 (4#4 ++ m.sp.code) _ ⟨0xA0, 4#4 ++ m.sp.code, fun o b => .amoSmin o (.ofByte m.sp b)⟩ rfl (row_amoSmin m.sp) (congrArg (Instr.amoSmin o) (atom_byte m))
theorem row_amoSmax (p : AtomSpace) : findRow opRows 0xA0 (5#4 ++ p.code) = some ⟨0xA0, 5#4 ++ p.code, fun o b => .amoSmax o (.ofByte p b)⟩ := by
  cases p <;> rfl
theorem amoSmax (o : Operands) (m : AtomMod) : Statement (.amoSmax o m) :=
  of_row _ 0xA0 (5#4 ++ m.sp.code) _ ⟨0xA0, 5#4 ++ m.sp.code, fun o b => .amoSmax o (.ofByte m.sp b)⟩ rfl (row_amoSmax m.sp) (congrArg (Instr.amoSmax o) (atom_byte m))
theorem row_amoUmin (p : AtomSpace) : findRow opRows 0xA0 (6#4 ++ p.code) = some ⟨0xA0, 6#4 ++ p.code, fun o b => .amoUmin o (.ofByte p b)⟩ := by
  cases p <;> rfl
theorem amoUmin (o : Operands) (m : AtomMod) : Statement (.amoUmin o m) :=
  of_row _ 0xA0 (6#4 ++ m.sp.code) _ ⟨0xA0, 6#4 ++ m.sp.code, fun o b => .amoUmin o (.ofByte m.sp b)⟩ rfl (row_amoUmin m.sp) (congrArg (Instr.amoUmin o) (atom_byte m))
theorem row_amoUmax (p : AtomSpace) : findRow opRows 0xA0 (7#4 ++ p.code) = some ⟨0xA0, 7#4 ++ p.code, fun o b => .amoUmax o (.ofByte p b)⟩ := by
  cases p <;> rfl
theorem amoUmax (o : Operands) (m : AtomMod) : Statement (.amoUmax o m) :=
  of_row _ 0xA0 (7#4 ++ m.sp.code) _ ⟨0xA0, 7#4 ++ m.sp.code, fun o b => .amoUmax o (.ofByte m.sp b)⟩ rfl (row_amoUmax m.sp) (congrArg (Instr.amoUmax o) (atom_byte m))
theorem row_amoXchg (p : AtomSpace) : findRow opRows 0xA0 (8#4 ++ p.code) = some ⟨0xA0, 8#4 ++ p.code, fun o b => .amoXchg o (.ofByte p b)⟩ := by
  cases p <;> rfl
theorem amoXchg (o : Operands) (m : AtomMod) : Statement (.amoXchg o m) :=
  of_row _ 0xA0 (8#4 ++ m.sp.code) _ ⟨0xA0, 8#4 ++ m.sp.code, fun o b => .amoXchg o (.ofByte m.sp b)⟩ rfl (row_amoXchg m.sp) (congrArg (Instr.amoXchg o) (atom_byte m))
theorem row_amoFadd (p : AtomSpace) : findRow opRows 0xA0 (9#4 ++ p.code) = some ⟨0xA0, 9#4 ++ p.code, fun o b => .amoFadd o (.ofByte p b)⟩ := by
  cases p <;> rfl
theorem amoFadd (o : Operands) (m : AtomMod) : Statement (.amoFadd o m) :=
  of_row _ 0xA0 (9#4 ++ m.sp.code) _ ⟨0xA0, 9#4 ++ m.sp.code, fun o b => .amoFadd o (.ofByte m.sp b)⟩ rfl (row_amoFadd m.sp) (congrArg (Instr.amoFadd o) (atom_byte m))
theorem row_amoFAdd (p : AtomSpace) : findRow opRows 0xA1 (0#4 ++ p.code) = some ⟨0xA1, 0#4 ++ p.code, fun o b => .amoFAdd o (.ofByte p b)⟩ := by
  cases p <;> rfl
theorem amoFAdd (o : Operands) (m : AtomMod) : Statement (.amoFAdd o m) :=
  of_row _ 0xA1 (0#4 ++ m.sp.code) _ ⟨0xA1, 0#4 ++ m.sp.code, fun o b => .amoFAdd o (.ofByte m.sp b)⟩ rfl (row_amoFAdd m.sp) (congrArg (Instr.amoFAdd o) (atom_byte m))
theorem row_amoFOr (p : AtomSpace) : findRow opRows 0xA1 (1#4 ++ p.code) = some ⟨0xA1, 1#4 ++ p.code, fun o b => .amoFOr o (.ofByte p b)⟩ := by
  cases p <;> rfl
theorem amoFOr (o : Operands) (m : AtomMod) : Statement (.amoFOr o m) :=
  of_row _ 0xA1 (1#4 ++ m.sp.code) _ ⟨0xA1, 1#4 ++ m.sp.code, fun o b => .amoFOr o (.ofByte m.sp b)⟩ rfl (row_amoFOr m.sp) (congrArg (Instr.amoFOr o) (atom_byte m))
theorem row_amoFAnd (p : AtomSpace) : findRow opRows 0xA1 (2#4 ++ p.code) = some ⟨0xA1, 2#4 ++ p.code, fun o b => .amoFAnd o (.ofByte p b)⟩ := by
  cases p <;> rfl
theorem amoFAnd (o : Operands) (m : AtomMod) : Statement (.amoFAnd o m) :=
  of_row _ 0xA1 (2#4 ++ m.sp.code) _ ⟨0xA1, 2#4 ++ m.sp.code, fun o b => .amoFAnd o (.ofByte m.sp b)⟩ rfl (row_amoFAnd m.sp) (congrArg (Instr.amoFAnd o) (atom_byte m))
theorem row_amoFXor (p : AtomSpace) : findRow opRows 0xA1 (3#4 ++ p.code) = some ⟨0xA1, 3#4 ++ p.code, fun o b => .amoFXor o (.ofByte p b)⟩ := by
  cases p <;> rfl
theorem amoFXor (o : Operands) (m : AtomMod) : Statement (.amoFXor o m) :=
  of_row _ 0xA1 (3#4 ++ m.sp.code) _ ⟨0xA1, 3#4 ++ m.sp.code, fun o b => .amoFXor o (.ofByte m.sp b)⟩ rfl (row_amoFXor m.sp) (congrArg (Instr.amoFXor o) (atom_byte m))
theorem row_amoFSmin (p : AtomSpace) : findRow opRows 0xA1 (4#4 ++ p.code) = some ⟨0xA1, 4#4 ++ p.code, fun o b => .amoFSmin o (.ofByte p b)⟩ := by
  cases p <;> rfl
theorem amoFSmin (o : Operands) (m : AtomMod) : Statement (.amoFSmin o m) :=
  of_row _ 0xA1 (4#4 ++ m.sp.code) _ ⟨0xA1, 4#4 ++ m.sp.code, fun o b => .amoFSmin o (.ofByte m.sp b)⟩ rfl (row_amoFSmin m.sp) (congrArg (Instr.amoFSmin o) (atom_byte m))
theorem row_amoFSmax (p : AtomSpace) : findRow opRows 0xA1 (5#4 ++ p.code) = some ⟨0xA1, 5#4 ++ p.code, fun o b => .amoFSmax o (.ofByte p b)⟩ := by
  cases p <;> rfl
theorem amoFSmax (o : Operands) (m : AtomMod) : Statement (.amoFSmax o m) :=
  of_row _ 0xA1 (5#4 ++ m.sp.code) _ ⟨0xA1, 5#4 ++ m.sp.code, fun o b => .amoFSmax o (.ofByte m.sp b)⟩ rfl (row_amoFSmax m.sp) (congrArg (Instr.amoFSmax o) (atom_byte m))
theorem row_amoFUmin (p : AtomSpace) : findRow opRows 0xA1 (6#4 ++ p.code) = some ⟨0xA1, 6#4 ++ p.code, fun o b => .amoFUmin o (.ofByte p b)⟩ := by
  cases p <;> rfl
theorem amoFUmin (o : Operands) (m : AtomMod) : Statement (.amoFUmin o m) :=
  of_row _ 0xA1 (6#4 ++ m.sp.code) _ ⟨0xA1, 6#4 ++ m.sp.code, fun o b => .amoFUmin o (.ofByte m.sp b)⟩ rfl (row_amoFUmin m.sp) (congrArg (Instr.amoFUmin o) (atom_byte m))
theorem row_amoFUmax (p : AtomSpace) : findRow opRows 0xA1 (7#4 ++ p.code) = some ⟨0xA1, 7#4 ++ p.code, fun o b => .amoFUmax o (.ofByte p b)⟩ := by
  cases p <;> rfl
theorem amoFUmax (o : Operands) (m : AtomMod) : Statement (.amoFUmax o m) :=
  of_row _ 0xA1 (7#4 ++ m.sp.code) _ ⟨0xA1, 7#4 ++ m.sp.code, fun o b => .amoFUmax o (.ofByte m.sp b)⟩ rfl (row_amoFUmax m.sp) (congrArg (Instr.amoFUmax o) (atom_byte m))
theorem row_amoFXchg (p : AtomSpace) : findRow opRows 0xA1 (8#4 ++ p.code) = some ⟨0xA1, 8#4 ++ p.code, fun o b => .amoFXchg o (.ofByte p b)⟩ := by
  cases p <;> rfl
theorem amoFXchg (o : Operands) (m : AtomMod) : Statement (.amoFXchg o m) :=
  of_row _ 0xA1 (8#4 ++ m.sp.code) _ ⟨0xA1, 8#4 ++ m.sp.code, fun o b => .amoFXchg o (.ofByte m.sp b)⟩ rfl (row_amoFXchg m.sp) (congrArg (Instr.amoFXchg o) (atom_byte m))
theorem row_amoFFadd (p : AtomSpace) : findRow opRows 0xA1 (9#4 ++ p.code) = some ⟨0xA1, 9#4 ++ p.code, fun o b => .amoFFadd o (.ofByte p b)⟩ := by
  cases p <;> rfl
theorem amoFFadd (o : Operands) (m : AtomMod) : Statement (.amoFFadd o m) :=
  of_row _ 0xA1 (9#4 ++ m.sp.code) _ ⟨0xA1, 9#4 ++ m.sp.code, fun o b => .amoFFadd o (.ofByte m.sp b)⟩ rfl (row_amoFFadd m.sp) (congrArg (Instr.amoFFadd o) (atom_byte m))
theorem row_cas (p : AtomSpace) : findRow opRows 0xA2 (0#4 ++ p.code) = some ⟨0xA2, 0#4 ++ p.code, fun o b => .cas o (.ofByte p b)⟩ := by
  cases p <;> rfl
theorem cas (o : Operands) (m : AtomMod) : Statement (.cas o m) :=
  of_row _ 0xA2 (0#4 ++ m.sp.code) _ ⟨0xA2, 0#4 ++ m.sp.code, fun o b => .cas o (.ofByte m.sp b)⟩ rfl (row_cas m.sp) (congrArg (Instr.cas o) (atom_byte m))
theorem vamoRow (o : Operands) (m : RowMod) : Statement (.vamoRow o m) :=
  of_row _ _ _ _ _ rfl rfl (congrArg (Instr.vamoRow o) (row_byte m))
theorem cpy (o : Operands) (m : AsyncMod) : Statement (.cpy o m) :=
  of_row _ _ _ _ _ rfl rfl (congrArg (Instr.cpy o) (async_byte m))
theorem tld (o : Operands) (m : AsyncMod) : Statement (.tld o m) :=
  of_row _ _ _ _ _ rfl rfl (congrArg (Instr.tld o) (async_byte m))
theorem tst (o : Operands) (m : AsyncMod) : Statement (.tst o m) :=
  of_row _ _ _ _ _ rfl rfl (congrArg (Instr.tst o) (async_byte m))
theorem abarInit (o : Operands) (m : AsyncMod) : Statement (.abarInit o m) :=
  of_row _ _ _ _ _ rfl rfl (congrArg (Instr.abarInit o) (async_byte m))
theorem abarArrive (o : Operands) (m : AsyncMod) : Statement (.abarArrive o m) :=
  of_row _ _ _ _ _ rfl rfl (congrArg (Instr.abarArrive o) (async_byte m))
theorem abarWait (o : Operands) (m : AsyncMod) : Statement (.abarWait o m) :=
  of_row _ _ _ _ _ rfl rfl (congrArg (Instr.abarWait o) (async_byte m))
theorem ringRsv (o : Operands) (m : AsyncMod) : Statement (.ringRsv o m) :=
  of_row _ _ _ _ _ rfl rfl (congrArg (Instr.ringRsv o) (async_byte m))
theorem ringPub (o : Operands) (m : AsyncMod) : Statement (.ringPub o m) :=
  of_row _ _ _ _ _ rfl rfl (congrArg (Instr.ringPub o) (async_byte m))
theorem ringGet (o : Operands) (m : AsyncMod) : Statement (.ringGet o m) :=
  of_row _ _ _ _ _ rfl rfl (congrArg (Instr.ringGet o) (async_byte m))
theorem ringPut (o : Operands) (m : AsyncMod) : Statement (.ringPut o m) :=
  of_row _ _ _ _ _ rfl rfl (congrArg (Instr.ringPut o) (async_byte m))
theorem qbind (o : Operands) : Statement (.qbind o) := of_row _ _ _ _ _ rfl rfl rfl
theorem qstat (o : Operands) : Statement (.qstat o) := of_row _ _ _ _ _ rfl rfl rfl
theorem row_barSync : findRow opRows 0xB5 0 = some ⟨0xB5, 0, fun o m => if m.extractLsb' 5 3 = 1 then .barSyncClu o (m.extractLsb' 0 4) else .barSync o (m.extractLsb' 0 4)⟩ := by rfl
theorem barSync (o : Operands) (bn : BitVec 4) : Statement (.barSync o bn) := by
  have h : ∀ n : BitVec 4, (0#4 ++ n : BitVec 8).extractLsb' 5 3 = 0 ∧ (0#4 ++ n : BitVec 8).extractLsb' 0 4 = n := by decide
  refine of_row _ _ _ _ _ rfl row_barSync ?_
  show (if (0#4 ++ bn : BitVec 8).extractLsb' 5 3 = 1 then _ else _) = _
  rw [if_neg, (h bn).2]
  · rfl
  · rw [(h bn).1]; decide
theorem row_barArrive : findRow opRows 0xB5 1 = some ⟨0xB5, 1, fun o m => if m.extractLsb' 5 3 = 1 then .barArriveClu o (m.extractLsb' 0 4) else .barArrive o (m.extractLsb' 0 4)⟩ := by rfl
theorem barArrive (o : Operands) (bn : BitVec 4) : Statement (.barArrive o bn) := by
  have h : ∀ n : BitVec 4, (0#4 ++ n : BitVec 8).extractLsb' 5 3 = 0 ∧ (0#4 ++ n : BitVec 8).extractLsb' 0 4 = n := by decide
  refine of_row _ _ _ _ _ rfl row_barArrive ?_
  show (if (0#4 ++ bn : BitVec 8).extractLsb' 5 3 = 1 then _ else _) = _
  rw [if_neg, (h bn).2]
  · rfl
  · rw [(h bn).1]; decide
theorem barSyncClu (o : Operands) (bn : BitVec 4) : Statement (.barSyncClu o bn) := by
  have h : ∀ n : BitVec 4, (2#4 ++ n : BitVec 8).extractLsb' 5 3 = 1 ∧ (2#4 ++ n : BitVec 8).extractLsb' 0 4 = n := by decide
  refine of_row _ _ _ _ _ rfl row_barSync ?_
  show (if (2#4 ++ bn : BitVec 8).extractLsb' 5 3 = 1 then _ else _) = _
  rw [if_pos (h bn).1, (h bn).2]
  rfl
theorem barArriveClu (o : Operands) (bn : BitVec 4) : Statement (.barArriveClu o bn) := by
  have h : ∀ n : BitVec 4, (2#4 ++ n : BitVec 8).extractLsb' 5 3 = 1 ∧ (2#4 ++ n : BitVec 8).extractLsb' 0 4 = n := by decide
  refine of_row _ _ _ _ _ rfl row_barArrive ?_
  show (if (2#4 ++ bn : BitVec 8).extractLsb' 5 3 = 1 then _ else _) = _
  rw [if_pos (h bn).1, (h bn).2]
  rfl
theorem mxgo (o : Operands) : Statement (.mxgo o) := of_row _ _ _ _ _ rfl rfl rfl
theorem mxstat (o : Operands) : Statement (.mxstat o) := of_row _ _ _ _ _ rfl rfl rfl
theorem mxstop (o : Operands) : Statement (.mxstop o) := of_row _ _ _ _ _ rfl rfl rfl
theorem stgDecl (o : Operands) : Statement (.stgDecl o) := of_row _ _ _ _ _ rfl rfl rfl
theorem stgAdmit (o : Operands) : Statement (.stgAdmit o) := of_row _ _ _ _ _ rfl rfl rfl
theorem stgAdmitKeep (o : Operands) : Statement (.stgAdmitKeep o) := of_row _ _ _ _ _ rfl rfl rfl
theorem stgAdmitClose (o : Operands) : Statement (.stgAdmitClose o) := of_row _ _ _ _ _ rfl rfl rfl
theorem stgNext (o : Operands) : Statement (.stgNext o) := of_row _ _ _ _ _ rfl rfl rfl
theorem stgDone (o : Operands) : Statement (.stgDone o) := of_row _ _ _ _ _ rfl rfl rfl
theorem stgTail (o : Operands) : Statement (.stgTail o) := of_row _ _ _ _ _ rfl rfl rfl
theorem stgStat (o : Operands) : Statement (.stgStat o) := of_row _ _ _ _ _ rfl rfl rfl
theorem viewReg (o : Operands) : Statement (.viewReg o) := of_row _ _ _ _ _ rfl rfl rfl
theorem viewDrop (o : Operands) : Statement (.viewDrop o) := of_row _ _ _ _ _ rfl rfl rfl
theorem viewSync (o : Operands) (sc : Scope) : Statement (.viewSync o sc) := by
  cases sc <;> exact of_row _ _ _ _ _ rfl rfl rfl
theorem viewTag (o : Operands) : Statement (.viewTag o) := of_row _ _ _ _ _ rfl rfl rfl
theorem viewPol (o : Operands) : Statement (.viewPol o) := of_row _ _ _ _ _ rfl rfl rfl
theorem launch (o : Operands) : Statement (.launch o) := of_row _ _ _ _ _ rfl rfl rfl
theorem spawn (o : Operands) : Statement (.spawn o) := of_row _ _ _ _ _ rfl rfl rfl
theorem jwait (o : Operands) : Statement (.jwait o) := of_row _ _ _ _ _ rfl rfl rfl
theorem setseg (o : Operands) : Statement (.setseg o) := of_row _ _ _ _ _ rfl rfl rfl
theorem tgen (o : Operands) : Statement (.tgen o) := of_row _ _ _ _ _ rfl rfl rfl
theorem ifence (o : Operands) : Statement (.ifence o) := of_row _ _ _ _ _ rfl rfl rfl
theorem wfi (o : Operands) : Statement (.wfi o) := of_row _ _ _ _ _ rfl rfl rfl
theorem inspect (o : Operands) : Statement (.inspect o) := of_row _ _ _ _ _ rfl rfl rfl
theorem udf (w : Word) : Statement (.udf w) := of_none _ rfl
theorem emulationMajor (w : Word) (len : Nat) : Statement (.emulationMajor w len) := of_none _ rfl
theorem illegalInstruction (w : Word) (reason : Nat) : Statement (.illegalInstruction w reason) := of_none _ rfl
theorem mxZero (t : BitVec 2) : Statement (.mxZero t) := of_none _ rfl
theorem mxFmt (fw : BitVec 32) : Statement (.mxFmt fw) := of_none _ rfl
theorem mxMma (t mc nc : BitVec 2) (ku : BitVec 8) (ra rb rs : BitVec 3) : Statement (.mxMma t mc nc ku ra rb rs) := of_none _ rfl
theorem mxWaitGet (ring : BitVec 3) (sc : Scope) (acq : Bool) : Statement (.mxWaitGet ring sc acq) := of_none _ rfl
theorem mxWaitFree (ring : BitVec 3) : Statement (.mxWaitFree ring) := of_none _ rfl
theorem mxRel (ring : BitVec 3) (sc : Scope) (rel : Bool) : Statement (.mxRel ring sc rel) := of_none _ rfl
theorem mxSigRing (ring : BitVec 3) (sc : Scope) (rel : Bool) : Statement (.mxSigRing ring sc rel) := of_none _ rfl
theorem mxSigAbar (obj : BitVec 20) (wt : BitVec 16) (sc : Scope) (rel : Bool) : Statement (.mxSigAbar obj wt sc rel) := of_none _ rfl
theorem mxIf (disp : BitVec 16) (woff : BitVec 20) : Statement (.mxIf disp woff) := of_none _ rfl
theorem mxWhile (dec : Bool) (disp : BitVec 16) (woff : BitVec 20) : Statement (.mxWhile dec disp woff) := of_none _ rfl
theorem mxEnd (disp : BitVec 16) : Statement (.mxEnd disp) := of_none _ rfl
theorem mxJump (disp : BitVec 16) : Statement (.mxJump disp) := of_none _ rfl
theorem mxHalt (sc : Scope) (rel : Bool) : Statement (.mxHalt sc rel) := of_none _ rfl
theorem continuationFire (die idx : Nat) : Statement (.continuationFire die idx) := of_none _ rfl
theorem swapOut (core slot : Nat) : Statement (.swapOut core slot) := of_none _ rfl
theorem teamPlacement (die : Nat) : Statement (.teamPlacement die) := of_none _ rfl
theorem teamPreempt (core team : Nat) : Statement (.teamPreempt core team) := of_none _ rfl
theorem preemptTrigger (die : Nat) : Statement (.preemptTrigger die) := of_none _ rfl
theorem recordAging (die : Nat) : Statement (.recordAging die) := of_none _ rfl
theorem pendingLaunchMove (core team : Nat) : Statement (.pendingLaunchMove core team) := of_none _ rfl
theorem deadlockExamination (die : Nat) : Statement (.deadlockExamination die) := of_none _ rfl
theorem lendRecompute (die : Nat) : Statement (.lendRecompute die) := of_none _ rfl
theorem safePointOverdue (core slot : Nat) : Statement (.safePointOverdue core slot) := of_none _ rfl
theorem channelExtend (core chan : Nat) : Statement (.channelExtend core chan) := of_none _ rfl
theorem heldSlotSplit (core slot : Nat) : Statement (.heldSlotSplit core slot) := of_none _ rfl
theorem freewheelRestart (core : Nat) : Statement (.freewheelRestart core) := of_none _ rfl
theorem interrupt (core strand : Nat) : Statement (.interrupt core strand) := of_none _ rfl
theorem wfiWake (core strand : Nat) : Statement (.wfiWake core strand) := of_none _ rfl
theorem sample (core : Nat) : Statement (.sample core) := of_none _ rfl
theorem asyncCopyComplete (core idx : Nat) : Statement (.asyncCopyComplete core idx) := of_none _ rfl
theorem viewRefresh (die : Nat) : Statement (.viewRefresh die) := of_none _ rfl
theorem faultCompletion (die : Nat) (tag disp : Word) : Statement (.faultCompletion die tag disp) := of_none _ rfl
theorem faultBufferDrain (die : Nat) : Statement (.faultBufferDrain die) := of_none _ rfl
theorem syscallReplyPost (die slot : Nat) (result error : Word) : Statement (.syscallReplyPost die slot result error) := of_none _ rfl
theorem syscallReissue (die slot : Nat) : Statement (.syscallReissue die slot) := of_none _ rfl
theorem callRingRoom (die : Nat) (ridx : Word) : Statement (.callRingRoom die ridx) := of_none _ rfl
theorem arrivalRingRoom (die : Nat) (ridx : Word) : Statement (.arrivalRingRoom die ridx) := of_none _ rfl
theorem packerArrival (die : Nat) : Statement (.packerArrival die) := of_none _ rfl
theorem packingWindowClose (die win : Nat) : Statement (.packingWindowClose die win) := of_none _ rfl
theorem preempt (die : Nat) (team : Word) : Statement (.preempt die team) := of_none _ rfl
theorem asidret (die : Nat) (asid : BitVec 16) : Statement (.asidret die asid) := of_none _ rfl
theorem asidFlushDone (die : Nat) : Statement (.asidFlushDone die) := of_none _ rfl
theorem trctlModeWrite (die : Nat) (mode : Bool) : Statement (.trctlModeWrite die mode) := of_none _ rfl
theorem cfgCspadWrite (die : Nat) (v : Word) : Statement (.cfgCspadWrite die v) := of_none _ rfl
theorem pkgidWrite (die : Nat) (v : Word) : Statement (.pkgidWrite die v) := of_none _ rfl
theorem configWordWrite (die off : Nat) (v : Word) : Statement (.configWordWrite die off v) := of_none _ rfl
theorem messageSend (src dst : Nat) (bytes : BitVec 1024) : Statement (.messageSend src dst bytes) := of_none _ rfl
theorem submission (die : Nat) (asid off : Nat) (bytes : BitVec 1024) : Statement (.submission die asid off bytes) := of_none _ rfl
theorem lineFill (core line : Nat) : Statement (.lineFill core line) := of_none _ rfl
theorem writeAtHome (die home : Nat) : Statement (.writeAtHome die home) := of_none _ rfl
theorem ownershipRequest (core line : Nat) (excl : Bool) : Statement (.ownershipRequest core line excl) := of_none _ rfl
theorem invalidationNotice (core line : Nat) : Statement (.invalidationNotice core line) := of_none _ rfl
theorem refusalRetranslate (core : Nat) (asid va : Word) : Statement (.refusalRetranslate core asid va) := of_none _ rfl
theorem deferralRetry (core slot : Nat) : Statement (.deferralRetry core slot) := of_none _ rfl
theorem scrubLine (die stack : Nat) : Statement (.scrubLine die stack) := of_none _ rfl
theorem clusterDrain (core : Nat) : Statement (.clusterDrain core) := of_none _ rfl
theorem dieLoss (die : Nat) : Statement (.dieLoss die) := of_none _ rfl
theorem cxlMemRead (die pa n : Nat) : Statement (.cxlMemRead die pa n) := of_none _ rfl
theorem cxlMemWrite (die pa n : Nat) (v : BitVec 1024) : Statement (.cxlMemWrite die pa n v) := of_none _ rfl
theorem leaseFill (die pkg line : Nat) (data : BitVec 1024) (expiry bound : Nat) : Statement (.leaseFill die pkg line data expiry bound) := of_none _ rfl
theorem returnRequest (die pkg line : Nat) : Statement (.returnRequest die pkg line) := of_none _ rfl
theorem leaseExpiry (die line : Nat) : Statement (.leaseExpiry die line) := of_none _ rfl
theorem leaseValidityEnd (die idx : Nat) : Statement (.leaseValidityEnd die idx) := of_none _ rfl
theorem inboundWrite (die pkg pa n : Nat) (v : BitVec 1024) : Statement (.inboundWrite die pkg pa n v) := of_none _ rfl
theorem ptpSync (die : Nat) (time bound : Nat) : Statement (.ptpSync die time bound) := of_none _ rfl
theorem lockLoss (die : Nat) : Statement (.lockLoss die) := of_none _ rfl
theorem flitReplay (die port : Nat) : Statement (.flitReplay die port) := of_none _ rfl
theorem portDown (die port : Nat) : Statement (.portDown die port) := of_none _ rfl
theorem reset : Statement .reset := of_none _ rfl
theorem powerStateChange (die ps mhz : Nat) : Statement (.powerStateChange die ps mhz) := of_none _ rfl
theorem managementRequest (die cmd : Nat) : Statement (.managementRequest die cmd) := of_none _ rfl
theorem getVersion (die : Nat) : Statement (.getVersion die) := of_none _ rfl
theorem getCapabilities (die : Nat) : Statement (.getCapabilities die) := of_none _ rfl
theorem negotiateAlgorithms (die : Nat) (asym hash : Nat) : Statement (.negotiateAlgorithms die asym hash) := of_none _ rfl
theorem getDigests (die : Nat) : Statement (.getDigests die) := of_none _ rfl
theorem getCertificate (die slot : Nat) : Statement (.getCertificate die slot) := of_none _ rfl
theorem challenge (die : Nat) (nonce : BitVec 256) : Statement (.challenge die nonce) := of_none _ rfl
theorem getMeasurements (die block : Nat) : Statement (.getMeasurements die block) := of_none _ rfl
theorem hardwarePrefetcher (core slot : Nat) (va : Word) : Statement (.hardwarePrefetcher core slot va) := of_none _ rfl
theorem portTrained (die port peer : Nat) : Statement (.portTrained die port peer) := of_none _ rfl
theorem validLeaseDrop (die idx : Nat) : Statement (.validLeaseDrop die idx) := of_none _ rfl
theorem leaseReturned (die pkg line : Nat) : Statement (.leaseReturned die pkg line) := of_none _ rfl

end OpcodeRow

theorem OpcodeRow.recall (sid : Word) : OpcodeRow.Statement (.recall sid) := OpcodeRow.of_none _ rfl

end Sys2Proof.Laws
end

