-- ==== Sys2Proof/Tests/Slice0.lean ====
section
/-! SUPPORT. Checks of the model on small states: ill-formed terms that `wf` refuses, words written out from the encodings of the spec, results
that the spec's worked cases and tables give, and for every statement a state and operands that meet what it assumes. -/

set_option Elab.async false

namespace Sys2Proof.Tests

open Machine

/-! Ill-formed terms, one for each check of R70 -/

/-- Operands without a guard condition. -/
def ops (d : Dst) (a b c : Src) : Operands := ⟨⟨false, 7⟩, d, a, b, c⟩

/-- R62: the pattern "not p7" is reserved, and an unguarded instruction takes no guard. -/
theorem test_wf_guard : (Instr.nop ⟨⟨true, 7⟩, .x 0, .x 0, .x 0, .x 0⟩).wf = false ∧
    (Instr.eret ⟨⟨false, 1⟩, .x 0, .x 0, .x 0, .x 0⟩).wf = false := by decide

/-- R63, R82: a class that the instruction does not have, a destination where it has none, a list beyond the register file. -/
theorem test_wf_destination : (Instr.add (ops (.p 1) (.x 5) (.x 6) (.x 0)) ⟨.w, false, false, 0⟩).wf = false ∧
    (Instr.nop (ops (.x 1) (.x 0) (.x 0) (.x 0))).wf = false ∧
    (Instr.dqcvt (ops (.x 61) (.x 5) (.x 6) (.x 0)) ⟨7, false, 0⟩).wf = false := by decide

/-- R64, R66: an unused field, a role that the operand does not fit, an odd pair, one queue register twice, the literal 0x80. -/
theorem test_wf_source : (Instr.mov (ops (.x 8) (.x 5) (.x 6) (.x 0)) ⟨.w, false, false, 0⟩).wf = false ∧
    (Instr.plog (ops (.p 1) (.x 5) (.p 1) (.p 1)) 0).wf = false ∧
    (Instr.vamoRow (ops (.x 0) (.x 5) (.x 6) (.x 7)) ⟨.core, .none⟩).wf = false ∧
    (Instr.add (ops (.x 8) (.q 1) (.q 1) (.x 0)) ⟨.w, false, false, 0⟩).wf = false ∧
    (Instr.add (ops (.x 8) (.x 5) (.lit 0x80) (.x 0)) ⟨.w, false, false, 0⟩).wf = false := by decide

/-- R65: a 64-bit operand names no odd word of the constant bank. -/
theorem test_wf_constant : (Instr.add (ops (.x 8) (.x 5) (.c 3) (.x 0)) ⟨.d, false, false, 0⟩).wf = false ∧
    (Instr.add (ops (.x 8) (.x 5) (.c 3) (.x 0)) ⟨.w, false, false, 0⟩).wf = true := by decide

/-- R60: two extension references. -/
theorem test_wf_extension : (Instr.add (ops (.x 8) (.ext 1) (.ext 1) (.x 0)) ⟨.w, false, false, 0⟩).wf = false := by decide

/-- R68: reserved and unused modifier fields. -/
theorem test_wf_modifier : (Instr.min (ops (.x 8) (.x 5) (.x 6) (.x 0)) ⟨.w, false, true, 0⟩).wf = false ∧
    (Instr.fadd (ops (.x 8) (.x 5) (.x 6) (.x 0)) ⟨.f32, false, 5, false⟩).wf = false ∧
    (Instr.st (ops (.x 0) (.x 5) (.x 6) (.x 7)) ⟨.acc, .w, false, false⟩).wf = false ∧
    (Instr.amoAdd (ops (.x 0) (.x 5) (.x 6) (.x 7)) ⟨.loc, .clu, .none, .w⟩).wf = false ∧
    (Instr.shflIdx (ops (.x 8) (.x 5) (.x 6) (.x 0)) 6).wf = false ∧
    (Instr.crr (ops (.x 8) (.x 0) (.x 0) (.x 0)) 0x09).wf = false ∧
    (Instr.mxMma 0 3 0 1 0 0 0).wf = false ∧ (Instr.mxRel 0 .clu false).wf = false := by decide

/-! Words written out from the encodings, at least one of each family -/

/-- R59, R60, R69: integer (the worked case), floating point, conversions, lanes. -/
theorem test_words_compute :
    decode 0x010281406E000040 0x12C = .add ⟨⟨true, 2⟩, .x 5, .x 6, .ext 0x12C, .x 0⟩ ⟨.w, false, false, 0⟩ ∧
    decode (0x21#8 ++ 0#6 ++ 0#1 ++ 1#3 ++ 0#2 ++ 3#6 ++ 4#10 ++ 5#10 ++ 6#10 ++ 0b01000000#8) 0 =
      .ffma ⟨⟨false, 1⟩, .x 3, .x 4, .x 5, .x 6⟩ ⟨.f32, false, 0, false⟩ ∧
    decode (0x41#8 ++ 1#6 ++ 0#1 ++ 7#3 ++ 0#2 ++ 3#6 ++ 4#10 ++ 0#10 ++ 0#10 ++ 0b01001001#8) 0 =
      .fcvtiU (ops (.x 3) (.x 4) (.x 0) (.x 0)) ⟨.f32, .d, true, 1⟩ ∧
    decode 0x4401C500840C0040 0 = .qcvt (ops (.x 20) (.x 8) (.s 3) (.x 0)) ⟨4, false, 0⟩ ∧
    decode (0x51#8 ++ 3#6 ++ 0#1 ++ 7#3 ++ 2#2 ++ 4#6 ++ 0x051#10 ++ 0#10 ++ 0#10 ++ 0#8) 0 = .voteBallot (ops (.s 4) (.p 1) (.x 0) (.x 0)) ∧
    decode (0x53#8 ++ 3#6 ++ 0#1 ++ 7#3 ++ 0#2 ++ 8#6 ++ 5#10 ++ 0x301#10 ++ 0#10 ++ 5#8) 0 =
      .shflXor (ops (.x 8) (.x 5) (.lit 1) (.x 0)) 5 := by decide

/-- R59, R69: control (worked cases), memory, atomics, row atomics, line stores. -/
theorem test_words_control_memory :
    decode 0x6201C93060000000 0 = .meet (ops (.x 36) (.lit 6) (.x 0) (.x 0)) ∧
    decode 0x6309C00000000000 0 = .nop (ops (.x 0) (.x 0) (.x 0) (.x 0)) ∧
    decode 0x6401C03800000000 5 = .safept (ops (.x 0) (.ext 5) (.x 0) (.x 0)) ∧
    decode 0x8001C3804C00000A 0 = .ld (ops (.x 14) (.x 4) (.lit 0) (.x 0)) ⟨.glb, .w, true, false⟩ ∧
    decode 0xA101C3004C20054A 0 = .amoFAdd (ops (.x 12) (.x 4) (.lit 8) (.x 5)) ⟨.glb, .die, .acq, .w⟩ ∧
    decode 0xA300C0014C000C6C 0 = .vamoRow ⟨⟨false, 3⟩, .x 0, .x 20, .lit 0, .x 12⟩ ⟨.pkg, .acq⟩ ∧
    decode 0x8301D0414C001800 0 = .st128 (ops (.p 1) (.x 20) (.lit 0) (.x 24)) := by decide +kernel

/-- R59, R69, R228, R229: barriers, stages, views, launches, the engine and its commands (worked cases). -/
theorem test_words_units :
    decode 0xB501C0304C000003 0 = .barSync (ops (.x 0) (.lit 4) (.lit 0) (.x 0)) 3 ∧
    decode 0xC80DC000CC040000 0 = .stgDone (ops (.x 0) (.x 12) (.lit 1) (.x 0)) ∧
    decode 0xC805C781B0740002 0 = .stgAdmitKeep (ops (.x 30) (.x 27) (.x 29) (.x 0)) ∧
    decode 0xD009C14140000060 0 = .viewSync (ops (.x 5) (.x 20) (.x 0) (.x 0)) .pkg ∧
    decode 0xD801C3014FFC0000 0 = .launch (ops (.x 12) (.x 20) (.lit 0xFF) (.x 0)) ∧
    decode 0xC001C000840BEC00 0 = .mxgo (ops (.x 0) (.x 8) (.s 2) (.lit 0xEC)) ∧
    decodeMx 0x3281014000000000 = some (.mxMma 0 2 2 4 0 1 2) ∧ decodeMx 0x8800090004000000 = some (.mxWhile true 9 64) ∧
    decodeMx 0x4000000000000010 = some (.mxWaitGet 0 .core true) ∧ decodeMx 0x90FFF80000000000 = some (.mxEnd 0xFFF8) ∧
    decodeMx 0x6300000000000008 = some (.mxSigRing 3 .core true) ∧ decodeMx 0xB000000000000001 = none := by decide +kernel

/-- R70, R73, R74: an emulation major, major 0xFF, an unassigned major, an unassigned function and a reserved guard. -/
theorem test_words_illegal :
    decode 0xF009C00000000000 0 = .emulationMajor 0xF009C00000000000 8 ∧ decode 0xFE09C00000000000 0 = .emulationMajor 0xFE09C00000000000 8 ∧
    decode 0xFF00000000000000 0 = .udf 0xFF00000000000000 ∧ decode 0x0001C00000000000 0 = .illegalInstruction 0x0001C00000000000 1 ∧
    decode 0xEF01C00000000000 0 = .illegalInstruction 0xEF01C00000000000 1 ∧
    decode 0x630DC00000000000 0 = .illegalInstruction 0x630DC00000000000 2 ∧
    decode 0x630BC00000000000 0 = .illegalInstruction 0x630BC00000000000 3 := by decide +kernel

/-! Small states -/

/-- A lane with x5, x6, x7, x16, p1 and predicates. -/
def lane (a b c : Word) : Lane := { Lane.zero with xs := [(5, a), (6, b), (7, c)], preds := 0x82 }

/-- A group of two lanes, privileged. -/
def grp (a b c : Word) : Group :=
  { Group.empty with
    occ := true, regs := 32, live := 3, priv := true, paths := [Path.start 0x8000 3], lanes := [(0, lane a b c), (1, lane b a c)]
    segs := [(0, ⟨64, 0⟩), (1, ⟨4096, 4096⟩), (2, ⟨4096, 8192⟩), (3, ⟨4096, 0⟩)] }

/-- Core 0 with that group, the engine with its team. -/
def simt (a b c : Word) : State :=
  { State.reset with
    focus := (0, 0)
    cores := [(0, { Core.empty with
      slots := [(0, grp a b c)], split := ⟨4, 4, 20⟩, teams := [(0, { Team.empty with occ := true, groups := 1, mxe := true })]
      mxe := { Mxe.zero with owner := some 0 } })] }

/-- The same strand alone on a latency core. -/
def lat (a b c : Word) : State :=
  { State.reset with
    focus := (1024, 0)
    cores := [(1024, { Core.empty with slots := [(0, { grp a b c with live := 1, paths := [Path.start 0x8000 1] })] })] }

/-- The state after an instruction. -/
def after (s : State) (i : Instr) : State := match exec i s with | .next t => t | _ => s

/-- Whether there is a next state. -/
def goesOn (r : Host.Outcome State Fault Refusal) : Bool := match r with | .next _ => true | _ => false

/-! What the instruction statements assume of the state and the operands -/

/-- Whether nothing turns an instruction away that names no constant-bank word. -/
def passes (s : State) (i : Instr) : Bool :=
  s.acting i.operands.g != [] && (!i.privileged || s.cur.priv) && (!i.simtOnly || !isLatency s.cid) &&
  !s.readsPoison i (s.acting i.operands.g) && s.badQueue i.operands == none && s.slowQueue (s.acting i.operands.g) i.operands == none &&
  !s.poppedBad (s.acting i.operands.g) i.operands && s.queueSkip [i.sources.1.2] (s.acting i.operands.g) i.sources.2.1.2 == 0 &&
  s.queueSkip [i.sources.1.2, i.sources.2.1.2] (s.acting i.operands.g) i.sources.2.2.2 == 0 &&
  [i.operands.a, i.operands.b, i.operands.c].all fun x => match x with | .c _ => false | _ => true

/-- The two conditions of the statements, with no constant. -/
def Ready (s : State) (i : Instr) : Prop := Enabled s i (s.acting i.operands.g) ∧ Fed s i (s.acting i.operands.g) 0 0 0 s

theorem ready (s : State) (i : Instr) (h : passes s i = true) : Ready s i := by
  simp only [passes, Bool.and_eq_true, bne_iff_ne, ne_eq, Bool.not_eq_true', beq_iff_eq, Bool.or_eq_true, List.all_cons, List.all_nil] at h
  obtain ⟨⟨⟨⟨⟨⟨⟨⟨⟨h1, h2⟩, h3⟩, h4⟩, h5⟩, h6⟩, h7⟩, hkb⟩, hkc⟩, ha, hb, hc, -⟩ := h
  have hk : ∀ (t : OpTy) (x : Src), (match x with | .c _ => false | _ => true) = true → s.constant t x = (.data 0, s) := by
    intro t x hx
    cases x <;> first | rfl | cases hx
  refine ⟨⟨rfl, h1, fun hp => ?_, fun hs => ?_, h4⟩, ⟨0, 0, 0, s, s, hk _ _ ha, hk _ _ hb, hk _ _ hc, rfl, by rw [hkb]; rfl, by rw [hkc]; rfl⟩, h5, h6, h7⟩
  · rcases h2 with h2 | h2
    · rw [hp] at h2; cases h2
    · exact h2
  · rcases h3 with h3 | h3
    · rw [hs] at h3; cases h3
    · exact h3

theorem all_ready (s : State) (is : List Instr) (h : (is.all fun i => i.wf && passes s i) = true) :
    ∀ i ∈ is, i.wf = true ∧ Ready s i := by
  intro i hi
  have := List.all_eq_true.1 h i hi
  simp only [Bool.and_eq_true] at this
  exact ⟨this.1, ready s i this.2⟩

/-- One instruction of each kind. -/
def integerWords : List Instr :=
  [ .add (ops (.x 8) (.x 5) (.x 6) (.x 0)) ⟨.w, false, false, 0⟩,
    .sub (ops (.x 8) (.x 5) (.x 6) (.x 0)) ⟨.w, false, false, 0⟩,
    .min (ops (.x 8) (.x 5) (.x 6) (.x 0)) ⟨.w, false, false, 0⟩,
    .max (ops (.x 8) (.x 5) (.x 6) (.x 0)) ⟨.w, false, false, 0⟩,
    .abs (ops (.x 8) (.x 5) (.x 0) (.x 0)) ⟨.w, true, false, 0⟩,
    .and (ops (.x 8) (.x 5) (.x 6) (.x 0)) ⟨.w, false, false, 0⟩,
    .or (ops (.x 8) (.x 5) (.x 6) (.x 0)) ⟨.w, false, false, 0⟩,
    .xor (ops (.x 8) (.x 5) (.x 6) (.x 0)) ⟨.w, false, false, 0⟩,
    .andn (ops (.x 8) (.x 5) (.x 6) (.x 0)) ⟨.w, false, false, 0⟩,
    .shl (ops (.x 8) (.x 5) (.x 6) (.x 0)) ⟨.w, false, false, 0⟩,
    .shr (ops (.x 8) (.x 5) (.x 6) (.x 0)) ⟨.w, false, false, 0⟩,
    .sra (ops (.x 8) (.x 5) (.x 6) (.x 0)) ⟨.w, false, false, 0⟩,
    .rot (ops (.x 8) (.x 5) (.x 6) (.x 0)) ⟨.w, false, false, 0⟩,
    .mul (ops (.x 8) (.x 5) (.x 6) (.x 0)) ⟨.w, false, false, 0⟩,
    .mulh (ops (.x 8) (.x 5) (.x 6) (.x 0)) ⟨.w, false, false, 0⟩,
    .mad (ops (.x 8) (.x 5) (.x 6) (.x 7)) ⟨.w, false, false, 0⟩,
    .div (ops (.x 8) (.x 5) (.x 6) (.x 0)) ⟨.w, false, false, 0⟩,
    .rem (ops (.x 8) (.x 5) (.x 6) (.x 0)) ⟨.w, false, false, 0⟩,
    .clz (ops (.x 8) (.x 5) (.x 0) (.x 0)) ⟨.w, false, false, 0⟩,
    .ctz (ops (.x 8) (.x 5) (.x 0) (.x 0)) ⟨.w, false, false, 0⟩,
    .popc (ops (.x 8) (.x 5) (.x 0) (.x 0)) ⟨.w, false, false, 0⟩,
    .brev (ops (.x 8) (.x 5) (.x 0) (.x 0)) ⟨.w, false, false, 0⟩,
    .bfx (ops (.x 8) (.x 5) (.x 6) (.x 0)) ⟨.w, false, false, 0⟩,
    .bfi (ops (.x 8) (.x 5) (.x 6) (.x 7)) ⟨.w, false, false, 0⟩,
    .cmp (ops (.p 1) (.x 5) (.x 6) (.x 0)) ⟨.w, false, false, 0⟩,
    .sel (ops (.x 8) (.x 5) (.x 6) (.p 1)) ⟨.w, false, false, 0⟩,
    .mov (ops (.x 8) (.x 5) (.x 0) (.x 0)) ⟨.w, false, false, 0⟩,
    .ext (ops (.x 8) (.x 5) (.x 6) (.x 0)) ⟨.d, false, false, 0⟩,
    .lea (ops (.x 8) (.x 5) (.x 6) (.x 7)) ⟨.d, false, false, 0⟩ ]

/-- One instruction of each kind. -/
def fpWords : List Instr :=
  [ .fadd (ops (.x 8) (.x 5) (.x 6) (.x 0)) ⟨.f32, false, 0, false⟩,
    .fsub (ops (.x 8) (.x 5) (.x 6) (.x 0)) ⟨.f32, false, 0, false⟩,
    .fmul (ops (.x 8) (.x 5) (.x 6) (.x 0)) ⟨.f32, false, 0, false⟩,
    .fmin (ops (.x 8) (.x 5) (.x 6) (.x 0)) ⟨.f32, false, 0, false⟩,
    .fmax (ops (.x 8) (.x 5) (.x 6) (.x 0)) ⟨.f32, false, 0, false⟩,
    .ffma (ops (.x 8) (.x 5) (.x 6) (.x 7)) ⟨.f32, false, 0, false⟩,
    .fdiv (ops (.x 8) (.x 5) (.x 6) (.x 0)) ⟨.f32, false, 0, false⟩,
    .fsqrt (ops (.x 8) (.x 5) (.x 0) (.x 0)) ⟨.f32, false, 0, false⟩,
    .fneg (ops (.x 8) (.x 5) (.x 0) (.x 0)) ⟨.f32, false, 0, false⟩,
    .fclass (ops (.x 8) (.x 5) (.x 0) (.x 0)) ⟨.f32, false, 0, false⟩,
    .fcmp (ops (.p 1) (.x 5) (.x 6) (.x 0)) ⟨.f32, false, 0, false⟩,
    .frcp (ops (.x 8) (.x 5) (.x 0) (.x 0)) ⟨.f32, false, 0, false⟩,
    .frsq (ops (.x 8) (.x 5) (.x 0) (.x 0)) ⟨.f32, false, 0, false⟩,
    .fex2 (ops (.x 8) (.x 5) (.x 0) (.x 0)) ⟨.f32, false, 0, false⟩,
    .flg2 (ops (.x 8) (.x 5) (.x 0) (.x 0)) ⟨.f32, false, 0, false⟩,
    .fround (ops (.x 8) (.x 5) (.x 0) (.x 0)) ⟨.f32, false, 0, false⟩,
    .fcvt (ops (.x 8) (.x 5) (.x 0) (.x 0)) ⟨.f32, .f16, false, 0⟩,
    .fcvti (ops (.x 8) (.x 5) (.x 0) (.x 0)) ⟨.f32, .w, false, 0⟩,
    .fcvtiU (ops (.x 8) (.x 5) (.x 0) (.x 0)) ⟨.f32, .w, false, 0⟩,
    .icvtf (ops (.x 8) (.x 5) (.x 0) (.x 0)) ⟨.f32, .w, false, 0⟩,
    .icvtfU (ops (.x 8) (.x 5) (.x 0) (.x 0)) ⟨.f32, .w, false, 0⟩,
    .hadd2 (ops (.x 8) (.x 5) (.x 6) (.x 0)) ⟨false, false, 0⟩,
    .hmul2 (ops (.x 8) (.x 5) (.x 6) (.x 0)) ⟨false, false, 0⟩,
    .hfma2 (ops (.x 8) (.x 5) (.x 6) (.x 7)) ⟨false, false, 0⟩,
    .dot2 (ops (.x 8) (.x 5) (.x 6) (.x 7)) ⟨2, false, 0⟩,
    .dot4 (ops (.x 8) (.x 5) (.x 6) (.x 7)) ⟨8, false, 0⟩,
    .qcvt (ops (.x 8) (.x 5) (.x 6) (.x 0)) ⟨7, false, 0⟩,
    .qcvtBf16 (ops (.x 8) (.x 5) (.x 6) (.x 0)) ⟨7, false, 0⟩,
    .dqcvt (ops (.x 8) (.x 5) (.x 6) (.x 0)) ⟨7, false, 0⟩,
    .dqcvtBf16 (ops (.x 8) (.x 5) (.x 6) (.x 0)) ⟨7, false, 0⟩,
    .bscale (ops (.x 8) (.x 5) (.x 0) (.x 0)) ⟨7, false, 0⟩,
    .bscaleBf16 (ops (.x 8) (.x 5) (.x 0) (.x 0)) ⟨7, false, 0⟩ ]

/-- One instruction of each kind. -/
def lanesWords : List Instr :=
  [ .plog (ops (.p 1) (.p 1) (.p 1) (.p 1)) 0x96,
    .voteAny (ops (.p 1) (.p 1) (.x 0) (.x 0)),
    .voteAll (ops (.p 1) (.p 1) (.x 0) (.x 0)),
    .voteUni (ops (.p 1) (.x 5) (.x 0) (.x 0)),
    .voteBallot (ops (.x 8) (.p 1) (.x 0) (.x 0)),
    .jmaskMov (ops (.j 2) (.x 5) (.x 0) (.x 0)),
    .jmaskAnd (ops (.j 2) (.x 5) (.x 0) (.x 0)),
    .jmaskOr (ops (.j 2) (.x 5) (.x 0) (.x 0)),
    .jmaskAndn (ops (.j 2) (.x 5) (.x 0) (.x 0)),
    .shflIdx (ops (.x 8) (.x 5) (.x 6) (.x 0)) 3,
    .shflUp (ops (.x 8) (.x 5) (.x 6) (.x 0)) 3,
    .shflDown (ops (.x 8) (.x 5) (.x 6) (.x 0)) 3,
    .shflXor (ops (.x 8) (.x 5) (.x 6) (.x 0)) 3,
    .bcast (ops (.x 8) (.x 5) (.x 0) (.x 0)),
    .reduxAdd (ops (.x 8) (.x 5) (.x 0) (.x 0)) ⟨.w, false, false, 0⟩,
    .reduxMin (ops (.x 8) (.x 5) (.x 0) (.x 0)) ⟨.w, false, false, 0⟩,
    .reduxMax (ops (.x 8) (.x 5) (.x 0) (.x 0)) ⟨.w, false, false, 0⟩,
    .reduxAnd (ops (.x 8) (.x 5) (.x 0) (.x 0)) ⟨.w, false, false, 0⟩,
    .reduxOr (ops (.x 8) (.x 5) (.x 0) (.x 0)) ⟨.w, false, false, 0⟩,
    .reduxXor (ops (.x 8) (.x 5) (.x 0) (.x 0)) ⟨.w, false, false, 0⟩,
    .reduxFadd (ops (.x 8) (.x 5) (.x 0) (.x 0)) ⟨.f32, false, 0, false⟩,
    .reduxFmin (ops (.x 8) (.x 5) (.x 0) (.x 0)) ⟨.f32, false, 0, false⟩,
    .reduxFmax (ops (.x 8) (.x 5) (.x 0) (.x 0)) ⟨.f32, false, 0, false⟩ ]

/-- One instruction of each kind. -/
def controlWords : List Instr :=
  [ .br (ops (.x 0) (.ext 3) (.x 0) (.x 0)),
    .jal (ops (.x 8) (.ext 3) (.x 0) (.x 0)),
    .jalr (ops (.x 8) (.x 5) (.x 6) (.x 0)),
    .meet (ops (.x 8) (.x 5) (.x 0) (.x 0)),
    .join (ops (.x 0) (.x 0) (.x 0) (.x 0)) 3,
    .waitj (ops (.x 0) (.x 0) (.x 0) (.x 0)) 3,
    .exit (ops (.x 0) (.x 0) (.x 0) (.x 0)),
    .yield (ops (.x 0) (.x 0) (.x 0) (.x 0)),
    .nop (ops (.x 0) (.x 0) (.x 0) (.x 0)),
    .safept (ops (.x 0) (.ext 3) (.x 0) (.x 0)),
    .trap (ops (.x 0) (.x 0) (.x 0) (.x 0)) 3,
    .syscall (ops (.x 0) (.x 0) (.x 0) (.x 0)),
    .eret (ops (.x 0) (.x 0) (.x 0) (.x 0)),
    .migrateS (ops (.x 0) (.x 5) (.x 0) (.x 0)),
    .migrateL (ops (.x 0) (.x 5) (.x 0) (.x 0)),
    .crr (ops (.x 8) (.x 0) (.x 0) (.x 0)) 4,
    .crw (ops (.x 8) (.x 5) (.x 0) (.x 0)) 4,
    .crs (ops (.x 8) (.x 5) (.x 0) (.x 0)) 4,
    .crc (ops (.x 8) (.x 5) (.x 0) (.x 0)) 4 ]

/-- One instruction of each kind. -/
def memoryWords : List Instr :=
  [ .ld (ops (.x 8) (.x 5) (.x 6) (.x 0)) ⟨.loc, .w, false, false⟩,
    .st (ops (.x 0) (.x 5) (.x 6) (.x 7)) ⟨.loc, .w, false, false⟩,
    .ldf (ops (.x 8) (.x 5) (.x 6) (.x 0)) ⟨.loc, .w, false, false⟩,
    .ldfe (ops (.x 8) (.x 5) (.x 6) (.x 0)) ⟨.loc, .w, false, false⟩,
    .stef (ops (.x 0) (.x 5) (.x 6) (.x 7)) ⟨.loc, .w, false, false⟩,
    .stf (ops (.x 0) (.x 5) (.x 6) (.x 7)) ⟨.loc, .w, false, false⟩,
    .setfe (ops (.x 0) (.x 5) (.x 6) (.x 7)) ⟨.loc, .w, false, false⟩,
    .st128 (ops (.p 1) (.x 5) (.x 6) (.x 7)),
    .prefetch (ops (.x 0) (.x 5) (.x 6) (.x 0)) ⟨.glb, .b, false, false⟩,
    .cflush (ops (.x 0) (.x 5) (.x 6) (.x 0)) ⟨.glb, .b, false, false⟩,
    .phase (ops (.x 0) (.x 0) (.x 0) (.x 0)) .clu,
    .amoAdd (ops (.x 0) (.x 5) (.x 6) (.x 7)) ⟨.loc, .core, .none, .w⟩,
    .amoOr (ops (.x 0) (.x 5) (.x 6) (.x 7)) ⟨.loc, .core, .none, .w⟩,
    .amoAnd (ops (.x 0) (.x 5) (.x 6) (.x 7)) ⟨.loc, .core, .none, .w⟩,
    .amoXor (ops (.x 0) (.x 5) (.x 6) (.x 7)) ⟨.loc, .core, .none, .w⟩,
    .amoSmin (ops (.x 0) (.x 5) (.x 6) (.x 7)) ⟨.loc, .core, .none, .w⟩,
    .amoSmax (ops (.x 0) (.x 5) (.x 6) (.x 7)) ⟨.loc, .core, .none, .w⟩,
    .amoUmin (ops (.x 0) (.x 5) (.x 6) (.x 7)) ⟨.loc, .core, .none, .w⟩,
    .amoUmax (ops (.x 0) (.x 5) (.x 6) (.x 7)) ⟨.loc, .core, .none, .w⟩,
    .amoXchg (ops (.x 0) (.x 5) (.x 6) (.x 7)) ⟨.loc, .core, .none, .w⟩,
    .amoFadd (ops (.x 0) (.x 5) (.x 6) (.x 7)) ⟨.loc, .core, .none, .w⟩,
    .amoFAdd (ops (.x 8) (.x 5) (.x 6) (.x 7)) ⟨.loc, .core, .none, .w⟩,
    .amoFOr (ops (.x 8) (.x 5) (.x 6) (.x 7)) ⟨.loc, .core, .none, .w⟩,
    .amoFAnd (ops (.x 8) (.x 5) (.x 6) (.x 7)) ⟨.loc, .core, .none, .w⟩,
    .amoFXor (ops (.x 8) (.x 5) (.x 6) (.x 7)) ⟨.loc, .core, .none, .w⟩,
    .amoFSmin (ops (.x 8) (.x 5) (.x 6) (.x 7)) ⟨.loc, .core, .none, .w⟩,
    .amoFSmax (ops (.x 8) (.x 5) (.x 6) (.x 7)) ⟨.loc, .core, .none, .w⟩,
    .amoFUmin (ops (.x 8) (.x 5) (.x 6) (.x 7)) ⟨.loc, .core, .none, .w⟩,
    .amoFUmax (ops (.x 8) (.x 5) (.x 6) (.x 7)) ⟨.loc, .core, .none, .w⟩,
    .amoFXchg (ops (.x 8) (.x 5) (.x 6) (.x 7)) ⟨.loc, .core, .none, .w⟩,
    .amoFFadd (ops (.x 8) (.x 5) (.x 6) (.x 7)) ⟨.loc, .core, .none, .w⟩,
    .cas (ops (.x 8) (.x 5) (.x 6) (.x 7)) ⟨.loc, .core, .none, .w⟩,
    .vamoRow (ops (.x 0) (.x 5) (.x 6) (.x 16)) ⟨.core, .none⟩ ]

/-- One instruction of each kind. -/
def syncWords : List Instr :=
  [ .cpy (ops (.x 0) (.x 5) (.x 6) (.x 7)) ⟨.core, false, false, 0⟩,
    .tld (ops (.x 0) (.x 5) (.x 6) (.x 7)) ⟨.core, false, false, 2⟩,
    .tst (ops (.x 0) (.x 5) (.x 6) (.x 7)) ⟨.core, false, false, 2⟩,
    .abarInit (ops (.x 0) (.x 5) (.x 6) (.x 0)) ⟨.core, false, false, 0⟩,
    .abarArrive (ops (.x 0) (.x 5) (.x 6) (.x 0)) ⟨.core, false, false, 0⟩,
    .abarWait (ops (.x 0) (.x 5) (.x 6) (.x 0)) ⟨.core, false, false, 0⟩,
    .ringRsv (ops (.x 8) (.x 5) (.x 0) (.x 0)) ⟨.core, false, false, 0⟩,
    .ringPub (ops (.x 0) (.x 5) (.x 6) (.x 0)) ⟨.core, false, false, 0⟩,
    .ringGet (ops (.x 8) (.x 5) (.x 0) (.x 0)) ⟨.core, false, false, 0⟩,
    .ringPut (ops (.x 0) (.x 5) (.x 6) (.x 0)) ⟨.core, false, false, 0⟩,
    .qstat (ops (.x 8) (.x 5) (.x 0) (.x 0)),
    .barSync (ops (.x 0) (.x 5) (.x 6) (.x 0)) 3,
    .barArrive (ops (.x 0) (.x 5) (.x 6) (.x 0)) 3,
    .barSyncClu (ops (.x 0) (.x 5) (.x 6) (.x 0)) 3,
    .barArriveClu (ops (.x 0) (.x 5) (.x 6) (.x 0)) 3 ]

/-- One instruction of each kind. -/
def unitsWords : List Instr :=
  [ .mxgo (ops (.x 0) (.x 5) (.x 6) (.ext 3)),
    .mxstat (ops (.x 8) (.x 5) (.x 0) (.x 0)),
    .mxstop (ops (.x 0) (.x 0) (.x 0) (.x 0)),
    .stgDecl (ops (.x 8) (.x 5) (.x 0) (.x 0)),
    .stgAdmit (ops (.x 8) (.x 5) (.x 6) (.x 0)),
    .stgAdmitKeep (ops (.x 8) (.x 5) (.x 6) (.x 0)),
    .stgAdmitClose (ops (.x 0) (.x 5) (.x 0) (.x 0)),
    .stgNext (ops (.x 8) (.x 5) (.x 6) (.x 0)),
    .stgDone (ops (.x 0) (.x 5) (.x 6) (.x 0)),
    .stgTail (ops (.x 0) (.x 5) (.x 0) (.x 0)),
    .stgStat (ops (.x 8) (.x 5) (.x 6) (.x 0)),
    .viewReg (ops (.x 8) (.x 5) (.x 6) (.x 0)),
    .viewDrop (ops (.x 0) (.x 5) (.x 0) (.x 0)),
    .viewSync (ops (.x 8) (.x 5) (.x 0) (.x 0)) .clu,
    .viewTag (ops (.x 8) (.x 5) (.x 6) (.x 0)),
    .viewPol (ops (.x 0) (.x 5) (.x 6) (.x 0)),
    .launch (ops (.x 8) (.x 5) (.x 6) (.x 0)),
    .spawn (ops (.x 8) (.x 5) (.x 0) (.x 0)),
    .jwait (ops (.x 0) (.x 5) (.x 6) (.x 0)),
    .setseg (ops (.x 0) (.x 5) (.x 6) (.x 7)),
    .tgen (ops (.x 8) (.x 5) (.x 0) (.x 0)),
    .ifence (ops (.x 0) (.x 0) (.x 0) (.x 0)),
    .wfi (ops (.x 0) (.x 0) (.x 0) (.x 0)),
    .inspect (ops (.x 8) (.x 5) (.x 6) (.x 0)) ]

/-- Instructions that meet the conditions. -/
theorem test_integer_words_ready : ∀ i ∈ integerWords, i.wf = true ∧ Ready (simt 3 4 5) i := all_ready _ _ (by decide +kernel)

/-- Instructions that meet the conditions. -/
theorem test_fp_words_ready : ∀ i ∈ fpWords, i.wf = true ∧ Ready (simt 3 4 5) i := all_ready _ _ (by decide +kernel)

/-- Instructions that meet the conditions. -/
theorem test_lanes_words_ready : ∀ i ∈ lanesWords, i.wf = true ∧ Ready (simt 3 4 5) i := all_ready _ _ (by decide +kernel)

/-- Instructions that meet the conditions. -/
theorem test_control_words_ready : ∀ i ∈ controlWords, i.wf = true ∧ Ready (simt 3 4 5) i := all_ready _ _ (by decide +kernel)

/-- Instructions that meet the conditions. -/
theorem test_memory_words_ready : ∀ i ∈ memoryWords, i.wf = true ∧ Ready (simt 3 4 5) i := all_ready _ _ (by decide +kernel)

/-- Instructions that meet the conditions. -/
theorem test_sync_words_ready : ∀ i ∈ syncWords, i.wf = true ∧ Ready (simt 3 4 5) i := all_ready _ _ (by decide +kernel)

/-- Instructions that meet the conditions. -/
theorem test_units_words_ready : ∀ i ∈ unitsWords, i.wf = true ∧ Ready (simt 3 4 5) i := all_ready _ _ (by decide +kernel)

/-! Encoding, reset and the step -/

/-- Every sample is a word of the opcode map. -/
theorem test_samples_have_opcodes :
    ((integerWords ++ fpWords ++ lanesWords ++ controlWords ++ memoryWords ++ syncWords ++ unitsWords).all fun i => i.opcode.isSome) = true := by
  decide +kernel

/-- Commands of the engine with their fields at their last values. -/
theorem test_commands_encode : (encodeMx (.mxZero 3)).isSome = true ∧ (Instr.mxZero 3).wf = true ∧
    (encodeMx (.mxMma 3 2 2 255 7 7 7)).isSome = true ∧ (Instr.mxMma 3 2 2 255 7 7 7).wf = true ∧
    decodeMx 0x1C00000000000000 = some (.mxZero 3) := by decide +kernel

/-- The boundaries of the majors that are told apart. -/
theorem test_majors : majorAssigned 0xE0 = true ∧ majorAssigned 0xE1 = false ∧ majorAssigned 0xEF = false ∧ majorAssigned 0x00 = false ∧
    (0xEF01C00000000000#64).extractLsb' 56 8 = 0xEF ∧ (0xFE01C00000000000#64).extractLsb' 56 8 = 0xFE := by decide +kernel

/-- R410: the package after reset is canonical, and its first step goes on. -/
theorem test_reset_steps : Safe State.reset ∧ goesOn (step State.reset) = true := ⟨rfl, by decide +kernel⟩

/-- The last scrubbers of a compute die and of a host die (R309). -/
theorem test_reset_scrub : State.reset.scrubDeadline 3 1 = 12 * 3600000000000 ∧ State.reset.scrubDeadline 4 0 = 24 * 3600000000000 := by
  decide +kernel

/-- R405: the loss that stops the package, and the loss before it. -/
theorem test_die_loss : exec (.dieLoss 4) (State.reset.modDie 5 fun x => { x with lost := true }) = .fault .packageStopped ∧
    ∃ t, exec (.dieLoss 4) State.reset = .next t := ⟨rfl, _, rfl⟩

/-- A package that is about to fetch a `nop`. -/
def atNop : State := State.reset.withFetchWord 64 0x6309C00000000000

/-- The state at the turn, with the dies' rings attended to. -/
def atNopTurn : State := atNop.follow atNop.attend

/-- The state in which its step executes, after the bookkeeping of the turn. -/
def atNopIssue : State := { atNopTurn with agenda := [], clk := atNopTurn.clk + 1 }

/-- R60, R61: the step's conditions hold where a `nop` is about to be fetched. -/
theorem test_step_conditions :
    atNopTurn.agenda = .issue 0 0 :: [] ∧ atNopIssue.canIssue 0 0 = true ∧ (atNopIssue.grp 0 0).settles = false ∧
    atNopIssue.recallPath 0 0 = none ∧ atNopIssue.interrupted 0 0 = false ∧ (atNopIssue.core 0).fw = false ∧
    (let u := ({ atNopIssue with focus := (0, 0) }).switched 0 0
     u.cur.path.tryable atNopIssue.clk = true ∧ u.cur.path.trap = none ∧ u.cur.count < 4096 ∧ u.atMeeting = false ∧
     u.fetch.1 = .ok (.nop (ops (.x 0) (.x 0) (.x 0) (.x 0))) ∧ (u.grp 0 0).draft = none ∧
     (u.fetchWord u.pc).1 = .data 0x6309C00000000000 ∧ wordLen (word 0x6309C00000000000) = 8) := by decide +kernel

/-- R60: that step goes on after the `nop`. -/
theorem test_step_nop : (match step atNop with | .next t => (t.grp 0 0).path.pc == (atNop.grp 0 0).path.pc + 8 | _ => false) = true := by
  decide +kernel

/-- R60: an instruction with an extension word is fetched whole. -/
theorem test_extension_conditions :
    (let s := { State.reset.withFetchWord 128 (0x010281406E000040 + 0x12C * 2 ^ 64) with focus := (0, 0) }
     let r := s.fetchWord s.pc
     r.1 = .data 0x010281406E000040 ∧ wordLen (word 0x010281406E000040) ≠ 8 ∧ (r.2.fetchWord (s.pc + 8)).1 = .data 0x12C) := by decide +kernel

/-! Gate, operands, results -/

/-- R84, R131: no lane acts; a user-mode group at a privileged instruction; a latency core at an instruction of SIMT cores. -/
theorem test_gate_conditions :
    (Instr.nop ⟨⟨true, 1⟩, .x 0, .x 0, .x 0, .x 0⟩).opcode.isSome = true ∧ (simt 3 4 5).acting ⟨true, 1⟩ = [] ∧
    (Instr.wfi (ops (.x 0) (.x 0) (.x 0) (.x 0))).privileged = true ∧ (simt 3 4 5).acting ⟨false, 7⟩ ≠ [] ∧
    ((simt 3 4 5).modCur fun g => { g with priv := false }).cur.priv = false ∧
    (Instr.bcast (ops (.x 8) (.x 5) (.x 0) (.x 0))).simtOnly = true ∧ isLatency (lat 3 4 5).cid = true ∧
    (lat 3 4 5).acting ⟨false, 7⟩ ≠ [] := by decide +kernel

/-- R89-R95: every sample belongs to one of the families of integer instructions. -/
theorem test_integer_families : (integerWords.all fun i =>
    (Claims.arithmetic i).isSome || (Claims.bitwise i).isSome || (Claims.fields i).isSome) = true := by decide +kernel

/-- R12, R30, R63: destinations of each class with no queue, below, at and above the limits of the allocation. -/
theorem test_result_conditions :
    (ops (.x 31) (.x 5) (.x 6) (.x 0)).pops = [] ∧ (simt 3 4 5).cur.paths ≠ [] ∧ (simt 3 4 5).cur.alloc = 32 ∧
    (31#6).toNat < (simt 3 4 5).cur.alloc ∧ (31#6) ≠ 0 ∧ (simt 3 4 5).cur.alloc ≤ (32#6).toNat ∧ (6#3) ≠ 7 ∧
    (ops (.p 6) (.x 5) (.x 6) (.x 0)).pops = [] ∧ (ops (.s 31) (.x 5) (.x 6) (.x 0)).pops = [] ∧
    (ops (.j 7) (.x 5) (.x 0) (.x 0)).pops = [] := by decide +kernel

/-- `simt` with q1 bound to channel 2 in both directions (R183), which holds two entries. -/
def bound : State :=
  ((simt 3 4 5).modCur fun g => { g with qbind := [(1, 0x7000000000000002)] }).modCore 0 fun k =>
    { k with chans := [(2, { Channel.zero with bound := true, hw := [11, 12] })] }

/-- R85, R158: a channel without an overflow page, from which two lanes can pop. -/
theorem test_queue_conditions : bindKind (bound.cur.q 1) = 1 ∧ (bound.k.chan (fld (bound.cur.q 1) 0 16)).ov = [] ∧
    (bound.k.chan (fld (bound.cur.q 1) 0 16)).pages = [] ∧ 2 ≤ (bound.k.chan (fld (bound.cur.q 1) 0 16)).hw.length := by decide +kernel

/-- R85: an instruction pops for its lanes in ascending order. -/
theorem test_queue_pop : (let t := after bound (.add (ops (.x 8) (.q 1) (.x 5) (.x 0)) ⟨.d, false, false, 0⟩)
    t.cur.x 0 8 = 14 ∧ t.cur.x 1 8 = 16 ∧ (t.k.chan 2).hw = []) := by decide +kernel

/-- R184, R85: an unbound queue register, and one whose channel holds too little. -/
theorem test_queue_trap_wait :
    (simt 3 4 5).badQueue (ops (.x 8) (.q 1) (.x 5) (.x 0)) = some 1 ∧
    (let s := bound.modCore 0 fun k => { k with chans := [(2, { Channel.zero with bound := true, hw := [11] })] }
     s.badQueue (ops (.x 8) (.q 1) (.x 5) (.x 0)) = none ∧ s.slowQueue [0, 1] (ops (.x 8) (.q 1) (.x 5) (.x 0)) = some 1) ∧
    Enabled (simt 3 4 5) (.add (ops (.x 8) (.q 1) (.x 5) (.x 0)) ⟨.d, false, false, 0⟩) [0, 1] :=
  ⟨by decide +kernel, by decide +kernel, ⟨by decide +kernel, by decide, nofun, nofun, by decide +kernel⟩⟩

/-! Floating point -/

/-- Every sample of a conversion or an arithmetic instruction has its function, every block-scaled one with one result its own. -/
theorem test_fp_families : (fpWords.all fun i => (Claims.floating i).isSome || (Claims.scaled i).isSome ||
    (match i with | .dqcvt o _ => o.d == .x 8 | .dqcvtBf16 o _ => o.d == .x 8 | _ => false)) = true := by decide +kernel

/-- R38, R40: with no TE bit set nothing traps; with TE.NV set, 0 × infinity traps. -/
theorem test_fp_trap :
    (let f := (simt 0x7F800000 0 0).modCur fun g => g.modLanes [0, 1] fun _ r => { r with fcsr := 0x1000 }
     let i := Instr.fmul (ops (.x 8) (.x 5) (.x 6) (.x 0)) ⟨.f32, false, 0, false⟩
     let t := after f i
     t.cur.x 0 8 = 0 ∧ (t.grp 0 32).cause = 0x300000613 ∧ (t.grp 0 32).tval = 16) ∧ ((simt 3 4 5).cur.lane 0).fcsr = 0 := by decide +kernel

/-- R39: patterns that are finite, and the ties of 2^24 + 1 in the four rounding directions. -/
theorem test_fp_round : Fp.f32.round 0 false (.fin false 16777217 0) = (0x4B800000, 1) ∧ Fp.f32.round 3 false (.fin false 16777217 0) = (0x4B800001, 1) ∧
    Fp.f32.round 4 false (.fin false 16777217 0) = (0x4B800001, 1) ∧ Fp.f32.round 2 false (.fin true 16777217 0) = (0xCB800001, 1) ∧
    Fp.f32.value 0x4B800000 = .fin false 0x800000 1 := by decide +kernel

/-- R43: quiet and signalling NaN patterns. -/
theorem test_fp_nan : (Fp.f32.value 0x7FC00000).isNan = true ∧ (Fp.f32.value 0x7FC00000).sig = false ∧ (Fp.f32.value 0x7F800001).sig = true := by
  decide +kernel

/-- R99, R100: sign and class at the ends of the format. -/
theorem test_fp_class : Fp.f32.negate false 0x7F800001 = 0xFF800001 ∧ Fp.f32.classMask false 0xFF800000 = 1 ∧ 0xFFFFFFFF < 2 ^ Fp.f32.width := by
  decide +kernel

/-! Lanes together -/

/-- R110-R114: every sample has its function. -/
theorem test_lane_families : (lanesWords.all fun i => (Claims.vote i [0, 1] fun _ => 1).isSome || ((Claims.joinMask i).isSome && i.operands.d == .j 2) ||
    (Claims.from_ i 0 1).isSome || (Claims.reduction i).isSome || (Claims.reductionFp i).isSome ||
    (match i with | .plog _ _ => true | .bcast _ => true | _ => false)) = true := by decide +kernel

/-- R112: a shuffle within segments of two lanes exchanges neighbours. -/
theorem test_shuffle : (let t := after (simt 3 4 5) (.shflXor (ops (.x 8) (.x 5) (.lit 1) (.x 0)) 1)
    t.cur.x 0 8 = 4 ∧ t.cur.x 1 8 = 3) := by decide +kernel

/-- R114, worked case of the spec: 2^24, 1, 1, -2^24 add up to 0, inexactly. -/
theorem test_redux_fadd : (let t := after (
    (simt 0 0 0).modCur fun g => { g with
      live := 15, paths := [Path.start 0x8000 15]
      lanes := [(0, lane 0x4B800000 0 0), (1, lane 0x3F800000 0 0), (2, lane 0x3F800000 0 0), (3, lane 0xCB800000 0 0)] }) (.reduxFadd (ops (.x 8) (.x 5) (.x 0) (.x 0)) ⟨.f32, false, 0, false⟩)
    t.cur.x 3 8 = 0 ∧ (t.cur.lane 0).fcsr = 1) := by decide +kernel

/-! Control -/

/-- R115, R118: one lane of two takes a branch. -/
theorem test_branch_conditions : ([((0 : Nat), (0x9000 : Word))].map (·.1)).Nodup ∧ (simt 3 4 5).active.getLsbD 0 = true ∧
    (simt 3 4 5).cur.paths ≠ [] ∧ ((simt 3 4 5).cur.paths.drop 1).all (fun p => p.mask &&& (simt 3 4 5).active == 0) = true := by decide +kernel

/-- R120-R122: a group that is one path with no lane held; a path at its meeting address; a lane of j3 held in another slot. -/
theorem test_meet_conditions :
    (let s := simt 3 4 5
     s.cur.paths = [Path.start 0x8000 3] ∧ s.cur.held = none ∧ s.heldSlots s.cid s.sid = [] ∧ (3 : Mask) = s.cur.live ∧
     s.heldLanes s.cid (s.origSlot s.cid s.sid) = 0) ∧
    (let s := (simt 3 4 5).modCur fun g => g.modLanes [0, 1] fun _ r => { r with meet := 0x8000 }
     ∀ l, l < 32 → (3 : Mask).getLsbD l = true → (s.cur.lane l).meet = 0x8000) ∧
    (let s := (((simt 3 4 5).setGrp 0 32 { grp 3 4 5 with live := 2, held := some ⟨0, 0x15, some 7, false, []⟩ }).modCur fun g =>
       { g with jmask := [(3, 2)], live := 3, paths := [Path.start 0x8000 1] })
     s.heldLanes s.cid (s.origSlot s.cid s.sid) &&& (s.grp s.cid (s.origSlot s.cid s.sid)).j 3 ≠ 0) := by decide +kernel

/-- R116, R125: no other path, and one that can run. -/
theorem test_yield_conditions :
    ((simt 3 4 5).cur.paths.drop 1).any (·.tryable 0) = false ∧ (simt 3 4 5).recalls = [] ∧ (simt 3 4 5).team.preempting = false ∧
    (((simt 3 4 5).modCur fun g => { g with paths := [Path.start 0x8000 1, Path.start 0x9000 2] }).cur.paths.drop 1).find? (·.tryable 0) =
      some (Path.start 0x9000 2) ∧ (simt 3 4 5).heldSlots 0 0 = [] := by
  decide +kernel

/-- R124: lane 0 of two exits. -/
theorem test_exit_conditions :
    (let s := (simt 3 4 5).modCur fun g => { g with lanes := [(0, { lane 3 4 5 with preds := 0x84 }), (1, lane 4 3 5)] }
     s.acting ⟨false, 2⟩ = [0] ∧ isLatency s.cid = false ∧ s.cur.held = none ∧ s.cur.occ = true ∧ s.cur.paths ≠ [] ∧
     s.cur.live &&& ~~~maskOf [0] ≠ 0 ∧ s.active &&& ~~~maskOf [0] ≠ 0) ∧ isLatency (lat 3 4 5).cid = true := by decide +kernel

/-! Exceptions -/

/-- The same states with one page of memory at virtual page 1, with every right (R350). -/
def mapped (s : State) : State := { s with mem := startedMem [] 0 }

/-- A user handler at 0x8100 and a frame at 0x8200. -/
def handled : State :=
  mapped ((simt 3 4 5).modCur fun g => g.modLanes [0, 1] fun _ r => { r with utvec := 0x8100, uframe := 0x8200 })

/-- R133, R135: the frame of a user cause can be written. -/
theorem test_user_conditions : handled.cur.ut = false ∧ handled.cur.kt = false ∧ (handled.cur.lane handled.low).utvec &&& ~~~7#64 ≠ 0 ∧
    (let g := { handled.cur with cause := causeWord 0x07 0 0, epc := handled.pc, tval := 9 }
     ((handled.setCur g).storeWords handled.cid g.team g.asid g.priv (frameWords g ((handled.cur.lane handled.low).uframe &&& ~~~63#64)
       (handled.ownStatus handled.cid handled.cur handled.low) handled.active handled.pc)).isSome = true) ∧
    (simt 3 4 5).cur.paths ≠ [] ∧ ((simt 3 4 5).cur.lane (simt 3 4 5).low).utvec &&& ~~~7#64 = 0 := by decide +kernel

/-- R138: `trap` of all lanes, and of one. -/
theorem test_trap_conditions : (simt 3 4 5).active &&& ~~~maskOf [0, 1] = 0 ∧ (simt 3 4 5).active &&& ~~~maskOf [0] ≠ 0 := by decide +kernel

/-- R139, R149: a held slot is free and the record can be written. -/
theorem test_kernel_conditions : (simt 3 4 5).cur.held = none ∧ (simt 3 4 5).sid < 32 ∧ ((simt 3 4 5).core (simt 3 4 5).cid).freeHeld = some 32 ∧
    (simt 3 4 5).holdRoom 1 (simt 3 4 5).active = true := by decide +kernel

/-- A latency core whose vector block at 0x8400 names the handler 0x8100 and the frame 0x9000. -/
def vectored : State :=
  { (lat 3 4 5).modCur fun g => { g with ktvec := 0x8400 } with mem := writeBytes (startedMem [] 0) (2 ^ 26 + 0x400) 16 (0x8100 + 0x9000 * 2 ^ 64) }

/-- R139, R141: the vector block can be read and the frame written. -/
theorem test_vector_conditions : isLatency vectored.cid = true ∧ vectored.cur.paths ≠ [] ∧
    (let s0 := (vectored.cancelDefers vectored.cid vectored.sid 1).modCur fun g => { g with cause := causeWord 0x1B 0 0, epc := vectored.pc, tval := 0 }
     let r1 := s0.glbLoad vectored.cid s0.cur.asid s0.cur.vectors 8 .read true
     let r2 := r1.2.2.glbLoad vectored.cid s0.cur.asid (s0.cur.vectors + 8) 8 .read true
     r1.1 = 0 ∧ r1.2.1 = 0x8100 ∧ r2.1 = 0 ∧ r2.2.1 = 0x9000 ∧
     (r2.2.2.storeWords vectored.cid 0 s0.cur.asid true (frameWords s0.cur 0x9000 (vectored.ownStatus vectored.cid vectored.cur 0) 1 vectored.pc)).isSome =
       true) := by decide +kernel

/-- R137, R141: frames that can be read in a user handler and in the kernel's. -/
theorem test_eret_conditions :
    (let s := handled.modCur fun g => { g with ut := true }
     let f := (s.cur.lane s.low).uframe &&& ~~~63#64
     s.cur.kt = false ∧ (s.loadWords s.cid s.cur.asid s.cur.priv [f + 24]).isSome = true ∧
     (s.loadWords s.cid s.cur.asid s.cur.priv ((lanesOf 3).flatMap fun l => recordAddrs (f + 0x40 + word (0x220 * l)))).isSome = true) ∧
    (let s := (simt 3 4 5).modCur fun g => { g with ut := true }
     s.cur.kt = false ∧ s.loadWords s.cid s.cur.asid s.cur.priv [((s.cur.lane s.low).uframe &&& ~~~63#64) + 24] = none) ∧
    (let s := vectored.modCur fun g => { g with kt := true }
     let r := s.glbLoad s.cid s.cur.asid (s.cur.vectors + 8) 8 .read true
     r.1 = 0 ∧ (r.2.2.loadWords s.cid s.cur.asid true (recordAddrs (word (0x9000 / 64 * 64) + 0x40) ++ [word (0x9000 / 64 * 64) + 0x20])).isSome =
       true) := by decide +kernel

/-! Control registers and system instructions -/

/-- R129: the boundaries of the register classes. -/
theorem test_control_registers : (([0x00, 0x02, 0x03, 0x04, 0x05, 0x07, 0x08, 0x10, 0x19, 0x41, 0x42] : List (BitVec 8)).all fun n =>
    (Instr.crw (ops (.x 8) (.x 5) (.x 0) (.x 0)) n).wf && passes (simt 3 4 5) (.crw (ops (.x 8) (.x 5) (.x 0) (.x 0)) n)) = true := by decide +kernel

/-- R146, R153: a segment that just fits, and the wait for a signal in its three cases. -/
theorem test_setseg_conditions : (ops (.x 0) (.x 5) (.x 6) (.x 7)).queues = false ∧ (3 : Word).toNat ≤ 3 ∧
    (64 : Word).toNat + 32 * (64 : Word).toNat ≤ (simt 0 64 64).segExtent 0 ∧ passes (simt 0 64 64) (.setseg (ops (.x 0) (.x 5) (.x 6) (.x 7))) = true ∧
    (lat 3 4 5).cur.ipend &&& (lat 3 4 5).cur.ienable = 0 ∧
    (let s := (lat 3 4 5).modCur fun g => { g with ipend := 2, ienable := 2 }
     s.cur.ipend &&& s.cur.ienable ≠ 0) := by decide +kernel

/-! Memory -/

/-- A load and a store of local words. -/
def aLoad : Instr := .ld (ops (.x 8) (.x 5) (.x 6) (.x 0)) ⟨.loc, .w, false, false⟩
def aStore : Instr := .st (ops (.x 0) (.x 5) (.x 6) (.x 7)) ⟨.loc, .w, false, false⟩

/-- R154, R181: both lanes at byte 12 of local memory. -/
theorem test_places :
    Claims.Placed (simt 4 8 9) .loc 4 ((simt 4 8 9).carried .loc aLoad [0, 1] 0 0) (Claims.sums (simt 4 8 9) aLoad [0, 1] 0 0)
      [(0, .loc 0 4108), (1, .loc 0 4108)] ∧
    Claims.Placed (simt 4 8 9) .loc 4 ((simt 4 8 9).carried .loc aStore [0, 1] 0 0) (Claims.sums (simt 4 8 9) aStore [0, 1] 0 0)
      [(0, .loc 0 4108), (1, .loc 0 4108)] :=
  ⟨⟨by decide +kernel, .cons (by decide +kernel) (.cons (by decide +kernel) .nil), nofun⟩,
    ⟨by decide +kernel, .cons (by decide +kernel) (.cons (by decide +kernel) .nil), nofun⟩⟩

/-- R186, R187: reads that give data, and stores that need no translation. -/
theorem test_load_store_conditions :
    ((simt 4 8 9).readPlaces 4 [(0, .loc 0 4108), (1, .loc 0 4108)]).1.map (·.2.2) = [.data 0, .data 0] ∧
    ((simt 4 8 9).accXls .write [(0, .loc 0 4108), (1, .loc 0 4108)]).1.map (·.2.2.1) = [0, 0] ∧
    ((simt 4 8 9).core 0).locPoisoned 4108 4 = false ∧ (60 : Word).toNat % 4 = 0 ∧ (60 : Word).toNat + 4 ≤ ((simt 4 8 9).cur.seg 0).limit.toNat ∧
    (4092 : Word).toNat + 4 ≤ ((simt 4 8 9).cur.seg 1).limit.toNat ∧ region (2 ^ 26) = .dram 0 ∧ (simt 4 8 9).uncached (2 ^ 26) = false ∧
    2 ^ 26 % 128 + 16 ≤ 128 ∧ (simt 4 8 9).team.holds = false := by decide +kernel

/-- R154: both lanes lie beyond the limit; R182: an offset that carries into the rank. -/
theorem test_segment_fault : (Claims.sums (simt 4096 0 9) aLoad [0, 1] 0 0).filter
    (fun e => ((simt 4096 0 9).placeAt .loc 0 4 ((simt 4096 0 9).carried .loc aLoad [0, 1] 0 0) e).isNone) = [(0, 4096), (1, 4096)] ∧
    (let s := simt 0xFFFFFFFC 8 9
     let i := Instr.ld (ops (.x 8) (.x 5) (.x 6) (.x 0)) ⟨.clu, .w, false, false⟩
     (s.placeAt .clu 0 4 (s.carried .clu i [0, 1] 0 0) (0, s.opA i 0 [0, 1] 0 + s.opB i 0 [0, 1] 0)).isNone) = true := by decide +kernel

/-- R287: a line of the core's own die. -/
theorem test_publication_conditions : region (2 ^ 19 * 128) = .dram (dieOfCore 0) ∧ (((simt 4 8 9).core 0).line (2 ^ 19)).chk = false ∧
    (((simt 4 8 9).core 0).line (2 ^ 19)).pin = 0 ∧ (((simt 4 8 9).core 0).line (2 ^ 19)).older = [] ∧ (simt 4 8 9).leased (2 ^ 19) = false ∧
    (simt 4 8 9).delayed = [] := by decide +kernel

/-- `simt` with one lane. -/
def single (a b c : Word) : State := (simt a b c).modCur fun g => { g with live := 1, paths := [Path.start 0x8000 1] }

/-- R191: one lane at a word of local memory; the word is full after reset. -/
theorem test_full_empty_conditions : (single 4 8 9).cur.path.mask = laneBit 0 ∧ (single 4 8 9).cur.path.done = 0 ∧ (single 4 8 9).cur.paths ≠ [] ∧
    (single 4 8 9).isDeferred 0 = false ∧ (single 4 8 9).placeOf .loc 0 0 12 4 = some (.loc 0 4108) ∧
    ((single 4 8 9).core 0).locPoisoned 4108 4 = false ∧ ((single 4 8 9).core 0).cluHeld = [] ∧ ((single 4 8 9).die 0).defer = [] ∧
    ((single 4 8 9).core 0).feAt 4108 = 0 ∧ (single 4 8 9).strictHeld = false ∧
    (((single 4 8 9).modCore 0 fun k => k.setFe 4108 1).core 0).feAt 4108 ≠ 0 := by decide +kernel

/-- R191-R194: `ldfe` of a full word takes it and leaves it empty; a second one waits. -/
theorem test_ldfe : (let i := Instr.ldfe (ops (.x 8) (.x 5) (.x 6) (.x 0)) ⟨.loc, .w, false, false⟩
    let t := after ((single 4 8 9).modCore 0 fun k => { k with loc := writeBytes k.loc 4108 4 77 }) i
    t.cur.x 0 8 = 77 ∧ (t.core 0).feAt 4108 ≠ 0 ∧ t.pc = 0x8008 ∧ (after t i).cur.path.wait = .word) := by decide +kernel

/-- R195-R199: the atomics of the samples at a place without poison. -/
theorem test_atomic_conditions :
    ((simt 4 8 9).accXls .rmw [(0, .loc 0 4108), (1, .loc 0 4108)]).1.all (fun x => x.2.2.1 == 0 &&
      (simt 4 8 9).placePoisoned x.2.1 x.2.2.2 4 == none) = true ∧
    (memoryWords.all fun i => match i with
      | .cas _ _ => true
      | i => (Claims.atomicOp i).isSome == (match i.opcode with | some (m, _) => m == 0xA0 || m == 0xA1 | none => false)) = true := by decide +kernel

/-- R197: two lanes add one after the other to one word. -/
theorem test_amo : (let t := after (simt 4 8 9) (.amoFAdd (ops (.x 8) (.x 5) (.x 6) (.x 7)) ⟨.loc, .core, .none, .w⟩)
    t.cur.x 0 8 = 0 ∧ t.cur.x 1 8 = 9 ∧ readBytes (t.core 0).loc 4108 4 = 18) := by decide +kernel

/-- A translation that `vamo.row` may use (R200, R343). -/
def rowEntry : TlbEntry :=
  { asid := 0, inc := 0, obj := 0, limit := 2 ^ 20, k := 5, inv := false, voff := 0, fill := 0, gen := 0, frame := 2048, home := 0, remote := false
    vsh := false, viewed := false, rowl := 1, fut := false, d := true, xwr := 7, host := false, cfg := false }

/-- R200: an aligned row that is translated. -/
theorem test_row_conditions :
    (let s := ((simt 0x8000 0x200 0).modDie 0 fun x => { x with trMode := false }).modCore 0 fun k => { k with tlb := [rowEntry] }
     let i := Instr.vamoRow (ops (.x 0) (.x 5) (.x 6) (.x 16)) ⟨.core, .none⟩
     let row := ((Claims.sums s i [0, 1] 0 0).headD (0, 0)).2
     let r := s.translate s.cid (asidOf s.cur.asid) (incOf s.cur.asid) row .row s.cur.priv
     passes s i = true ∧ s.strictHeld = false ∧ row.toNat % 512 = 0 ∧ r.1 = 0 ∧ r.2.2.poisoned r.2.1.pa 512 = false ∧
       ([0, 1, 2, 3].all fun j => !(r.2.2.k.line (r.2.1.pa / 128 + j)).bad) = true) := by decide +kernel

/-- R203: a line that is mapped. -/
theorem test_line_store_conditions :
    (let s := mapped (simt 0x8000 0x80 0)
     let i := Instr.st128 (ops (.p 1) (.x 5) (.x 6) (.x 16))
     let v := s.unrec.publish .pkg s.cid
     passes s i = true ∧ v.leftover v.cid = [] ∧
     (Claims.sums s i [0, 1] 0 0).map (v.placeAt .glb 0 128 Claims.noCarry) = [some (.glb 0x8080), some (.glb 0x8080)] ∧
     (v.accXls .st128 [(0, .glb 0x8080), (1, .glb 0x8080)]).1.map (·.2.2.1) = [0, 0] ∧
     (s.publish .pkg s.cid).leftover s.cid = [] ∧ ((s.publish .pkg s.cid).discard .pkg s.cid).team.holds = false ∧
     (after s i).pc = 0x8008) := by decide +kernel

/-- R205: a line of the own die with an unpublished byte is written back and leaves the L1. -/
theorem test_flush :
    (let s := (simt 3 4 5).modCore 0 fun k =>
       { k with l1 := [(2 ^ 19, { L1Line.zero with vm := BitVec.allOnes 128, um := 1, data := 7, st := .m })] }
     region (2 ^ 19 * 128) = .dram s.did ∧ (s.k.line (2 ^ 19)).chk = false ∧ byteAt (s.flushLine (2 ^ 19)).mem (2 ^ 26) = 7 ∧
     ((s.flushLine (2 ^ 19)).k.line (2 ^ 19)).vm = 0) := by decide +kernel


/-! Copies, barrier objects, rings, queues and barriers -/

/-- R208-R212: commands that pass their checks, one that fails, and a command whose ranges do not overlap. -/
theorem test_copy_conditions :
    (let t := simt 0x40 0x80 16
     let i := Instr.cpy (ops (.x 0) (.x 5) (.x 6) (.x 7)) ⟨.core, false, false, 0⟩
     let cmds := ((Claims.copies t i [0, 1] 0 0 0).map (·.1)).getD []
     cmds.length = 2 ∧ (cmds.all fun a => (State.cpyBad t a).isNone && compLow a.comp != 0 && !a.outward) = true ∧
     (Claims.copies t (.tld (ops (.x 0) (.x 5) (.x 6) (.x 7)) ⟨.core, false, false, 2⟩) [0, 1] 0 0 0).isSome = true ∧
     t.enginePlace 0 0 t.cur.segs 0x40 16 = some (.loc 0 4160) ∧ t.enginePlace 0 0 t.cur.segs 0x80 16 = some (.loc 0 4224)) ∧
    (let t := simt 0x41 0x80 16
     let cmds := ((Claims.copies t (.cpy (ops (.x 0) (.x 5) (.x 6) (.x 7)) ⟨.core, false, false, 0⟩) [0, 1] 0 0 0).map (·.1)).getD []
     (cmds.find? fun a => (State.cpyBad t a).isSome).isSome = true) := by decide +kernel

/-- R210, R212: a `cpy` moves its sixteen bytes when the engine completes it, not before. -/
theorem test_cpy :
    (let s := (simt 0x40 0x80 16).modCore 0 fun k => { k with loc := writeBytes k.loc 4160 16 0x0102030405060708090A0B0C0D0E0F10 }
     let s := s.modCur fun g => { g with live := 1, paths := [Path.start 0x8000 1] }
     let t := after s (.cpy (ops (.x 0) (.x 5) (.x 6) (.x 7)) ⟨.core, false, false, 0⟩)
     let u := after t (.asyncCopyComplete 0 0)
     readBytes (t.core 0).loc 4224 16 = 0 ∧ (t.core 0).async.length = 1 ∧
     readBytes (u.core 0).loc 4224 16 = 0x0102030405060708090A0B0C0D0E0F10 ∧ (u.core 0).async = []) := by decide +kernel

/-- R215, R216: an object, an arrival and the two sides of a wait. -/
theorem test_abar_conditions :
    (simt 0x40 3 0).placeAt .loc 0 16 Claims.noCarry (0, 0x40) = some (.loc 0 4160) ∧
    (word ((simt 0x40 3 0).locRd 0 4160 8) - 0).toNat < 2 ^ 63 ∧ 2 ^ 63 ≤ (word ((simt 0x40 3 0).locRd 0 4160 8) - 3).toNat ∧
    (let t := (simt 0x40 3 0).abarSignal 0 4160 5 true
     t.locRd 0 4160 8 = 5 ∧ t.locRd 0 4168 8 = 2 ^ 32 + 1) := by decide +kernel

/-- A ring of two slots of 16 bytes at local offset 0x40, slot 0 free and slot 1 published (R217). -/
def ringed (get : Nat) : State :=
  (simt 0x40 0 0).modCore 0 fun k => { k with
    loc := writeBytes (writeBytes (writeBytes k.loc 4168 8 (2 + 16 * 2 ^ 32)) 4180 4 get) 4192 1 8 }

/-- R217, R218: the ring is good; RSV names a free slot; GET names one that is not published, and one that is. -/
theorem test_ring_conditions :
    (ringed 0).ringAt 0 (ringed 0).cur.segs 0x40 = some ⟨0, 4160⟩ ∧ (ringed 0).ringN ⟨0, 4160⟩ = 2 ∧ (ringed 0).slotState ⟨0, 4160⟩ 0 = 0 ∧
    (ringed 0).slotState ⟨0, 4160⟩ 1 = 2 ∧ (ringed 0).takeSlot ⟨0, 4160⟩ = none ∧ ((ringed 1).takeSlot ⟨0, 4160⟩).isSome = true ∧
    (ringed 0).ringAt 0 (ringed 0).cur.segs 0x41 = none := by decide +kernel

/-- R218: `ring.get` of one lane takes the published slot and gives its number. -/
theorem test_ring_get :
    (let s := (ringed 1).modCur fun g => { g with live := 1, paths := [Path.start 0x8000 1] }
     let t := after s (.ringGet (ops (.x 8) (.x 5) (.x 0) (.x 0)) ⟨.core, false, false, 0⟩)
     t.cur.x 0 8 = 1 ∧ t.slotState ⟨0, 4160⟩ 1 = 3 ∧ t.ringGet ⟨0, 4160⟩ = 2 ∧ t.pc = 0x8008) := by decide +kernel

/-- R183, R261: a word that the group may bind and one that it may not; a count that the status word can hold. -/
theorem test_bind_conditions :
    (simt 0x7000000000000002 0 0).bindOk 0x7000000000000002 = true ∧ (simt 0 0 0).bindOk 0x7000000000000040 = false ∧
    passes (simt 0x7000000000000002 0 0) (.qbind (ops (.x 0) (.x 5) (.x 0) (.x 0))) = true ∧ (ops (.q 1) (.x 5) (.x 0) (.x 0)).d = .q 1 ∧
    bindKind ((simt 0 0 0).cur.q 1) = 0 ∧ (bound.k.chan (fld (bound.cur.q 1) 0 16)).count < 2 ^ 32 := by decide +kernel

/-- R163, R164, R222: an arrival that opens a generation of two, one that completes one of one, and one that is turned away. -/
theorem test_barrier_conditions :
    (simt 2 0 0).barWhy false ((simt 2 0 0).bar false 15) 2 0 = 0 ∧ ((simt 2 0 0).bar false 15).count = 0 ∧ (simt 2 0 0).team.rb = false ∧
    (simt 2 0 0).barWhy false ((simt 2 0 0).bar false 15) 33 0 = 4 ∧ (simt 2 0 0).barWhy false ((simt 2 0 0).bar false 15) 32 0 = 0 ∧
    (simt 2 0 0).barWhy true ((simt 2 0 0).bar true 15) 2 0 = 5 ∧ (simt 2 0 0).cur.path.wait = .ready := by decide +kernel

/-- R164, R220: the second of two groups lets the first go on. -/
theorem test_bar_sync :
    (let s := (simt 2 0 0).setGrp 0 1 { grp 2 0 0 with gidx := 1, paths := [Path.start 0x9000 3] }
     let i := Instr.barSync (ops (.x 0) (.lit 2) (.lit 0) (.x 0)) 3
     let t := after s i
     let u := after { t with focus := (0, 1) } i
     t.pc = 0x8000 ∧ (t.bar false 3).arrived = 1 ∧ (u.grp 0 0).path.pc = 0x8008 ∧ u.pc = 0x9008 ∧ (u.bar false 3).gen = 1) := by decide +kernel

/-! The matrix engine -/

/-- The format word of the spec's worked case: TS8, FP32 sums, block scales. -/
def worked : Mask := 0x00001044

/-- An engine header at local offset 0x40 whose stream starts at 0x80 (R225). -/
def headed : State := (simt 0x1044 0x40 0).modCore 0 fun k => { k with loc := writeBytes k.loc (4160 + 16) 4 0x80 }

/-- R224-R226: one format, valid; a stopped engine; a good header. -/
theorem test_mxgo_conditions :
    headed.ownsEngine = true ∧ fmtValid worked = true ∧ headed.mxe.st ≠ 1 ∧ headed.mxHeader 0x40 = some 4160 ∧ headed.cur.occ = true ∧
    headed.mxHeader 0x41 = none ∧ fmtValid 0x1 = false ∧ (simt 0 0 0).ownsEngine = true ∧
    ((simt 0 0 0).modTeam 0 0 fun t => { t with mxe := false }).ownsEngine = false ∧ low32 (headed.cur.x 0 5) = worked := by decide +kernel

/-- A running engine with the format of the worked case, three rings with a taken slot each, and the segment of the team. -/
def running : State :=
  (simt 0 0 0).modCore 0 fun k =>
    { k with
      mxe := { k.mxe with st := 1, fmt := worked, seg := ⟨0x20000, 0⟩, held := [(0, 1), (1, 1), (2, 1)], rings := 0x8030802C8028 }
      loc := writeBytes (writeBytes (writeBytes (writeBytes (writeBytes (writeBytes k.loc 0x500 8 0x1000) 0x508 8 (1 + 8192 * 2 ^ 32)) 0x580 8 0x4000)
        0x588 8 (1 + 8192 * 2 ^ 32)) 0x600 8 0x8000) 0x608 8 (1 + 512 * 2 ^ 32) }

/-- R228-R238: the engine runs, its tile exists, its rings are good and its slots are large enough; slots that are not free or not published. -/
theorem test_engine_conditions :
    running.mxe.st = 1 ∧ tileOk (fmtAcc running.mxe.fmt) 3 = true ∧ tileOk 1 2 = false ∧ fmtValid worked = true ∧ fmtValid 0x1 = false ∧
    running.faultRoom 1 = true ∧ running.mxRing 0 = some ⟨0, 0x500⟩ ∧ running.mxRing 1 = some ⟨0, 0x580⟩ ∧ running.mxRing 2 = some ⟨0, 0x600⟩ ∧
    running.mxe.heldSlot 2 ≠ 0 ∧ running.mxSlot ⟨0, 0x500⟩ 0 = (0, .loc 0 0x1000) ∧
    64 * (32 * 4) * mxBits (fmtA worked) / 8 ≤ running.ringSlotSize ⟨0, 0x500⟩ ∧ (64 + 64) * (32 * 4) / 32 ≤ running.ringSlotSize ⟨0, 0x600⟩ := by
  decide +kernel

/-- R231, R238: the rings of a command that waits and of one that goes on; a condition word, a branch target in the segment. -/
theorem test_engine_control :
    (running.modMxe fun m => { m with held := [] }).mxe.heldSlot 0 = 0 ∧ running.takeSlot ⟨0, 0x500⟩ = none ∧
    ((running.setSlotState ⟨0, 0x500⟩ 0 2).takeSlot ⟨0, 0x500⟩).isSome = true ∧ (running.reserveSlot ⟨0, 0x500⟩).isSome = true ∧
    ((running.setSlotState ⟨0, 0x500⟩ 0 1).reserveSlot ⟨0, 0x500⟩) = none ∧ running.mxOff (16 * 4) 16 = some 64 ∧ running.mxOff (4 * 16) 4 = some 64 ∧
    running.mxInside (running.mxTarget 9) = true ∧ running.locRd 0 64 4 = 0 ∧ (running.locWr 0 64 4 7).locRd 0 64 4 ≠ 0 ∧
    (running.locWr 0 72 8 0x8800000000000000).mxIsWhile ((running.locWr 0 72 8 0x8800000000000000).mxTarget 9) = true := by decide +kernel

/-- R234: `mx.zero` clears its tile alone. -/
theorem test_mx_zero :
    (let t := after (running.modCore 0 fun k => { k with acc := [(0, 1), (16384, 2)] }) (.mxZero 1)
     t.k.acc = [(0, 1)] ∧ t.mxe.cpc = 8) := by decide +kernel

/-! Stages, views, launches, calls -/

/-- A cassette descriptor at local offset 0x40: two stages, a window of 16, its table at `.clu` offset 0x100 (R256). -/
def described : State :=
  (simt 0x40 7 0).modCore 0 fun k => { k with loc := writeBytes k.loc 4160 16 (0x42 + (2 ^ 36 + 0x100) * 2 ^ 64) }

/-- That cassette declared, its CTRL and its entries replaced, with lanes whose x5 and x6 are given. -/
def declared (ctrl : Word) (es : List (Nat × RecEntry)) (a b c d : Word) : State :=
  ((after described (.stgDecl (ops (.x 8) (.x 5) (.x 0) (.x 0)))).modCas ⟨0, 0, 0⟩ fun q => { q with ctrl := ctrl, entries := es }).modCur
    fun g => { g with paths := [Path.start 0x8000 3], lanes := [(0, lane a b 0), (1, lane c d 0)] }

/-- An entry that the group holds. -/
def owned (st seq : Nat) : RecEntry := { RecEntry.zero with st := st, seq := seq }

/-- R256, R269: a descriptor that is good, one that is not. -/
theorem test_decl_conditions :
    passes described (.stgDecl (ops (.x 8) (.x 5) (.x 0) (.x 0))) = true ∧
    described.readDescriptor 0x40 = (.data (0x42 + (2 ^ 36 + 0x100) * 2 ^ 64), described) ∧
    described.cdBad (BitVec.ofNat 1024 (0x42 + (2 ^ 36 + 0x100) * 2 ^ 64)) = false ∧
    described.cdTable (BitVec.ofNat 1024 (0x42 + (2 ^ 36 + 0x100) * 2 ^ 64)) = some (0, 8448) ∧
    ((after described (.stgDecl (ops (.x 8) (.x 5) (.x 0) (.x 0)))).myCas 0) = some ⟨0, 0, 0⟩ ∧
    (after described (.stgDecl (ops (.x 8) (.x 5) (.x 0) (.x 0)))).pc = 0x8008 := by decide +kernel

/-- R270: both lanes admitted; a window of which every entry is taken; a closed cassette; a number that names none. -/
theorem test_admit_conditions :
    (let s := declared 0x42 [] 0 7 0 9
     let i := Instr.stgAdmit (ops (.x 8) (.x 5) (.x 6) (.x 0))
     passes s i = true ∧ s.myCas 0 = some ⟨0, 0, 0⟩ ∧ s.cur.path.wait = .ready ∧ s.cur.path.done = 0 ∧ (s.cas ⟨0, 0, 0⟩).closed = false ∧
     ((s.unrec.publish .clu 0).admitLanes ⟨0, 0, 0⟩ false (.x 8) [(0, 7), (1, 9)]).1 = true ∧
     (after s i).cur.x 1 8 = 0x200000001 ∧ (after s i).pc = 0x8008 ∧ s.myCas 1 = none) ∧
    (let s := declared 0x42 ((List.range 16).map fun i => (i, owned 1 (i + 1))) 0 7 0 9
     ((s.unrec.publish .clu 0).admitLanes ⟨0, 0, 0⟩ false (.x 8) [(0, 7), (1, 9)]).1 = false) ∧
    (let s := (declared 0x42 [] 0 7 0 9).modCas ⟨0, 0, 0⟩ fun q => { q with closed := true }
     (s.cas ⟨0, 0, 0⟩).closed = true ∧ s.cur.path.wait ≠ .ring ∧ passes s (.stgAdmitClose (ops (.x 0) (.x 5) (.x 0) (.x 0))) = true) := by
  decide +kernel

/-- R268: handles of records that the lanes hold in states 2, 5 and 6, and of one that they do not. -/
theorem test_handle_conditions :
    (let s := declared 0x42 [(0, owned 2 1), (1, owned 2 2)] 0x100000000 0 0x200000001 1
     s.holdsIn 0x100000000 2 = true ∧ s.holdsIn 0x200000001 2 = true ∧ ([0, 1].map fun l => fld (s.cur.x l 5) 0 14) = [0, 1] ∧
     s.holdsIn 0x300000001 2 = false ∧ passes s (.stgDone (ops (.x 0) (.x 5) (.x 6) (.x 0))) = true ∧
     (after s (.stgDone (ops (.x 0) (.x 5) (.x 6) (.x 0)))).pc = 0x8008) ∧
    (let s := declared 0x42 [(0, owned 6 1), (1, owned 2 2)] 0x100000000 0 0x200000001 1
     s.holdsIn 0x100000000 6 = true ∧ s.holdsIn 0x200000001 2 = true ∧ passes s (.stgNext (ops (.x 8) (.x 5) (.x 6) (.x 0))) = true ∧
     (after s (.stgNext (ops (.x 8) (.x 5) (.x 6) (.x 0)))).pc = 0x8008) ∧
    (let s := declared 0x142 [(0, owned 5 1), (1, owned 5 2)] 0x100000000 0 0x200000001 1
     s.holdsIn 0x100000000 5 = true ∧ s.holdsIn 0x200000001 5 = true ∧ passes s (.stgTail (ops (.x 0) (.x 5) (.x 0) (.x 0))) = true ∧
     (after s (.stgTail (ops (.x 0) (.x 5) (.x 0) (.x 0)))).pc = 0x8008) ∧
    passes (declared 0x42 [] 0 0 0 50) (.stgStat (ops (.x 8) (.x 5) (.x 6) (.x 0))) = true := by decide +kernel

/-- The descriptor of object n: readable, writable, executable, one page, the frame 64 + n of die 0 (R339, R340). -/
def objectMem (n : Nat) : Mem :=
  let a := 0x110000 + 64 * n
  [(a, 7), (a + 7, 128), (a + 9, 128), (a + 16, 1), (a + 33, 7)] ++ (if n % 2 = 1 then [(a + 41, 128)] else []) ++ [(a + 42, BitVec.ofNat 8 (32 + n / 2))]

/-- An address space of objects 1 to n, and a launch block: two record slots in object 4, pools in object 5, PMAX 7 (R336, R359). Object 3
holds some bytes. -/
def tables (n : Nat) (bytes : Mem) : Mem :=
  [(0x100000, 8), (0x100007, 128), (0x10000A, 17)] ++ (List.range n).flatMap (fun i => objectMem (i + 1)) ++
  [(0x120005, 4), (0x120008, 2), (0x120015, 5), (0x120019, 64), (0x12001D, 5), (0x120028, 7), (0x180002, 18)] ++ bytes ++
  [(0x228001, 32), (0x228005, 5), (0x22A001, 96), (0x22A005, 5), (0x22E001, 16), (0x22E005, 5)]

/-- A state on die 0 with those tables. -/
def spaced (n : Nat) (bytes : Mem) (s : State) : State :=
  { s.modDie 0 fun x => { x with trMode := false, astBase := 0x100000, ptBase := 0x180000 } with mem := tables n bytes }

/-- The page of object n. -/
def page (n : Nat) : Nat := (64 + n) * 2 ^ 15

/-- Object 3 holds a descriptor: one row of 32 elements in object 1, its view in object 2 (R312). -/
def viewing : State :=
  spaced 3 [(0x218000, 4), (0x218008, 1), (0x21800C, 32), (0x218010, 128), (0x218014, 48), (0x218018, 64), (0x218025, 2)]
    (single (1 * 2 ^ 40) (3 * 2 ^ 40) 3)

/-- The view registered, its handle in x8 and its block's tag in object 2: WANT 1, HAVE 0 or 1 (R316). -/
def viewed (have_ : Byte) : State :=
  let d : BitVec 1024 := BitVec.ofNat 1024 (4 + 2 ^ 64 + 32 * 2 ^ 96 + 128 * 2 ^ 128 + 48 * 2 ^ 160 + 64 * 2 ^ 192 + 2 ^ 41 * 2 ^ 256)
  let s := spaced 3 ((if have_ = 0 then [] else [(0x210040, have_)]) ++ [(0x210043, 16)]) (single (1 * 2 ^ 40) (3 * 2 ^ 40) 3)
  (s.modCur fun g => g.setX 0 8 0x10000000100).modDie 0 fun x => { x with views := [(0, ⟨0, 1, 0, 1, d, 0, 0, 0, 0, 0, 0, 0, false, []⟩)], vfifo := [(0, 0)] }

/-- R328, R329: a descriptor that passes, one that is not aligned. -/
theorem test_reg_conditions :
    passes viewing (.viewReg (ops (.x 8) (.x 5) (.x 6) (.x 0))) = true ∧
    (match (viewing.regCheck 0x10000000000 0x30000000000 0).1 with | .ok v d => v.nb == 1 && d == 0 | _ => false) = true ∧
    (viewing.regCheck 0x10000000000 0x30000000001 0).1 = .verr 1 := by decide +kernel

/-- R330-R333: the handle names the view, one block is not fresh and one is, and no other handle names a view. -/
theorem test_view_conditions :
    (((viewed 0).viewOf 0 0x10000000100).any fun (d, n, v) => d == 0 && n == 0 && (viewed 0).unmet d v [tagWant ((viewed 0).tag d v 0)] == [0]) = true ∧
    (((viewed 1).viewOf 0 0x10000000100).any fun (d, _, v) => (viewed 1).unmet d v [tagWant ((viewed 1).tag d v 0)] == []) = true ∧
    ((viewed 0).nextBlock 0).isSome = true ∧ ((viewed 0).die 0).fbuf.length < 512 ∧ (viewed 0).viewOf 0 0x10000000101 = none ∧
    (viewed 0).cur.path.wait = .ready ∧ ((viewed 0).tagChecks [(0, 0x10000000100)]).1 = [(0, 0x10000000100, 0)] ∧
    (((viewed 0).cur.x 0 7).extractLsb' 0 2).toNat = 3 ∧ (((viewed 0).cur.x 0 6).extractLsb' 0 2).toNat < 3 ∧
    passes (viewed 0) (.viewPol (ops (.x 0) (.x 8) (.x 7) (.x 0))) = true ∧ passes (viewed 0) (.viewSync (ops (.x 9) (.x 8) (.x 0) (.x 0)) .core) = true ∧
    passes (viewed 0) (.viewTag (ops (.x 9) (.x 8) (.lit 0) (.x 0))) = true ∧ passes (viewed 0) (.viewDrop (ops (.x 0) (.x 8) (.x 0) (.x 0))) = true := by
  decide +kernel

/-- Object 3 holds a launch record (R360): one group of two lanes of 32 registers, at 0x8000. -/
def launching : State :=
  spaced 5 [(0x218001, 128), (0x21800B, 64), (0x21800D, 1), (0x218010, 148), (0x218011, 16), (0x218015, 64)] (single (3 * 2 ^ 40) 0 0)

/-- The record as a push made it. -/
def aRecord (hdr : Nat) (prio : Nat) : PendRec := ⟨BitVec.ofNat 512 hdr, 0, 0, 0, 1, prio, 1, false, none, 0, []⟩

/-- One group of two lanes of 32 registers, at 0x8000. -/
def aHeader : Nat := 0x8000 + (2 ^ 40 + 2 ^ 30) * 2 ^ 64 + (32 * 2 ^ 41 + 4 * 2 ^ 10 + 4 * 2 ^ 5 + 20) * 2 ^ 128

/-- A record pushed, one in its level (R364, R365, R372). -/
def pushed : State := launching.modTeam 0 0 fun t => { t with pend := [aRecord aHeader 0] }
def fired : State := launching.modDie 0 fun x => { x with lvl := [(0, [⟨.launch (aRecord aHeader 0) 0, 0, 0⟩])] }

/-- R363, R364: the record is read, is good and finds a slot; an address that is not aligned. -/
theorem test_launch_conditions :
    passes launching (.launch (ops (.x 8) (.x 5) (.x 6) (.x 0))) = true ∧ passes launching (.spawn (ops (.x 8) (.x 5) (.x 6) (.x 0))) = true ∧
    launching.targetDie 0 0 = some 0 ∧ ([0, 1, 2, 3].map fun d => decide (launching.plb d 0 = 0)) = [false, true, true, true] ∧
    (match (launching.readRecords [(0, 0, 0x30000000000)] []).1.1 with
      | some [p] => recEntry (p.bytes.setWidth 512) == 0x8000 && recGroups (p.bytes.setWidth 512) == 1 && !recMalformed (p.bytes.setWidth 512)
      | _ => false) = true ∧
    pushed.team.mayMove 0 = true ∧ (launching.cur.lane 0).nest ≠ 8 ∧
    (launching.cur.x 0 5 + 1).toNat % 128 ≠ 0 := by decide +kernel

/-- A counter in object 3. -/
def counting (v : Byte) : State := spaced 5 [(page 3, v)] (single (3 * 2 ^ 40) 0 0)

/-- A group that waits at `jwait`. -/
def awaiting : State := after (counting 2) (.jwait (ops (.x 0) (.x 5) (.lit 0) (.x 0)))

/-- R369: a counter found zero, one that is not; R370: the group that waits for it may swap out. -/
theorem test_jwait_conditions :
    (let i := Instr.jwait (ops (.x 0) (.x 5) (.lit 0) (.x 0))
     let s := counting 2
     passes s i = true ∧ s.watches = [] ∧ (s.accXls .counter [(0, .glb 0x30000000000)]).1.map (·.2.2.1) = [0] ∧
     0 < (s.rd64 (page 3)).toInt ∧ (((counting 2).poke (page 3) 8 0 none).rd64 (page 3)).toInt ≤ 0 ∧ awaiting.pc = 0x8000 ∧ (after ((counting 2).poke (page 3) 8 0 none) i).pc = 0x8008) ∧
    awaiting.maySwap 0 0 = true ∧ (awaiting.twoPages 0 0).isSome = true ∧ awaiting.badSave 0 awaiting.cur = none ∧
    (counting 2).maySwap 0 0 = false := by decide +kernel

/-- A call ring of 64 records at 0x200000 and a reply table at 0x220000 (R382, R383). -/
def calling : State := (spaced 1 [] (single 0 0 0)).modDie 0 fun x => { x with cring := 0x200006, reply := 0x220000 }

/-- R142: the lane writes its record and waits; the reply has come. -/
theorem test_syscall_conditions :
    (let i := Instr.syscall (ops (.x 0) (.x 0) (.x 0) (.x 0))
     passes calling i = true ∧ calling.strictHeld = false ∧ (calling.unrec.writeCalls [0]).1 = 0 ∧
     (calling.unrec.writeCalls [0]).2.cur.path.got.getLsbD 0 = false ∧
     (let s := calling.modCur fun g => { g with paths := [{ Path.start 0x8000 1 with wait := .reply, done := 1, got := 1 }] }
      (s.unrec.writeCalls [0]).1 = 0 ∧ (s.unrec.writeCalls [0]).2.cur.path.got.getLsbD 0 = true ∧ (after s i).pc = 0x8008)) := by
  decide +kernel

/-- R143, R144, R146, R126: the instructions that move strands, an object whose generation `tgen` advances, and words of `inspect`. -/
theorem test_migrate_conditions :
    passes (single 0 0 0) (.migrateS (ops (.x 0) (.x 5) (.x 0) (.x 0))) = true ∧ passes (lat 0 0 0) (.migrateS (ops (.x 0) (.x 5) (.x 0) (.x 0))) = true ∧
    passes (single 0 0 0) (.migrateL (ops (.x 0) (.x 5) (.x 0) (.x 0))) = true ∧ passes (lat 0 0 0) (.migrateL (ops (.x 0) (.x 5) (.x 0) (.x 0))) = true ∧
    passes viewing (.tgen (ops (.x 8) (.x 5) (.x 0) (.x 0))) = true ∧ viewing.objectFault 0 0 1 = 0 ∧
    passes (single 0 0 0) (.inspect (ops (.x 8) (.x 5) (.x 6) (.x 0))) = true ∧ (lat 0 0 0).strictHeld = false := by decide +kernel

/-! Events -/

/-- A continuation of that group, whose counter has been found zero or not (R370, R371). -/
def swapped (hit : Bool) : State :=
  { (awaiting.modDie 0 fun x => { x with conts := [⟨0, 0, awaiting.cur, [0x50000000000, 0x50000002000]⟩] }) with
    watches := [⟨0x218000, hit, false, 0x50000100000, 0, 0, 0⟩] }

/-- R371, R373: a continuation that has not fired, one that has; a head that places, a state in which none does. -/
theorem test_scheduler_conditions :
    (((swapped false).die 0).conts.any fun y => !(swapped false).contFired y && (swapped false).contFits y) = true ∧
    (((swapped true).die 0).conts.any fun y => (swapped true).contFired y && (swapped true).contFits y) = true ∧
    (fired.die 0).lost = false ∧ (fired.die 0).ps ≠ 3 ∧ (fired.placeHead 0 0).isSome = true ∧
    ([1, 2, 3, 4, 5, 6, 7].all fun k => (fired.placeHead 0 k).isNone) = true ∧ ([0, 1, 2, 3, 4, 5, 6, 7].all fun k => (launching.placeHead 0 k).isNone) = true := by
  decide +kernel

/-- A continuation returns to slot 0 of its core; a group that swaps out leaves its slot. -/
theorem test_continuation :
    (let t := after { swapped true with cores := (swapped true).cores.map fun (c, k) => (c, { k with slots := [] }) } (.continuationFire 0 0)
     (t.die 0).conts = [] ∧ (t.grp 0 0).occ = true) ∧
    (let t := after awaiting (.swapOut 0 0)
     (t.grp 0 0).occ = false ∧ (t.die 0).conts.length = 1) := by decide +kernel

/-- That group with a save area that is not mapped, and the same where the fault record finds no room. -/
def badArea (n : Nat) : State :=
  (awaiting.modCur fun g => g.setLane 0 { g.lane 0 with ssa := 0x70000000000 }).modDie 0 fun x => { x with fbuf := List.replicate n FRec.blank }

/-- R370, R428: a group that may swap out but for a save area, with room for the record and without; no pages. -/
theorem test_swap_conditions :
    (badArea 511).maySwap 0 0 = true ∧ ((badArea 511).twoPages 0 0).isSome = true ∧ (badArea 511).badSave 0 (badArea 511).cur = some (0, 3) ∧
    (badArea 511).cur.paths.find? (fun p => p.mask.getLsbD 0) = some (badArea 511).cur.path ∧
    ((badArea 511).atPath 0 0 (badArea 511).cur.path).faultRoom 1 = true ∧ ((badArea 512).atPath 0 0 (badArea 512).cur.path).faultRoom 1 = false ∧
    (badArea 512).badSave 0 (badArea 512).cur = some (0, 3) ∧ (launching.twoPages 1 0).isNone = true ∧ at? (launching.die 0).conts 0 = none := by
  decide +kernel

/-- A record whose INPUT counter is the word at the start of object 3 (R367). -/
def inputRecord : PendRec := aRecord (aHeader + 3 * 2 ^ 424) 0

/-- R367: an INPUT counter that is positive, and one that is zero. -/
theorem test_input_conditions :
    recInput inputRecord.hdr = 0x30000000000 ∧ recInput (aRecord aHeader 0).hdr = 0 ∧
    ([2, 0].map fun v =>
      let r := ((counting v).modDie 0 fun x => { x with unfired := x.unfired ++ [inputRecord] }).readCounter 0 0 (recInput inputRecord.hdr)
      (r.1, r.2.2.1)) = [(0, 2), (0, 0)] := by decide +kernel

/-- Two paths of a group, each at a `join` that awaits the lane of the other (R380). -/
def joined : State :=
  { ((simt 0 0 0).modCur fun g => { g with
      jmask := [(0, 3), (1, 3)]
      paths := [{ Path.start 0x8000 1 with wait := .join 0 }, { Path.start 0x9000 2 with wait := .join 1 }] }).modDie 0
        fun x => { x with lastExam := 65536 } with
    clk := 131072 }

/-- R380, R381: a cycle of two paths with a victim, and no cycle. -/
theorem test_deadlock_conditions :
    (let ns := (joined.nodes 0).filter fun n => n.before (joined.die 0).lastExam
     ((findCycle (joined.edges 0) ns).map fun c => (c.length,
       (leastKey joined.victimKey (c.filterMap fun n => match n with | .path w => some w | .record _ => none)).isSome)) = some (2, true)) ∧
    findCycle (launching.edges 0) ((launching.nodes 0).filter fun n => n.before (launching.die 0).lastExam) = none := by decide +kernel

/-- R375: a die on which one team has an id, and none has another. -/
theorem test_team_conditions : Claims.TheTeam launching 0 0 0 0 ∧ launching.askPreempt 0 9 = launching := by
  unfold Claims.TheTeam
  decide +kernel

/-- A team at its `safept` that is to leave its core (R127, R376). -/
def leaving (n : Nat) : State :=
  (spaced n [] ((single 0 0 0).modCur fun g => { g with paths := [{ Path.start 0x8000 1 with atSafept := some 1 }] })).modTeam 0 0
    fun t => { t with preempting := true }

/-- R376: a unit that has stopped, with pages and without. -/
theorem test_preempt_conditions :
    (leaving 5).unitOf 0 0 = [(0, 0)] ∧ ((leaving 5).teamAt 0 0).occ = true ∧ (leaving 5).teamStopped 0 0 = true ∧
    ((leaving 5).unitPages [(0, 0)]).isSome = true ∧ ((leaving 4).unitPages [(0, 0)]).isNone = true := by decide +kernel

/-- R365, R427, R346, R338: a record that moves, a team that asks, a strand that is resident, an ASID that is being flushed. -/
theorem test_request_conditions :
    pushed.team.pend.length = 1 ∧ pushed.strandResident 0 = true ∧ (fired.teamAt 0 0).occ = true ∧
    ((fired.modDie 0 fun x => { x with trBusy := true }).die 0).trBusy = true ∧ (fired.die 0).trBusy = false ∧
    ((fired.rd64 (fired.astAddr 0 0)).extractLsb' 32 16).toNat = 0 ∧
    ((fired.poke (fired.astAddr 0 0 + 4) 2 0xFFFF none).rd64 (fired.astAddr 0 0)).extractLsb' 32 16 = 0xFFFF ∧
    (launching.teamAt 0 0).mayMove 0 = false ∧ ((simt 0 0 0).teamStopped 0 0) = false := by decide +kernel

/-- A packed group of strand 9 that waits for its placement (R157), and a strand 5 with the packer. -/
def sealed_ : State :=
  launching.modDie 0 fun x => { x with
    lvl := [(0, [⟨.packed { grp 0 0 0 with lanes := [(0, { Lane.zero with sid := 9 })], live := 1 }, 0, 0⟩])]
    packq := [⟨0x30000000000, 5, 0, 0, Lane.zero⟩] }

/-- R427: a strand of a sealed group, one with the packer, and one that is nowhere. -/
theorem test_recall_conditions :
    Claims.Sealed sealed_ 9 ∧
    (sealed_.strandResident 5 = false ∧ sealed_.strandSaved 5 = false ∧ (sealed_.unpack 5).1.isSome = true ∧ (sealed_.unpack 7).1 = none) ∧
    ¬Claims.Sealed { sealed_ with dies := [] } 5 ∧ 9 ∈ (after sealed_ (.recall 9)).recalls ∧ (after sealed_ (.recall 5)).recalls = [] :=
  ⟨⟨(0, sealed_.die 0), by decide +kernel, (0, get [] (sealed_.die 0).lvl 0), by decide +kernel, _, List.mem_singleton_self _, _, 0, rfl,
    by decide, by decide +kernel, by decide +kernel⟩, by decide +kernel, (by rintro ⟨_, h, -⟩; cases h), by decide +kernel, by decide +kernel⟩

/-- A head of level 3 that needs an engine, where teams of level 0 own them all (R375). -/
def blocked : State :=
  let p := aRecord (aHeader + (15 * 2 ^ 23 + 15 * 2 ^ 19 + 2 ^ 18) * 2 ^ 64) 3
  let s := fired.modDie 0 fun x => { x with lvl := [(3, [⟨.launch p 0, 0, 0⟩])] }
  { s with clk := 70000, cores := [0, 1, 16, 17].map fun c => (c, s.core 0) }

/-- R375: a plan for that head, and none for a higher one. -/
theorem test_trigger_conditions :
    ((blocked.retryAsked 0).blockedHead 0 3).isSome = true ∧ (((blocked.retryAsked 0).blockedHead 0 3).bind ((blocked.retryAsked 0).plan 0 3)).isSome = true ∧
    ([4, 5, 6, 7].all fun k => ((blocked.retryAsked 0).blockedHead 0 k).isNone) = true ∧
    ([0, 1, 2, 3, 4, 5, 6, 7].all fun k => ((launching.retryAsked 0).blockedHead 0 k).isNone) = true := by decide +kernel

/-- A push to a full channel of 8 entries that has waited for 1,024 clk: `mov q1, x5` at object 3 (R159). -/
def full (n : Nat) : State :=
  let s := spaced n [(page 3 + 3, 80), (page 3 + 4, 64), (page 3 + 5, 244), (page 3 + 6, 1), (page 3 + 7, 10)] (single 1 0 0)
  let s := s.modCur fun g => { g with qbind := [(1, 0x7000000000000002)], paths := [{ Path.start 0x30000000000 1 with wait := .queue 1 }] }
  { s.modCore 0 fun k => { k with chans := [(2, { Channel.zero with bound := true, hw := List.replicate 8 7 })] } with clk := 1024 }

/-- R159: an extension is due, with a page of the pool and without one. -/
theorem test_extend_conditions :
    (full 5).extendDue 0 2 = true ∧ ((full 5).poolTake 0 0 0x18).isSome = true ∧ (full 4).extendDue 0 2 = true ∧ (full 4).poolTake 0 0 0x18 = none ∧
    launching.extendDue 0 2 = false := by decide +kernel

/-- A path that awaits a held slot (R149). -/
def splitting : State :=
  (single 0 0 0).modCur fun g => { g with paths := [{ Path.start 0x8000 1 with wait := .split 0x07 0 0 none }] }

/-- A hardware strand with a pending and enabled signal (R140). -/
def signalled (stopped : Bool) : State := (lat 0 0 0).modCur fun g => { g with ipend := 2, ienable := 2, wfi := stopped }

/-- The sampler of core 0, with a ring of 64 records in object 3 (R172). -/
def sampled : State := { (spaced 3 [] (single 0 0 0)).modCore 0 fun k => { k with sbuf := 0x30000000000, sample := 0x100001 } with clk := 5000 }

/-- R149: the split of a path with room for what it may have to record, and without. -/
theorem test_split_conditions :
    (let g := splitting.grp 0 0
     ((lanesOf 1).filter (splitting.saveFails 0 g)).length = 0 ∧ splitting.recordRoom 0 0 = true ∧ (splitting.grp 0 32).occ = false) ∧
    (let s := (splitting.modCur fun g => g.setLane 0 { g.lane 0 with ssa := 0x70000000000 }).modDie 0 fun x =>
       { x with trMode := false, fbuf := List.replicate 512 FRec.blank }
     s.recordRoom 0 ((lanesOf 1).filter (s.saveFails 0 (s.grp 0 0))).length = false) ∧
    (after splitting (.heldSlotSplit 0 0)).grp 0 0 ≠ splitting.grp 0 0 ∧ ((after splitting (.heldSlotSplit 0 0)).grp 0 32).live = 1 := by
  decide +kernel

/-- R172: a ring that is full, one that is not mapped, a sampler that is not due. -/
theorem test_sample_conditions :
    (let s := { sampled with mem := writeBytes sampled.mem (page 3) 8 64 }
     (s.agentLoads 0 0 [0x30000000000, 0x30000000008]).1 = some [64, 0] ∧ (s.agentLoad 0 0 0x30000000010 8).1 = 0 ∧
     (s.agentStores 0 0 [(0x30000000010, 1)]).1 = true ∧ ((after s (.sample 0)).core 0).dropped = 1) ∧
    ((sampled.modCore 0 fun k => { k with sbuf := 0x70000000000 }).agentLoads 0 0 [0x70000000000, 0x70000000008]).1 = none ∧
    (sampled.agentStores 0 0 [(0x70000000000, 1)]).1 = false ∧
    (single 0 0 0).sampleDue 0 = false ∧ ((after sampled (.sample 0)).core 0).widx = 1 := by decide +kernel

/-- R149, R140, R172, R283: a path that awaits a free held slot, signals that are pending, a sample that can be stored, one team alone. -/
theorem test_core_event_conditions :
    (splitting.grp 0 0).splitPath.isSome = true ∧ (splitting.core 0).freeHeld = some 32 ∧
    isLatency 1024 = true ∧ ((signalled false).grp 1024 0).signals ≠ 0 ∧ ((signalled false).grp 1024 0).wfi = false ∧ ((signalled false).grp 1024 0).halted = false ∧
    ((signalled false).grp 1024 0).kt = false ∧ ((signalled true).grp 1024 0).wfi = true ∧ ((signalled true).grp 1024 0).paths ≠ [] ∧
    (sampled.core 0).nextSample = some 0 ∧ sampled.sampleDue 0 = true ∧ (sampled.agentLoads 0 0 [0x30000000000, 0x30000000008]).1 = some [0, 0] ∧
    (sampled.agentStores 0 0 [(0x30000000040, 1), (0x30000000000, 1)]).1 = true ∧ splitting.illegalTeam 0 = some (0, 0) ∧ isLatency 0 = false ∧ State.reset.illegalTeam 0 = none ∧
    (splitting.outside (.illegalState 0 0 2)).illegalTeam 0 = some (0, 2) ∧ isLatency 1024 = true ∧ (splitting.modCore 0 fun k => { k with fw := true }).k.fw = true := by decide +kernel

/-- A fault record 1 of die 0, a strand with the packer and a window, a message ring at 0x240000 and submission to object 4. -/
def waiting : State :=
  (spaced 5 [] (single 0 0 0)).modDie 0 fun x =>
    { x with
      faults := [{ FRec.blank with seq := 1 }], packq := [⟨0x30000000000, 5, 0, 0, Lane.zero⟩]
      wins := [⟨0, 0x8000, 0, 0, 0, [], [], 0⟩], mring := 0x240006, migWindow := 0 }

/-- R355, R395, R398, R399: a record with its tag, a save area that can be read and one that cannot, windows that are due and not, rings with room
and without, and a submission that is taken. -/
theorem test_instance_conditions :
    ((waiting.die 0).faults.find? fun r => word (0 * 2 ^ 61 + r.seq) == 1).isSome = true ∧ ((waiting.die 0).faults.all fun r => word (0 * 2 ^ 61 + r.seq) != 2) = true ∧
    (waiting.readSave 0 64 0 0x30000000000).1.isSome = true ∧ (waiting.readSave 0 64 0 0x70000000000).1 = none ∧ waiting.windowDue 0 0 = true ∧ waiting.windowDue 0 1 = false ∧
    waiting.ringRoom (waiting.die 0).mring = true ∧ waiting.ringRoom (waiting.die 1).mring = false ∧
    recMalformed ((BitVec.ofNat 1024 aHeader).setWidth 512) = false ∧ recUnif ((BitVec.ofNat 1024 aHeader).setWidth 512) = 0 ∧
    waiting.submitDie 0 0 = some 0 ∧ waiting.submitDie 0 7 = some 0 ∧ waiting.submitDie 0 1 = none ∧
    ((waiting.closeDue 0 1).readSave 0 64 0 0x70000000000).1 = none ∧ ((waiting.closeDue 0 1).readSave 0 64 0 0x30000000000).1.isSome = true ∧
    (waiting.pushRecord ⟨0, 0, BitVec.ofNat 1024 aHeader, 0⟩ ⟨0, 0, 0, false, none⟩).1.isSome = true := by decide +kernel

/-- R307, R345, R411: a scratchpad that may be set and one that is held, an outdated entry, a die at rest and one at work. -/
theorem test_configuration_conditions :
    State.reset.chipHeld 0 = false ∧ (single 0 0 0).chipHeld 0 = true ∧ isCompute 0 = true ∧ isCompute 4 = false ∧ State.reset.dieBusy 0 = false ∧
    (let s := (spaced 1 [] (single 0 0 0)).modCore 0 fun k => { k with tlb := [{ rowEntry with obj := 1, gen := 3 }] }
     s.outdated 0 0 1 = true ∧ s.outdated 0 0 2 = false ∧ (s.die 0).trMode = false) := by decide +kernel

/-- A host die with a lease on a line of package 5, a grant, a delayed write, a port and the time (R417-R422). -/
def linked : State :=
  (State.reset.modDie 5 fun x => { x with pkgSet := true, pkgId := 6 }).modDie 4 fun x =>
    { x with
      pkgSet := true, pkgId := 6, lock := true, leases := [⟨5, 9, 0, 1000, 0⟩, ⟨5, 8, 0, 0, 0⟩]
      ports := [(2, { Port.zero with up := true, peer := 5 }), (3, { Port.zero with up := true, row := 15 })]
      egress := [⟨0, 0, 0x200000, 0, 0, 0, 0, 0, false⟩] }

/-- R289, R292, R308, R405, R406, R414-R422: each premise of the events of the memory system and the fabric. -/
theorem test_fabric_conditions :
    linked.mayHold 0 1 = true ∧ elsewhere 128 = false ∧ ((linked.die 4).egress.find? fun e => e.home == 0).isSome = true ∧
    ((linked.die 4).egress.find? fun e => e.home == 1) = none ∧ (linked.scrubber 0 0).pos + 1 < scrubTotal 0 ∧
    scrubTotal 0 ≤ ((linked.modDie 0 fun x => { x with scrub := [(1, ⟨2 ^ 29 - 1, 0, 0⟩)] }).scrubber 0 1).pos + 1 ∧
    scrubTotal 4 ≤ ((linked.modDie 4 fun x => { x with scrub := [(0, ⟨2 ^ 33 - 1, 0, 0⟩)] }).scrubber 4 0).pos + 1 ∧
    (linked.die 0).lost = false ∧ ({ linked with clk := 2 ^ 40 }).syncOld 4 = true ∧ region (2 ^ 37 - 1) = .dram 0 ∧ region (2 ^ 52 * 6) = .package 5 ∧
    region (2 ^ 45 * 6 * 128) = .package 5 ∧ linked.inDomain 5 = true ∧ (linked.die 4).lock = true ∧
    ((linked.die 4).leases.map fun l => linked.leaseValid 4 l) = [true, false] ∧ ((linked.die 4).leases.any fun l => l.pkg == 5 && l.line == 10) = false ∧
    linked.delayed = [] ∧ linked.writeWaits 9 = false ∧ linked.locked 4 = true ∧ (get Port.zero (linked.die 4).ports 2).up = true ∧
    (get Port.zero (linked.die 4).ports 2).row + 1 < 16 ∧ 16 ≤ (get Port.zero (linked.die 4).ports 3).row + 1 ∧ linked.withinRoom = true ∧
    (linked.modPort 4 2 fun q => { q with up := false }).reaches 5 = false ∧
    (let v := (linked.modPort 4 2 fun q => { q with up := false, downs := 1 }).loseReach 4 5
     v.withinRoom = true ∧ (v.die 4).leases = []) := by decide +kernel

/-- R290, R345: a line whose translation is outdated, one whose is not, one with none. -/
theorem test_fill_conditions :
    (let s := (spaced 1 [] (single 0 0 0)).modCore 0 fun k => { k with tlb := [{ rowEntry with obj := 1, gen := 3 }] }
     s.mayHold 0 (2 ^ 19) = true ∧ (s.lineEntry 0 (2 ^ 19)).isSome = true ∧ s.current 0 0 0 1 3 = false ∧ s.current 0 0 0 1 0 = true ∧
     s.lineEntry 0 1 = none ∧ s.mayHold 0 1 = true ∧ State.reset.mayHold 0 (2 ^ 41) = false) := by decide +kernel

/-- R308, R402, R404: lines with an error of each kind, and an HDM decoder that covers an address. -/
theorem test_outside_conditions :
    (let s := after (State.reset.modDie 4 fun x => { x with hdm := [(2 ^ 20, 2 ^ 20, 2 ^ 26)] }) (.cxlMemWrite 4 (2 ^ 20 + 8) 2 0x1234)
     (s.die 4).hdmPa (2 ^ 20 + 8) = some (2 ^ 26 + 8) ∧ (s.die 4).hdmPa (2 ^ 21) = none ∧ region (2 ^ 26 + 8) = .dram 0 ∧
     region (2 ^ 26 + 9) = .dram 0 ∧ s.rd (2 ^ 26 + 8) 2 = 0x1234) ∧
    (let s := { State.reset with ecc := [(0, 1), (2 ^ 29, 2)] }
     get 0 s.ecc 0 = 1 ∧ 2 ≤ get 0 s.ecc (2 ^ 29) ∧ get 0 s.ecc 1 = 0) := by decide +kernel

/-- R417: a lease goes with the return request. -/
theorem test_return_request : ((after linked (.returnRequest 4 5 9)).die 4).leases = [⟨5, 8, 0, 0, 0⟩] := by decide +kernel

/-! Further cases of the statements' conditions -/

/-- R85: a queue source and a queue destination of an instruction. -/
theorem test_queue_operands :
    (let i := Instr.add (ops (.x 8) (.q 1) (.x 5) (.x 0)) ⟨.d, false, false, 0⟩
     i.operands.pops = [1] ∧ i.operands.pushes = none) ∧
    (let i := Instr.add (ops (.q 1) (.x 5) (.x 6) (.x 0)) ⟨.d, false, false, 0⟩
     i.operands.pops = [] ∧ i.operands.d = .q 1) := by decide +kernel

/-- R184: instructions of further families with an unbound queue register. -/
theorem test_queue_families :
    ([.fadd (ops (.x 8) (.q 1) (.x 6) (.x 0)) ⟨.f32, false, 0, false⟩, .ld (ops (.x 8) (.q 1) (.x 6) (.x 0)) ⟨.loc, .w, false, false⟩,
      .br (ops (.x 0) (.q 1) (.x 0) (.x 0)), .crw (ops (.x 8) (.q 1) (.x 0) (.x 0)) 4, .bcast (ops (.x 8) (.q 1) (.x 0) (.x 0)),
      .cpy (ops (.x 0) (.q 1) (.x 6) (.x 7)) ⟨.core, false, false, 0⟩, .stef (ops (.x 0) (.x 5) (.x 6) (.q 1)) ⟨.loc, .w, false, false⟩] : List Instr).all
      (fun i => (Claims.operated i).isSome && (simt 3 4 5).acting i.operands.g == [0, 1] && (simt 3 4 5).badQueue i.operands == some 1 &&
        !(simt 3 4 5).readsPoison i [0, 1]) = true := by decide +kernel

/-- `simt` with every exception trapped and signalling NaN operands (R40, R43). -/
def trapping : State := (simt 0 0 0).modCur fun g => { g with lanes := [0, 1].map fun l =>
  (l, { lane 0x7F800001 0x7F800001 0 with fcsr := 0x1F00, xs := (List.range 32).map fun n => (n, 0x7F8000017F800001) }) }

/-- R40: block-scaled instructions and a reduction whose exceptions trap. -/
theorem test_fp_trap_conditions :
    ([.qcvt (ops (.x 8) (.x 5) (.x 6) (.x 0)) ⟨7, false, 0⟩, .qcvtBf16 (ops (.x 8) (.x 5) (.x 6) (.x 0)) ⟨7, false, 0⟩,
      .bscale (ops (.x 8) (.x 5) (.x 0) (.x 0)) ⟨7, false, 0⟩, .bscaleBf16 (ops (.x 8) (.x 5) (.x 0) (.x 0)) ⟨7, false, 0⟩] : List Instr).all (fun i =>
      passes trapping i && (Claims.scaled i).any fun f =>
        (f trapping.cur 0 0x7F8000017F800001).2 &&& (trapping.cur.lane 0).fcsr.extractLsb' 8 5 != 0) = true ∧
    (let i := Instr.reduxFadd (ops (.x 8) (.x 5) (.x 0) (.x 0)) ⟨.f32, false, 0, false⟩
     passes trapping i = true ∧ ((Claims.reductionFp i).any fun (m, f) =>
       (reduceFp m (f 0) [0, 1] (trapping.opA i 0 [0, 1])).2 &&& (trapping.cur.lane 0).fcsr.extractLsb' 8 5 != 0) = true) ∧
    ((dequantize8 ⟨1, false, 0⟩ false 0x1F00 0x7D7D7D7D7D7D7D7D 254).foldl (fun e x => e ||| x.2) (0 : Fp.Exc)) &&& (0x1F00 : Word).extractLsb' 8 5 ≠ 0 := by
  decide +kernel

/-- Two paths, one lane each, of which the second waits: at the same `join` or at another pc (R121), and both at a meeting address (R120). -/
def twoPaths (w : Wait) (pc meet : Word) : State := (simt 0 0 0).modCur fun g =>
  { g.modLanes [0, 1] fun _ r => { r with meet := meet } with
    jmask := [(0, 3)], paths := [Path.start 0x8000 1, { Path.start pc 2 with wait := w }] }

/-- R120, R121: a join and a meeting that complete and that wait. -/
theorem test_several_paths :
    (let i := Instr.join (ops (.x 0) (.x 0) (.x 0) (.x 0)) 0
     let t := after (twoPaths (.join 0) 0x8000 0) i
     let u := after (twoPaths (.join 0) 0x9000 0) i
     t.cur.paths = [Path.start 0x8008 3] ∧ u.cur.path.wait = .join 0 ∧ u.pc = 0x8000 ∧ (twoPaths (.join 0) 0x8000 0).heldSlots 0 0 = []) ∧
    (let t := (twoPaths .meeting 0x8000 0x8000).tryMeeting 0 0
     let u := (twoPaths .ready 0x9000 0x8000).tryMeeting 0 0
     t.active = 3 ∧ (t.cur.lane 1).meet = 0 ∧ t.pc = 0x8000 ∧ u.cur.path.wait = .meeting ∧ (u.laneOf 0 0 1).meet = 0x8000) := by decide +kernel

/-- A group of which lane 1 is held in slot 32, where it waits at the same `join` (R121, R149). -/
def heldJoin : State :=
  ((simt 0 0 0).setGrp 0 32 { grp 9 9 9 with
    live := 2, held := some ⟨0, 0x15, some 7, false, []⟩, paths := [{ Path.start 0x8000 2 with wait := .join 0 }] }).modCur fun g =>
      { g with jmask := [(0, 3)], paths := [Path.start 0x8000 1] }

/-- R121: that join completes, and the held group's lane is back. -/
theorem test_held_join :
    heldJoin.heldSlots 0 0 = [32] ∧ heldJoin.cur.live &&& heldJoin.cur.j 0 &&& ~~~((1 : Mask) ||| 2) = 0 ∧
    (let t := after heldJoin (.join (ops (.x 0) (.x 0) (.x 0) (.x 0)) 0)
     t.cur.paths = [Path.start 0x8008 3] ∧ (t.grp 0 32).occ = false ∧ t.cur.x 0 5 = 0 ∧ t.cur.x 1 5 = 9) := by decide +kernel

/-- R25, R124: lanes that are all of their path, and all of their group beside another group of the team. -/
theorem test_last_lanes :
    (let s := twoPaths .ready 0x9000 0
     s.acting ⟨false, 7⟩ = [0] ∧ s.cur.live &&& ~~~maskOf [0] ≠ 0 ∧ s.active &&& ~~~maskOf [0] = 0 ∧
     (s.cur.paths.drop 1).all (fun p => p.mask &&& maskOf [0] == 0 && p.mask != 0) = true) ∧
    (let s := (simt 0 0 0).modTeam 0 0 fun t => { t with groups := 2 }
     s.cur.draft = none ∧ s.cur.live &&& ~~~maskOf [0, 1] = 0 ∧ 1 < s.team.groups) ∧
    (let s := spaced 3 [] (single 0 0 0)
     (s.agentWalk 0 0 (0x30000000000 + 0x340) .write).1 = 0 ∧ isMemory (s.agentWalk 0 0 (0x30000000000 + 0x340) .write).2.1.pa = true) := by
  decide +kernel

/-- R129: the registers whose effect is stated, on their kind of core; package time without recording. -/
theorem test_control_register_kinds :
    (([0x06, 0x20, 0x27, 0x30, 0x31, 0x40, 0x43, 0x44] : List (BitVec 8)).all fun n =>
      passes (simt 3 4 5) (.crs (ops (.x 8) (.x 5) (.x 0) (.x 0)) n)) = true ∧
    (([0x06, 0x30, 0x31, 0x40, 0x43, 0x44] : List (BitVec 8)).all fun n => passes (lat 3 4 5) (.crc (ops (.x 8) (.x 5) (.x 0) (.x 0)) n)) = true ∧
    passes (simt 3 4 5) (.crr (ops (.x 8) (.x 0) (.x 0) (.x 0)) 0x18) = true ∧ fld ((simt 3 4 5).die 0).recctl 0 2 = 0 := by decide +kernel

/-- R153: a segment number above 3 and a range beyond the extent. -/
theorem test_setseg_traps : 3 < (4 : Word).toNat ∧ passes (simt 4 0 0) (.setseg (ops (.x 0) (.x 5) (.x 6) (.x 7))) = true ∧
    (simt 0 0 (2 ^ 20)).segExtent 0 < (0 : Word).toNat + 32 * (2 ^ 20 : Word).toNat := by decide +kernel

/-- R205, R299: a line with a byte that rollback mode holds. -/
theorem test_pinned_line :
    (((simt 0 0 0).modCore 0 fun k => { k with l1 := [(2 ^ 19, { L1Line.zero with vm := 1, um := 1, pin := 1 })] }).k.line (2 ^ 19)).pin ≠ 0 := by
  decide +kernel
/-- A line of the own die with an unpublished byte, under a lease of package 9 (R418). -/
def leasedOut : State :=
  { ((simt 3 4 5).modCore 0 fun k => { k with l1 := [(2 ^ 19, { L1Line.zero with vm := 1, um := 1, data := 7, st := .m })] }).modDie 4 fun x =>
    { x with lock := true, grants := [⟨9, 2 ^ 19, 8000, 0, 8000, 0⟩] } with clk := 1 }

/-- R206, R418: a publication that a lease keeps back, and one that completes. -/
theorem test_sent_conditions :
    leasedOut.leased (2 ^ 19) = true ∧
    (let t := leasedOut.publish .die leasedOut.cid
     t.leftover t.cid ≠ [] ∧ (t.leftover t.cid).all (fun e => t.stuckKind t.cid e.1 e.2.1 e.2.2 == 0) = true) ∧
    (after leasedOut (.phase (ops (.x 0) (.x 0) (.x 0) (.x 0)) .die)).pc = 0x8000 ∧
    ((simt 4 8 9).publish .sys 0).leftover 0 = [] ∧ (after (simt 4 8 9) (.phase (ops (.x 0) (.x 0) (.x 0) (.x 0)) .die)).pc = 0x8008 := by decide +kernel

/-- R354, R144, R205: room for the records of lanes that leave, no room for one, a buffer that is over-full, `phase` in rollback mode. -/
theorem test_room_conditions :
    (single 0 0 0).leaveRoom [0] = true ∧ (single 0 0 0).withinRoom = true ∧
    (let s := (single 0 0 0).modDie 0 fun x => { x with fbuf := List.replicate 512 FRec.blank }
     s.recordRoom 0 1 = false ∧ s.withinRoom = true) ∧
    ((single 0 0 0).modDie 0 fun x => { x with fbuf := List.replicate 513 FRec.blank }).withinRoom = false ∧
    ((simt 0 0 0).modTeam 0 0 fun t => { t with rb := true }).team.holds = true := by decide +kernel

/-- R364: a launch whose push needs no record, and where the buffer is over-full. -/
theorem test_launch_room :
    (match (launching.readRecords [(0, 0, 0x30000000000)] []) with
      | ((some ps, _, _, _), u) => (((u.unrec.publish .pkg 0).pushAll false ps).2.withinRoom && (u.unrec.publish .pkg 0).leftover 0 == [])
      | _ => false) = true ∧
    (let v := launching.modDie 0 fun x => { x with fbuf := List.replicate 513 FRec.blank }
     (match (v.readRecords [(0, 0, 0x30000000000)] []) with
      | ((some ps, _, _, _), u) => (((u.unrec.publish .pkg 0).pushAll false ps).2.withinRoom)
      | _ => true) = false) := by decide +kernel

/-- R369: the read of a counter that needs no view, positive and not. -/
theorem test_counter_read :
    (let r := (counting 2).accXls .counter [(0, .glb 0x30000000000)]
     (r.1.all fun x => !x.2.2.2.vsh && !r.2.poisoned x.2.2.2.pa 8) = true ∧
     (r.2.readCounters r.1).1.map (·.2.2) = [.data 2]) ∧ 0 < (word 2).toInt ∧ (word 0).toInt ≤ 0 ∧ elsewhere (page 3) = false := by decide +kernel

/-- R371: no fired continuation goes before another of its priority, and one of a higher one does. -/
theorem test_continuation_order :
    (((swapped true).die 0).conts.any fun y => (swapped true).contBehind 0 y) = false ∧
    (let s := (swapped true).modTeam 0 1 fun t => { t with occ := true, eff := 3 }
     let y : Cont := ⟨0, 1, awaiting.cur, []⟩
     let s := s.modDie 0 fun x => { x with conts := x.conts ++ [y] }
     s.contFired y = true ∧ s.contBehind 0 ⟨0, 0, awaiting.cur, []⟩ = true) := by decide +kernel

/-- R126: a group whose count has reached its bound, on a SIMT core. -/
theorem test_overdue : (((simt 0 0 0).modCur fun g => { g with count := 4096 }).grp 0 0).count = 4096 ∧ isLatency 0 = false ∧
    ((simt 0 0 0).grp 0 0).count < 4096 := by decide +kernel

/-- R318: a refresh that a shard's fault stalled and that can go on. -/
theorem test_stalled_conditions :
    (let s := (viewed 0).modDie 0 fun x => { x with views := x.views.map fun (n, v) => (n, { v with stalled := [⟨0, 1, [], 0⟩] }) }
     (s.nextStalled 0).isSome = true ∧ s.recordRoom 0 1 = true) ∧ (viewed 0).nextStalled 0 = none ∧
    (launching.nextStalled 0).isNone = true ∧ (launching.nextBlock 0).isNone = true := by decide +kernel

/-- R338, R399: an address space that is being flushed, and one that is not. -/
theorem test_flushing : waiting.flushing 0 = false ∧
    (waiting.modDie 0 fun x => { x with trBusy := true, flushPend := some 0 }).flushing 0 = true ∧ (0 : Nat) % 128 = 0 := by decide +kernel

/-- R390, R412: words that a store changes, words that it leaves, and a die at work. -/
theorem test_configured :
    ([0x10, 0x70, 0x78, 0x80, 0x88, 0xA0, 0xB0, 0xB8, 0xC0, 0xE0].all fun off => (Claims.configured 0 off 0x123 (State.reset.die 0)).isSome) = true ∧
    ([0x10, 0x78, 0xA8, 0xB0, 0xB8, 0xC0, 0xD0, 0xE0].all fun off => (Claims.configured 4 off 0x123 (State.reset.die 4)).isSome) = true ∧
    (Claims.keepsWord 0 0xC8 && Claims.keepsWord 4 0x70 && Claims.keepsWord 4 0x120) = true ∧ (simt 0 0 0).dieBusy 0 = true ∧ 0x28 < 0x180 := by decide +kernel

/-- R345, R288: a request with an identity, to a line that only its home serves and to one that a core may own. -/
theorem test_request_identity :
    (let s := (spaced 1 [] (single 0 0 0)).modCore 0 fun k => { k with tlb := [{ rowEntry with obj := 1, gen := 0 }] }
     (s.requestId 0 (2 ^ 19)).1.isSome = true ∧ ((s.requestId 0 (2 ^ 19)).1.map fun i => s.homeOnly 0 (2 ^ 19) i) = some false ∧
     s.homeLine (2 ^ 19) = false ∧ (s.homeOnly 0 (2 ^ 45 * 6) ⟨0, 0, 0, false⟩) = true ∧
     (s.requestId 0 (chipAddr 0 0 / 128)).1.isSome = true) := by decide +kernel

/-- R308, R354: an uncorrectable line for which the record finds no room. -/
theorem test_scrub_room :
    (let s := ({ State.reset with ecc := [(0, 2)] } : State).modDie 0 fun x => { x with fbuf := List.replicate 512 FRec.blank }
     s.withinRoom = true ∧ (s.findError 0 0).withinRoom = false ∧ scrubAddr 0 0 (s.scrubber 0 0).pos / 128 = 0) := by decide +kernel

/-- R418, R419: a request that waits for a lease, one that waits behind its own stream, one that does not. -/
theorem test_inbound_conditions :
    (let w : Delayed := ⟨2 ^ 19, 2 ^ 26, 8, 5, 5, .write⟩
     leasedOut.leased w.line = true ∧ linked.leased w.line = false ∧ (∀ u ∈ linked.delayed, u.line ≠ w.line ∧ u.src ≠ w.src) ∧
     ([{ w with line := 9 }] : List Delayed).any (fun u => u.line == w.line || u.src == w.src) = true ∧
     ((linked.inboundReq w).rd (2 ^ 26) 8) = 5 ∧ (leasedOut.inboundReq w).delayed = [w]) := by decide +kernel

/-- R422: a port whose replays in a millisecond exceed 1,024, and one that is the second to its peer. -/
theorem test_port_conditions :
    (let s := linked.modPort 4 2 fun q => { q with recent := List.replicate 1024 0 }
     1024 < ((get Port.zero (s.die 4).ports 2).recent.filter fun t => decide (s.clk < t + 2100000)).length + 1) ∧
    ((linked.modPort 4 3 fun q => { q with peer := 5 }).modPort 4 2 fun q => { q with up := false, downs := 1 }).reaches 5 = true ∧
    (get Port.zero (linked.die 4).ports 1).up = false := by decide +kernel

end Sys2Proof.Tests
end

section
/-! SUPPORT. The shuffles: where each takes its value from (R112). -/

namespace Sys2Proof.Machine

/-- R112: a lane receives the value of the source lane if that acts, its own otherwise. -/
theorem shuffle_eq (seg : BitVec 3) (src : Nat → Nat → Nat → Nat) (ls : List Nat) (a b : Nat → Word) (l : Nat) :
    shuffle seg src ls a b l =
      if src (2 ^ seg.toNat) l ((b l).toNat % 2 ^ seg.toNat) ∈ ls then a (src (2 ^ seg.toNat) l ((b l).toNat % 2 ^ seg.toNat))
      else a l := by
  simp [shuffle]

/-- An instruction that names a source lane is a shuffle, and its source function is the formula of R112. -/
theorem exec_shuffle (i : Instr) (s : State) (l₀ : Nat) (b₀ : Word) (h : (Claims.from_ i l₀ b₀).isSome) :
    ∃ seg src, exec i s = .next (s.combine i (shuffle seg src)) ∧
      ∀ l b, Claims.from_ i l b = some (src (2 ^ seg.toNat) l (b.toNat % 2 ^ seg.toNat)) := by
  unfold Claims.from_ at h
  split at h
  case h_1 o g => exact ⟨g, _, rfl, fun l b => by simp only [Claims.from_, ← Nat.div_mul_self_eq_mod_sub_self]⟩
  case h_2 o g => exact ⟨g, _, rfl, fun _ _ => rfl⟩
  case h_3 o g => exact ⟨g, _, rfl, fun _ _ => rfl⟩
  case h_4 o g => exact ⟨g, _, rfl, fun l b => by simp only [Claims.from_, ← Nat.div_mul_self_eq_mod_sub_self]; rfl⟩
  case h_5 => cases h

/-- Settles O23: a shuffle combines the acting lanes by the source lane of R112. -/
theorem shuffleResults : Obligations.ShuffleResults := by
  unfold Obligations.ShuffleResults
  intro i s ls ka kb kc t _ he hf hsome
  obtain ⟨l, hl⟩ := List.exists_mem_of_ne_nil ls he.some_
  obtain ⟨seg, src, hexec, hfrom⟩ := exec_shuffle i s l _ (hsome l hl)
  rw [hexec, State.combine_fed s i ls ka kb kc t _ he hf]
  congr 2
  funext l
  rw [shuffle_eq]
  simp only [hfrom, Option.getD_some]

end Sys2Proof.Machine
end

section
/-! SUPPORT. The values of a pattern of an IEEE format, by its magnitude: NaN, infinity, normal, subnormal, zero (R33, R42). -/

namespace Sys2Proof.Fp

/-- An IEEE format with an exponent and a fraction (R33). -/
structure Fmt.Ieee (f : Fmt) : Prop where
  special : f.special = .ieee
  eb_pos : 0 < f.eb
  fb_pos : 0 < f.fb

/-- The four scalar formats are IEEE formats. -/
theorem ieee_fmtOf (t : FpT) : (fmtOf t).Ieee := by
  cases t <;> exact ⟨rfl, by decide, by decide⟩

/-- A pattern below its sign bit. -/
def Fmt.mag (f : Fmt) (bits : Nat) : Nat := bits % 2 ^ f.body

/-- The magnitude of the infinities: the exponent all ones, the fraction zero. -/
def Fmt.infMag (f : Fmt) : Nat := (2 ^ f.eb - 1) * 2 ^ f.fb

theorem Fmt.mod_body (f : Fmt) (bits : Nat) : bits % 2 ^ f.body = f.mag bits := by rw [Fmt.mag]

theorem Fmt.infMag_add (f : Fmt) : f.infMag + 2 ^ f.fb = 2 ^ f.body := by
  have h : 1 ≤ 2 ^ f.eb := Nat.one_le_two_pow
  unfold Fmt.infMag Fmt.body
  rw [← Nat.succ_mul, pow_add]
  congr 1
  omega

theorem Fmt.mag_lt (f : Fmt) (bits : Nat) : f.mag bits < 2 ^ f.body := Nat.mod_lt _ (by positivity)

/-- The smallest normal magnitude is at most the infinity's. -/
theorem Fmt.Ieee.normal_le_infMag {f : Fmt} (hf : f.Ieee) : 2 ^ f.fb ≤ f.infMag := by
  have h : 2 ^ 1 ≤ 2 ^ f.eb := Nat.pow_le_pow_right (by decide) hf.eb_pos
  exact Nat.le_mul_of_pos_left _ (by omega)

/-- The exponent field is all ones from the infinity's magnitude on. -/
theorem Fmt.exponent_eq_ones_iff (f : Fmt) (bits : Nat) :
    f.mag bits / 2 ^ f.fb = 2 ^ f.eb - 1 ↔ f.infMag ≤ f.mag bits := by
  have hlt := f.mag_lt bits
  rw [← f.infMag_add] at hlt
  rw [Nat.div_eq_iff (by positivity), ← Fmt.infMag]
  omega

/-- The fraction of a magnitude whose exponent is all ones. -/
theorem Fmt.fraction_of_infMag_le (f : Fmt) (bits : Nat) (h : f.infMag ≤ f.mag bits) :
    f.mag bits % 2 ^ f.fb = f.mag bits - f.infMag := by
  have hd := Nat.div_add_mod' (f.mag bits) (2 ^ f.fb)
  rw [(f.exponent_eq_ones_iff bits).2 h] at hd
  unfold Fmt.infMag
  omega

/-- The bit n of a number below 2 ^ (n + 1). -/
theorem testBit_top (x n : Nat) (h : x < 2 ^ (n + 1)) : x.testBit n = decide (2 ^ n ≤ x) := by
  by_cases hn : 2 ^ n ≤ x
  · rw [Nat.testBit_of_two_pow_le_and_two_pow_add_one_gt hn h, decide_eq_true hn]
  · rw [Nat.testBit_lt_two_pow (by omega), decide_eq_false hn]

/-- The sign bit of a pattern of the format's width. -/
theorem Fmt.sign_eq (f : Fmt) (bits : Nat) (h : bits < 2 ^ f.width) : bits.testBit f.body = decide (2 ^ f.body ≤ bits) :=
  testBit_top bits f.body h

/-- R33: the value of a pattern of an IEEE format by its magnitude. -/
theorem Fmt.value_ieee {f : Fmt} (hf : f.Ieee) (bits : Nat) :
    f.value bits =
      if f.infMag ≤ f.mag bits then
        (if f.mag bits = f.infMag then .inf (bits.testBit f.body) else .nan (!(f.mag bits - f.infMag).testBit (f.fb - 1)))
      else if f.mag bits < 2 ^ f.fb then .fin (bits.testBit f.body) (f.mag bits) f.kmin
      else .fin (bits.testBit f.body) (2 ^ f.fb + f.mag bits % 2 ^ f.fb) (f.kmin + ((f.mag bits / 2 ^ f.fb : Nat) : Int) - 1) := by
  have hexp := f.exponent_eq_ones_iff bits
  unfold Fmt.value
  simp only [hf.special, true_and, f.mod_body, hexp, reduceCtorEq, false_and, if_false]
  split
  · rename_i h
    have hz : f.mag bits - f.infMag = 0 ↔ f.mag bits = f.infMag := by omega
    simp only [f.fraction_of_infMag_le bits h, hz]
  · by_cases hs : f.mag bits < 2 ^ f.fb
    · rw [if_pos (Nat.div_eq_of_lt hs), if_pos hs, Nat.mod_eq_of_lt hs]
    · rw [if_neg (Nat.div_pos (not_lt.1 hs) (by positivity)).ne', if_neg hs]

/-- R33: above the infinity's magnitude stand the NaNs, signalling without the top bit of the fraction. -/
theorem Fmt.value_nan {f : Fmt} (hf : f.Ieee) (bits : Nat) (h : f.infMag < f.mag bits) :
    f.value bits = .nan (!decide (2 ^ (f.fb - 1) ≤ f.mag bits - f.infMag)) := by
  have hlt : f.mag bits - f.infMag < 2 ^ (f.fb - 1 + 1) := by
    have hm := f.mag_lt bits
    rw [← f.infMag_add] at hm
    rw [Nat.sub_add_cancel hf.fb_pos]
    omega
  rw [f.value_ieee hf, if_pos h.le, if_neg h.ne', testBit_top _ _ hlt]

/-- R33: the infinity of each sign. -/
theorem Fmt.value_inf {f : Fmt} (hf : f.Ieee) (bits : Nat) (h : f.mag bits = f.infMag) :
    f.value bits = .inf (bits.testBit f.body) := by
  rw [f.value_ieee hf, if_pos h.ge, if_pos h]

/-- R33: the zeros and subnormals. -/
theorem Fmt.value_subnormal {f : Fmt} (hf : f.Ieee) (bits : Nat) (h : f.mag bits < 2 ^ f.fb) :
    f.value bits = .fin (bits.testBit f.body) (f.mag bits) f.kmin := by
  have hinf := hf.normal_le_infMag
  rw [f.value_ieee hf, if_neg (by omega), if_pos h]

/-- R33: the normal numbers. -/
theorem Fmt.value_normal {f : Fmt} (hf : f.Ieee) (bits : Nat) (hlo : 2 ^ f.fb ≤ f.mag bits) (hhi : f.mag bits < f.infMag) :
    f.value bits = .fin (bits.testBit f.body) (2 ^ f.fb + f.mag bits % 2 ^ f.fb)
      (f.kmin + ((f.mag bits / 2 ^ f.fb : Nat) : Int) - 1) := by
  rw [f.value_ieee hf, if_neg (by omega), if_neg (by omega)]

/-- A subnormal value lies below the smallest normal number. -/
theorem Fmt.tiny_subnormal (f : Fmt) (m : Nat) (h0 : m ≠ 0) (h : m < 2 ^ f.fb) : f.tiny m f.kmin = true := by
  have : m.log2 < f.fb := (Nat.log2_lt h0).2 h
  simp only [Fmt.tiny, decide_eq_true_eq]
  omega

/-- A normal value does not. -/
theorem Fmt.tiny_normal (f : Fmt) (frac e : Nat) (h : frac < 2 ^ f.fb) (he : 0 < e) :
    f.tiny (2 ^ f.fb + frac) (f.kmin + (e : Int) - 1) = false := by
  have hlog : (2 ^ f.fb + frac).log2 = f.fb :=
    (Nat.log2_eq_iff (by positivity)).2 ⟨by omega, by rw [pow_succ]; omega⟩
  simp only [Fmt.tiny, hlog, decide_eq_false_iff_not]
  omega

/-- A normal pattern is not tiny. -/
theorem Fmt.tiny_normal_pattern (f : Fmt) (bits : Nat) (hlo : 2 ^ f.fb ≤ f.mag bits) :
    f.tiny (2 ^ f.fb + f.mag bits % 2 ^ f.fb) (f.kmin + ((f.mag bits / 2 ^ f.fb : Nat) : Int) - 1) = false :=
  f.tiny_normal _ _ (Nat.mod_lt _ (by positivity)) (Nat.div_pos hlo (by positivity))

/-- R99: the sign inverted and the other bits kept, but under `.ftz` the zero of the inverted sign for a subnormal. -/
theorem Fmt.negate_eq {f : Fmt} (hf : f.Ieee) (ftz : Bool) (bits : Nat) (h : bits < 2 ^ f.width) :
    f.negate ftz bits =
      if ftz = true ∧ 0 < f.mag bits ∧ f.mag bits < 2 ^ f.fb then (if bits < 2 ^ f.body then 2 ^ f.body else 0)
      else bits ^^^ 2 ^ f.body := by
  have hinf := hf.normal_le_infMag
  have hxor : Nat.xor bits (2 ^ f.body) = bits ^^^ 2 ^ f.body := rfl
  unfold Fmt.negate
  rw [hxor]
  rcases lt_trichotomy (f.mag bits) f.infMag with hlt | heq | hgt
  · by_cases hs : f.mag bits < 2 ^ f.fb
    · rw [f.value_subnormal hf bits hs, f.sign_eq bits h]
      by_cases h0 : f.mag bits = 0
      · simp [h0]
      · simp [f.tiny_subnormal _ h0 hs, h0, hs, Nat.pos_of_ne_zero h0, Fmt.signed]
    · rw [f.value_normal hf bits (not_lt.1 hs) hlt, if_neg (by omega)]
      simp only [f.tiny_normal_pattern bits (not_lt.1 hs), Bool.and_false, Bool.false_eq_true, if_false]
  · rw [f.value_inf hf bits heq, if_neg (by omega)]
  · rw [f.value_nan hf bits hgt, if_neg (by omega)]

/-- R100: the class of a pattern, the sign read from its top bit. -/
theorem Fmt.classOf_eq (f : Fmt) (ftz : Bool) (bits : Nat) :
    Claims.classOf f ftz bits =
      if f.infMag < f.mag bits then (if 2 ^ (f.fb - 1) ≤ f.mag bits - f.infMag then 9 else 8)
      else if f.mag bits = f.infMag then (if 2 ^ f.body ≤ bits then 0 else 7)
      else if f.mag bits = 0 ∨ (ftz = true ∧ f.mag bits < 2 ^ f.fb) then (if 2 ^ f.body ≤ bits then 3 else 4)
      else if f.mag bits < 2 ^ f.fb then (if 2 ^ f.body ≤ bits then 2 else 5)
      else if 2 ^ f.body ≤ bits then 1 else 6 := rfl

/-- R100: the one bit of the pattern's class. -/
theorem Fmt.classMask_eq {f : Fmt} (hf : f.Ieee) (ftz : Bool) (bits : Nat) (h : bits < 2 ^ f.width) :
    f.classMask ftz bits = 2 ^ Claims.classOf f ftz bits := by
  have hinf := hf.normal_le_infMag
  have hpos : 0 < 2 ^ f.fb := by positivity
  rw [f.classOf_eq]
  unfold Fmt.classMask Fmt.operand
  rcases lt_trichotomy (f.mag bits) f.infMag with hlt | heq | hgt
  · rw [if_neg (by omega), if_neg (by omega)]
    by_cases hs : f.mag bits < 2 ^ f.fb
    · rw [f.value_subnormal hf bits hs, f.sign_eq bits h]
      by_cases h0 : f.mag bits = 0
      · by_cases hn : 2 ^ f.body ≤ bits <;> simp [h0, hn]
      · have ht := f.tiny_subnormal _ h0 hs
        by_cases hn : 2 ^ f.body ≤ bits <;> cases ftz <;> simp [ht, h0, hs, hn]
    · have hm : 2 ^ f.fb + f.mag bits % 2 ^ f.fb ≠ 0 := by omega
      rw [f.value_normal hf bits (not_lt.1 hs) hlt, f.sign_eq bits h, if_neg (by omega), if_neg hs]
      simp only [f.tiny_normal_pattern bits (not_lt.1 hs), Bool.and_false, Bool.false_eq_true, if_false, hm]
      by_cases hn : 2 ^ f.body ≤ bits <;> simp [hn]
  · rw [f.value_inf hf bits heq, f.sign_eq bits h, if_neg (by omega), if_pos heq]
    by_cases hn : 2 ^ f.body ≤ bits <;> simp [hn]
  · rw [f.value_nan hf bits hgt, if_pos hgt]
    by_cases hq : 2 ^ (f.fb - 1) ≤ f.mag bits - f.infMag <;> simp [hq]

end Sys2Proof.Fp

end

section
/-! SUPPORT. The arithmetic instructions that signal nothing: `fneg` and `fclass` (R99, R100). -/

namespace Sys2Proof.Machine

/-- A change of lanes that leaves each lane as it is. -/
theorem Group.lane_modLanes_id (g : Group) (ls : List Nat) (f : Nat → Lane → Lane) (hf : ∀ l x, f l x = x) (m : Nat) :
    (g.modLanes ls f).lane m = g.lane m := by
  induction ls generalizing g with
  | nil => rfl
  | cons l r ih =>
    calc (g.modLanes (l :: r) f).lane m = (g.modLane l (f l)).lane m := ih _
      _ = g.lane m := by
        by_cases h : m = l
        · rw [h, Group.lane_modLane_same, hf]
        · exact Group.lane_modLane_ne g l m _ h

/-- A change of lanes leaves the other parts of the group. -/
theorem OnlyLanes.modLanes (g : Group) (ls : List Nat) (f : Nat → Lane → Lane) : OnlyLanes g (g.modLanes ls f) := by
  induction ls generalizing g with
  | nil => rfl
  | cons l r ih => exact congrArg (fun x : Group => { x with lanes := g.lanes, paths := g.paths }) (ih (g.modLane l (f l)))

/-- R38: no exception leaves the flags. -/
theorem orFlags_zero (fcsr : Word) : orFlags fcsr 0 = fcsr := by
  simp [orFlags]

/-- R40: without exceptions nothing traps. -/
theorem State.trappedUnion_zero (s : State) (ls : List Nat) : s.trappedUnion ls (fun _ => 0) = 0 := by
  simp [State.trappedUnion, trapped, List.foldl_fixed]

/-- R40: results without exceptions are written. -/
theorem State.finishArith_silent (s : State) (i : Instr) (ls : List Nat) (v : Nat → Word) :
    s.finishArith i ls (fun l => (v l, 0)) = (s.addFlags ls fun _ => 0).finish i ls v := by
  unfold State.finishArith
  simp only [s.trappedUnion_zero, ne_eq, not_true_eq_false, if_false]

/-- R38: flags to which nothing is added leave every lane, and all else outside the lanes of the group that issues. -/
theorem State.addFlags_zero (s : State) (ls : List Nat) :
    let u := s.addFlags ls fun _ => 0
    OnlySlot s u s.cid s.sid ∧ OnlyLanes s.cur u.cur ∧ (∀ l, u.cur.lane l = s.cur.lane l) ∧ u.cur.paths = s.cur.paths := by
  intro u
  have hcur : u.cur = s.cur.modLanes ls fun _ r => { r with fcsr := orFlags r.fcsr 0 } := s.cur_modCur _
  rw [hcur]
  refine ⟨OnlySlot.modCur s _, OnlyLanes.modLanes _ _ _, ?_, Group.modLanes_paths _ _ _⟩
  exact Group.lane_modLanes_id _ _ _ fun _ x => by rw [orFlags_zero]

/-- An instruction of one operand that signals nothing gives each acting lane its result and changes no flag. -/
theorem State.mapArith_silent (s : State) (i : Instr) (ls : List Nat) (ka kb kc : Word) (t : State) (f : Word → Word)
    (he : Enabled s i ls) (h : Fed s i ls ka kb kc t) :
    ∃ u, OnlySlot t u t.cid t.sid ∧ OnlyLanes t.cur u.cur ∧ (∀ l, u.cur.lane l = t.cur.lane l) ∧ u.cur.paths = t.cur.paths ∧
      s.mapArith i (fun _ a _ _ => (f a, 0)) = u.finish i ls fun l => f (t.opA i ka ls l) := by
  obtain ⟨hslot, honly, hlane, hpaths⟩ := t.addFlags_zero ls
  refine ⟨_, hslot, honly, hlane, hpaths, ?_⟩
  rw [State.mapArith_fed s i ls ka kb kc t _ he h, State.finishArith_silent]

theorem exec_fneg (o : Operands) (m : FpMod) (s : State) : exec (.fneg o m) s =
    .next (s.mapArith (.fneg o m) fun _ a _ _ => (word ((Fp.fmtOf m.t).negate m.ftz (fpat m.t a)), 0)) := rfl

theorem exec_fclass (o : Operands) (m : FpMod) (s : State) : exec (.fclass o m) s =
    .next (s.mapArith (.fclass o m) fun _ a _ _ => (word ((Fp.fmtOf m.t).classMask m.ftz (fpat m.t a)), 0)) := rfl

/-- Settles O20: the two functions by the magnitude of the pattern, the two instructions as ones that signal nothing. -/
theorem negateAndClassify : Obligations.NegateAndClassify := by
  unfold Obligations.NegateAndClassify
  refine ⟨?negate, ?classify, ?fneg, ?fclass⟩
  case negate => exact fun t ftz bits h => Fp.Fmt.negate_eq (Fp.ieee_fmtOf t) ftz bits h
  case classify => exact fun t ftz bits h => Fp.Fmt.classMask_eq (Fp.ieee_fmtOf t) ftz bits h
  case fneg =>
    intro o m s ls ka kb kc t he hf
    simp only [exec_fneg, Host.Outcome.next.injEq]
    exact State.mapArith_silent s _ ls ka kb kc t (fun a => word ((Fp.fmtOf m.t).negate m.ftz (fpat m.t a))) he hf
  case fclass =>
    intro o m s ls ka kb kc t he hf
    simp only [exec_fclass, Host.Outcome.next.injEq]
    exact State.mapArith_silent s _ ls ka kb kc t (fun a => word ((Fp.fmtOf m.t).classMask m.ftz (fpat m.t a))) he hf

end Sys2Proof.Machine
end
